-- ==== Sys2Proof/Word.lean ====
section
/-! DEFINITION. The fixed-width values of the block (00_scope.md R8): unsigned values of 8, 16 and 32 bits. -/

namespace Sys2Proof

/-- `u8` (R8). -/
abbrev Byte := BitVec 8

/-- `u16` (R8): coordinates, sizes, colours of the descriptors. -/
abbrev Half := BitVec 16

/-- `u32` (R8). -/
abbrev Word := BitVec 32

/-- A pixel: a `u16` value, 5 bits red, 6 bits green, 5 bits blue (30_encoding.md R116). -/
abbrev Pixel := BitVec 16

end Sys2Proof
end

