-- ==== Sys2Proof/Config.lean ====
section
/-! DEFINITION. What an implementation fixes (00_scope.md R5, R41) and the free values the spec leaves to the environment (R15).
The parameters are the record `Config`; the machine's state carries one (log 1), so that a statement about every state is a
statement about every configuration. The free values are constants without a body: no proof can see which value they have. -/

namespace Sys2Proof

/-- The environment's answer to `Claim`, `Tx`, `ChanAlloc` and `TxReq` (00_scope.md R15). -/
inductive Answer where
  /-- The request or transaction succeeded. -/
  | ok
  /-- It was answered `fail`. -/
  | fail
  /-- No answer ever comes (93_implementation_defined.md U9; log 6). -/
  | never
deriving DecidableEq, Repr, Inhabited

/-- What the pulse peripheral does next for a transmission it has accepted (43_led_pulse.md R220, R217; log 7). -/
inductive PeripheralMove where
  /-- It invokes the encoder with `free` free symbol slots; after the encoder has reported DONE: it plays out the train. -/
  | proceed (free : Nat)
  /-- It does nothing more, ever (U9). -/
  | stall
deriving DecidableEq, Repr, Inhabited

/-- `INIT_ERR_POLICY` (00_scope.md R5, 40_panel_init_window.md R144). -/
inductive InitErrPolicy where
  | ignore
  | propagate
deriving DecidableEq, Repr

/-- `WIRE_ORDER`: the six permutations of R, G, B (43_led_pulse.md R216). -/
inductive WireOrder where
  | rgb | rbg | grb | gbr | brg | bgr
deriving DecidableEq, Repr

/-- One entry `(cmd, data, delay)` of `INIT_SEQ` (30_encoding.md R115). -/
structure InitEntry where
  cmd : Byte
  data : List Byte
  delay : Nat
deriving DecidableEq, Repr

/-- The implementation parameters of 00_scope.md R5, under the spec's names, every row of its table a field. The rows whose value R5 marks
"normative" are fields too; `Config.valid` demands that value of them (92_eei_decisions.md section 2; log 1). -/
structure Config where
  /-- `PANEL_W`. -/
  panelW : Nat
  /-- `PANEL_H`. -/
  panelH : Nat
  /-- `SAFE_X`. -/
  safeX : Nat
  /-- `SAFE_Y`. -/
  safeY : Nat
  /-- `SAFE_W`. -/
  safeW : Nat
  /-- `SAFE_H`. -/
  safeH : Nat
  /-- `COL_OFFSET`. -/
  colOffset : Nat
  /-- `ROW_OFFSET`. -/
  rowOffset : Nat
  /-- `GLYPH_W`, normative 8. -/
  glyphW : Nat
  /-- `GLYPH_H`, normative 8. -/
  glyphH : Nat
  /-- `FONT_FIRST`, normative 0x20. -/
  fontFirst : Nat
  /-- `FONT_LAST`, normative 0x7A. -/
  fontLast : Nat
  /-- `FONT`, laid out flat: the byte address of row `row` of glyph `idx` is `idx * 8 + row`, `GLYPH_H` being 8 (20_memory.md R61). -/
  font : List Byte
  /-- `LINE_GAP`, normative 2. -/
  lineGap : Nat
  /-- `CHUNK_PIXELS`. -/
  chunkPixels : Nat
  /-- `FMT_BUF`. -/
  fmtBuf : Nat
  /-- `RESET_LOW_UNITS`. -/
  resetLowUnits : Nat
  /-- `RESET_WAIT_UNITS`. -/
  resetWaitUnits : Nat
  /-- `CMD_SWRESET`, "software reset" (R114). -/
  cmdSwreset : Byte
  /-- `CMD_SLPOUT`, "sleep-out". -/
  cmdSlpout : Byte
  /-- `CMD_COLMOD`, "pixel-format select". -/
  cmdColmod : Byte
  /-- `CMD_MADCTL`, "memory-access-control/orientation". -/
  cmdMadctl : Byte
  /-- `CMD_INVON`, "color inversion". -/
  cmdInvon : Byte
  /-- `CMD_DISPON`, "display-on". -/
  cmdDispon : Byte
  /-- `CMD_CASET`, "column-address-set". -/
  cmdCaset : Byte
  /-- `CMD_RASET`, "row-address-set". -/
  cmdRaset : Byte
  /-- `CMD_RAMWR`, "memory-write". -/
  cmdRamwr : Byte
  /-- `INIT_SEQ`. -/
  initSeq : List InitEntry
  /-- `INIT_ERR_POLICY`. -/
  initErrPolicy : InitErrPolicy
  /-- `T0H_NS`. -/
  t0hNs : Nat
  /-- `T0L_NS`. -/
  t0lNs : Nat
  /-- `T1H_NS`. -/
  t1hNs : Nat
  /-- `T1L_NS`. -/
  t1lNs : Nat
  /-- `TRESET_NS`. -/
  tresetNs : Nat
  /-- `RES_HZ`. -/
  resHz : Nat
  /-- `WIRE_ORDER`. -/
  wireOrder : WireOrder
  /-- `SYMBUF`. -/
  symbuf : Nat
deriving DecidableEq, Repr

/-- The panel-side environment's n-th answer beyond its script: a free value (R15; log 5). -/
opaque Config.panelAnswer : Nat → Answer

/-- The pulse-side environment's n-th answer beyond its script: a free value (R15; log 5). -/
opaque Config.pulseAnswer : Nat → Answer

/-- The pulse peripheral's n-th move beyond its script: a free value (R220; log 5, log 7). -/
opaque Config.pulseMove : Nat → PeripheralMove

end Sys2Proof
end

