-- ==== Sys2Proof/Machine/Params.lean ====
section
/-! DEFINITION. The constraints on a configuration (00_scope.md R5, R6), the group order of `INIT_SEQ` (40_panel_init_window.md R143) and the reference configuration `CFG_REF` (00_scope.md R5, R143) with the test
font of 95_test_vectors.md section 0. -/

namespace Sys2Proof

/-- The rows of R5 whose value the source fixes ("normative"; 92_eei_decisions.md section 2, "Fixed by the source and not open"; log 1), and
the shape of the font table, `FONT_LAST - FONT_FIRST + 1` glyphs of `GLYPH_H` bytes (10_state.md R38, 20_memory.md R61). -/
def Config.fixedBySource (c : Config) : Bool :=
  decide (c.glyphW = 8) && decide (c.glyphH = 8) && decide (c.fontFirst = 0x20) && decide (c.fontLast = 0x7A) && decide (c.lineGap = 2) &&
  decide (c.font.length = (c.fontLast - c.fontFirst + 1) * c.glyphH)

/-- The constraints of R6, and what the source fixes (`Config.fixedBySource`): a configuration that breaks one is refused before any
operation. R7: the tick counts are no constraint here; LED_INIT checks them. -/
def Config.valid (c : Config) : Bool :=
  decide (c.safeX + c.safeW ≤ c.panelW) && decide (c.safeY + c.safeH ≤ c.panelH) &&
  decide (1 ≤ c.panelW) && decide (1 ≤ c.panelH) &&
  decide (c.panelW + c.colOffset ≤ 65536) && decide (c.panelH + c.rowOffset ≤ 65536) &&
  decide (c.safeW ≤ 65535) && decide (c.safeH ≤ 65535) &&
  decide (c.cmdCaset ≠ c.cmdRaset) && decide (c.cmdCaset ≠ c.cmdRamwr) && decide (c.cmdRaset ≠ c.cmdRamwr) &&
  c.initSeq.all (fun e => decide (e.cmd ≠ c.cmdCaset) && decide (e.cmd ≠ c.cmdRaset) && decide (e.cmd ≠ c.cmdRamwr)) &&
  decide (1 ≤ c.chunkPixels) && decide (1 ≤ c.fmtBuf) && decide (1 ≤ c.symbuf) &&
  decide (100 ≤ c.resetLowUnits) && decide (100 ≤ c.resetWaitUnits) &&
  c.fixedBySource

/-- A configuration "that claims to describe this hardware has its entries in the source's group order" (R143): software reset,
sleep-out, pixel format, orientation, then the timing registers and gamma tables, then colour inversion and display-on. DESIGN CHOICE
(log 26): how many entries the timing and gamma groups have, and with which commands, is not in the source (91_not_in_source.md N6), so
any number of entries, none included, and any commands, those of the six named groups included, may stand between orientation and colour
inversion. No operation reads this predicate. -/
def Config.followsGroupOrder (c : Config) : Bool :=
  let cmds := c.initSeq.map InitEntry.cmd
  decide (6 ≤ cmds.length) &&
  decide (cmds.take 4 = [c.cmdSwreset, c.cmdSlpout, c.cmdColmod, c.cmdMadctl]) &&
  decide (cmds.drop (cmds.length - 2) = [c.cmdInvon, c.cmdDispon])

/-- The test font of 95_test_vectors.md section 0: space (index 0), `!` (1) and `A` (33); every other glyph all zero (log 2). -/
def testFont : List Byte :=
  [0x00, 0x00, 0x00, 0x00, 0x00, 0x00, 0x00, 0x00] ++
  [0x18, 0x3C, 0x3C, 0x18, 0x18, 0x00, 0x18, 0x00] ++
  List.replicate (31 * 8) 0 ++
  [0x0C, 0x1E, 0x33, 0x33, 0x3F, 0x33, 0x33, 0x00] ++
  List.replicate (57 * 8) 0

/-- The eight entries of `INIT_SEQ` in `CFG_REF` (R143). -/
def refInitSeq : List InitEntry :=
  [ { cmd := 0x01, data := [], delay := 150 },
    { cmd := 0x11, data := [], delay := 120 },
    { cmd := 0x3A, data := [0x55], delay := 0 },
    { cmd := 0x36, data := [0x00], delay := 0 },
    { cmd := 0xB2, data := [0x0C, 0x0C, 0x00, 0x33, 0x33], delay := 0 },
    { cmd := 0xE0,
      data := [0x00, 0x01, 0x02, 0x03, 0x04, 0x05, 0x06, 0x07, 0x08, 0x09, 0x0A, 0x0B, 0x0C, 0x0D],
      delay := 0 },
    { cmd := 0x21, data := [], delay := 0 },
    { cmd := 0x29, data := [], delay := 0 } ]

/-- `CFG_REF` (R5): the reference values of the spec's test vectors, and no more than that (log 1, log 2). -/
def cfgRef : Config :=
  { panelW := 172, panelH := 320, safeX := 6, safeY := 10, safeW := 160, safeH := 300,
    colOffset := 34, rowOffset := 0, glyphW := 8, glyphH := 8, fontFirst := 0x20, fontLast := 0x7A,
    font := testFont, lineGap := 2, chunkPixels := 1024, fmtBuf := 128,
    resetLowUnits := 100, resetWaitUnits := 100,
    cmdSwreset := 0x01, cmdSlpout := 0x11, cmdColmod := 0x3A, cmdMadctl := 0x36, cmdInvon := 0x21, cmdDispon := 0x29,
    cmdCaset := 0x2A, cmdRaset := 0x2B, cmdRamwr := 0x2C,
    initSeq := refInitSeq, initErrPolicy := .ignore,
    t0hNs := 300, t0lNs := 900, t1hNs := 900, t1lNs := 300, tresetNs := 50000, resHz := 10000000,
    wireOrder := .grb, symbuf := 48 }

end Sys2Proof
end

