-- ==== Sys2Proof/Machine/State.lean ====
section
/-! DEFINITION. The state of the machine as plain data (10_state.md; 20_memory.md sections 7, 9 and 10 for what lies outside the block),
its value after reset (10_state.md R42, 70_reset_and_hazards.md R311, R312), and the reasons for which a step stops. -/

namespace Sys2Proof.Machine

/-- The status codes of 60_exceptions.md R270, by name; `statusCode` gives the number each register holds. -/
inductive Status where
  | ok
  | notInitialized
  | invalidBounds
  | peripheralError
  | transmitError
  | configurationError
  | illegalCommand
deriving DecidableEq, Repr

/-- A logic level of a line: 0 is low, 1 is high (00_scope.md R12, R13). -/
inductive Level where
  | low
  | high
deriving DecidableEq, Repr

/-- The level of the data/command select line during a transaction: 0 command, 1 data (30_encoding.md R113). -/
inductive DcLine where
  | command
  | data
deriving DecidableEq, Repr

/-- The events of the panel trace (20_memory.md R76). -/
inductive PanelEvent where
  /-- `Claim(ans)`. -/
  | claim (ans : Answer)
  /-- `PinOut(DC)`. -/
  | pinOutDc
  /-- `Rst(level)`. -/
  | rst (level : Level)
  /-- `Delay(n)`. -/
  | delay (n : Nat)
  /-- `Tx(dc, bytes, ans)`. -/
  | tx (dc : DcLine) (bytes : List Byte) (ans : Answer)
  /-- `Log(cmd)`. -/
  | log (cmd : Byte)
deriving DecidableEq, Repr

/-- The events of the LED trace (20_memory.md R88). -/
inductive LedEvent where
  /-- `PinOutLow(pin)`. -/
  | pinOutLow (pin : Byte)
  /-- `ChanAlloc(hz, ans)`. -/
  | chanAlloc (hz : Nat) (ans : Answer)
  /-- `ChanEnable`. -/
  | chanEnable
  /-- `TxReq(bytes, ans)`. -/
  | txReq (bytes : List Byte) (ans : Answer)
  /-- `Pulse(level, ticks)`. -/
  | pulse (level : Level) (ticks : Nat)
  /-- `ChanRelease`. -/
  | chanRelease
deriving DecidableEq, Repr

/-- Three 8-bit colour components. -/
structure Rgb where
  r : Byte
  g : Byte
  b : Byte
deriving DecidableEq, Repr

/-- The operand latches `op.*` of one unit (10_state.md R21; log 9). -/
structure Latches where
  x : Half
  y : Half
  w : Half
  h : Half
  x0 : Half
  y0 : Half
  x1 : Half
  y1 : Half
  color : Half
  fg : Half
  bg : Half
  len : Half
  hue : Half
  ch : Byte
  scale : Byte
  flags : Byte
  r : Byte
  g : Byte
  b : Byte
  sat : Byte
  val : Byte
  pin : Byte
  chan : Byte
  pinDc : Byte
  pinRst : Byte
  pinCs : Byte
  pinSclk : Byte
  pinMosi : Byte
  busHz : Word
  text : List Byte
deriving DecidableEq, Repr

/-- The latches before any operation has been issued to the unit (log 9). -/
def Latches.zero : Latches :=
  { x := 0, y := 0, w := 0, h := 0, x0 := 0, y0 := 0, x1 := 0, y1 := 0, color := 0, fg := 0, bg := 0, len := 0, hue := 0,
    ch := 0, scale := 0, flags := 0, r := 0, g := 0, b := 0, sat := 0, val := 0, pin := 0, chan := 0,
    pinDc := 0, pinRst := 0, pinCs := 0, pinSclk := 0, pinMosi := 0, busHz := 0, text := [] }

/-- The Text Layout State (10_state.md R36). -/
structure TextLayout where
  curX : Nat
  curY : Nat
  maxX : Nat
  lines : Nat
  startY : Nat
deriving DecidableEq, Repr

/-- The state that exists only while a panel operation runs: layout, loop positions and buffers (10_state.md R22, R36, R37; log 10). -/
structure Transient where
  layout : TextLayout
  /-- The character index `i` into `op.text` (R22). -/
  charIdx : Nat
  /-- The remaining-pixel count of a fill (R22). -/
  fillRem : Nat
  chunkBuf : List Byte
  glyphBuf : List Byte
  fmtBuf : List Byte
deriving DecidableEq, Repr

/-- What stands there when no operation runs (log 10). -/
def Transient.clear : Transient :=
  { layout := { curX := 0, curY := 0, maxX := 0, lines := 0, startY := 0 },
    charIdx := 0, fillRem := 0, chunkBuf := [], glyphBuf := [], fmtBuf := [] }

/-- `S.pe_cfg` (10_state.md R28). -/
structure PanelPins where
  pinDc : Byte
  pinRst : Byte
  pinCs : Byte
  pinSclk : Byte
  pinMosi : Byte
  busHz : Word
deriving DecidableEq, Repr

/-- The known bytes of the panel pixel memory: (address, byte) cells, addresses strictly rising (log 13). -/
abbrev Memory := List Host.Cell

/-- `P.mode` (20_memory.md R80). -/
inductive SinkMode where
  | idle
  | col
  | row
  | write
deriving DecidableEq, Repr

/-- The panel sink (20_memory.md R80, R85): what the panel makes of the trace. -/
structure PanelSink where
  /-- `P.dead`: a transaction has failed; every later event is ignored (R85). -/
  dead : Bool
  /-- `P.sync`: the window state is known. -/
  sync : Bool
  /-- `P.mode`. -/
  mode : SinkMode
  /-- `P.have_col`. -/
  haveCol : Bool
  /-- `P.have_row`. -/
  haveRow : Bool
  /-- `P.xs`, controller coordinates, inclusive. -/
  xs : Half
  /-- `P.xe`. -/
  xe : Half
  /-- `P.ys`. -/
  ys : Half
  /-- `P.ye`. -/
  ye : Half
  /-- `P.k`: pixels written in the current window. -/
  k : Nat
  /-- `P.mem`: the known bytes of the pixel memory, addresses strictly rising (log 13). -/
  mem : Memory
deriving DecidableEq, Repr

/-- The panel sink after power-on (R80; log 12). -/
def PanelSink.unknown : PanelSink :=
  { dead := false, sync := false, mode := .idle, haveCol := false, haveRow := false,
    xs := 0, xe := 0, ys := 0, ye := 0, k := 0, mem := [] }

/-- The panel-side environment (00_scope.md R17): its answers, the lines it sees, and the panel. -/
structure PanelSide where
  /-- The next answers to `Claim` and `Tx` (R15; log 5). -/
  answers : List Answer
  /-- Free answers taken after the script was used up (log 5). -/
  drawn : Nat
  /-- The data/command select line; `none` is unknown (70_reset_and_hazards.md R312). -/
  dcLine : Option DcLine
  /-- The controller reset line; `none` is unknown (R312). -/
  rstLine : Option Level
  sink : PanelSink
deriving DecidableEq, Repr

/-- The Panel Engine (10_state.md R20, R21, R23, R26 to R29, R36, R37, R39) and the environment on its side. -/
structure PanelUnit where
  /-- `S.pe_init`. -/
  init : Bool
  /-- `S.pe_status`. -/
  status : Status
  /-- `S.pe_setup_errs`. -/
  setupErrs : BitVec 16
  /-- `S.pe_cfg`. -/
  pins : PanelPins
  /-- `S.bounds_max_x`. -/
  boundsMaxX : BitVec 16
  /-- `S.bounds_height`. -/
  boundsHeight : BitVec 16
  /-- `S.bounds_lines`. -/
  boundsLines : BitVec 16
  /-- The operand latches. -/
  op : Latches
  /-- The state of a running operation. -/
  work : Transient
  /-- An operation issued to this engine has not ended (70_reset_and_hazards.md R320, U9; log 6). -/
  inFlight : Bool
  /-- `S.pe_trace`, oldest event first. -/
  trace : List PanelEvent
  /-- Outside the block. -/
  env : PanelSide
deriving DecidableEq, Repr

/-- `S.le_cfg` (10_state.md R30). -/
structure LedPins where
  pin : Byte
  chan : Byte
deriving DecidableEq, Repr

/-- `S.le_ticks`, the source's Pulse Timing Table (10_state.md R31): naturals without an upper limit. -/
structure PulseTable where
  t0h : Nat
  t0l : Nat
  t1h : Nat
  t1l : Nat
  treset : Nat
deriving DecidableEq, Repr

/-- `S.enc_phase` (10_state.md R33): the source's `SendingColorBytes` and `SendingResetPulse`. -/
inductive EncPhase where
  | color
  | reset
deriving DecidableEq, Repr

/-- `S.enc_bytes` (10_state.md R33): the bytes of the current transmission in wire order. -/
structure WireBytes where
  b0 : Byte
  b1 : Byte
  b2 : Byte
deriving DecidableEq, Repr

/-- The pulse-side environment (00_scope.md R17): its answers and moves, the data line, and the LED. -/
structure LedSide where
  /-- The next answers to `ChanAlloc` and `TxReq` (R15; log 5). -/
  answers : List Answer
  /-- What the pulse peripheral does next for an accepted transmission (43_led_pulse.md R220; log 5, log 7). -/
  moves : List PeripheralMove
  /-- Free answers taken after the script was used up (log 5). -/
  drawnAnswers : Nat
  /-- Free moves taken after the script was used up (log 5). -/
  drawnMoves : Nat
  /-- The LED data pin; `none` is not driven by the block (R312). -/
  line : Option Level
  /-- The wire order of the LED that is wired (20_memory.md R90; log 16). -/
  wired : WireOrder
  /-- `L.shown` (20_memory.md R90); `none` is unknown. -/
  shown : Option Rgb
deriving DecidableEq, Repr

/-- The LED Engine (10_state.md R20, R21, R24, R26, R30 to R34, R39) and the environment on its side. -/
structure LedUnit where
  /-- `S.le_init`. -/
  init : Bool
  /-- `S.le_status`. -/
  status : Status
  /-- `S.le_cfg`. -/
  pins : LedPins
  /-- `S.le_ticks`. -/
  ticks : PulseTable
  /-- `S.le_color`. -/
  color : Rgb
  /-- `S.le_color_valid`. -/
  colorValid : Bool
  /-- `S.enc_phase`. -/
  encPhase : EncPhase
  /-- `S.enc_bitpos`, 0 to 24. -/
  encBitpos : Nat
  /-- `S.enc_bytes`. -/
  encBytes : WireBytes
  /-- `S.le_busy`. -/
  busy : Bool
  /-- The operand latches. -/
  op : Latches
  /-- An operation issued to this engine has not ended (R320, U9; log 6). -/
  inFlight : Bool
  /-- `S.le_trace`, oldest event first. -/
  trace : List LedEvent
  /-- Outside the block. -/
  env : LedSide
deriving DecidableEq, Repr

/-- The Colour Utility's result latch and status (10_state.md R26, R35). -/
structure ColourUnit where
  /-- `S.cu_status`. -/
  status : Status
  /-- `S.cu_result`. -/
  result : BitVec 24
  /-- The operand latches. -/
  op : Latches
deriving DecidableEq, Repr

/-- The whole machine (10_state.md R20, R40): the block's three units with what lies outside them, its parameters, and the descriptors the
host has handed over. -/
structure State where
  /-- The parameters (00_scope.md R5, R41), fixed for the life of a model: no step changes them (log 1). -/
  cfg : Config
  /-- Panel Engine and panel. -/
  pu : PanelUnit
  /-- LED Engine and LED. -/
  lu : LedUnit
  /-- Colour Utility. -/
  cu : ColourUnit
  /-- Descriptors issued by the host and not yet taken by a unit, oldest first (30_encoding.md R101; log 4). -/
  pending : List (List Byte)
deriving DecidableEq, Repr

/-- Why the machine stops with a fault. Not raised in any run from reset. -/
inductive Fault where
  /-- SEND waits for `S.le_busy` to become 0 and no operation is in flight that could clear it ("no timeout", 43_led_pulse.md R215). Raised by
  SET_COLOR, SET_HSV, TURN_OFF and LED_DEINIT, in states no run reaches. Safe: the machine stops where the hardware waits for ever (log 8). -/
  | ledWaitsForever
deriving DecidableEq, Repr

/-- Why an operation is given no meaning. Each constructor but the first is the spec's own "refuse", so stopping is what the spec asks of a
model; all of them are safe. -/
inductive Refusal where
  /-- An operation without a meaning yet: raised in exec's arms only. Safe. -/
  | notModelled (mnemonic : String)
  /-- The configuration breaks a constraint of 00_scope.md R6 or has another value where R5 fixes one (log 1): raised before any operation. Safe. -/
  | invalidConfiguration
  /-- PANEL_INIT with `S.pe_init = 1` (93_implementation_defined.md U1): raised by PANEL_INIT. Safe. -/
  | panelAlreadyInitialized
  /-- FILL with width or height 0 (U2): raised by FILL. Safe. -/
  | emptyRectangle
  /-- A glyph or text operation with `scale = 0` (U3): raised by DRAW_GLYPH, DRAW_STRING, DRAW_WRAPPED, DRAW_FORMATTED. Safe. -/
  | zeroScale
  /-- LED_INIT with `S.le_init = 1` (U4): raised by LED_INIT. Safe. -/
  | ledAlreadyInitialized
  /-- An operation issued to the Panel Engine while one is in flight (U5): raised by every panel operation. Safe. -/
  | panelBusy
  /-- An operation issued to the LED Engine while one is in flight (U5): raised by every LED operation. Safe. -/
  | ledBusy
deriving DecidableEq, Repr

/-- The Panel Engine and its environment after reset (R42, R80, R312; log 5, log 9 to log 12). -/
def PanelUnit.reset : PanelUnit :=
  { init := false, status := .ok, setupErrs := 0,
    pins := { pinDc := 0, pinRst := 0, pinCs := 0, pinSclk := 0, pinMosi := 0, busHz := 0 },
    boundsMaxX := 0, boundsHeight := 0, boundsLines := 0,
    op := .zero, work := .clear, inFlight := false, trace := [],
    env := { answers := [], drawn := 0, dcLine := none, rstLine := none, sink := .unknown } }

/-- The LED Engine and its environment after reset (R42, R90, R312; log 5, log 9, log 11, log 16). -/
def LedUnit.reset (wired : WireOrder) : LedUnit :=
  { init := false, status := .ok, pins := { pin := 0, chan := 0 },
    ticks := { t0h := 0, t0l := 0, t1h := 0, t1l := 0, treset := 0 },
    color := { r := 0, g := 0, b := 0 }, colorValid := false,
    encPhase := .color, encBitpos := 0, encBytes := { b0 := 0, b1 := 0, b2 := 0 }, busy := false,
    op := .zero, inFlight := false, trace := [],
    env := { answers := [], moves := [], drawnAnswers := 0, drawnMoves := 0, line := none, wired := wired, shown := none } }

/-- The Colour Utility after reset (R42; log 9, log 11). -/
def ColourUnit.reset : ColourUnit := { status := .ok, result := 0, op := .zero }

/-- The machine after power-on, for any configuration (R42, R311, R312). -/
def State.resetOf (c : Config) : State :=
  { cfg := c, pu := .reset, lu := .reset c.wireOrder, cu := .reset, pending := [] }

/-- The machine after power-on with the reference configuration (log 1). -/
def State.reset : State := .resetOf cfgRef

end Sys2Proof.Machine
end

