-- ==== Sys2Proof/Machine/Flags.lean ====
section
/-! DEFINITION. The block has no arithmetic condition codes (10_state.md R25). What an operation sets is a status code in the register of
its unit: the codes (60_exceptions.md R270), the unit an opcode's high nibble names (30_encoding.md R110), and the host's reading of the
registers (10_state.md R43, 45_arithmetic_and_sequencing.md R259). -/

namespace Sys2Proof.Machine

/-- The code of a status (R270), as its 8-bit register holds it (10_state.md R26). -/
def statusCode : Status → Byte
  | .ok => 0
  | .notInitialized => 1
  | .invalidBounds => 2
  | .peripheralError => 3
  | .transmitError => 4
  | .configurationError => 5
  | .illegalCommand => 6

/-- A unit of the block (30_encoding.md R100). -/
inductive BlockUnit where
  | panel
  | led
  | utility
deriving DecidableEq, Repr

/-- The unit whose status register takes `IllegalCommand`: the one the opcode's high nibble names, 1 the Panel Engine, 2 the LED Engine,
anything else, or an empty descriptor, the Colour Utility (R110). -/
def unitOfDescriptor : List Byte → BlockUnit
  | [] => .utility
  | op :: _ =>
    if op.toNat / 16 = 1 then .panel
    else if op.toNat / 16 = 2 then .led
    else .utility

/-- A status code written to the register of a unit (10_state.md R26). -/
def State.setStatus (s : State) (u : BlockUnit) (st : Status) : State :=
  match u with
  | .panel => { s with pu := { s.pu with status := st } }
  | .led => { s with lu := { s.lu with status := st } }
  | .utility => { s with cu := { s.cu with status := st } }

/-- The registers the host can read (10_state.md R43), each field of `S.pe_cfg` and `S.le_cfg` by its own name. -/
inductive HostReg where
  | peStatus | leStatus | cuStatus
  | peSetupErrs
  | peCfgPinDc | peCfgPinRst | peCfgPinCs | peCfgPinSclk | peCfgPinMosi | peCfgBusHz
  | leCfgPin | leCfgChan
  | boundsMaxX | boundsHeight | boundsLines
  | cuResult
  | peInit | leInit
deriving DecidableEq, Repr

/-- The host's read of a register: direct, without side effect, never failing (R259). The value is the register's content as a number. -/
def State.hostRead (s : State) : HostReg → Nat
  | .peStatus => (statusCode s.pu.status).toNat
  | .leStatus => (statusCode s.lu.status).toNat
  | .cuStatus => (statusCode s.cu.status).toNat
  | .peSetupErrs => s.pu.setupErrs.toNat
  | .peCfgPinDc => s.pu.pins.pinDc.toNat
  | .peCfgPinRst => s.pu.pins.pinRst.toNat
  | .peCfgPinCs => s.pu.pins.pinCs.toNat
  | .peCfgPinSclk => s.pu.pins.pinSclk.toNat
  | .peCfgPinMosi => s.pu.pins.pinMosi.toNat
  | .peCfgBusHz => s.pu.pins.busHz.toNat
  | .leCfgPin => s.lu.pins.pin.toNat
  | .leCfgChan => s.lu.pins.chan.toNat
  | .boundsMaxX => s.pu.boundsMaxX.toNat
  | .boundsHeight => s.pu.boundsHeight.toNat
  | .boundsLines => s.pu.boundsLines.toNat
  | .cuResult => s.cu.result.toNat
  | .peInit => s.pu.init.toNat
  | .leInit => s.lu.init.toNat

end Sys2Proof.Machine
end

