-- ==== Sys2Proof/Machine/Bytes.lean ====
section
/-! DEFINITION. Byte sequences (00_scope.md R9): the high and low byte of a 16-bit value and the big-endian order that both the
descriptors (30_encoding.md R101) and the panel wire (20_memory.md R66, R67) use. -/

namespace Sys2Proof

/-- `hi8(v) = v[15:8]` (R9). -/
def hi8 (v : Half) : Byte := v.extractLsb' 8 8

/-- `lo8(v) = v[7:0]` (R9). -/
def lo8 (v : Half) : Byte := v.extractLsb' 0 8

/-- `be16(v) = [hi8(v), lo8(v)]`: most significant byte first (R9). -/
def be16 (v : Half) : List Byte := [hi8 v, lo8 v]

/-- The 16-bit value whose big-endian bytes are `hi`, `lo` (R101). -/
def ofBe16 (hi lo : Byte) : Half := hi ++ lo

/-- The four bytes of a 32-bit field, most significant first (R101). -/
def be32 (v : Word) : List Byte :=
  [v.extractLsb' 24 8, v.extractLsb' 16 8, v.extractLsb' 8 8, v.extractLsb' 0 8]

/-- The 32-bit value whose big-endian bytes are `b3` to `b0` (R101). -/
def ofBe32 (b3 b2 b1 b0 : Byte) : Word := (b3 ++ b2 : BitVec 16) ++ (b1 ++ b0 : BitVec 16)

end Sys2Proof
end

