-- ==== Sys2Proof/Machine/Operands.lean ====
section
/-! DEFINITION. The pure functions of the operand forms: bounds tests and coordinate translation (20_memory.md R75,
45_arithmetic_and_sequencing.md R264), the font and text reads (R269), the pixel and coordinate forms of the panel wire
(30_encoding.md R112 to R118), the tick conversion (R121), the wire order (43_led_pulse.md R216, R221), and the colour functions
(44_color_utility.md). Everything is computed on naturals, without wrap-around (R260). -/

namespace Sys2Proof.Machine

/-! ### Bounds and translation -/

/-- The rectangle with origin `(x, y)` and size `(w, h)` lies inside the full panel (R75, 41_panel_fill_pixel.md R160). -/
def insidePanel (cfg : Config) (x y w h : Nat) : Bool := decide (x + w ≤ cfg.panelW) && decide (y + h ≤ cfg.panelH)

/-- The test of SET_WINDOW on its two inclusive corners (40_panel_init_window.md R151). -/
def windowInside (cfg : Config) (x0 y0 x1 y1 : Nat) : Bool :=
  decide (x0 ≤ x1) && decide (x1 < cfg.panelW) && decide (y0 ≤ y1) && decide (y1 < cfg.panelH)

/-- The four data bytes of a coordinate pair: start and inclusive end, each with the offset added, big-endian (30_encoding.md R112). -/
def coordPair (a b o : Nat) : List Byte := be16 (BitVec.ofNat 16 (a + o)) ++ be16 (BitVec.ofNat 16 (b + o))

/-! ### Font and text -/

/-- `GlyphIndex(ch)` (20_memory.md R62): a character outside the font's range selects glyph 0, the glyph of space. -/
def glyphIndex (cfg : Config) (ch : Byte) : Nat :=
  if cfg.fontFirst ≤ ch.toNat ∧ ch.toNat ≤ cfg.fontLast then ch.toNat - cfg.fontFirst else 0

/-- `FontRead(idx, row)` (20_memory.md R61). A valid configuration's table covers every index and row that is read. -/
def fontRead (cfg : Config) (idx row : Nat) : Byte := cfg.font.getD (idx * cfg.glyphH + row) 0

/-- `GlyphPixel(idx, s, px, py, fg, bg)` (30_encoding.md R118): bit `px / s` of row `py / s`, bit 0 the leftmost column (20_memory.md R68). -/
def glyphPixel (cfg : Config) (idx s px py : Nat) (fg bg : Pixel) : Pixel :=
  if (fontRead cfg idx (py / s)).getLsbD (px / s) then fg else bg

/-- The width of a scaled glyph in pixels, `GLYPH_W * s`: the `gw = 8 * s` of 42_panel_text.md R175. -/
def glyphWidth (cfg : Config) (s : Nat) : Nat := cfg.glyphW * s

/-- The height of a scaled glyph in pixels, `GLYPH_H * s`. The cell is square (R175), so the rules write `gw` for it too. -/
def glyphHeight (cfg : Config) (s : Nat) : Nat := cfg.glyphH * s

/-- The vertical advance from one line to the next, `lh = 8 * s + LINE_GAP` (R175). -/
def lineHeight (cfg : Config) (s : Nat) : Nat := glyphHeight cfg s + cfg.lineGap

/-- The pixels of a scaled glyph in row-major order, top row first (42_panel_text.md R177). -/
def glyphPixels (cfg : Config) (idx s : Nat) (fg bg : Pixel) : List Pixel :=
  (List.range (glyphHeight cfg s)).flatMap fun py =>
    (List.range (glyphWidth cfg s)).map fun px => glyphPixel cfg idx s px py fg bg

/-- A pixel stream on the wire, each pixel high byte first (30_encoding.md R117, 20_memory.md R67). -/
def pixelBytes (ps : List Pixel) : List Byte := ps.flatMap be16

/-- The characters of a text operand before its first 0x00 byte, or all of them: its first `TextEnd(text)` bytes (20_memory.md R63). -/
def textChars (text : List Byte) : List Byte := text.takeWhile (fun c => decide (c ≠ 0))

/-- `TextEnd(text)` (20_memory.md R63). -/
def textEnd (text : List Byte) : Nat := (textChars text).length

/-- The text DRAW_FORMATTED lays out: the first `min(TextEnd(text), FMT_BUF - 1)` bytes (42_panel_text.md R200, R201). -/
def formattedChars (cfg : Config) (text : List Byte) : List Byte := text.take (min (textEnd text) (cfg.fmtBuf - 1))

/-- The code of a line break in the wrapped operations (30_encoding.md R123). -/
abbrev newlineChar : Byte := 0x0A

/-! ### Pulses -/

/-- `Ticks(ns)` (30_encoding.md R121): round to nearest, an exact half rounded up, the product exact. -/
def ticksOf (cfg : Config) (ns : Nat) : Nat := (ns * cfg.resHz + 500000000) / 1000000000

/-- The five tick counts LED_INIT computes (43_led_pulse.md R211, R212). -/
def pulseTable (cfg : Config) : PulseTable :=
  { t0h := ticksOf cfg cfg.t0hNs, t0l := ticksOf cfg cfg.t0lNs, t1h := ticksOf cfg cfg.t1hNs, t1l := ticksOf cfg cfg.t1lNs,
    treset := ticksOf cfg cfg.tresetNs }

/-- Any of the five components is 0 (R212). -/
def PulseTable.hasZero (t : PulseTable) : Bool :=
  decide (t.t0h = 0) || decide (t.t0l = 0) || decide (t.t1h = 0) || decide (t.t1l = 0) || decide (t.treset = 0)

/-- `WireBytes(r, g, b)` (43_led_pulse.md R216). -/
def wireBytes (o : WireOrder) (c : Rgb) : WireBytes :=
  match o with
  | .rgb => { b0 := c.r, b1 := c.g, b2 := c.b }
  | .rbg => { b0 := c.r, b1 := c.b, b2 := c.g }
  | .grb => { b0 := c.g, b1 := c.r, b2 := c.b }
  | .gbr => { b0 := c.g, b1 := c.b, b2 := c.r }
  | .brg => { b0 := c.b, b1 := c.r, b2 := c.g }
  | .bgr => { b0 := c.b, b1 := c.g, b2 := c.r }

/-- The triple a LED of wire order `o` takes from three bytes: `WireBytes` undone (20_memory.md R90). -/
def unwireBytes (o : WireOrder) (w : WireBytes) : Rgb :=
  match o with
  | .rgb => { r := w.b0, g := w.b1, b := w.b2 }
  | .rbg => { r := w.b0, g := w.b2, b := w.b1 }
  | .grb => { r := w.b1, g := w.b0, b := w.b2 }
  | .gbr => { r := w.b2, g := w.b0, b := w.b1 }
  | .brg => { r := w.b1, g := w.b2, b := w.b0 }
  | .bgr => { r := w.b2, g := w.b1, b := w.b0 }

/-- The three bytes of a transmission, in wire order. -/
def WireBytes.toList (w : WireBytes) : List Byte := [w.b0, w.b1, w.b2]

/-- `BitAt(bytes, k)`: bit `7 - (k % 8)` of byte `k / 8` (43_led_pulse.md R221). -/
def bitAt (w : WireBytes) (k : Nat) : Bool := (w.toList.getD (k / 8) 0).getLsbD (7 - k % 8)

/-- `SYMBOL(bit)`: a high pulse and then a low pulse (43_led_pulse.md R222, 30_encoding.md R119). -/
def symbolPulses (t : PulseTable) (bit : Bool) : List LedEvent :=
  if bit then [.pulse .high t.t1h, .pulse .low t.t1l] else [.pulse .high t.t0h, .pulse .low t.t0l]

/-- The terminating reset interval: one low pulse (30_encoding.md R119). -/
def resetPulse (t : PulseTable) : LedEvent := .pulse .low t.treset

/-! ### Colour -/

/-- `Pack565(r, g, b)` (44_color_utility.md R252): the low bits of each channel are dropped. -/
def packRgb565 (c : Rgb) : Pixel :=
  BitVec.ofNat 16 ((c.r.toNat >>> 3) <<< 11 + (c.g.toNat >>> 2) <<< 5 + c.b.toNat >>> 3)

/-- `HsvCore(h8, s8, v8)` (44_color_utility.md R256), on naturals; every component is at most 255. -/
def hsvCore (h8 s8 v8 : Nat) : Nat × Nat × Nat :=
  if s8 = 0 then (v8, v8, v8)
  else
    let region := h8 / 43
    let rem := (h8 - region * 43) * 6
    let p := (v8 * (255 - s8)) >>> 8
    let q := (v8 * (255 - ((s8 * rem) >>> 8))) >>> 8
    let t := (v8 * (255 - ((s8 * (255 - rem)) >>> 8))) >>> 8
    match region with
    | 0 => (v8, t, p)
    | 1 => (q, v8, p)
    | 2 => (p, v8, t)
    | 3 => (p, q, v8)
    | 4 => (t, p, v8)
    | _ => (v8, p, q)

/-- Clamp and rescale to the 8-bit domain (30_encoding.md R122): `(h8, s8, v8)`. -/
def rescaleHsv (hue : Half) (sat val : Byte) : Nat × Nat × Nat :=
  (min hue.toNat 360 * 255 / 360, min sat.toNat 100 * 255 / 100, min val.toNat 100 * 255 / 100)

/-- `HsvToRgb(hue, sat, val)` (44_color_utility.md R254). -/
def hsvToRgb (hue : Half) (sat val : Byte) : Rgb :=
  let h := rescaleHsv hue sat val
  let c := hsvCore h.1 h.2.1 h.2.2
  { r := BitVec.ofNat 8 c.1, g := BitVec.ofNat 8 c.2.1, b := BitVec.ofNat 8 c.2.2 }

/-- The 24-bit result `(r << 16) + (g << 8) + b` (44_color_utility.md R255). -/
def packRgb888 (c : Rgb) : BitVec 24 :=
  BitVec.ofNat 24 (c.r.toNat <<< 16 + c.g.toNat <<< 8 + c.b.toNat)

end Sys2Proof.Machine
end

