-- ==== Sys2Proof/Machine/Memory.lean ====
section
/-! DEFINITION. The panel pixel memory (20_memory.md R64, R80, R84), as the known bytes of it. The pixel of controller column `c` and row `r`
takes two bytes, the high byte first (R67): addresses `2 * (r * 65536 + c)` and the next. A byte that is not listed has no value: the
pixel is unknown (log 13). -/

namespace Sys2Proof.Machine

/-- The canonical form: addresses strictly rising. (No entry can equal what an unlisted address reads as, which is no value.) -/
def Memory.wf : Memory → Bool
  | [] => true
  | [_] => true
  | c :: d :: m => decide (c.1 < d.1) && Memory.wf (d :: m)

/-- The byte at an address; `none` where nothing is known. -/
def Memory.read : Memory → Nat → Option Byte
  | [], _ => none
  | (k, v) :: m, a => if a = k then some v else Memory.read m a

/-- The memory with one byte written, in its canonical form again. -/
def Memory.write : Memory → Nat → Byte → Memory
  | [], a, b => [(a, b)]
  | (k, v) :: m, a, b =>
    if a < k then (a, b) :: (k, v) :: m
    else if a = k then (a, b) :: m
    else (k, v) :: Memory.write m a b

/-- One cell `c`, and then the ascending cells `cs` that `rest` merges in, merged into a memory. -/
def Memory.mergeCell (c : Host.Cell) (cs : Memory) (rest : Memory → Memory) : Memory → Memory
  | [] => c :: cs
  | d :: m =>
    if c.1 < d.1 then c :: rest (d :: m)
    else if c.1 = d.1 then c :: rest m
    else d :: Memory.mergeCell c cs rest m

/-- Cells with strictly rising addresses written to a memory in one pass: the same as writing them one by one, in order. -/
def Memory.merge : Memory → Memory → Memory
  | [], m => m
  | c :: cs, m => Memory.mergeCell c cs (Memory.merge cs) m

/-- The byte address of the pixel of controller column `col` and row `row` (log 13). -/
def gramAddr (col row : Nat) : Nat := 2 * (row * 65536 + col)

/-- The two cells of a pixel `v` at controller column `col` and row `row`, high byte first (R67). -/
def pixelCells (col row : Nat) (v : Pixel) : Memory := [(gramAddr col row, hi8 v), (gramAddr col row + 1, lo8 v)]

/-- `GramWrite(col, row, v)` (00_scope.md R11, 20_memory.md R84). -/
def Memory.gramWrite (m : Memory) (col row : Nat) (v : Pixel) : Memory :=
  (m.write (gramAddr col row) (hi8 v)).write (gramAddr col row + 1) (lo8 v)

/-- `P.mem[(col, row)]`: present when both its bytes are. -/
def Memory.pixel (m : Memory) (col row : Nat) : Option Pixel :=
  match m.read (gramAddr col row), m.read (gramAddr col row + 1) with
  | some hi, some lo => some (ofBe16 hi lo)
  | _, _ => none

end Sys2Proof.Machine
end

