-- ==== Sys2Proof/Machine/Sink.lean ====
section
/-! DEFINITION. The panel sink (20_memory.md R80 to R85): what the panel does with each event of the panel trace. It is the environment's,
not the block's: no operation reads it. -/

namespace Sys2Proof.Machine

/-- The window state and the memory become unknown (R80, R84, U7): `P.sync`, `P.have_col`, `P.have_row` cleared, `P.mem` emptied. -/
def PanelSink.forget (p : PanelSink) : PanelSink :=
  { p with sync := false, haveCol := false, haveRow := false, mem := [] }

/-- The pixels a byte sequence carries, high byte first (R67); `none` for an odd number of bytes. -/
def pixelsOf : List Byte → Option (List Pixel)
  | [] => some []
  | [_] => none
  | hi :: lo :: rest =>
    match pixelsOf rest with
    | some ps => some (ofBe16 hi lo :: ps)
    | none => none

/-- R84's loop as the spec writes it: pixel number `q` of the stream goes to column `xs + q % ww`, row `ys + q / ww`, one `GramWrite` after
the other. -/
def gramWriteLoop (xs ys ww : Nat) : Nat → List Pixel → Memory → Memory
  | _, [], m => m
  | q, v :: vs, m => gramWriteLoop xs ys ww (q + 1) vs (m.gramWrite (xs + q % ww) (ys + q / ww) v)

/-- The cells those writes list, from pixel number `q` on. Their addresses rise strictly while the window's columns stay below 65536. -/
def streamCells (xs ys ww : Nat) : Nat → List Pixel → Memory
  | _, [] => []
  | q, v :: vs => pixelCells (xs + q % ww) (ys + q / ww) v ++ streamCells xs ys ww (q + 1) vs

/-- The effect of R84's loop on the memory, in one pass: Sys2Proof/Laws/Memory.lean shows that it is `gramWriteLoop`. -/
def streamPixels (xs ys ww q : Nat) (vs : List Pixel) (m : Memory) : Memory := Memory.merge (streamCells xs ys ww q vs) m

/-- The number of pixels the window holds, `ww * wh` (R84); 0 when its end lies before its start, which the block never sends (log 14). -/
def PanelSink.windowPixels (p : PanelSink) : Nat :=
  (p.xe.toNat + 1 - p.xs.toNat) * (p.ye.toNat + 1 - p.ys.toNat)

/-- A command transaction answered `ok` (R81). -/
def PanelSink.command (cfg : Config) (p : PanelSink) (c : Byte) : PanelSink :=
  if c = cfg.cmdCaset then { p with mode := .col }
  else if c = cfg.cmdRaset then { p with mode := .row }
  else if c = cfg.cmdRamwr then
    { p with mode := .write, k := 0, sync := p.sync || (p.haveCol && p.haveRow) }
  else { p with mode := .idle }

/-- Data in mode `WRITE` (R84); data before a complete window, beyond the window, or of odd length: U7 (log 14). -/
def PanelSink.pixelData (p : PanelSink) (bytes : List Byte) : PanelSink :=
  match pixelsOf bytes with
  | none => p.forget
  | some ps =>
    if p.sync && decide (p.k + ps.length ≤ p.windowPixels) then
      { p with
        mem := streamPixels p.xs.toNat p.ys.toNat (p.xe.toNat + 1 - p.xs.toNat) p.k ps p.mem
        k := p.k + ps.length }
    else p.forget

/-- A data transaction answered `ok` (R82, R83, R84). -/
def PanelSink.dataBytes (p : PanelSink) (bytes : List Byte) : PanelSink :=
  match p.mode with
  | .idle => p
  | .col =>
    match bytes with
    | [a, b, c, d] => { p with xs := ofBe16 a b, xe := ofBe16 c d, haveCol := true, mode := .idle }
    | _ => p.forget
  | .row =>
    match bytes with
    | [a, b, c, d] => { p with ys := ofBe16 a b, ye := ofBe16 c d, haveRow := true, mode := .idle }
    | _ => p.forget
  | .write => p.pixelData bytes

/-- A transaction answered `fail`, or never answered (R85, U8; log 15): nothing is known any more, for good. -/
def PanelSink.die (p : PanelSink) : PanelSink := { p.forget with mode := .idle, dead := true }

/-- What the panel makes of one event of the panel trace (R80 to R85). -/
def PanelSink.observe (cfg : Config) (p : PanelSink) (e : PanelEvent) : PanelSink :=
  if p.dead then p
  else
    match e with
    | .rst .low => { p.forget with mode := .idle }
    | .tx .command [c] .ok => p.command cfg c
    | .tx .command _ .ok => p.forget
    | .tx .data bytes .ok => p.dataBytes bytes
    | .tx _ _ .fail => p.die
    | .tx _ _ .never => p.die
    | .rst .high => p
    | .claim _ => p
    | .pinOutDc => p
    | .delay _ => p
    | .log _ => p

/-- The environment's view of one event: the levels of the two lines (60_exceptions.md R292; log 17) and the panel. -/
def PanelSide.observe (cfg : Config) (v : PanelSide) (e : PanelEvent) : PanelSide :=
  { v with
    dcLine := match e with
      | .tx dc _ _ => some dc
      | _ => v.dcLine
    rstLine := match e with
      | .rst l => some l
      | _ => v.rstLine
    sink := v.sink.observe cfg e }

/-- The pixel at panel coordinates `(x, y)`, when it is known (R86). -/
def State.pixelAt (s : State) (x y : Nat) : Option Pixel :=
  s.pu.env.sink.mem.pixel (x + s.cfg.colOffset) (y + s.cfg.rowOffset)

end Sys2Proof.Machine
end

