-- ==== Sys2Proof/Machine/Ops.lean ====
section
/-! DEFINITION. The primitives the operations are written with: how a procedure goes on, fails or waits for ever (00_scope.md R14,
60_exceptions.md R282, R284), the environment's answers (R15), the output primitives of both engines (R12, R13), the ending of an
operation, which is this block's form of taking an exception (R282; there is no return, R283), and the issuing of an operation to a
unit (R22, 10_state.md R21). -/

namespace Sys2Proof.Machine

/-! ### How a procedure ends -/

/-- How a procedure of an operation ends. -/
inductive Flow where
  /-- It is done: the enclosing procedure goes on. -/
  | done
  /-- `fail st`: every enclosing procedure ends at once with this status (R14, R284). -/
  | fail (st : Status)
  /-- It waits for an answer that never comes: the operation never ends (93_implementation_defined.md U9; log 6). -/
  | hang
deriving DecidableEq, Repr

/-- Sequencing: the second part runs only when the first is done; a failure or a wait passes outward unchanged (R284). -/
def andThen {α : Type} (r : Flow × α) (k : α → Flow × α) : Flow × α :=
  match r.1 with
  | .done => k r.2
  | .fail st => (.fail st, r.2)
  | .hang => (.hang, r.2)

/-- The status an operation ends with, when it ends (R14): `OK` or the failure's; an operation that waits for ever ends with none. -/
def Flow.ending : Flow → Option Status
  | .done => some .ok
  | .fail st => some st
  | .hang => none

/-- Why an operation is stopped before it has any effect. -/
inductive Stop where
  | refuse (r : Refusal)
  | fault (r : Fault)
deriving DecidableEq, Repr

/-! ### The environment's answers -/

/-- The next answer of a script; when the script is used up, a free answer (R15; log 5). Gives the answer, the rest of the script, and
the count of free answers taken. -/
def nextAnswer (free : Nat → Answer) : List Answer → Nat → Answer × List Answer × Nat
  | a :: rest, n => (a, rest, n)
  | [], n => (free n, [], n + 1)

/-- The answer to the next `Claim` or `Tx`. -/
def PanelUnit.answer (u : PanelUnit) : Answer := (nextAnswer Config.panelAnswer u.env.answers u.env.drawn).1

/-- That answer taken from the script. -/
def PanelUnit.takeAnswer (u : PanelUnit) : PanelUnit :=
  let a := nextAnswer Config.panelAnswer u.env.answers u.env.drawn
  { u with env := { u.env with answers := a.2.1, drawn := a.2.2 } }

/-- The answer to the next `ChanAlloc` or `TxReq`. -/
def LedUnit.answer (u : LedUnit) : Answer := (nextAnswer Config.pulseAnswer u.env.answers u.env.drawnAnswers).1

/-- That answer taken from the script. -/
def LedUnit.takeAnswer (u : LedUnit) : LedUnit :=
  let a := nextAnswer Config.pulseAnswer u.env.answers u.env.drawnAnswers
  { u with env := { u.env with answers := a.2.1, drawnAnswers := a.2.2 } }

/-- What the pulse peripheral does next for the transmission it has accepted (43_led_pulse.md R220; log 5, log 7). -/
def LedUnit.move (u : LedUnit) : PeripheralMove :=
  match u.env.moves with
  | m :: _ => m
  | [] => Config.pulseMove u.env.drawnMoves

/-- That move taken from the script. -/
def LedUnit.takeMove (u : LedUnit) : LedUnit :=
  match u.env.moves with
  | _ :: rest => { u with env := { u.env with moves := rest } }
  | [] => { u with env := { u.env with drawnMoves := u.env.drawnMoves + 1 } }

/-! ### Output primitives of the Panel Engine (00_scope.md R12) -/

/-- One event appended to `S.pe_trace` and seen by the panel-side environment. -/
def PanelUnit.emit (cfg : Config) (u : PanelUnit) (e : PanelEvent) : PanelUnit :=
  { u with trace := u.trace ++ [e], env := u.env.observe cfg e }

/-- `Claim()` (R12): the answer, and the event recorded with it. -/
def PanelUnit.claim (cfg : Config) (u : PanelUnit) : Answer × PanelUnit :=
  (u.answer, u.takeAnswer.emit cfg (.claim u.answer))

/-- `Tx(dc, bytes)` (R12): one bus transaction and its answer. -/
def PanelUnit.tx (cfg : Config) (dc : DcLine) (bytes : List Byte) (u : PanelUnit) : Answer × PanelUnit :=
  (u.answer, u.takeAnswer.emit cfg (.tx dc bytes u.answer))

/-- A transaction whose failure ends the procedure with `PeripheralError` (40_panel_init_window.md R150, 60_exceptions.md R273). -/
def PanelUnit.send (cfg : Config) (dc : DcLine) (bytes : List Byte) (u : PanelUnit) : Flow × PanelUnit :=
  match u.tx cfg dc bytes with
  | (.ok, v) => (.done, v)
  | (.fail, v) => (.fail .peripheralError, v)
  | (.never, v) => (.hang, v)

/-! ### Output primitives of the LED Engine (00_scope.md R13) -/

/-- The LED data pin after an event (60_exceptions.md R292 (e); log 17). DESIGN CHOICE (log 27; 91_not_in_source.md N17 leaves it open): with no
event that drives the pin it keeps its level, so it is still low after a LED_INIT that has failed, and after `ChanRelease`. -/
def lineAfter (line : Option Level) : LedEvent → Option Level
  | .pinOutLow _ => some .low
  | .pulse l _ => some l
  | .chanAlloc _ _ => line
  | .chanEnable => line
  | .txReq _ _ => line
  | .chanRelease => line

/-- One event appended to `S.le_trace`. -/
def LedUnit.emit (u : LedUnit) (e : LedEvent) : LedUnit :=
  { u with trace := u.trace ++ [e], env := { u.env with line := lineAfter u.env.line e } }

/-- Several events, in order. -/
def LedUnit.emits (u : LedUnit) (es : List LedEvent) : LedUnit := es.foldl LedUnit.emit u

/-! ### The end of an operation -/

/-- A panel operation ends (R14, R282): its status is written and what existed only during it is discarded (10_state.md R36, R37). One
that waits for ever does not end: the engine stays with it (log 6). -/
def PanelUnit.finish (r : Flow × PanelUnit) : PanelUnit :=
  match r.1.ending with
  | some st => { r.2 with status := st, work := .clear }
  | none => { r.2 with inFlight := true }

/-- A LED operation ends (R14, R282), or waits for ever (log 6). -/
def LedUnit.finish (r : Flow × LedUnit) : LedUnit :=
  match r.1.ending with
  | some st => { r.2 with status := st }
  | none => { r.2 with inFlight := true }

/-- A descriptor that spells no operation (30_encoding.md R110, 60_exceptions.md R276): no state changes but a status register. -/
def State.illegalDescriptor (s : State) (d : List Byte) : State := s.setStatus (unitOfDescriptor d) .illegalCommand

/-! ### Issuing an operation to a unit -/

/-- A step's outcome of an operation of one unit: stopped before any effect, or the unit put back. -/
def outcomeOf {α : Type} (put : α → State) : Except Stop α → Host.Outcome State Fault Refusal
  | .ok u => .next (put u)
  | .error (.refuse r) => .refused r
  | .error (.fault r) => .fault r

/-- A panel operation (10_state.md R21, R22): refused under a configuration that breaks a constraint (00_scope.md R6) or while the engine
has not finished the operation before (93_implementation_defined.md U5); else its operands are latched, its body runs, and it ends. -/
def State.panelOp (s : State) (latch : Latches → Latches) (body : Config → PanelUnit → Except Stop (Flow × PanelUnit)) :
    Host.Outcome State Fault Refusal :=
  if s.cfg.valid then
    if s.pu.inFlight then .refused .panelBusy
    else outcomeOf (fun r => { s with pu := PanelUnit.finish r }) (body s.cfg { s.pu with op := latch s.pu.op })
  else .refused .invalidConfiguration

/-- A LED operation, in the same way. -/
def State.ledOp (s : State) (latch : Latches → Latches) (body : Config → LedUnit → Except Stop (Flow × LedUnit)) :
    Host.Outcome State Fault Refusal :=
  if s.cfg.valid then
    if s.lu.inFlight then .refused .ledBusy
    else outcomeOf (fun r => { s with lu := LedUnit.finish r }) (body s.cfg { s.lu with op := latch s.lu.op })
  else .refused .invalidConfiguration

/-- A Colour Utility operation (44_color_utility.md R250): always `OK`; it writes only `S.cu_status` and `S.cu_result`, from its operands. -/
def State.utilityOp (s : State) (latch : Latches → Latches) (result : Latches → BitVec 24) : Host.Outcome State Fault Refusal :=
  if s.cfg.valid then
    .next { s with cu := { status := .ok, result := result (latch s.cu.op), op := latch s.cu.op } }
  else .refused .invalidConfiguration

/-- The common entry of every panel operation but PANEL_INIT (40_panel_init_window.md R140). -/
def whenPanelReady (u : PanelUnit) (body : Except Stop (Flow × PanelUnit)) : Except Stop (Flow × PanelUnit) :=
  if u.init then body else .ok (.fail .notInitialized, u)

/-- The common entry of every LED operation but LED_INIT and LED_DEINIT (43_led_pulse.md R210). -/
def whenLedReady (u : LedUnit) (body : Except Stop (Flow × LedUnit)) : Except Stop (Flow × LedUnit) :=
  if u.init then body else .ok (.fail .notInitialized, u)

end Sys2Proof.Machine
end

