-- ==== Sys2Proof/Machine/Colour.lean ====
section
/-! DEFINITION. Colour Utility (44_color_utility.md): PACK565 and HSV2RGB. -/

namespace Sys2Proof.Machine

/-- PACK565's result: the pixel, zero-extended to 24 bits (R251). -/
def pack565Result (o : Latches) : BitVec 24 := (packRgb565 { r := o.r, g := o.g, b := o.b }).setWidth 24

/-- PACK565 `r, g, b` (R251). -/
def execPack565 (r g b : Byte) (s : State) : Host.Outcome State Fault Refusal :=
  s.utilityOp (fun o => { o with r, g, b }) pack565Result

/-- HSV2RGB's result (R255). -/
def hsv2rgbResult (o : Latches) : BitVec 24 := packRgb888 (hsvToRgb o.hue o.sat o.val)

/-- HSV2RGB `hue, sat, val` (R255). -/
def execHsv2rgb (hue : Half) (sat val : Byte) (s : State) : Host.Outcome State Fault Refusal :=
  s.utilityOp (fun o => { o with hue, sat, val }) hsv2rgbResult

end Sys2Proof.Machine
end

