-- ==== Sys2Proof/Machine/PanelInit.lean ====
section
/-! DEFINITION. Panel Engine, initialisation and address window (40_panel_init_window.md): PANEL_INIT, SET_WINDOW and the procedure WINDOW. -/

namespace Sys2Proof.Machine

/-! ### PANEL_INIT -/

/-- `SetupFail(cmd)` (R144): logged and counted under `IGNORE`, `PeripheralError` under `PROPAGATE`. The counter saturates (10_state.md R27). -/
def setupFail (cfg : Config) (cmd : Byte) (u : PanelUnit) : Flow × PanelUnit :=
  match cfg.initErrPolicy with
  | .ignore =>
    let v := u.emit cfg (.log cmd)
    (.done, { v with setupErrs := BitVec.ofNat 16 (min (u.setupErrs.toNat + 1) 65535) })
  | .propagate => (.fail .peripheralError, u)

/-- One transaction of the set-up sequence, for the command `cmd` (R141, R144). -/
def setupTx (cfg : Config) (cmd : Byte) (dc : DcLine) (bytes : List Byte) (u : PanelUnit) : Flow × PanelUnit :=
  match u.tx cfg dc bytes with
  | (.ok, v) => (.done, v)
  | (.fail, v) => setupFail cfg cmd v
  | (.never, v) => (.hang, v)

/-- `Delay(delay)` if it is positive (R141, 30_encoding.md R115). -/
def settle (cfg : Config) (delay : Nat) (u : PanelUnit) : PanelUnit := if 0 < delay then u.emit cfg (.delay delay) else u

/-- One entry of `INIT_SEQ` (R141, 30_encoding.md R115): the command, its data if there is any, its settle delay. -/
def setupEntry (cfg : Config) (e : InitEntry) (u : PanelUnit) : Flow × PanelUnit :=
  andThen (setupTx cfg e.cmd .command [e.cmd] u) fun u1 =>
  andThen (if e.data = [] then (.done, u1) else setupTx cfg e.cmd .data e.data u1) fun u2 =>
  (.done, settle cfg e.delay u2)

/-- The entries of `INIT_SEQ` in list order (R141, R143). -/
def setupSequence (cfg : Config) : List InitEntry → PanelUnit → Flow × PanelUnit
  | [], u => (.done, u)
  | e :: rest, u => andThen (setupEntry cfg e u) (setupSequence cfg rest)

/-- The bus claim (R145): when it fails, nothing further is emitted. -/
def claimBus (cfg : Config) (u : PanelUnit) : Flow × PanelUnit :=
  match u.claim cfg with
  | (.ok, v) => (.done, v)
  | (.fail, v) => (.fail .peripheralError, v)
  | (.never, v) => (.hang, v)

/-- The line configuration and the reset pulse (R141, R142). -/
def resetController (cfg : Config) (u : PanelUnit) : PanelUnit :=
  ((((u.emit cfg .pinOutDc).emit cfg (.rst .low)).emit cfg (.delay cfg.resetLowUnits)).emit cfg (.rst .high)).emit cfg
    (.delay cfg.resetWaitUnits)

/-- `S.pe_cfg` and `S.pe_setup_errs` as PANEL_INIT sets them before its first event (R141, 10_state.md R27, R28). -/
def latchPins (u : PanelUnit) : PanelUnit :=
  { u with
    pins := { pinDc := u.op.pinDc, pinRst := u.op.pinRst, pinCs := u.op.pinCs, pinSclk := u.op.pinSclk, pinMosi := u.op.pinMosi,
              busHz := u.op.busHz }
    setupErrs := 0 }

/-- PANEL_INIT (R141). -/
def panelInitBody (cfg : Config) (u : PanelUnit) : Except Stop (Flow × PanelUnit) :=
  if u.init then .error (.refuse .panelAlreadyInitialized)
  else
    .ok (andThen (claimBus cfg (latchPins u)) fun u1 =>
      andThen (setupSequence cfg cfg.initSeq (resetController cfg u1)) fun u2 =>
      (.done, { u2 with init := true }))

/-- PANEL_INIT `pin_dc, pin_rst, pin_cs, pin_sclk, pin_mosi, bus_hz` (R141; U1: refused when already initialised, R146). -/
def execPanelInit (pinDc pinRst pinCs pinSclk pinMosi : Byte) (busHz : Word) (s : State) : Host.Outcome State Fault Refusal :=
  s.panelOp (fun o => { o with pinDc, pinRst, pinCs, pinSclk, pinMosi, busHz }) panelInitBody

/-! ### The address window -/

/-- WINDOW(`x0, y0, x1, y1`) (R150): five transactions; a failure of any one ends it at once with `PeripheralError`. -/
def window (cfg : Config) (x0 y0 x1 y1 : Nat) (u : PanelUnit) : Flow × PanelUnit :=
  andThen (u.send cfg .command [cfg.cmdCaset]) fun u1 =>
  andThen (u1.send cfg .data (coordPair x0 x1 cfg.colOffset)) fun u2 =>
  andThen (u2.send cfg .command [cfg.cmdRaset]) fun u3 =>
  andThen (u3.send cfg .data (coordPair y0 y1 cfg.rowOffset)) fun u4 =>
  u4.send cfg .command [cfg.cmdRamwr]

/-- SET_WINDOW (R151). -/
def setWindowBody (cfg : Config) (u : PanelUnit) : Except Stop (Flow × PanelUnit) :=
  whenPanelReady u <|
    if windowInside cfg u.op.x0.toNat u.op.y0.toNat u.op.x1.toNat u.op.y1.toNat then
      .ok (window cfg u.op.x0.toNat u.op.y0.toNat u.op.x1.toNat u.op.y1.toNat u)
    else .ok (.fail .invalidBounds, u)

/-- SET_WINDOW `x0, y0, x1, y1` (R151). -/
def execSetWindow (x0 y0 x1 y1 : Half) (s : State) : Host.Outcome State Fault Refusal :=
  s.panelOp (fun o => { o with x0, y0, x1, y1 }) setWindowBody

end Sys2Proof.Machine
end

