-- ==== Sys2Proof/Machine/FillPixel.lean ====
section
/-! DEFINITION. Panel Engine, rectangle fill and pixel (41_panel_fill_pixel.md): FILL, DRAW_PIXEL and the procedure STREAM. -/

namespace Sys2Proof.Machine

/-- The chunk of a fill: `rep(be16(color), k)` (R162). -/
def chunkBytes (color : Pixel) (k : Nat) : List Byte := (List.replicate k (be16 color)).flatten

/-- STREAM's loop (R162), `rem` pixels still to send. The first argument bounds the number of turns: `rem` falls by at least 1 each turn
(`CHUNK_PIXELS >= 1`), so `rem` turns always suffice (log 18). -/
def streamLoop (cfg : Config) (color : Pixel) : Nat → Nat → PanelUnit → Flow × PanelUnit
  | 0, _, u => (.done, u)
  | turns + 1, rem, u =>
    if rem = 0 then (.done, u)
    else
      let k := min rem cfg.chunkPixels
      let v := { u with work := { u.work with fillRem := rem, chunkBuf := chunkBytes color k } }
      andThen (v.send cfg .data (chunkBytes color k)) (streamLoop cfg color turns (rem - k))

/-- STREAM(`color, n`) (R162). -/
def stream (cfg : Config) (color : Pixel) (n : Nat) (u : PanelUnit) : Flow × PanelUnit := streamLoop cfg color n n u

/-- FILL (R161). -/
def fillBody (cfg : Config) (u : PanelUnit) : Except Stop (Flow × PanelUnit) :=
  whenPanelReady u <|
    let x := u.op.x.toNat
    let y := u.op.y.toNat
    let w := u.op.w.toNat
    let h := u.op.h.toNat
    if w = 0 ∨ h = 0 then .error (.refuse .emptyRectangle)
    else if insidePanel cfg x y w h then
      .ok (andThen (window cfg x y (x + w - 1) (y + h - 1) u) (stream cfg u.op.color (w * h)))
    else .ok (.fail .invalidBounds, u)

/-- FILL `color, x, y, w, h` (R161; U2: refused when empty). -/
def execFill (color : Pixel) (x y w h : Half) (s : State) : Host.Outcome State Fault Refusal :=
  s.panelOp (fun o => { o with color, x, y, w, h }) fillBody

/-- DRAW_PIXEL (R165). -/
def drawPixelBody (cfg : Config) (u : PanelUnit) : Except Stop (Flow × PanelUnit) :=
  whenPanelReady u <|
    let x := u.op.x.toNat
    let y := u.op.y.toNat
    if insidePanel cfg x y 1 1 then
      .ok (andThen (window cfg x y x y u) fun u1 => u1.send cfg .data (be16 u.op.color))
    else .ok (.fail .invalidBounds, u)

/-- DRAW_PIXEL `x, y, color` (R165). -/
def execDrawPixel (x y : Half) (color : Pixel) (s : State) : Host.Outcome State Fault Refusal :=
  s.panelOp (fun o => { o with x, y, color }) drawPixelBody

end Sys2Proof.Machine
end

