-- ==== Sys2Proof/Machine/Led.lean ====
section
/-! DEFINITION. LED Engine (43_led_pulse.md): LED_INIT, SET_COLOR, SET_HSV, TURN_OFF, LED_DEINIT, the procedure SEND and the pulse encoder. -/

namespace Sys2Proof.Machine

/-! ### The pulse encoder -/

/-- What one invocation of the encoder reports (R220). -/
inductive EncReport where
  | bufferFull
  | done
deriving DecidableEq, Repr

/-- The encoder's loop over the colour bits (R220): while bits are left and slots are free, one symbol (R222). Gives the slots left. -/
def encodeBits : Nat → LedUnit → Nat × LedUnit
  | 0, u => (0, u)
  | free + 1, u =>
    if u.encBitpos < 24 then
      let v := u.emits (symbolPulses u.ticks (bitAt u.encBytes u.encBitpos))
      encodeBits free { v with encBitpos := v.encBitpos + 1 }
    else (free + 1, u)

/-- The reset pulse, and back to the initial state (R220). -/
def encodeReset (u : LedUnit) : LedUnit :=
  let v := u.emit (resetPulse u.ticks)
  { v with encPhase := .color, encBitpos := 0 }

/-- ENCODE(`free`) (R220, 45_arithmetic_and_sequencing.md R268). -/
def encode1 (free : Nat) (u : LedUnit) : EncReport × LedUnit :=
  match u.encPhase with
  | .reset => (.done, encodeReset u)
  | .color =>
    let r := encodeBits free u
    if r.2.encBitpos < 24 then (.bufferFull, r.2)
    else
      let v := { r.2 with encPhase := .reset }
      if r.1 = 0 then (.bufferFull, v) else (.done, encodeReset v)

/-- The free slots of one invocation: at least 1 and at most `SYMBUF` (R220; log 7). -/
def slotsOf (cfg : Config) (free : Nat) : Nat := max 1 (min free cfg.symbuf)

/-- The invocations of one transmission, until the encoder reports DONE (R215, R220). The first argument bounds their number: a transmission
has at most 25 (R220), so the bound 25 is never used up (log 18). A peripheral that stops invoking leaves the engine waiting (R217). -/
def encodeTrain (cfg : Config) : Nat → LedUnit → Flow × LedUnit
  | 0, u => (.hang, u)
  | left + 1, u =>
    match u.move with
    | .stall => (.hang, u.takeMove)
    | .proceed free =>
      match encode1 (slotsOf cfg free) u.takeMove with
      | (.done, v) => (.done, v)
      | (.bufferFull, v) => encodeTrain cfg left v

/-- The invocations a transmission can need at most (R220). -/
abbrev maxInvocations : Nat := 25

/-! ### SEND -/

/-- `TxReq(bytes)` (00_scope.md R13) with the bytes of `S.enc_bytes`, and its answer. -/
def LedUnit.txReq (u : LedUnit) : Answer × LedUnit :=
  (u.answer, u.takeAnswer.emit (.txReq u.encBytes.toList u.answer))

/-- What the LED shows is unknown (20_memory.md R90; log 16). -/
def LedUnit.showUnknown (u : LedUnit) : LedUnit := { u with env := { u.env with shown := none } }

/-- The train has been played (R215, R218, 20_memory.md R90): not busy, the colour state written, the LED shows the bytes in its own order. -/
def completeSend (c : Rgb) (u : LedUnit) : LedUnit :=
  { u with
    busy := false, color := c, colorValid := true
    env := { u.env with shown := some (unwireBytes u.env.wired u.encBytes) } }

/-- An accepted transmission (R215, R217): the encoder runs, and then the peripheral plays every pulse. -/
def transmit (cfg : Config) (c : Rgb) (u : LedUnit) : Flow × LedUnit :=
  andThen (encodeTrain cfg maxInvocations { u.showUnknown with busy := true }) fun v =>
    match v.move with
    | .stall => (.hang, v.takeMove)
    | .proceed _ => (.done, completeSend c v.takeMove)

/-- SEND(`r, g, b`) (R215) once `S.le_busy` is 0. -/
def send (cfg : Config) (c : Rgb) (u : LedUnit) : Flow × LedUnit :=
  match LedUnit.txReq { u with encBytes := wireBytes cfg.wireOrder c } with
  | (.fail, v) => (.fail .transmitError, v)
  | (.never, v) => (.hang, v.showUnknown)
  | (.ok, v) => transmit cfg c v

/-- SEND's first wait (R215, R217): nothing clears `S.le_busy` while it waits (log 8). -/
def whenIdle (u : LedUnit) (body : Flow × LedUnit) : Except Stop (Flow × LedUnit) :=
  if u.busy then .error (.fault .ledWaitsForever) else .ok body

/-! ### LED_INIT -/

/-- LED_INIT after its channel has been allocated (R211, R212). A tick count of 0 ends it with no further event (R211: no `ChanRelease`); that
the pin stays low then is the model's choice (91_not_in_source.md N17; log 27). -/
def startEngine (cfg : Config) (u : LedUnit) : Flow × LedUnit :=
  let t := pulseTable cfg
  if t.hasZero then (.fail .configurationError, u)
  else
    let v := { u with ticks := t, encPhase := .color, encBitpos := 0, colorValid := false }
    (.done, { v.emit .chanEnable with init := true })

/-- `ChanAlloc(RES_HZ)` (00_scope.md R13) and its answer. -/
def LedUnit.chanAlloc (cfg : Config) (u : LedUnit) : Answer × LedUnit :=
  (u.answer, u.takeAnswer.emit (.chanAlloc cfg.resHz u.answer))

/-- LED_INIT (R211; a refused allocation gives `PeripheralError`, R213, and leaves the pin low: log 27). -/
def ledInitBody (cfg : Config) (u : LedUnit) : Except Stop (Flow × LedUnit) :=
  if u.init then .error (.refuse .ledAlreadyInitialized)
  else
    let v := LedUnit.emit { u with pins := { pin := u.op.pin, chan := u.op.chan } } (.pinOutLow u.op.pin)
    .ok (match v.chanAlloc cfg with
      | (.fail, w) => (.fail .peripheralError, w)
      | (.never, w) => (.hang, w)
      | (.ok, w) => startEngine cfg w)

/-- LED_INIT `pin, chan` (R211; U4: refused when already initialised). -/
def execLedInit (pin chan : Byte) (s : State) : Host.Outcome State Fault Refusal :=
  s.ledOp (fun o => { o with pin, chan }) ledInitBody

/-! ### Colour operations -/

/-- SET_COLOR (R215). -/
def setColorBody (cfg : Config) (u : LedUnit) : Except Stop (Flow × LedUnit) :=
  whenLedReady u <| whenIdle u <| send cfg { r := u.op.r, g := u.op.g, b := u.op.b } u

/-- SET_COLOR `r, g, b` (R215). -/
def execSetColor (r g b : Byte) (s : State) : Host.Outcome State Fault Refusal :=
  s.ledOp (fun o => { o with r, g, b }) setColorBody

/-- SET_HSV (R226). -/
def setHsvBody (cfg : Config) (u : LedUnit) : Except Stop (Flow × LedUnit) :=
  whenLedReady u <| whenIdle u <| send cfg (hsvToRgb u.op.hue u.op.sat u.op.val) u

/-- SET_HSV `hue, sat, val` (R226). -/
def execSetHsv (hue : Half) (sat val : Byte) (s : State) : Host.Outcome State Fault Refusal :=
  s.ledOp (fun o => { o with hue, sat, val }) setHsvBody

/-- The colour of TURN_OFF and of LED_DEINIT's turn-off (R228, R230). -/
def blackRgb : Rgb := { r := 0, g := 0, b := 0 }

/-- TURN_OFF (R228). -/
def turnOffBody (cfg : Config) (u : LedUnit) : Except Stop (Flow × LedUnit) :=
  whenLedReady u <| whenIdle u <| send cfg blackRgb u

/-- TURN_OFF (R228). -/
def execTurnOff (s : State) : Host.Outcome State Fault Refusal := s.ledOp (fun o => o) turnOffBody

/-- The channel and encoder released, the engine uninitialised (R230). The pin keeps its level, which is the model's choice (log 27). -/
def release (colorValid : Bool) (u : LedUnit) : LedUnit :=
  { u.emit .chanRelease with init := false, colorValid := colorValid }

/-- LED_DEINIT's second half (R230, R231): the release follows the turn-off whatever its status (60_exceptions.md R284). -/
def releaseAfter : Flow × LedUnit → Flow × LedUnit
  | (.done, u) => (.done, release true u)
  | (.fail st, u) => (.fail st, release false u)
  | (.hang, u) => (.hang, u)

/-- LED_DEINIT (R230): a no-op success when not initialised. -/
def ledDeinitBody (cfg : Config) (u : LedUnit) : Except Stop (Flow × LedUnit) :=
  if u.init then whenIdle u (releaseAfter (send cfg blackRgb u)) else .ok (.done, u)

/-- LED_DEINIT (R230). -/
def execLedDeinit (s : State) : Host.Outcome State Fault Refusal := s.ledOp (fun o => o) ledDeinitBody

end Sys2Proof.Machine
end

