-- ==== Sys2Proof/Machine/Text.lean ====
section
/-! DEFINITION. Panel Engine, glyphs and text (42_panel_text.md): DRAW_GLYPH, DRAW_STRING, DRAW_WRAPPED, DRAW_FORMATTED and the procedures GLYPH
and WRAPPED. -/

namespace Sys2Proof.Machine

/-! ### Glyphs -/

/-- GLYPH(`x, y, ch, fg, bg, s`) (R177): the bounds test, the window, and the whole cell as one data transaction. -/
def glyph (cfg : Config) (x y : Nat) (ch : Byte) (fg bg : Pixel) (s : Nat) (u : PanelUnit) : Flow × PanelUnit :=
  let gw := glyphWidth cfg s
  let gh := glyphHeight cfg s
  if insidePanel cfg x y gw gh then
    andThen (window cfg x y (x + gw - 1) (y + gh - 1) u) fun u1 =>
      let buf := pixelBytes (glyphPixels cfg (glyphIndex cfg ch) s fg bg)
      PanelUnit.send cfg .data buf { u1 with work := { u1.work with glyphBuf := buf } }
  else (.fail .invalidBounds, u)

/-- The second test of every glyph and text operation: `scale = 0` is refused (U3). -/
def whenScaled (u : PanelUnit) (body : Flow × PanelUnit) : Except Stop (Flow × PanelUnit) :=
  if u.op.scale.toNat = 0 then .error (.refuse .zeroScale) else .ok body

/-- DRAW_GLYPH (R176). -/
def drawGlyphBody (cfg : Config) (u : PanelUnit) : Except Stop (Flow × PanelUnit) :=
  whenPanelReady u <| whenScaled u <|
    glyph cfg u.op.x.toNat u.op.y.toNat u.op.ch u.op.fg u.op.bg u.op.scale.toNat u

/-- DRAW_GLYPH `x, y, ch, fg, bg, scale` (R176; U3: refused at scale 0). -/
def execDrawGlyph (x y : Half) (ch : Byte) (fg bg : Pixel) (scale : Byte) (s : State) : Host.Outcome State Fault Refusal :=
  s.panelOp (fun o => { o with x, y, ch, fg, bg, scale }) drawGlyphBody

/-! ### DRAW_STRING -/

/-- DRAW_STRING's loop over the characters from index `i` on (R182): the stop test is GLYPH's bounds test made in advance (R183). -/
def stringLoop (cfg : Config) (x y : Nat) (fg bg : Pixel) (s : Nat) : List Byte → Nat → PanelUnit → Flow × PanelUnit
  | [], _, u => (.done, u)
  | c :: rest, i, u =>
    let cx := x + i * glyphWidth cfg s
    let v := { u with work := { u.work with charIdx := i } }
    if insidePanel cfg cx y (glyphWidth cfg s) (glyphHeight cfg s) then
      andThen (glyph cfg cx y c fg bg s v) (stringLoop cfg x y fg bg s rest (i + 1))
    else (.done, v)

/-- DRAW_STRING (R182). -/
def drawStringBody (cfg : Config) (u : PanelUnit) : Except Stop (Flow × PanelUnit) :=
  whenPanelReady u <| whenScaled u <|
    stringLoop cfg u.op.x.toNat u.op.y.toNat u.op.fg u.op.bg u.op.scale.toNat (textChars u.op.text) 0 u

/-- DRAW_STRING `x, y, "text", fg, bg, scale` (R182; U3: refused at scale 0). -/
def execDrawString (x y : Half) (fg bg : Pixel) (scale flags : Byte) (text : List Byte) (s : State) :
    Host.Outcome State Fault Refusal :=
  s.panelOp (fun o => { o with x, y, fg, bg, scale, flags, len := BitVec.ofNat 16 text.length, text }) drawStringBody

/-! ### DRAW_WRAPPED and DRAW_FORMATTED -/

/-- The first line of the layout (R190). -/
def startLayout (x y : Nat) : TextLayout := { curX := x, curY := y, maxX := x, lines := 1, startY := y }

/-- A new line, by a line break or a forced wrap (R190, R191): back to the operation's own `x`, down by the line height. `none` when its
cells would not end inside the safe area (R192). -/
def newLine (cfg : Config) (x s : Nat) (l : TextLayout) : Option TextLayout :=
  if l.curY + lineHeight cfg s + glyphHeight cfg s > cfg.safeH then none
  else some { l with curX := x, curY := l.curY + lineHeight cfg s, lines := l.lines + 1 }

/-- The layout at which a character is drawn: after a forced wrap if its cell would pass the safe area's right edge (R191). -/
def wrapFor (cfg : Config) (x s : Nat) (l : TextLayout) : Option TextLayout :=
  if l.curX + glyphWidth cfg s > cfg.safeW then newLine cfg x s l else some l

/-- The cursor after a drawn character (R190). -/
def advance (cfg : Config) (s : Nat) (l : TextLayout) : TextLayout :=
  { l with curX := l.curX + glyphWidth cfg s, maxX := max l.maxX (l.curX + glyphWidth cfg s) }

/-- The layout state of the running call (10_state.md R36). -/
def PanelUnit.setLayout (u : PanelUnit) (l : TextLayout) : PanelUnit := { u with work := { u.work with layout := l } }

/-- WRAPPED's loop over the characters from index `i` on (R190): leaving it early drops the rest of the text, without error (R192). -/
def wrappedLoop (cfg : Config) (x : Nat) (fg bg : Pixel) (s : Nat) : List Byte → Nat → PanelUnit → Flow × PanelUnit
  | [], _, u => (.done, u)
  | c :: rest, i, u =>
    let v := { u with work := { u.work with charIdx := i } }
    if c = newlineChar then
      match newLine cfg x s v.work.layout with
      | none => (.done, v)
      | some l => wrappedLoop cfg x fg bg s rest (i + 1) (v.setLayout l)
    else
      match wrapFor cfg x s v.work.layout with
      | none => (.done, v)
      | some l =>
        andThen (glyph cfg (cfg.safeX + l.curX) (cfg.safeY + l.curY) c fg bg s (v.setLayout l)) fun u1 =>
          wrappedLoop cfg x fg bg s rest (i + 1) (u1.setLayout (advance cfg s l))

/-- The bounds report (R193), written when it is asked for. -/
def reportBounds (cfg : Config) (want : Bool) (s : Nat) (u : PanelUnit) : PanelUnit :=
  if want then
    { u with
      boundsMaxX := BitVec.ofNat 16 u.work.layout.maxX
      boundsHeight := BitVec.ofNat 16 ((u.work.layout.curY - u.work.layout.startY) + glyphHeight cfg s)
      boundsLines := BitVec.ofNat 16 u.work.layout.lines }
  else u

/-- WRAPPED(`x, y, text, fg, bg, s, want`) (R190): the entry test (R194), the layout, and the bounds report (R193). -/
def wrapped (cfg : Config) (x y : Nat) (text : List Byte) (fg bg : Pixel) (s : Nat) (want : Bool) (u : PanelUnit) : Flow × PanelUnit :=
  if x + glyphWidth cfg s > cfg.safeW then (.fail .invalidBounds, u)
  else
    let v := u.setLayout (startLayout x y)
    andThen (if y + glyphHeight cfg s ≤ cfg.safeH then wrappedLoop cfg x fg bg s (textChars text) 0 v else (.done, v)) fun u1 =>
      (.done, reportBounds cfg want s u1)

/-- DRAW_WRAPPED (R190). -/
def drawWrappedBody (cfg : Config) (u : PanelUnit) : Except Stop (Flow × PanelUnit) :=
  whenPanelReady u <| whenScaled u <|
    wrapped cfg u.op.x.toNat u.op.y.toNat u.op.text u.op.fg u.op.bg u.op.scale.toNat (u.op.flags.getLsbD 0) u

/-- DRAW_WRAPPED `x, y, "text", fg, bg, scale [, B]` (R190; U3: refused at scale 0). -/
def execDrawWrapped (x y : Half) (fg bg : Pixel) (scale flags : Byte) (text : List Byte) (s : State) :
    Host.Outcome State Fault Refusal :=
  s.panelOp (fun o => { o with x, y, fg, bg, scale, flags, len := BitVec.ofNat 16 text.length, text }) drawWrappedBody

/-- The format buffer (10_state.md R37, R201): the characters kept and the terminating 0x00. -/
def fillFormatBuffer (cfg : Config) (u : PanelUnit) : PanelUnit :=
  { u with work := { u.work with fmtBuf := formattedChars cfg u.op.text ++ [0] } }

/-- DRAW_FORMATTED (R200): WRAPPED on the text cut to the format buffer. -/
def drawFormattedBody (cfg : Config) (u : PanelUnit) : Except Stop (Flow × PanelUnit) :=
  whenPanelReady u <| whenScaled u <|
    wrapped cfg u.op.x.toNat u.op.y.toNat (formattedChars cfg u.op.text) u.op.fg u.op.bg u.op.scale.toNat (u.op.flags.getLsbD 0)
      (fillFormatBuffer cfg u)

/-- DRAW_FORMATTED `x, y, fg, bg, scale, "expanded text" [, B]` (R200; U3: refused at scale 0). -/
def execDrawFormatted (x y : Half) (fg bg : Pixel) (scale flags : Byte) (text : List Byte) (s : State) :
    Host.Outcome State Fault Refusal :=
  s.panelOp (fun o => { o with x, y, fg, bg, scale, flags, len := BitVec.ofNat 16 text.length, text }) drawFormattedBody

end Sys2Proof.Machine
end

