-- ==== Sys2Proof/Syntax.lean ====
section
/-! DEFINITION. The fifteen host operations of 30_encoding.md R100, one constructor for each row of opcode_table.json, with the operand
fields of its descriptor format (R102 to R109) in descriptor order. The field `len` of format T is the length of `text`. -/

namespace Sys2Proof

inductive Instr where
  /-- PANEL_INIT, opcode 0x10, format PI (R103); meaning R141. -/
  | panelInit (pinDc pinRst pinCs pinSclk pinMosi : Byte) (busHz : Word)
  /-- SET_WINDOW, opcode 0x11, format W (R104); meaning R151. -/
  | setWindow (x0 y0 x1 y1 : Half)
  /-- FILL, opcode 0x12, format F (R105); meaning R161. -/
  | fill (color : Pixel) (x y w h : Half)
  /-- DRAW_PIXEL, opcode 0x13, format P (R106); meaning R165. -/
  | drawPixel (x y : Half) (color : Pixel)
  /-- DRAW_GLYPH, opcode 0x14, format G (R107); meaning R176. -/
  | drawGlyph (x y : Half) (ch : Byte) (fg bg : Pixel) (scale : Byte)
  /-- DRAW_STRING, opcode 0x15, format T (R108); meaning R182. -/
  | drawString (x y : Half) (fg bg : Pixel) (scale flags : Byte) (text : List Byte)
  /-- DRAW_WRAPPED, opcode 0x16, format T (R108); meaning R190. -/
  | drawWrapped (x y : Half) (fg bg : Pixel) (scale flags : Byte) (text : List Byte)
  /-- DRAW_FORMATTED, opcode 0x17, format T (R108); meaning R200. -/
  | drawFormatted (x y : Half) (fg bg : Pixel) (scale flags : Byte) (text : List Byte)
  /-- LED_INIT, opcode 0x20, format LI (R109); meaning R211. -/
  | ledInit (pin chan : Byte)
  /-- SET_COLOR, opcode 0x21, format C3 (R109); meaning R215. -/
  | setColor (r g b : Byte)
  /-- SET_HSV, opcode 0x22, format H (R109); meaning R226. -/
  | setHsv (hue : Half) (sat val : Byte)
  /-- TURN_OFF, opcode 0x23, format N (R102); meaning R228. -/
  | turnOff
  /-- LED_DEINIT, opcode 0x24, format N (R102); meaning R230. -/
  | ledDeinit
  /-- PACK565, opcode 0x30, format C3 (R109); meaning R251. -/
  | pack565 (r g b : Byte)
  /-- HSV2RGB, opcode 0x31, format H (R109); meaning R255. -/
  | hsv2rgb (hue : Half) (sat val : Byte)
deriving DecidableEq, Repr

end Sys2Proof
end

