-- ==== Sys2Proof/Machine/Dispatch.lean ====
section
/-! DEFINITION. One arm for each operation of 30_encoding.md R100. -/

namespace Sys2Proof.Machine

def exec (i : Instr) (s : State) : Host.Outcome State Fault Refusal :=
  match i with
  | .panelInit dc rst cs sclk mosi hz => Sys2Proof.Machine.execPanelInit dc rst cs sclk mosi hz s
  | .setWindow x0 y0 x1 y1 => Sys2Proof.Machine.execSetWindow x0 y0 x1 y1 s
  | .fill color x y w h => Sys2Proof.Machine.execFill color x y w h s
  | .drawPixel x y color => Sys2Proof.Machine.execDrawPixel x y color s
  | .drawGlyph x y ch fg bg scale => Sys2Proof.Machine.execDrawGlyph x y ch fg bg scale s
  | .drawString x y fg bg scale flags text => Sys2Proof.Machine.execDrawString x y fg bg scale flags text s
  | .drawWrapped x y fg bg scale flags text => Sys2Proof.Machine.execDrawWrapped x y fg bg scale flags text s
  | .drawFormatted x y fg bg scale flags text => Sys2Proof.Machine.execDrawFormatted x y fg bg scale flags text s
  | .ledInit pin chan => Sys2Proof.Machine.execLedInit pin chan s
  | .setColor r g b => Sys2Proof.Machine.execSetColor r g b s
  | .setHsv hue sat val => Sys2Proof.Machine.execSetHsv hue sat val s
  | .turnOff => Sys2Proof.Machine.execTurnOff s
  | .ledDeinit => Sys2Proof.Machine.execLedDeinit s
  | .pack565 r g b => Sys2Proof.Machine.execPack565 r g b s
  | .hsv2rgb hue sat val => Sys2Proof.Machine.execHsv2rgb hue sat val s

end Sys2Proof.Machine
end

