-- ==== Sys2Proof/WellFormed.lean ====
section
/-! DEFINITION. Which terms of `Instr` a legal descriptor spells (30_encoding.md R108, R110). Every field but those of format T takes any
value of its width. In format T the text has at most 65535 bytes (its length is a 16-bit field), the reserved bits 7 to 1 of `flags`
are 0, and DRAW_STRING has `flags = 0`. -/

namespace Sys2Proof

/-- The text's length fits the field `len` of format T (R108, 20_memory.md R63). -/
def textFits (text : List Byte) : Bool := decide (text.length ≤ 65535)

/-- Bits 7 to 1 of `flags` are reserved and 0 (R108): the byte is 0 or 1. -/
def flagsLegal (flags : Byte) : Bool := decide (flags.toNat ≤ 1)

/-- The checks of R110 on an operation's fields. -/
def wellFormed : Instr → Bool
  | .drawString _ _ _ _ _ flags text => textFits text && decide (flags = 0)
  | .drawWrapped _ _ _ _ _ flags text => textFits text && flagsLegal flags
  | .drawFormatted _ _ _ _ _ flags text => textFits text && flagsLegal flags
  | .panelInit _ _ _ _ _ _ => true
  | .setWindow _ _ _ _ => true
  | .fill _ _ _ _ _ => true
  | .drawPixel _ _ _ => true
  | .drawGlyph _ _ _ _ _ _ => true
  | .ledInit _ _ => true
  | .setColor _ _ _ => true
  | .setHsv _ _ _ => true
  | .turnOff => true
  | .ledDeinit => true
  | .pack565 _ _ _ => true
  | .hsv2rgb _ _ _ => true

/-- `i` is well-formed: some legal descriptor spells it. -/
abbrev WellFormed (i : Instr) : Prop := wellFormed i = true

end Sys2Proof
end

