-- ==== Sys2Proof/Decode.lean ====
section
/-! DEFINITION. The host descriptors of 30_encoding.md sections 1 to 3: the opcodes (R100), the formats (R102 to R109), the illegal
descriptors (R110) and the length rule (R111). `decode` is total and rejects by name; `encode` writes the descriptor of an operation from
the same tables. -/

namespace Sys2Proof

/-- Why a descriptor spells no operation (R110). Each ends with status `IllegalCommand` when it is issued; none stops the machine. -/
inductive DecodeError where
  /-- It has no byte. -/
  | empty
  /-- Its opcode byte is not one of the fifteen of R100. -/
  | unassignedOpcode
  /-- Its length is not the one its format gives (R111). -/
  | wrongLength
  /-- Format T with a reserved `flags` bit set, or DRAW_STRING with `flags` not 0. -/
  | reservedFlags
deriving DecidableEq, Repr

/-- The opcodes of R100, by name. -/
inductive Opcode where
  | panelInit | setWindow | fill | drawPixel | drawGlyph | drawString | drawWrapped | drawFormatted
  | ledInit | setColor | setHsv | turnOff | ledDeinit
  | pack565 | hsv2rgb
deriving DecidableEq, Repr

/-- The opcode bytes of R100. -/
def opcodeByte : Opcode → Byte
  | .panelInit => 0x10
  | .setWindow => 0x11
  | .fill => 0x12
  | .drawPixel => 0x13
  | .drawGlyph => 0x14
  | .drawString => 0x15
  | .drawWrapped => 0x16
  | .drawFormatted => 0x17
  | .ledInit => 0x20
  | .setColor => 0x21
  | .setHsv => 0x22
  | .turnOff => 0x23
  | .ledDeinit => 0x24
  | .pack565 => 0x30
  | .hsv2rgb => 0x31

/-- The opcode a byte names; `none` for the unassigned bytes (R111). -/
def opcodeOf (b : Byte) : Option Opcode :=
  if b = 0x10 then some .panelInit
  else if b = 0x11 then some .setWindow
  else if b = 0x12 then some .fill
  else if b = 0x13 then some .drawPixel
  else if b = 0x14 then some .drawGlyph
  else if b = 0x15 then some .drawString
  else if b = 0x16 then some .drawWrapped
  else if b = 0x17 then some .drawFormatted
  else if b = 0x20 then some .ledInit
  else if b = 0x21 then some .setColor
  else if b = 0x22 then some .setHsv
  else if b = 0x23 then some .turnOff
  else if b = 0x24 then some .ledDeinit
  else if b = 0x30 then some .pack565
  else if b = 0x31 then some .hsv2rgb
  else none

/-- The operand fields of format T, as read from a descriptor (R108). -/
structure TextFields where
  x : Half
  y : Half
  fg : Pixel
  bg : Pixel
  scale : Byte
  flags : Byte
  text : List Byte
deriving DecidableEq, Repr

/-- Format T after the opcode byte (R108, R111): twelve bytes of fields, then exactly `len` bytes of text. -/
def decodeTextFields : List Byte → Except DecodeError TextFields
  | x1 :: x0 :: y1 :: y0 :: f1 :: f0 :: b1 :: b0 :: scale :: flags :: l1 :: l0 :: text =>
    if text.length = (ofBe16 l1 l0).toNat then
      .ok { x := ofBe16 x1 x0, y := ofBe16 y1 y0, fg := ofBe16 f1 f0, bg := ofBe16 b1 b0, scale, flags, text }
    else .error .wrongLength
  | _ => .error .wrongLength

/-- DRAW_STRING has no bounds output, so its `flags` must be 0 (R108). -/
def decodeDrawString (rest : List Byte) : Except DecodeError Instr :=
  match decodeTextFields rest with
  | .error e => .error e
  | .ok t => if t.flags = 0 then .ok (.drawString t.x t.y t.fg t.bg t.scale t.flags t.text) else .error .reservedFlags

/-- DRAW_WRAPPED: bits 7 to 1 of `flags` must be 0 (R108). -/
def decodeDrawWrapped (rest : List Byte) : Except DecodeError Instr :=
  match decodeTextFields rest with
  | .error e => .error e
  | .ok t => if flagsLegal t.flags then .ok (.drawWrapped t.x t.y t.fg t.bg t.scale t.flags t.text) else .error .reservedFlags

/-- DRAW_FORMATTED: as DRAW_WRAPPED (R108). -/
def decodeDrawFormatted (rest : List Byte) : Except DecodeError Instr :=
  match decodeTextFields rest with
  | .error e => .error e
  | .ok t => if flagsLegal t.flags then .ok (.drawFormatted t.x t.y t.fg t.bg t.scale t.flags t.text) else .error .reservedFlags

/-- Format PI after the opcode byte (R103). -/
def decodePanelInit : List Byte → Except DecodeError Instr
  | [dc, rst, cs, sclk, mosi, h3, h2, h1, h0] => .ok (.panelInit dc rst cs sclk mosi (ofBe32 h3 h2 h1 h0))
  | _ => .error .wrongLength

/-- Format W after the opcode byte (R104). -/
def decodeSetWindow : List Byte → Except DecodeError Instr
  | [a1, a0, b1, b0, c1, c0, d1, d0] => .ok (.setWindow (ofBe16 a1 a0) (ofBe16 b1 b0) (ofBe16 c1 c0) (ofBe16 d1 d0))
  | _ => .error .wrongLength

/-- Format F after the opcode byte (R105). -/
def decodeFill : List Byte → Except DecodeError Instr
  | [k1, k0, x1, x0, y1, y0, w1, w0, h1, h0] =>
    .ok (.fill (ofBe16 k1 k0) (ofBe16 x1 x0) (ofBe16 y1 y0) (ofBe16 w1 w0) (ofBe16 h1 h0))
  | _ => .error .wrongLength

/-- Format P after the opcode byte (R106). -/
def decodeDrawPixel : List Byte → Except DecodeError Instr
  | [x1, x0, y1, y0, k1, k0] => .ok (.drawPixel (ofBe16 x1 x0) (ofBe16 y1 y0) (ofBe16 k1 k0))
  | _ => .error .wrongLength

/-- Format G after the opcode byte (R107). -/
def decodeDrawGlyph : List Byte → Except DecodeError Instr
  | [x1, x0, y1, y0, ch, f1, f0, b1, b0, scale] =>
    .ok (.drawGlyph (ofBe16 x1 x0) (ofBe16 y1 y0) ch (ofBe16 f1 f0) (ofBe16 b1 b0) scale)
  | _ => .error .wrongLength

/-- Format LI after the opcode byte (R109). -/
def decodeLedInit : List Byte → Except DecodeError Instr
  | [pin, chan] => .ok (.ledInit pin chan)
  | _ => .error .wrongLength

/-- Format C3 after the opcode byte (R109). -/
def decodeTriple (make : Byte → Byte → Byte → Instr) : List Byte → Except DecodeError Instr
  | [r, g, b] => .ok (make r g b)
  | _ => .error .wrongLength

/-- Format H after the opcode byte (R109). -/
def decodeHsv (make : Half → Byte → Byte → Instr) : List Byte → Except DecodeError Instr
  | [h1, h0, sat, val] => .ok (make (ofBe16 h1 h0) sat val)
  | _ => .error .wrongLength

/-- Format N after the opcode byte (R102). -/
def decodeNone (i : Instr) : List Byte → Except DecodeError Instr
  | [] => .ok i
  | _ => .error .wrongLength

/-- The operands of each opcode's format after the opcode byte (R100, R102 to R109). -/
def decodeOperands (o : Opcode) (rest : List Byte) : Except DecodeError Instr :=
  match o with
  | .panelInit => decodePanelInit rest
  | .setWindow => decodeSetWindow rest
  | .fill => decodeFill rest
  | .drawPixel => decodeDrawPixel rest
  | .drawGlyph => decodeDrawGlyph rest
  | .drawString => decodeDrawString rest
  | .drawWrapped => decodeDrawWrapped rest
  | .drawFormatted => decodeDrawFormatted rest
  | .ledInit => decodeLedInit rest
  | .setColor => decodeTriple .setColor rest
  | .setHsv => decodeHsv .setHsv rest
  | .turnOff => decodeNone .turnOff rest
  | .ledDeinit => decodeNone .ledDeinit rest
  | .pack565 => decodeTriple .pack565 rest
  | .hsv2rgb => decodeHsv .hsv2rgb rest

/-- The operation a descriptor spells (R101, R111), or the reason why it spells none (R110). -/
def decode : List Byte → Except DecodeError Instr
  | [] => .error .empty
  | op :: rest =>
    match opcodeOf op with
    | none => .error .unassignedOpcode
    | some o => decodeOperands o rest

/-- The fields of format T after the opcode byte (R108). -/
def encodeTextFields (x y : Half) (fg bg : Pixel) (scale flags : Byte) (text : List Byte) : List Byte :=
  be16 x ++ be16 y ++ be16 fg ++ be16 bg ++ [scale, flags] ++ be16 (BitVec.ofNat 16 text.length) ++ text

/-- The opcode of an operation (R100). -/
def opcode : Instr → Opcode
  | .panelInit _ _ _ _ _ _ => .panelInit
  | .setWindow _ _ _ _ => .setWindow
  | .fill _ _ _ _ _ => .fill
  | .drawPixel _ _ _ => .drawPixel
  | .drawGlyph _ _ _ _ _ _ => .drawGlyph
  | .drawString _ _ _ _ _ _ _ => .drawString
  | .drawWrapped _ _ _ _ _ _ _ => .drawWrapped
  | .drawFormatted _ _ _ _ _ _ _ => .drawFormatted
  | .ledInit _ _ => .ledInit
  | .setColor _ _ _ => .setColor
  | .setHsv _ _ _ => .setHsv
  | .turnOff => .turnOff
  | .ledDeinit => .ledDeinit
  | .pack565 _ _ _ => .pack565
  | .hsv2rgb _ _ _ => .hsv2rgb

/-- The operand bytes of an operation's descriptor (R102 to R109). -/
def encodeOperands : Instr → List Byte
  | .panelInit dc rst cs sclk mosi hz => [dc, rst, cs, sclk, mosi] ++ be32 hz
  | .setWindow x0 y0 x1 y1 => be16 x0 ++ be16 y0 ++ be16 x1 ++ be16 y1
  | .fill color x y w h => be16 color ++ be16 x ++ be16 y ++ be16 w ++ be16 h
  | .drawPixel x y color => be16 x ++ be16 y ++ be16 color
  | .drawGlyph x y ch fg bg scale => be16 x ++ be16 y ++ [ch] ++ be16 fg ++ be16 bg ++ [scale]
  | .drawString x y fg bg scale flags text => encodeTextFields x y fg bg scale flags text
  | .drawWrapped x y fg bg scale flags text => encodeTextFields x y fg bg scale flags text
  | .drawFormatted x y fg bg scale flags text => encodeTextFields x y fg bg scale flags text
  | .ledInit pin chan => [pin, chan]
  | .setColor r g b => [r, g, b]
  | .setHsv hue sat val => be16 hue ++ [sat, val]
  | .turnOff => []
  | .ledDeinit => []
  | .pack565 r g b => [r, g, b]
  | .hsv2rgb hue sat val => be16 hue ++ [sat, val]

/-- The descriptor of an operation: the opcode byte and then the operand fields (R101). -/
def encode (i : Instr) : List Byte := opcodeByte (opcode i) :: encodeOperands i

/-! ### Words as opcode_table.json numbers their bits -/

/-- The first `n` bytes of a word whose bit 0 is the least significant bit of the first byte (log 20). -/
def bytesOfWord : Nat → Nat → List Byte
  | 0, _ => []
  | n + 1, w => BitVec.ofNat 8 w :: bytesOfWord n (w / 256)

/-- A list continued with zero bytes up to `n` bytes. -/
def padTo (n : Nat) (l : List Byte) : List Byte := l ++ List.replicate (n - l.length) 0

/-- The descriptor length the opcode gives (R102 to R109); format T is `13 + len`, with `len` in bytes 11 and 12 (R111). -/
def descriptorLength (o : Opcode) (d : List Byte) : Nat :=
  match o with
  | .panelInit => 10
  | .setWindow => 9
  | .fill => 11
  | .drawPixel => 7
  | .drawGlyph => 11
  | .drawString => 13 + (ofBe16 (d.getD 11 0) (d.getD 12 0)).toNat
  | .drawWrapped => 13 + (ofBe16 (d.getD 11 0) (d.getD 12 0)).toNat
  | .drawFormatted => 13 + (ofBe16 (d.getD 11 0) (d.getD 12 0)).toNat
  | .ledInit => 3
  | .setColor => 4
  | .setHsv => 5
  | .turnOff => 1
  | .ledDeinit => 1
  | .pack565 => 4
  | .hsv2rgb => 5

/-- The descriptor whose first `nbits` bits are `w` and whose further bytes, up to the length its opcode gives, are zeros (log 20). -/
def descriptorOfWord (nbits w : Nat) : List Byte :=
  let d := bytesOfWord (nbits / 8) w
  match d with
  | [] => []
  | op :: _ =>
    match opcodeOf op with
    | none => d
    | some o => padTo (descriptorLength o d) d

/-- What the decoder reads from that descriptor. -/
def decodeTableWord (nbits w : Nat) : Option Instr :=
  match decode (descriptorOfWord nbits w) with
  | .ok i => some i
  | .error _ => none

end Sys2Proof
end

