-- ==== Sys2Proof/Machine/Fetch.lean ====
section
/-! DEFINITION. What stands for an instruction fetch (10_state.md R22: the block has no program counter; the host presents one descriptor at a
time, R101). The next descriptor is the oldest the host has issued and no unit has taken (log 4). -/

namespace Sys2Proof.Machine

/-- The next descriptor, and the machine with it taken from the queue; `none` when the host has issued nothing. -/
def State.takeDescriptor (s : State) : Option (List Byte × State) :=
  match s.pending with
  | [] => none
  | d :: rest => some (d, { s with pending := rest })

/-- A descriptor that the decoder rejects (30_encoding.md R110). The model refuses a configuration that breaks a constraint before it takes
any descriptor (00_scope.md R6). -/
def State.rejectDescriptor (s : State) (d : List Byte) : Host.Outcome State Fault Refusal :=
  if s.cfg.valid then .next (s.illegalDescriptor d) else .refused .invalidConfiguration

/-- A descriptor issued by the host, put where the next step takes it from. -/
def State.issueNext (s : State) (d : List Byte) : State := { s with pending := d :: s.pending }

end Sys2Proof.Machine
end

