-- ==== Sys2Proof/Machine/Step.lean ====
section
/-! DEFINITION. One step of the machine: the next descriptor is taken, decoded and executed to completion (00_scope.md R1, R18). With nothing
issued, nothing happens (log 4). -/

namespace Sys2Proof.Machine

/-- One step. An illegal descriptor ends with `IllegalCommand` (30_encoding.md R110). -/
def step (s : State) : Host.Outcome State Fault Refusal :=
  match s.takeDescriptor with
  | none => .next s
  | some (d, t) =>
    match decode d with
    | .ok i => exec i t
    | .error _ => t.rejectDescriptor d

/-- The descriptor of the word `w` of `nbits` bits, issued so that the very next step takes it (log 20). -/
def State.withFetchWord (s : State) (nbits w : Nat) : State := s.issueNext (descriptorOfWord nbits w)

end Sys2Proof.Machine
end

