-- ==== Sys2Proof/Safety.lean ====
section
/-! DEFINITION. The terms claims are stated in: which unit an operation belongs to, the coherence of a state (what every step keeps), what a
run of transactions or pulses looks like in a trace, the layout of a text, and which status an operation can end with. No definition of
the machine uses this file. -/

namespace Sys2Proof.Machine

/-! ### Units and readiness -/

/-- The unit that executes an operation (30_encoding.md R100). -/
def unitOf : Instr → BlockUnit
  | .panelInit _ _ _ _ _ _ => .panel
  | .setWindow _ _ _ _ => .panel
  | .fill _ _ _ _ _ => .panel
  | .drawPixel _ _ _ => .panel
  | .drawGlyph _ _ _ _ _ _ => .panel
  | .drawString _ _ _ _ _ _ _ => .panel
  | .drawWrapped _ _ _ _ _ _ _ => .panel
  | .drawFormatted _ _ _ _ _ _ _ => .panel
  | .ledInit _ _ => .led
  | .setColor _ _ _ => .led
  | .setHsv _ _ _ => .led
  | .turnOff => .led
  | .ledDeinit => .led
  | .pack565 _ _ _ => .utility
  | .hsv2rgb _ _ _ => .utility

/-- A panel operation can run: a legal configuration (00_scope.md R6) and no operation in flight (U5). -/
abbrev State.PanelIdle (s : State) : Prop := s.cfg.valid = true ∧ s.pu.inFlight = false

/-- A drawing operation can run: PANEL_INIT has ended `OK` too (70_reset_and_hazards.md R313). -/
abbrev State.PanelReady (s : State) : Prop := s.PanelIdle ∧ s.pu.init = true

/-- A LED operation can run. -/
abbrev State.LedIdle (s : State) : Prop := s.cfg.valid = true ∧ s.lu.inFlight = false

/-- A colour operation can run: LED_INIT has ended `OK`, and the encoder stands where it does between transmissions (10_state.md R33, R34). -/
abbrev State.LedReady (s : State) : Prop :=
  s.LedIdle ∧ s.lu.init = true ∧ s.lu.busy = false ∧ s.lu.encPhase = .color ∧ s.lu.encBitpos = 0

/-- The operations whose first test is their engine's init flag (40_panel_init_window.md R140, 43_led_pulse.md R210, 60_exceptions.md R271). -/
def needsInit : Instr → Bool
  | .panelInit _ _ _ _ _ _ => false
  | .setWindow _ _ _ _ => true
  | .fill _ _ _ _ _ => true
  | .drawPixel _ _ _ => true
  | .drawGlyph _ _ _ _ _ _ => true
  | .drawString _ _ _ _ _ _ _ => true
  | .drawWrapped _ _ _ _ _ _ _ => true
  | .drawFormatted _ _ _ _ _ _ _ => true
  | .ledInit _ _ => false
  | .setColor _ _ _ => true
  | .setHsv _ _ _ => true
  | .turnOff => true
  | .ledDeinit => false
  | .pack565 _ _ _ => false
  | .hsv2rgb _ _ _ => false

/-- The init flag of the engine an operation runs on; the Colour Utility has none. -/
def State.initOf (s : State) : BlockUnit → Bool
  | .panel => s.pu.init
  | .led => s.lu.init
  | .utility => true

/-- Two outcomes that agree in everything but the Panel Engine's operand latches and running work. -/
def SamePanelEffect : Host.Outcome State Fault Refusal → Host.Outcome State Fault Refusal → Prop
  | .next a, .next b => a = { b with pu := { b.pu with op := a.pu.op, work := a.pu.work } }
  | .fault f, .fault g => f = g
  | .refused q, .refused r => q = r
  | _, _ => False

/-- Two outcomes that agree in everything but the LED Engine's operand latches. -/
def SameLedEffect : Host.Outcome State Fault Refusal → Host.Outcome State Fault Refusal → Prop
  | .next a, .next b => a = { b with lu := { b.lu with op := a.lu.op } }
  | .fault f, .fault g => f = g
  | .refused q, .refused r => q = r
  | _, _ => False

/-! ### Coherent states -/

/-- What holds of the Panel Engine and its environment in every run: the panel memory is in its canonical form; nothing of a finished
operation is left (10_state.md R36, R37); once initialised, the controller's reset line is released (40_panel_init_window.md R142). -/
def PanelUnit.Coherent (u : PanelUnit) : Prop :=
  u.env.sink.mem.wf = true ∧
  (u.inFlight = false → u.work = .clear) ∧
  (u.init = true → u.env.rstLine = some .high)

/-- What holds of the LED Engine and its environment in every run: between operations the engine is not busy and the encoder is in its
initial state (10_state.md R33, R34); the bit position stays in 0 to 24; once initialised, every tick count is at least 1 (R31); between
operations of an initialised engine the line is low (43_led_pulse.md R224); and a valid colour state is what an LED of the configured
wire order shows (R218). -/
def LedUnit.Coherent (order : WireOrder) (u : LedUnit) : Prop :=
  (u.inFlight = false → u.busy = false ∧ u.encPhase = .color ∧ u.encBitpos = 0) ∧
  u.encBitpos ≤ 24 ∧
  (u.init = true → u.ticks.hasZero = false) ∧
  (u.inFlight = false → u.init = true → u.env.line = some .low) ∧
  (u.inFlight = false → u.colorValid = true → u.env.wired = order → u.env.shown = some u.color)

/-- The states the invariants are about. -/
def State.Coherent (s : State) : Prop := s.pu.Coherent ∧ s.lu.Coherent s.cfg.wireOrder

/-- The panel is what the trace makes of it: the sink of R80 to R85 run over `S.pe_trace` from power-on. -/
def State.SinkFollowsTrace (s : State) : Prop :=
  s.pu.env.sink = s.pu.trace.foldl (PanelSink.observe s.cfg) PanelSink.unknown

/-! ### Panel traffic -/

/-- The content of a transaction: the level of the data/command line and the bytes. -/
abbrev TxContent := DcLine × List Byte

/-- The event of a transaction and its answer. -/
def txEvent (ans : Answer) (c : TxContent) : PanelEvent := .tx c.1 c.2 ans

/-- The events of transactions that were all answered `ok`. -/
def okEvents (cs : List TxContent) : List PanelEvent := cs.map (txEvent .ok)

/-- The events of transactions of which the `j`-th was answered `fail` (R14, 60_exceptions.md R273): those before it, it, and nothing after it. -/
def failedAt (cs : List TxContent) (j : Nat) : List PanelEvent :=
  okEvents (cs.take j) ++ (cs[j]?).toList.map (txEvent .fail)

/-- The events of transactions of which the `j`-th is never answered (93_implementation_defined.md U9; log 6, log 15). -/
def neverAt (cs : List TxContent) (j : Nat) : List PanelEvent :=
  okEvents (cs.take j) ++ (cs[j]?).toList.map (txEvent .never)

/-- The five transactions of WINDOW (40_panel_init_window.md R150). -/
def windowTx (cfg : Config) (x0 y0 x1 y1 : Nat) : List TxContent :=
  [(.command, [cfg.cmdCaset]), (.data, coordPair x0 x1 cfg.colOffset),
   (.command, [cfg.cmdRaset]), (.data, coordPair y0 y1 cfg.rowOffset),
   (.command, [cfg.cmdRamwr])]

/-- The sizes in pixels of the chunks of `n` pixels (41_panel_fill_pixel.md R162): full chunks, and the rest if there is one. -/
def chunkSizes (n chunk : Nat) : List Nat :=
  List.replicate (n / chunk) chunk ++ (if n % chunk = 0 then [] else [n % chunk])

/-- The transactions of a fill: the window and then the chunks (R161, R162). -/
def fillTx (cfg : Config) (color : Pixel) (x y w h : Nat) : List TxContent :=
  windowTx cfg x y (x + w - 1) (y + h - 1) ++
    (chunkSizes (w * h) cfg.chunkPixels).map fun k => (DcLine.data, chunkBytes color k)

/-- The six transactions of a glyph (42_panel_text.md R177). -/
def glyphTx (cfg : Config) (x y : Nat) (ch : Byte) (fg bg : Pixel) (s : Nat) : List TxContent :=
  windowTx cfg x y (x + 8 * s - 1) (y + 8 * s - 1) ++
    [(.data, pixelBytes (glyphPixels cfg (glyphIndex cfg ch) s fg bg))]

/-- A character cell on the panel: its top left pixel and its character. -/
structure TextCell where
  x : Nat
  y : Nat
  ch : Byte
deriving DecidableEq, Repr

/-- The transactions of a sequence of cells. -/
def cellsTx (cfg : Config) (fg bg : Pixel) (s : Nat) (cells : List TextCell) : List TxContent :=
  cells.flatMap fun c => glyphTx cfg c.x c.y c.ch fg bg s

/-- The number of characters DRAW_STRING draws (42_panel_text.md R182): as many as fit, none when the string is too low or too far right. -/
def stringCount (cfg : Config) (x y s : Nat) (text : List Byte) : Nat :=
  min (textEnd text)
    (if y + 8 * s > cfg.panelH ∨ x + 8 * s > cfg.panelW then 0 else (cfg.panelW - x) / (8 * s))

/-- The cells DRAW_STRING draws: one glyph width apart, from `x` on (R182). -/
def stringCells (cfg : Config) (x y s : Nat) (text : List Byte) : List TextCell :=
  (List.range (stringCount cfg x y s text)).map fun i => { x := x + i * (8 * s), y := y, ch := text.getD i 0 }

/-- The cells WRAPPED draws from a layout on, in panel coordinates, and the layout it ends with, in plain arithmetic and without the
machine's own layout functions (42_panel_text.md R190 to R192). A line break, or a cell whose right edge would pass `SAFE_W` strictly, asks
for a new line: at the operation's own `x`, `8s + 2` rows further down, one line more; where its cells would not end inside the safe area
the rest of the text is dropped and the layout stays. -/
def wrapCells (cfg : Config) (x s : Nat) : List Byte → TextLayout → List TextCell × TextLayout
  | [], l => ([], l)
  | c :: rest, l =>
    let below : TextLayout := { l with curX := x, curY := l.curY + (8 * s + 2), lines := l.lines + 1 }
    let draw (m : TextLayout) : List TextCell × TextLayout :=
      let r := wrapCells cfg x s rest { m with curX := m.curX + 8 * s, maxX := max m.maxX (m.curX + 8 * s) }
      ({ x := cfg.safeX + m.curX, y := cfg.safeY + m.curY, ch := c } :: r.1, r.2)
    if c = 0x0A then if l.curY + 2 * (8 * s) + 2 ≤ cfg.safeH then wrapCells cfg x s rest below else ([], l)
    else if l.curX + 8 * s > cfg.safeW then if l.curY + 2 * (8 * s) + 2 ≤ cfg.safeH then draw below else ([], l)
    else draw l

/-- The whole layout of a text (R190): nothing is drawn when the first line does not fit (R192). -/
def wrapPlan (cfg : Config) (x y s : Nat) (text : List Byte) : List TextCell × TextLayout :=
  let start : TextLayout := { curX := x, curY := y, maxX := x, lines := 1, startY := y }
  if y + 8 * s ≤ cfg.safeH then wrapCells cfg x s (textChars text) start else ([], start)

/-- The height a layout spans (R193). -/
def layoutHeight (s : Nat) (l : TextLayout) : Nat := (l.curY - l.startY) + 8 * s

/-- The bounds registers as a layout reports them, when the report is asked for (R193); as they were, when it is not. -/
def PanelUnit.reported (want : Bool) (s : Nat) (l : TextLayout) (u : PanelUnit) : PanelUnit :=
  if want then
    { u with
      boundsMaxX := BitVec.ofNat 16 l.maxX
      boundsHeight := BitVec.ofNat 16 (layoutHeight s l)
      boundsLines := BitVec.ofNat 16 l.lines }
  else u

/-- A cell of side `8 * s` lies inside the safe rectangle (42_panel_text.md R195 (a)). -/
def TextCell.InSafeArea (cfg : Config) (s : Nat) (c : TextCell) : Prop :=
  cfg.safeX ≤ c.x ∧ c.x + 8 * s ≤ cfg.safeX + cfg.safeW ∧ cfg.safeY ≤ c.y ∧ c.y + 8 * s ≤ cfg.safeY + cfg.safeH

/-- A byte address of the panel memory belongs to the rectangle with origin `(x, y)` and size `(w, h)` in panel coordinates. -/
def InRectangle (cfg : Config) (x y w h a : Nat) : Prop :=
  ∃ i j, i < w ∧ j < h ∧
    (a = gramAddr (x + i + cfg.colOffset) (y + j + cfg.rowOffset) ∨ a = gramAddr (x + i + cfg.colOffset) (y + j + cfg.rowOffset) + 1)

/-- The panel unit after it has emitted `es`, the environment's script being `rest` then. -/
def PanelUnit.after (cfg : Config) (es : List PanelEvent) (rest : List Answer) (u : PanelUnit) : PanelUnit :=
  { u with trace := u.trace ++ es, env := { es.foldl (PanelSide.observe cfg) u.env with answers := rest } }

/-- A panel operation that emitted `es` and ended with status `st`, on latches `o`. -/
def PanelUnit.ended (cfg : Config) (es : List PanelEvent) (rest : List Answer) (o : Latches) (st : Status) (u : PanelUnit) : PanelUnit :=
  { u.after cfg es rest with op := o, status := st, work := .clear }

/-- A panel operation that emitted `es` and waits for an answer that never comes (log 6), on latches `o` and with its work `w` unfinished. -/
def PanelUnit.waiting (cfg : Config) (es : List PanelEvent) (rest : List Answer) (o : Latches) (w : Transient) (u : PanelUnit) : PanelUnit :=
  { u.after cfg es rest with op := o, work := w, inFlight := true }

/-- A panel operation that ended with status `st` before any event, on latches `o` (60_exceptions.md R282). -/
def PanelUnit.endedEarly (o : Latches) (st : Status) (u : PanelUnit) : PanelUnit := { u with op := o, status := st, work := .clear }

/-- The operand latches of the unit that an operation is issued to, from its issue until it ends (10_state.md R21, 20_memory.md R91): `o` with
the operation's own operands put in. -/
def latchedBy (o : Latches) : Instr → Latches
  | .panelInit pinDc pinRst pinCs pinSclk pinMosi busHz => { o with pinDc, pinRst, pinCs, pinSclk, pinMosi, busHz }
  | .setWindow x0 y0 x1 y1 => { o with x0, y0, x1, y1 }
  | .fill color x y w h => { o with color, x, y, w, h }
  | .drawPixel x y color => { o with x, y, color }
  | .drawGlyph x y ch fg bg scale => { o with x, y, ch, fg, bg, scale }
  | .drawString x y fg bg scale flags text => { o with x, y, fg, bg, scale, flags, len := BitVec.ofNat 16 text.length, text }
  | .drawWrapped x y fg bg scale flags text => { o with x, y, fg, bg, scale, flags, len := BitVec.ofNat 16 text.length, text }
  | .drawFormatted x y fg bg scale flags text => { o with x, y, fg, bg, scale, flags, len := BitVec.ofNat 16 text.length, text }
  | .ledInit pin chan => { o with pin, chan }
  | .setColor r g b => { o with r, g, b }
  | .setHsv hue sat val => { o with hue, sat, val }
  | .turnOff => o
  | .ledDeinit => o
  | .pack565 r g b => { o with r, g, b }
  | .hsv2rgb hue sat val => { o with hue, sat, val }

/-- The transactions a drawing operation makes on a ready engine when every one is answered `ok` (R151, R161, R165, R176, R182, R190, R200);
`none` for one that ends before its first transaction or is refused, and for the operations that do not draw. -/
def drawingTx (cfg : Config) : Instr → Option (List TxContent)
  | .setWindow x0 y0 x1 y1 =>
    if x0.toNat ≤ x1.toNat ∧ x1.toNat < cfg.panelW ∧ y0.toNat ≤ y1.toNat ∧ y1.toNat < cfg.panelH then
      some (windowTx cfg x0.toNat y0.toNat x1.toNat y1.toNat) else none
  | .fill color x y w h =>
    if w ≠ 0 ∧ h ≠ 0 ∧ x.toNat + w.toNat ≤ cfg.panelW ∧ y.toNat + h.toNat ≤ cfg.panelH then
      some (fillTx cfg color x.toNat y.toNat w.toNat h.toNat) else none
  | .drawPixel x y color =>
    if x.toNat < cfg.panelW ∧ y.toNat < cfg.panelH then
      some (windowTx cfg x.toNat y.toNat x.toNat y.toNat ++ [(.data, be16 color)]) else none
  | .drawGlyph x y ch fg bg scale =>
    if scale ≠ 0 ∧ x.toNat + 8 * scale.toNat ≤ cfg.panelW ∧ y.toNat + 8 * scale.toNat ≤ cfg.panelH then
      some (glyphTx cfg x.toNat y.toNat ch fg bg scale.toNat) else none
  | .drawString x y fg bg scale _ text =>
    if scale ≠ 0 then some (cellsTx cfg fg bg scale.toNat (stringCells cfg x.toNat y.toNat scale.toNat text)) else none
  | .drawWrapped x y fg bg scale _ text =>
    if scale ≠ 0 ∧ x.toNat + 8 * scale.toNat ≤ cfg.safeW then
      some (cellsTx cfg fg bg scale.toNat (wrapPlan cfg x.toNat y.toNat scale.toNat text).1) else none
  | .drawFormatted x y fg bg scale _ text =>
    if scale ≠ 0 ∧ x.toNat + 8 * scale.toNat ≤ cfg.safeW then
      some (cellsTx cfg fg bg scale.toNat
        (wrapPlan cfg x.toNat y.toNat scale.toNat (text.take (min (textEnd text) (cfg.fmtBuf - 1)))).1) else none
  | .panelInit _ _ _ _ _ _ => none
  | .ledInit _ _ => none
  | .setColor _ _ _ => none
  | .setHsv _ _ _ => none
  | .turnOff => none
  | .ledDeinit => none
  | .pack565 _ _ _ => none
  | .hsv2rgb _ _ _ => none

/-! ### PANEL_INIT -/

/-- The transactions of one entry of `INIT_SEQ` (30_encoding.md R115). -/
def entryTx (e : InitEntry) : List TxContent :=
  (.command, [e.cmd]) :: (if e.data = [] then [] else [(.data, e.data)])

/-- The events of one entry, every transaction answered `ok` (R115). -/
def entryEvents (e : InitEntry) : List PanelEvent :=
  okEvents (entryTx e) ++ (if 0 < e.delay then [.delay e.delay] else [])

/-- The transactions of `INIT_SEQ`. -/
def setupTxs (cfg : Config) : List TxContent := cfg.initSeq.flatMap entryTx

/-- The line configuration and the reset pulse (40_panel_init_window.md R141, R142). -/
def resetEvents (cfg : Config) : List PanelEvent :=
  [.pinOutDc, .rst .low, .delay cfg.resetLowUnits, .rst .high, .delay cfg.resetWaitUnits]

/-- The whole trace of a PANEL_INIT whose every answer is `ok` (R141). -/
def initEvents (cfg : Config) : List PanelEvent :=
  .claim .ok :: resetEvents cfg ++ cfg.initSeq.flatMap entryEvents

/-- One set-up transaction for the command `cmd` and its answer, under `IGNORE` (R144). -/
def ignoredTx (cmd : Byte) (c : TxContent × Answer) : List PanelEvent :=
  txEvent c.2 c.1 :: (if c.2 = .fail then [.log cmd] else [])

/-- The events of set-up entries whose transactions are answered by `as` in turn, under `IGNORE` (R115, R144). -/
def ignoredEvents : List InitEntry → List Answer → List PanelEvent
  | [], _ => []
  | e :: rest, as =>
    ((entryTx e).zip as).flatMap (ignoredTx e.cmd) ++ (if 0 < e.delay then [.delay e.delay] else []) ++
      ignoredEvents rest (as.drop (entryTx e).length)

/-- The content and the answer of a transaction event; nothing for other events. -/
def txOf : PanelEvent → Option (TxContent × Answer)
  | .tx dc bytes ans => some ((dc, bytes), ans)
  | .claim _ => none
  | .pinOutDc => none
  | .rst _ => none
  | .delay _ => none
  | .log _ => none

/-- A `Log` event (R144). -/
def isLog : PanelEvent → Bool
  | .log _ => true
  | .claim _ => false
  | .pinOutDc => false
  | .rst _ => false
  | .delay _ => false
  | .tx _ _ _ => false

/-! ### LED traffic -/

/-- The symbols of `n` bits from bit `k` on (43_led_pulse.md R220 to R222). -/
def bitSymbols (t : PulseTable) (w : WireBytes) (k n : Nat) : List LedEvent :=
  (List.range' k n).flatMap fun i => symbolPulses t (bitAt w i)

/-- `Train(b0, b1, b2)` (43_led_pulse.md R223): the symbols of the 24 bits, in order, and the reset pulse. -/
def trainEvents (t : PulseTable) (w : WireBytes) : List LedEvent :=
  (List.range 24).flatMap (fun k => symbolPulses t (bitAt w k)) ++ [resetPulse t]

/-- A `Pulse` event. -/
def isPulse : LedEvent → Bool
  | .pulse _ _ => true
  | .pinOutLow _ => false
  | .chanAlloc _ _ => false
  | .chanEnable => false
  | .txReq _ _ => false
  | .chanRelease => false

/-- The LED unit after SEND has completed with the colour `c` (R215): the request and the train in the trace, the colour state and the
shown colour written, `answers` and `moves` what is left of the scripts. -/
def LedUnit.sent (cfg : Config) (c : Rgb) (answers : List Answer) (moves : List PeripheralMove) (u : LedUnit) : LedUnit :=
  let w := wireBytes cfg.wireOrder c
  { u with
    trace := u.trace ++ (.txReq w.toList .ok :: trainEvents u.ticks w)
    encBytes := w, color := c, colorValid := true
    env := { u.env with answers, moves, line := some .low, shown := some (unwireBytes u.env.wired w) } }

/-- The LED unit after the peripheral has rejected the request (R215): the request in the trace, the bytes in `S.enc_bytes`. -/
def LedUnit.rejected (cfg : Config) (c : Rgb) (answers : List Answer) (u : LedUnit) : LedUnit :=
  let w := wireBytes cfg.wireOrder c
  { u with trace := u.trace ++ [.txReq w.toList .fail], encBytes := w, env := { u.env with answers } }

/-- The colour an operation sends through SEND (R215, R226, R228, R230); `none` for the others. -/
def sentBy : Instr → Option Rgb
  | .setColor r g b => some { r, g, b }
  | .setHsv hue sat val => some (hsvToRgb hue sat val)
  | .turnOff => some { r := 0, g := 0, b := 0 }
  | .ledDeinit => some { r := 0, g := 0, b := 0 }
  | .panelInit _ _ _ _ _ _ => none
  | .setWindow _ _ _ _ => none
  | .fill _ _ _ _ _ => none
  | .drawPixel _ _ _ => none
  | .drawGlyph _ _ _ _ _ _ => none
  | .drawString _ _ _ _ _ _ _ => none
  | .drawWrapped _ _ _ _ _ _ _ => none
  | .drawFormatted _ _ _ _ _ _ _ => none
  | .ledInit _ _ => none
  | .pack565 _ _ _ => none
  | .hsv2rgb _ _ _ => none

/-- The LED unit when the request of SEND for the colour `c` is never answered: the engine stays with it, and what the LED shows is unknown
(log 6, log 15, log 16). -/
def LedUnit.unanswered (cfg : Config) (c : Rgb) (answers : List Answer) (o : Latches) (u : LedUnit) : LedUnit :=
  let w := wireBytes cfg.wireOrder c
  { u with
    trace := u.trace ++ [.txReq w.toList .never], encBytes := w, op := o, inFlight := true
    env := { u.env with answers, shown := none } }

/-- The LED unit when SEND's request has been accepted and the peripheral does nothing more after `n` slots of the train have been filled:
24 symbols and the reset pulse make 25 slots, so the first `2 * n` events of `trainEvents` are out (R215, R217, R220; log 6, log 16). -/
def LedUnit.stalled (cfg : Config) (c : Rgb) (answers : List Answer) (moves : List PeripheralMove) (o : Latches) (n : Nat) (u : LedUnit) :
    LedUnit :=
  let w := wireBytes cfg.wireOrder c
  { u with
    trace := u.trace ++ (.txReq w.toList .ok :: (trainEvents u.ticks w).take (2 * n)), encBytes := w, op := o, busy := true, inFlight := true
    encPhase := if n = 24 then .reset else .color, encBitpos := if n ≤ 24 then n else 0
    env := { u.env with answers, moves, shown := none, line := if n = 0 then u.env.line else some .low } }

/-! ### Statuses and descriptors -/

/-- The matrix of 60_exceptions.md R278. -/
def statusAllowed : Opcode → Status → Bool
  | .panelInit, st => st = .ok || st = .peripheralError
  | .setWindow, st => st = .ok || st = .notInitialized || st = .invalidBounds || st = .peripheralError
  | .fill, st => st = .ok || st = .notInitialized || st = .invalidBounds || st = .peripheralError
  | .drawPixel, st => st = .ok || st = .notInitialized || st = .invalidBounds || st = .peripheralError
  | .drawGlyph, st => st = .ok || st = .notInitialized || st = .invalidBounds || st = .peripheralError
  | .drawString, st => st = .ok || st = .notInitialized || st = .peripheralError
  | .drawWrapped, st => st = .ok || st = .notInitialized || st = .invalidBounds || st = .peripheralError
  | .drawFormatted, st => st = .ok || st = .notInitialized || st = .invalidBounds || st = .peripheralError
  | .ledInit, st => st = .ok || st = .peripheralError || st = .configurationError
  | .setColor, st => st = .ok || st = .notInitialized || st = .transmitError
  | .setHsv, st => st = .ok || st = .notInitialized || st = .transmitError
  | .turnOff, st => st = .ok || st = .notInitialized || st = .transmitError
  | .ledDeinit, st => st = .ok || st = .transmitError
  | .pack565, st => st = .ok
  | .hsv2rgb, st => st = .ok

/-- The status register of a unit. -/
def State.statusOf (s : State) : BlockUnit → Status
  | .panel => s.pu.status
  | .led => s.lu.status
  | .utility => s.cu.status

/-- An operation issued to this unit has not ended. -/
def State.inFlightOf (s : State) : BlockUnit → Bool
  | .panel => s.pu.inFlight
  | .led => s.lu.inFlight
  | .utility => false

/-- Format T (30_encoding.md R100). -/
def isTextOpcode : Opcode → Bool
  | .drawString => true
  | .drawWrapped => true
  | .drawFormatted => true
  | _ => false

/-- The illegal descriptors, as 30_encoding.md R110 lists them. -/
def illegalByRule (d : List Byte) : Bool :=
  match d with
  | [] => true
  | op :: _ =>
    match opcodeOf op with
    | none => true
    | some o =>
      decide (d.length ≠ descriptorLength o d) ||
      (isTextOpcode o && decide (1 < (d.getD 10 0).toNat)) ||
      (decide (o = .drawString) && decide (d.getD 10 0 ≠ 0))

end Sys2Proof.Machine
end

