-- ==== Sys2Proof/Certificates/Slice0/Obligations.lean ====
section
/-! DEFINITION. The statements for the provers. Every one is about every state and every configuration; what a statement needs of the
configuration (00_scope.md R6) it says in a premise (`PanelIdle`, `LedIdle` or `cfg.valid`). Where an operation's meaning is stated, the
conclusion gives the whole next state: what it does not name is unchanged. Such a conclusion also gives the operand latches, written at
issue (10_state.md R21, 20_memory.md R91), and the work state, cleared at the end (R36, R37; that nothing of it is left is written as
`Transient.clear`, log 10). How the environment answers is a script in the state (log 5). -/

open Sys2Proof Sys2Proof.Machine

/-! ### Descriptors -/

/-- Decoding the descriptor of a well-formed operation gives the operation back, with every operand at every value (R101 to R109, R111). -/
def Obligations.DecodeOfEncode : Prop := ∀ i : Instr, WellFormed i → decode (encode i) = .ok i

/-- A descriptor that decodes spells a well-formed operation, and is that operation's only descriptor. -/
def Obligations.EncodeOfDecode : Prop := ∀ (d : List Byte) (i : Instr), decode d = .ok i → WellFormed i ∧ encode i = d

/-- R110, R276: the illegal descriptors are those of the rule's list, and issuing one changes the status register of the unit that the high
nibble names and nothing else. That this holds while an engine is in flight too is the model's choice (log 22, DEDUCED: U5 could be read to
cover it). -/
def Obligations.IllegalDescriptors : Prop :=
  ∀ (s : State) (d : List Byte) (rest : List (List Byte)), s.pending = d :: rest → s.cfg.valid = true →
    ((∃ e, decode d = .error e) ↔ illegalByRule d = true) ∧
    (illegalByRule d = true →
      step s = .next
        (match d with
        | [] => { s with pending := rest, cu := { s.cu with status := .illegalCommand } }
        | op :: _ =>
          if op.toNat / 16 = 1 then { s with pending := rest, pu := { s.pu with status := .illegalCommand } }
          else if op.toNat / 16 = 2 then { s with pending := rest, lu := { s.lu with status := .illegalCommand } }
          else { s with pending := rest, cu := { s.cu with status := .illegalCommand } }))

/-- One descriptor of each of the fifteen operations, written out from R100 and R102 to R109, decodes to its operation. -/
def Obligations.WrittenWordsDecode : Prop :=
  decode [0x10, 1, 2, 3, 4, 5, 0x02, 0x62, 0x5A, 0x00] = .ok (.panelInit 1 2 3 4 5 0x02625A00) ∧
  decode [0x11, 0x01, 0x02, 0x03, 0x04, 0x05, 0x06, 0x07, 0x08] = .ok (.setWindow 0x0102 0x0304 0x0506 0x0708) ∧
  decode [0x12, 0xF8, 0x00, 0x00, 0x0A, 0x00, 0x14, 0x00, 0x04, 0x00, 0x02] = .ok (.fill 0xF800 10 20 4 2) ∧
  decode [0x13, 0x00, 0xAB, 0x01, 0x3F, 0xF8, 0x00] = .ok (.drawPixel 171 319 0xF800) ∧
  decode [0x14, 0x01, 0x02, 0x03, 0x04, 0x41, 0xFF, 0xFE, 0x00, 0x01, 0x02] = .ok (.drawGlyph 0x0102 0x0304 0x41 0xFFFE 0x0001 2) ∧
  decode [0x15, 0x00, 0x96, 0x00, 0x07, 0xFF, 0xFE, 0x00, 0x01, 0x03, 0x00, 0x00, 0x02, 0x41, 0x42] =
    .ok (.drawString 150 7 0xFFFE 0x0001 3 0 [0x41, 0x42]) ∧
  decode [0x16, 0x00, 0x05, 0x00, 0x06, 0x12, 0x34, 0x56, 0x78, 0x03, 0x01, 0x00, 0x02, 0x48, 0x69] =
    .ok (.drawWrapped 5 6 0x1234 0x5678 3 1 [0x48, 0x69]) ∧
  decode [0x17, 0x00, 0x05, 0x00, 0x06, 0x12, 0x34, 0x56, 0x78, 0x03, 0x00, 0x00, 0x01, 0x48] =
    .ok (.drawFormatted 5 6 0x1234 0x5678 3 0 [0x48]) ∧
  decode [0x20, 0x08, 0x01] = .ok (.ledInit 8 1) ∧
  decode [0x21, 0x10, 0x20, 0x30] = .ok (.setColor 0x10 0x20 0x30) ∧
  decode [0x22, 0x01, 0x68, 0x64, 0x32] = .ok (.setHsv 360 100 50) ∧
  decode [0x23] = .ok .turnOff ∧
  decode [0x24] = .ok .ledDeinit ∧
  decode [0x30, 0x12, 0x34, 0x56] = .ok (.pack565 0x12 0x34 0x56) ∧
  decode [0x31, 0x00, 0xF0, 0x64, 0x32] = .ok (.hsv2rgb 240 100 50)

/-- A step takes the oldest pending descriptor, and when that decodes to an operation the step is that operation; when nothing is pending,
nothing happens (log 4). -/
def Obligations.StepRunsDecoded : Prop :=
  (∀ (s : State) (d : List Byte) (rest : List (List Byte)) (i : Instr), s.pending = d :: rest → decode d = .ok i →
    step s = exec i { s with pending := rest }) ∧
  (∀ s : State, s.pending = [] → step s = .next s)

/-- A word of the opcode table, stored where the next step takes its descriptor from, runs as the operation the decoder reads from it (log 20). -/
def Obligations.FetchWordRuns : Prop :=
  ∀ (s : State) (nbits w : Nat) (i : Instr), decodeTableWord nbits w = some i → step (s.withFetchWord nbits w) = exec i s

/-! ### Reset, invariants, the two engines -/

/-- R311, R312: what reset leaves, for every configuration; and nothing is known of the panel, of the lines and of the LED. -/
def Obligations.ResetLeaves : Prop :=
  ∀ c : Config, let s := State.resetOf c
    s.pu.init = false ∧ s.lu.init = false ∧
    s.pu.status = .ok ∧ s.lu.status = .ok ∧ s.cu.status = .ok ∧
    s.pu.setupErrs = 0 ∧ s.lu.encPhase = .color ∧ s.lu.encBitpos = 0 ∧ s.lu.busy = false ∧ s.lu.colorValid = false ∧
    s.pu.trace = [] ∧ s.lu.trace = [] ∧ s.cfg = c ∧
    s.pu.env.sink.sync = false ∧ s.pu.env.sink.haveCol = false ∧ s.pu.env.sink.haveRow = false ∧ s.pu.env.sink.mode = .idle ∧
    (∀ x y, s.pixelAt x y = none) ∧
    s.pu.env.dcLine = none ∧ s.pu.env.rstLine = none ∧ s.lu.env.line = none ∧ s.lu.env.shown = none

/-- The invariants hold after reset, for every configuration. -/
def Obligations.InvariantsAtReset : Prop := ∀ c : Config, (State.resetOf c).Coherent ∧ (State.resetOf c).SinkFollowsTrace

/-- Every step keeps a state coherent: the panel memory in its canonical form, nothing left of a finished operation, the reset line released
once initialised; the encoder at rest between operations, every tick count at least 1, the data line low, the valid colour the shown one. -/
def Obligations.StepKeepsCoherent : Prop := ∀ s t : State, s.Coherent → step s = .next t → t.Coherent

/-- Every step keeps the panel what its whole trace makes of it. -/
def Obligations.StepKeepsSinkFollowsTrace : Prop := ∀ s t : State, s.SinkFollowsTrace → step s = .next t → t.SinkFollowsTrace

/-- From a coherent state no step faults. -/
def Obligations.CoherentNeverFaults : Prop := ∀ (s : State) (f : Fault), s.Coherent → step s ≠ .fault f

/-- R39: both traces are empty at reset, and an event once appended is never changed or removed. -/
def Obligations.TracesOnlyGrow : Prop :=
  (∀ c : Config, (State.resetOf c).pu.trace = [] ∧ (State.resetOf c).lu.trace = []) ∧
  (∀ s t : State, step s = .next t → s.pu.trace <+: t.pu.trace ∧ s.lu.trace <+: t.lu.trace)

/-- An operation changes its own unit only: not the other engine, not the Colour Utility (or the engines), not the parameters (R41), not the
descriptors that wait. The panel's memory is the Panel Engine's, so no other operation changes a pixel. -/
def Obligations.OperationsKeepOtherUnits : Prop :=
  ∀ (i : Instr) (s t : State), exec i s = .next t →
    t.cfg = s.cfg ∧ t.pending = s.pending ∧
    (unitOf i ≠ .panel → t.pu = s.pu) ∧ (unitOf i ≠ .led → t.lu = s.lu) ∧ (unitOf i ≠ .utility → t.cu = s.cu)

/-- R92, R293: operations of different units commute: in either order they end in the same state. -/
def Obligations.UnitsCommute : Prop :=
  ∀ (i j : Instr) (s a b : State), unitOf i ≠ unitOf j → exec i s = .next a → exec j a = .next b →
    ∃ c, exec j s = .next c ∧ exec i c = .next b

/-- R290, R316: the Panel Engine is initialised by PANEL_INIT ending `OK` and never back; the LED Engine by LED_INIT ending `OK`, and back by
LED_DEINIT. No other operation changes an init flag. -/
def Obligations.InitFlagLifeCycle : Prop :=
  ∀ (i : Instr) (s t : State), exec i s = .next t →
    (t.pu.init ≠ s.pu.init → s.pu.init = false ∧ t.pu.init = true ∧ opcode i = .panelInit ∧ t.pu.status = .ok ∧ t.pu.inFlight = false) ∧
    (t.lu.init ≠ s.lu.init →
      (s.lu.init = false ∧ t.lu.init = true ∧ opcode i = .ledInit ∧ t.lu.status = .ok ∧ t.lu.inFlight = false) ∨
      (s.lu.init = true ∧ t.lu.init = false ∧ opcode i = .ledDeinit ∧ t.lu.inFlight = false))

/-- R278: an operation that ends leaves in its unit's register a status that the matrix marks for it. R270, R43: the host reads a status
register as its number, and every other register it can read as the value it holds. -/
def Obligations.StatusMatrix : Prop :=
  (∀ (i : Instr) (s t : State), exec i s = .next t → t.inFlightOf (unitOf i) = false →
    statusAllowed (opcode i) (t.statusOf (unitOf i)) = true) ∧
  ([Status.ok, .notInitialized, .invalidBounds, .peripheralError, .transmitError, .configurationError, .illegalCommand].map statusCode =
    [0, 1, 2, 3, 4, 5, 6]) ∧
  (∀ s : State,
    (s.hostRead .peStatus = (statusCode s.pu.status).toNat ∧ s.hostRead .leStatus = (statusCode s.lu.status).toNat ∧
      s.hostRead .cuStatus = (statusCode s.cu.status).toNat) ∧
    (s.hostRead .peSetupErrs = s.pu.setupErrs.toNat ∧ s.hostRead .cuResult = s.cu.result.toNat) ∧
    (s.hostRead .peCfgPinDc = s.pu.pins.pinDc.toNat ∧ s.hostRead .peCfgPinRst = s.pu.pins.pinRst.toNat ∧
      s.hostRead .peCfgPinCs = s.pu.pins.pinCs.toNat ∧ s.hostRead .peCfgPinSclk = s.pu.pins.pinSclk.toNat ∧
      s.hostRead .peCfgPinMosi = s.pu.pins.pinMosi.toNat ∧ s.hostRead .peCfgBusHz = s.pu.pins.busHz.toNat) ∧
    (s.hostRead .leCfgPin = s.lu.pins.pin.toNat ∧ s.hostRead .leCfgChan = s.lu.pins.chan.toNat) ∧
    (s.hostRead .boundsMaxX = s.pu.boundsMaxX.toNat ∧ s.hostRead .boundsHeight = s.pu.boundsHeight.toNat ∧
      s.hostRead .boundsLines = s.pu.boundsLines.toNat) ∧
    (s.hostRead .peInit = if s.pu.init then 1 else 0) ∧ (s.hostRead .leInit = if s.lu.init then 1 else 0))

/-- R271: `NotInitialized` is what the ten operations of the rule end with on an uninitialised engine, with no event, and what no operation
ends with otherwise. -/
def Obligations.NotInitializedExactly : Prop :=
  (∀ (i : Instr) (s : State), needsInit i = true → s.cfg.valid = true → s.inFlightOf (unitOf i) = false → s.initOf (unitOf i) = false →
    ∃ t, exec i s = .next t ∧ t.statusOf (unitOf i) = .notInitialized ∧ t.inFlightOf (unitOf i) = false ∧
      t.pu.trace = s.pu.trace ∧ t.lu.trace = s.lu.trace ∧ t.pu.env = s.pu.env ∧ t.lu.env = s.lu.env) ∧
  (∀ (i : Instr) (s t : State), exec i s = .next t → t.inFlightOf (unitOf i) = false → t.statusOf (unitOf i) = .notInitialized →
    needsInit i = true ∧ s.initOf (unitOf i) = false)

/-! ### What is refused, and an answer that never comes -/

/-- R6: a configuration that breaks a constraint is refused before any operation. That an illegal descriptor is refused too then is the
model's choice (log 22, DEDUCED). What a valid configuration is: the rows of R6; and, not in R6's list, the values R5 marks normative and
the shape of the font table (R61, R38), which the model demands with them (log 1). -/
def Obligations.InvalidConfigurationRefused : Prop :=
  (∀ c : Config, c.valid = true ↔
    (c.safeX + c.safeW ≤ c.panelW ∧ c.safeY + c.safeH ≤ c.panelH) ∧ (1 ≤ c.panelW ∧ 1 ≤ c.panelH) ∧
    (c.panelW + c.colOffset ≤ 65536 ∧ c.panelH + c.rowOffset ≤ 65536) ∧ (c.safeW ≤ 65535 ∧ c.safeH ≤ 65535) ∧
    (c.cmdCaset ≠ c.cmdRaset ∧ c.cmdCaset ≠ c.cmdRamwr ∧ c.cmdRaset ≠ c.cmdRamwr) ∧
    (∀ e ∈ c.initSeq, e.cmd ≠ c.cmdCaset ∧ e.cmd ≠ c.cmdRaset ∧ e.cmd ≠ c.cmdRamwr) ∧
    (1 ≤ c.chunkPixels ∧ 1 ≤ c.fmtBuf ∧ 1 ≤ c.symbuf) ∧ (100 ≤ c.resetLowUnits ∧ 100 ≤ c.resetWaitUnits) ∧
    (c.glyphW = 8 ∧ c.glyphH = 8 ∧ c.fontFirst = 0x20 ∧ c.fontLast = 0x7A ∧ c.lineGap = 2) ∧ c.font.length = 91 * 8) ∧
  (∀ (i : Instr) (s : State), s.cfg.valid = false → exec i s = .refused .invalidConfiguration) ∧
  (∀ s : State, s.cfg.valid = false → s.pending ≠ [] → step s = .refused .invalidConfiguration)

/-- U5, R320: an engine that has not finished its operation is given no other; the other engine is not concerned. -/
def Obligations.BusyEngineRefused : Prop :=
  ∀ (i : Instr) (s : State), s.cfg.valid = true →
    (unitOf i = .panel → s.pu.inFlight = true → exec i s = .refused .panelBusy) ∧
    (unitOf i = .led → s.lu.inFlight = true → exec i s = .refused .ledBusy)

/-- U1 to U4: the operands and states to which the spec gives no meaning are refused, each under its own name; and a refusal has one of
these grounds, a configuration that is not valid, or an engine in flight (U5). -/
def Obligations.UnspecifiedInputsRefused : Prop :=
  (∀ (dc rst cs sclk mosi : Byte) (hz : Word) (s : State), s.PanelIdle → s.pu.init = true →
    exec (.panelInit dc rst cs sclk mosi hz) s = .refused .panelAlreadyInitialized) ∧
  (∀ (color : Pixel) (x y w h : Half) (s : State), s.PanelReady → w = 0 ∨ h = 0 →
    exec (.fill color x y w h) s = .refused .emptyRectangle) ∧
  (∀ (x y : Half) (ch : Byte) (fg bg : Pixel) (s : State), s.PanelReady → exec (.drawGlyph x y ch fg bg 0) s = .refused .zeroScale) ∧
  (∀ (x y : Half) (fg bg : Pixel) (flags : Byte) (text : List Byte) (s : State), s.PanelReady →
    exec (.drawString x y fg bg 0 flags text) s = .refused .zeroScale ∧
    exec (.drawWrapped x y fg bg 0 flags text) s = .refused .zeroScale ∧
    exec (.drawFormatted x y fg bg 0 flags text) s = .refused .zeroScale) ∧
  (∀ (pin chan : Byte) (s : State), s.LedIdle → s.lu.init = true → exec (.ledInit pin chan) s = .refused .ledAlreadyInitialized) ∧
  (∀ (i : Instr) (s : State) (q : Refusal), exec i s = .refused q →
    (q = .invalidConfiguration ∧ s.cfg.valid = false) ∨
    (q = .panelBusy ∧ unitOf i = .panel ∧ s.pu.inFlight = true) ∨
    (q = .ledBusy ∧ unitOf i = .led ∧ s.lu.inFlight = true) ∨
    (q = .panelAlreadyInitialized ∧ opcode i = .panelInit ∧ s.pu.init = true) ∨
    (q = .emptyRectangle ∧ s.pu.init = true ∧ ∃ color x y w h, i = .fill color x y w h ∧ (w = 0 ∨ h = 0)) ∨
    (q = .zeroScale ∧ s.pu.init = true ∧
      ((∃ x y ch fg bg, i = .drawGlyph x y ch fg bg 0) ∨ (∃ x y fg bg flags text, i = .drawString x y fg bg 0 flags text) ∨
        (∃ x y fg bg flags text, i = .drawWrapped x y fg bg 0 flags text) ∨
        (∃ x y fg bg flags text, i = .drawFormatted x y fg bg 0 flags text))) ∨
    (q = .ledAlreadyInitialized ∧ opcode i = .ledInit ∧ s.lu.init = true))

/-- U9 (log 6, the model's form): an operation whose answer never comes does not end. First: an operation left in flight has written neither
its status register nor its init flag. Then, where it comes to that: a drawing operation whose `j`-th transaction is never answered; a
PANEL_INIT whose claim, or whose `j`-th set-up transaction, is never answered; a LED_INIT whose allocation is never answered; a colour
operation, or LED_DEINIT, whose request is never answered, or whose peripheral stops within the train (`n` of its 25 slots filled) or
before it has reported the train played. Each gives a next state with the engine in flight, the events up to that point, the operands in
their latches (R21: until it ends), and what the operation writes before that point: PANEL_INIT the pins and the error count, LED_INIT its
pin and channel, SEND the bytes and, once accepted, the busy flag and the encoder's place. How far a drawing operation's transient work
(R36, R37) stands is left open. -/
def Obligations.UnansweredOperationDoesNotEnd : Prop :=
  (∀ (i : Instr) (s t : State), exec i s = .next t → t.inFlightOf (unitOf i) = true →
    t.statusOf (unitOf i) = s.statusOf (unitOf i) ∧ t.initOf (unitOf i) = s.initOf (unitOf i) ∧ s.inFlightOf (unitOf i) = false) ∧
  (∀ (i : Instr) (s : State) (cs : List TxContent) (j : Nat) (rest : List Answer), s.PanelReady → drawingTx s.cfg i = some cs →
    j < cs.length → s.pu.env.answers = List.replicate j .ok ++ .never :: rest →
    ∃ w, exec i s = .next { s with pu := s.pu.waiting s.cfg (neverAt cs j) rest (latchedBy s.pu.op i) w }) ∧
  (∀ (dc rst cs sclk mosi : Byte) (hz : Word) (s : State), s.PanelIdle → s.pu.init = false →
    let o := { s.pu.op with pinDc := dc, pinRst := rst, pinCs := cs, pinSclk := sclk, pinMosi := mosi, busHz := hz }
    let pins : PanelPins := { pinDc := dc, pinRst := rst, pinCs := cs, pinSclk := sclk, pinMosi := mosi, busHz := hz }
    (∀ rest : List Answer, s.pu.env.answers = .never :: rest →
      exec (.panelInit dc rst cs sclk mosi hz) s = .next { s with
        pu := { s.pu.waiting s.cfg [.claim .never] rest o s.pu.work with setupErrs := 0, pins } }) ∧
    (∀ (j : Nat) (rest : List Answer), j < (setupTxs s.cfg).length → s.pu.env.answers = .ok :: List.replicate j .ok ++ .never :: rest →
      ∃ before c behind, s.cfg.initSeq.flatMap entryEvents = before ++ txEvent .ok c :: behind ∧ (before.filterMap txOf).length = j ∧
        exec (.panelInit dc rst cs sclk mosi hz) s = .next { s with
          pu := { s.pu.waiting s.cfg (.claim .ok :: resetEvents s.cfg ++ before ++ [txEvent .never c]) rest o s.pu.work with
            setupErrs := 0, pins } })) ∧
  (∀ (pin chan : Byte) (s : State) (rest : List Answer), s.LedIdle → s.lu.init = false → s.lu.env.answers = .never :: rest →
    exec (.ledInit pin chan) s = .next { s with
      lu := { s.lu with op := { s.lu.op with pin, chan }, pins := { pin, chan }, inFlight := true
                        trace := s.lu.trace ++ [.pinOutLow pin, .chanAlloc s.cfg.resHz .never]
                        env := { s.lu.env with answers := rest, line := some .low } } }) ∧
  (∀ (i : Instr) (s : State) (c : Rgb) (rest : List Answer), sentBy i = some c →
    let o := latchedBy s.lu.op i
    (s.LedIdle → s.lu.init = true → s.lu.busy = false → s.lu.env.answers = .never :: rest →
      exec i s = .next { s with lu := s.lu.unanswered s.cfg c rest o }) ∧
    (∀ (slots : List Nat) (moves : List PeripheralMove), s.LedReady → s.lu.env.answers = .ok :: rest →
      s.lu.env.moves = slots.map .proceed ++ .stall :: moves →
      let filled := fun l : List Nat => (l.map fun k => max 1 (min k s.cfg.symbuf)).sum
      (filled slots ≤ 24 → exec i s = .next { s with lu := s.lu.stalled s.cfg c rest moves o (filled slots) }) ∧
      (filled slots.dropLast ≤ 24 → 25 ≤ filled slots →
        exec i s = .next { s with lu := s.lu.stalled s.cfg c rest moves o 25 })))

/-! ### PANEL_INIT -/

/-- PANEL_INIT with every answer `ok` (R141, R142, R115): the whole trace, the pins, the error count and the init flag. -/
def Obligations.PanelInitCompletes : Prop :=
  ∀ (dc rst cs sclk mosi : Byte) (hz : Word) (s : State) (rest : List Answer), s.PanelIdle → s.pu.init = false →
    s.pu.env.answers = List.replicate (1 + (setupTxs s.cfg).length) .ok ++ rest →
    exec (.panelInit dc rst cs sclk mosi hz) s = .next { s with
      pu := { s.pu.ended s.cfg (initEvents s.cfg) rest
                { s.pu.op with pinDc := dc, pinRst := rst, pinCs := cs, pinSclk := sclk, pinMosi := mosi, busHz := hz } .ok with
        init := true, setupErrs := 0
        pins := { pinDc := dc, pinRst := rst, pinCs := cs, pinSclk := sclk, pinMosi := mosi, busHz := hz } } }

/-- R145: when the bus claim fails nothing further is emitted; the pins stay latched and the engine stays uninitialised (R141); the latches
and the cleared work are log 9 and log 10. -/
def Obligations.PanelInitClaimFails : Prop :=
  ∀ (dc rst cs sclk mosi : Byte) (hz : Word) (s : State) (rest : List Answer), s.PanelIdle → s.pu.init = false →
    s.pu.env.answers = .fail :: rest →
    exec (.panelInit dc rst cs sclk mosi hz) s = .next { s with
      pu := { s.pu.ended s.cfg [.claim .fail] rest
                { s.pu.op with pinDc := dc, pinRst := rst, pinCs := cs, pinSclk := sclk, pinMosi := mosi, busHz := hz } .peripheralError with
        setupErrs := 0
        pins := { pinDc := dc, pinRst := rst, pinCs := cs, pinSclk := sclk, pinMosi := mosi, busHz := hz } } }

/-- R144: a failed set-up transaction. Under `IGNORE` each is logged and counted, the count saturating, every entry is sent all the same,
PANEL_INIT ends `OK`, and after a failure the panel sink is in the failed state of R85. Under `PROPAGATE` the first failure ends the
operation with `PeripheralError`; nothing follows the failed transaction, and the engine stays uninitialised. The latches and the cleared
work are log 9 and log 10. -/
def Obligations.SetupFailurePolicy : Prop :=
  ∀ (dc rst cs sclk mosi : Byte) (hz : Word) (s : State), s.PanelIdle → s.pu.init = false →
    let o := { s.pu.op with pinDc := dc, pinRst := rst, pinCs := cs, pinSclk := sclk, pinMosi := mosi, busHz := hz }
    let pins : PanelPins := { pinDc := dc, pinRst := rst, pinCs := cs, pinSclk := sclk, pinMosi := mosi, busHz := hz }
    (s.cfg.initErrPolicy = .ignore → ∀ as rest : List Answer, as.length = (setupTxs s.cfg).length → Answer.never ∉ as →
      s.pu.env.answers = .ok :: as ++ rest →
      ∃ t, exec (.panelInit dc rst cs sclk mosi hz) s = .next t ∧
        t = { s with
          pu := { s.pu.ended s.cfg (.claim .ok :: resetEvents s.cfg ++ ignoredEvents s.cfg.initSeq as) rest o .ok with
            init := true, setupErrs := BitVec.ofNat 16 (min (as.count .fail) 65535), pins } } ∧
        (Answer.fail ∈ as → t.pu.env.sink.dead = true)) ∧
    (s.cfg.initErrPolicy = .propagate → ∀ (j : Nat) (rest : List Answer), j < (setupTxs s.cfg).length →
      s.pu.env.answers = .ok :: List.replicate j .ok ++ .fail :: rest →
      ∃ before c behind, s.cfg.initSeq.flatMap entryEvents = before ++ txEvent .ok c :: behind ∧ (before.filterMap txOf).length = j ∧
        exec (.panelInit dc rst cs sclk mosi hz) s = .next { s with
          pu := { s.pu.ended s.cfg (.claim .ok :: resetEvents s.cfg ++ before ++ [txEvent .fail c]) rest o .peripheralError with
            setupErrs := 0, pins } })

/-- After PANEL_INIT the panel's memory and window are unknown: the reset made them so and no step of it writes pixel data (R80, R314). -/
def Obligations.PanelUnknownAfterInit : Prop :=
  ∀ (dc rst cs sclk mosi : Byte) (hz : Word) (s t : State), s.pu.env.sink.dead = false →
    exec (.panelInit dc rst cs sclk mosi hz) s = .next t → t.pu.status = .ok → t.pu.inFlight = false →
    t.pu.env.sink.mem = [] ∧ t.pu.env.sink.sync = false ∧ t.pu.env.rstLine = some .high

/-! ### SET_WINDOW -/

/-- R151: every case of SET_WINDOW in which the panel answers (UnansweredOperationDoesNotEnd has the others). -/
def Obligations.SetWindowMeaning : Prop :=
  ∀ (x0 y0 x1 y1 : Half) (s : State), s.PanelIdle →
    let o := { s.pu.op with x0, y0, x1, y1 }
    let cs := windowTx s.cfg x0.toNat y0.toNat x1.toNat y1.toNat
    let inside := x0.toNat ≤ x1.toNat ∧ x1.toNat < s.cfg.panelW ∧ y0.toNat ≤ y1.toNat ∧ y1.toNat < s.cfg.panelH
    (s.pu.init = false → exec (.setWindow x0 y0 x1 y1) s = .next { s with pu := s.pu.endedEarly o .notInitialized }) ∧
    (s.pu.init = true → ¬ inside → exec (.setWindow x0 y0 x1 y1) s = .next { s with pu := s.pu.endedEarly o .invalidBounds }) ∧
    (s.pu.init = true → inside → ∀ rest, s.pu.env.answers = List.replicate 5 .ok ++ rest →
      exec (.setWindow x0 y0 x1 y1) s = .next { s with pu := s.pu.ended s.cfg (okEvents cs) rest o .ok }) ∧
    (s.pu.init = true → inside → ∀ j rest, j < 5 → s.pu.env.answers = List.replicate j .ok ++ .fail :: rest →
      exec (.setWindow x0 y0 x1 y1) s = .next { s with pu := s.pu.ended s.cfg (failedAt cs j) rest o .peripheralError })

/-- R152, R81, R82: after SET_WINDOW ends `OK` the panel is in its pixel-write mode with an empty stream, its window is the rectangle with the
offsets added, and no byte of its memory has changed. -/
def Obligations.SetWindowOnPanel : Prop :=
  ∀ (x0 y0 x1 y1 : Half) (s t : State), s.PanelReady → s.pu.env.sink.dead = false →
    exec (.setWindow x0 y0 x1 y1) s = .next t → t.pu.status = .ok → t.pu.inFlight = false →
    t.pu.env.sink.mode = .write ∧ t.pu.env.sink.sync = true ∧ t.pu.env.sink.k = 0 ∧
    t.pu.env.sink.xs.toNat = x0.toNat + s.cfg.colOffset ∧ t.pu.env.sink.xe.toNat = x1.toNat + s.cfg.colOffset ∧
    t.pu.env.sink.ys.toNat = y0.toNat + s.cfg.rowOffset ∧ t.pu.env.sink.ye.toNat = y1.toNat + s.cfg.rowOffset ∧
    t.pu.env.sink.mem = s.pu.env.sink.mem

/-! ### FILL and DRAW_PIXEL -/

/-- R161: every case of FILL in which the panel answers. -/
def Obligations.FillMeaning : Prop :=
  ∀ (color : Pixel) (x y w h : Half) (s : State), s.PanelIdle →
    let o := { s.pu.op with color, x, y, w, h }
    let cs := fillTx s.cfg color x.toNat y.toNat w.toNat h.toNat
    let inside := x.toNat + w.toNat ≤ s.cfg.panelW ∧ y.toNat + h.toNat ≤ s.cfg.panelH
    (s.pu.init = false → exec (.fill color x y w h) s = .next { s with pu := s.pu.endedEarly o .notInitialized }) ∧
    (s.pu.init = true → w = 0 ∨ h = 0 → exec (.fill color x y w h) s = .refused .emptyRectangle) ∧
    (s.pu.init = true → w ≠ 0 → h ≠ 0 → ¬ inside →
      exec (.fill color x y w h) s = .next { s with pu := s.pu.endedEarly o .invalidBounds }) ∧
    (s.pu.init = true → w ≠ 0 → h ≠ 0 → inside → ∀ rest, s.pu.env.answers = List.replicate cs.length .ok ++ rest →
      exec (.fill color x y w h) s = .next { s with pu := s.pu.ended s.cfg (okEvents cs) rest o .ok }) ∧
    (s.pu.init = true → w ≠ 0 → h ≠ 0 → inside → ∀ j rest, j < cs.length → s.pu.env.answers = List.replicate j .ok ++ .fail :: rest →
      exec (.fill color x y w h) s = .next { s with pu := s.pu.ended s.cfg (failedAt cs j) rest o .peripheralError })

/-- R162: STREAM sends `n` copies of a pixel in chunks: how many, how large, and what they carry together. -/
def Obligations.StreamChunks : Prop :=
  ∀ (cfg : Config) (color : Pixel) (n : Nat) (u : PanelUnit) (rest : List Answer), 1 ≤ cfg.chunkPixels → 1 ≤ n →
    let sizes := chunkSizes n cfg.chunkPixels
    u.env.answers = List.replicate sizes.length .ok ++ rest →
    (stream cfg color n u).1 = .done ∧
    (stream cfg color n u).2.trace = u.trace ++ sizes.map (fun k => .tx .data (chunkBytes color k) .ok) ∧
    sizes.length = (n + cfg.chunkPixels - 1) / cfg.chunkPixels ∧
    (∀ k ∈ sizes.dropLast, k = cfg.chunkPixels) ∧
    sizes.getLast? = some (n - cfg.chunkPixels * ((n - 1) / cfg.chunkPixels)) ∧
    (sizes.map (chunkBytes color)).flatten = (List.replicate n (be16 color)).flatten

/-- R163: after FILL ends `OK` the panel holds the colour at every pixel of the rectangle and is otherwise unchanged, byte by byte; its window
is left set to the rectangle, in pixel-write mode, full. -/
def Obligations.FillPaintsRectangle : Prop :=
  ∀ (color : Pixel) (x y w h : Half) (s t : State), s.PanelReady → s.pu.env.sink.dead = false → s.pu.env.sink.mem.wf = true →
    exec (.fill color x y w h) s = .next t → t.pu.status = .ok → t.pu.inFlight = false →
    (∀ i j, i < w.toNat → j < h.toNat → t.pixelAt (x.toNat + i) (y.toNat + j) = some color) ∧
    (∀ a, ¬ InRectangle s.cfg x.toNat y.toNat w.toNat h.toNat a → t.pu.env.sink.mem.read a = s.pu.env.sink.mem.read a) ∧
    t.pu.env.sink.mode = .write ∧ t.pu.env.sink.sync = true ∧
    t.pu.env.sink.xs.toNat = x.toNat + s.cfg.colOffset ∧ t.pu.env.sink.xe.toNat = x.toNat + w.toNat - 1 + s.cfg.colOffset ∧
    t.pu.env.sink.ys.toNat = y.toNat + s.cfg.rowOffset ∧ t.pu.env.sink.ye.toNat = y.toNat + h.toNat - 1 + s.cfg.rowOffset ∧
    t.pu.env.sink.k = w.toNat * h.toNat

/-- R77: two traces that differ only in where the pixel stream is cut write the same panel memory: `CHUNK_PIXELS` does not matter to it. -/
def Obligations.ChunkSizeDoesNotMatter : Prop :=
  ∀ (color : Pixel) (x y w h : Half) (n : Nat) (s t t' : State), s.PanelReady → 1 ≤ n → s.pu.env.sink.mem.wf = true →
    exec (.fill color x y w h) s = .next t → t.pu.status = .ok → t.pu.inFlight = false →
    exec (.fill color x y w h) { s with cfg := { s.cfg with chunkPixels := n } } = .next t' → t'.pu.status = .ok → t'.pu.inFlight = false →
    t'.pu.env.sink = t.pu.env.sink

/-- R165: every case of DRAW_PIXEL in which the panel answers. -/
def Obligations.DrawPixelMeaning : Prop :=
  ∀ (x y : Half) (color : Pixel) (s : State), s.PanelIdle →
    let o := { s.pu.op with x, y, color }
    let cs := windowTx s.cfg x.toNat y.toNat x.toNat y.toNat ++ [(DcLine.data, be16 color)]
    let inside := x.toNat + 1 ≤ s.cfg.panelW ∧ y.toNat + 1 ≤ s.cfg.panelH
    (s.pu.init = false → exec (.drawPixel x y color) s = .next { s with pu := s.pu.endedEarly o .notInitialized }) ∧
    (s.pu.init = true → ¬ inside → exec (.drawPixel x y color) s = .next { s with pu := s.pu.endedEarly o .invalidBounds }) ∧
    (s.pu.init = true → inside → ∀ rest, s.pu.env.answers = List.replicate 6 .ok ++ rest →
      exec (.drawPixel x y color) s = .next { s with pu := s.pu.ended s.cfg (okEvents cs) rest o .ok }) ∧
    (s.pu.init = true → inside → ∀ j rest, j < 6 → s.pu.env.answers = List.replicate j .ok ++ .fail :: rest →
      exec (.drawPixel x y color) s = .next { s with pu := s.pu.ended s.cfg (failedAt cs j) rest o .peripheralError })

/-- R125: DRAW_PIXEL is FILL with a rectangle of 1 by 1: the same status, trace and state, whatever the answers. -/
def Obligations.DrawPixelIsFill : Prop :=
  ∀ (x y : Half) (color : Pixel) (s : State), SamePanelEffect (exec (.drawPixel x y color) s) (exec (.fill color x y 1 1) s)

/-- R84: a data transaction in mode `WRITE` with a known window writes its pixels one after the other, row by row, and advances the write
position; more pixels than the window holds leave the panel unknown. -/
def Obligations.StreamPlacesPixels : Prop :=
  ∀ (cfg : Config) (p : PanelSink) (vs : List Pixel), p.dead = false → p.mode = .write → p.sync = true → p.mem.wf = true →
    p.xs.toNat ≤ p.xe.toNat → p.ys.toNat ≤ p.ye.toNat →
    let ww := p.xe.toNat - p.xs.toNat + 1
    let wh := p.ye.toNat - p.ys.toNat + 1
    (p.k + vs.length ≤ ww * wh →
      p.observe cfg (.tx .data (pixelBytes vs) .ok) =
        { p with mem := gramWriteLoop p.xs.toNat p.ys.toNat ww p.k vs p.mem, k := p.k + vs.length }) ∧
    (ww * wh < p.k + vs.length →
      p.observe cfg (.tx .data (pixelBytes vs) .ok) = { p with sync := false, haveCol := false, haveRow := false, mem := [] })

/-- R85: a transaction answered `fail` leaves the panel unknown, and so it stays: every later event is ignored, by every later step too. -/
def Obligations.PanelDeadForGood : Prop :=
  (∀ (cfg : Config) (p : PanelSink) (dc : DcLine) (bytes : List Byte), p.dead = false →
    p.observe cfg (.tx dc bytes .fail) =
      { p with sync := false, haveCol := false, haveRow := false, mode := .idle, mem := [], dead := true }) ∧
  (∀ (cfg : Config) (p : PanelSink) (e : PanelEvent), p.dead = true → p.observe cfg e = p) ∧
  (∀ s t : State, s.pu.env.sink.dead = true → step s = .next t → t.pu.env.sink = s.pu.env.sink)

/-! ### Glyphs and text -/

/-- R176, R177: every case of DRAW_GLYPH in which the panel answers. -/
def Obligations.DrawGlyphMeaning : Prop :=
  ∀ (x y : Half) (ch : Byte) (fg bg : Pixel) (scale : Byte) (s : State), s.PanelIdle →
    let o := { s.pu.op with x, y, ch, fg, bg, scale }
    let gw := 8 * scale.toNat
    let cs := glyphTx s.cfg x.toNat y.toNat ch fg bg scale.toNat
    let inside := x.toNat + gw ≤ s.cfg.panelW ∧ y.toNat + gw ≤ s.cfg.panelH
    (s.pu.init = false → exec (.drawGlyph x y ch fg bg scale) s = .next { s with pu := s.pu.endedEarly o .notInitialized }) ∧
    (s.pu.init = true → scale = 0 → exec (.drawGlyph x y ch fg bg scale) s = .refused .zeroScale) ∧
    (s.pu.init = true → scale ≠ 0 → ¬ inside →
      exec (.drawGlyph x y ch fg bg scale) s = .next { s with pu := s.pu.endedEarly o .invalidBounds }) ∧
    (s.pu.init = true → scale ≠ 0 → inside → ∀ rest, s.pu.env.answers = List.replicate 6 .ok ++ rest →
      exec (.drawGlyph x y ch fg bg scale) s = .next { s with pu := s.pu.ended s.cfg (okEvents cs) rest o .ok }) ∧
    (s.pu.init = true → scale ≠ 0 → inside → ∀ j rest, j < 6 → s.pu.env.answers = List.replicate j .ok ++ .fail :: rest →
      exec (.drawGlyph x y ch fg bg scale) s = .next { s with pu := s.pu.ended s.cfg (failedAt cs j) rest o .peripheralError })

/-- R61: row `row` of glyph `idx` is byte `idx * 8 + row` of the font table; R118, R68: bit `c` of it is the font pixel in column `c`. R178, the
expansion law: after DRAW_GLYPH ends `OK`, font bit `(r, c)` fills its block of `scale` by `scale` panel pixels with `fg` if it
is 1 and `bg` if it is 0; and no byte of the panel memory outside the cell has changed. -/
def Obligations.GlyphExpands : Prop :=
  (∀ (cfg : Config) (idx row : Nat), cfg.valid = true → fontRead cfg idx row = cfg.font.getD (idx * 8 + row) 0) ∧
  (∀ (cfg : Config) (idx sc px py : Nat) (fg bg : Pixel), cfg.valid = true →
    glyphPixel cfg idx sc px py fg bg = if (cfg.font.getD (idx * 8 + py / sc) 0).getLsbD (px / sc) then fg else bg) ∧
  (∀ (x y : Half) (ch : Byte) (fg bg : Pixel) (scale : Byte) (s t : State), s.PanelReady → s.pu.env.sink.dead = false →
    s.pu.env.sink.mem.wf = true → exec (.drawGlyph x y ch fg bg scale) s = .next t → t.pu.status = .ok → t.pu.inFlight = false →
    (∀ r c i j, r < 8 → c < 8 → i < scale.toNat → j < scale.toNat →
      t.pixelAt (x.toNat + c * scale.toNat + i) (y.toNat + r * scale.toNat + j) =
        some (if (s.cfg.font.getD (glyphIndex s.cfg ch * 8 + r) 0).getLsbD c then fg else bg)) ∧
    (∀ a, ¬ InRectangle s.cfg x.toNat y.toNat (8 * scale.toNat) (8 * scale.toNat) a →
      t.pu.env.sink.mem.read a = s.pu.env.sink.mem.read a))

/-- R62: a character outside the font's range, 0x00 and 0x0A among them, draws the glyph of space; one inside draws its own. -/
def Obligations.OutOfRangeCharacterIsSpace : Prop :=
  (∀ (cfg : Config) (ch : Byte), cfg.valid = true → 0x20 ≤ ch.toNat → ch.toNat ≤ 0x7A → glyphIndex cfg ch = ch.toNat - 0x20) ∧
  (∀ (x y : Half) (ch : Byte) (fg bg : Pixel) (scale : Byte) (s : State), ch.toNat < 0x20 ∨ 0x7A < ch.toNat →
    SamePanelEffect (exec (.drawGlyph x y ch fg bg scale) s) (exec (.drawGlyph x y 0x20 fg bg scale) s))

/-- R182, R183: every case of DRAW_STRING in which the panel answers; it never ends with `InvalidBounds`. The text may be one that no
descriptor spells (log 23). -/
def Obligations.DrawStringMeaning : Prop :=
  ∀ (x y : Half) (fg bg : Pixel) (scale flags : Byte) (text : List Byte) (s : State), s.PanelIdle →
    let o := { s.pu.op with x, y, fg, bg, scale, flags, len := BitVec.ofNat 16 text.length, text }
    let cs := cellsTx s.cfg fg bg scale.toNat (stringCells s.cfg x.toNat y.toNat scale.toNat text)
    (s.pu.init = false → exec (.drawString x y fg bg scale flags text) s = .next { s with pu := s.pu.endedEarly o .notInitialized }) ∧
    (s.pu.init = true → scale = 0 → exec (.drawString x y fg bg scale flags text) s = .refused .zeroScale) ∧
    (s.pu.init = true → scale ≠ 0 → ∀ rest, s.pu.env.answers = List.replicate cs.length .ok ++ rest →
      exec (.drawString x y fg bg scale flags text) s = .next { s with pu := s.pu.ended s.cfg (okEvents cs) rest o .ok }) ∧
    (s.pu.init = true → scale ≠ 0 → ∀ j rest, j < cs.length → s.pu.env.answers = List.replicate j .ok ++ .fail :: rest →
      exec (.drawString x y fg bg scale flags text) s = .next { s with pu := s.pu.ended s.cfg (failedAt cs j) rest o .peripheralError })

/-- After DRAW_STRING ends `OK`, the cell of each character that fits holds the character's glyph, each one glyph width after the one before,
and no byte of the panel memory outside those cells has changed (R182, R177). -/
def Obligations.StringPaintsCells : Prop :=
  ∀ (x y : Half) (fg bg : Pixel) (scale flags : Byte) (text : List Byte) (s t : State), s.PanelReady → s.pu.env.sink.dead = false →
    s.pu.env.sink.mem.wf = true → exec (.drawString x y fg bg scale flags text) s = .next t → t.pu.status = .ok → t.pu.inFlight = false →
    let gw := 8 * scale.toNat
    (∀ n px py, n < stringCount s.cfg x.toNat y.toNat scale.toNat text → px < gw → py < gw →
      t.pixelAt (x.toNat + n * gw + px) (y.toNat + py) =
        some (glyphPixel s.cfg (glyphIndex s.cfg (text.getD n 0)) scale.toNat px py fg bg)) ∧
    (∀ a, (∀ n, n < stringCount s.cfg x.toNat y.toNat scale.toNat text → ¬ InRectangle s.cfg (x.toNat + n * gw) y.toNat gw gw a) →
      t.pu.env.sink.mem.read a = s.pu.env.sink.mem.read a)

/-- R190 to R194: every case of DRAW_WRAPPED in which the panel answers; `wrapPlan` is the layout in plain arithmetic (Safety.lean). The text
and the flags may be ones that no descriptor spells (log 23). -/
def Obligations.DrawWrappedMeaning : Prop :=
  ∀ (x y : Half) (fg bg : Pixel) (scale flags : Byte) (text : List Byte) (s : State), s.PanelIdle →
    let o := { s.pu.op with x, y, fg, bg, scale, flags, len := BitVec.ofNat 16 text.length, text }
    let plan := wrapPlan s.cfg x.toNat y.toNat scale.toNat text
    let cs := cellsTx s.cfg fg bg scale.toNat plan.1
    let room := x.toNat + 8 * scale.toNat ≤ s.cfg.safeW
    (s.pu.init = false → exec (.drawWrapped x y fg bg scale flags text) s = .next { s with pu := s.pu.endedEarly o .notInitialized }) ∧
    (s.pu.init = true → scale = 0 → exec (.drawWrapped x y fg bg scale flags text) s = .refused .zeroScale) ∧
    (s.pu.init = true → scale ≠ 0 → ¬ room →
      exec (.drawWrapped x y fg bg scale flags text) s = .next { s with pu := s.pu.endedEarly o .invalidBounds }) ∧
    (s.pu.init = true → scale ≠ 0 → room → ∀ rest, s.pu.env.answers = List.replicate cs.length .ok ++ rest →
      exec (.drawWrapped x y fg bg scale flags text) s = .next { s with
        pu := (s.pu.ended s.cfg (okEvents cs) rest o .ok).reported (flags.getLsbD 0) scale.toNat plan.2 }) ∧
    (s.pu.init = true → scale ≠ 0 → room → ∀ j rest, j < cs.length → s.pu.env.answers = List.replicate j .ok ++ .fail :: rest →
      exec (.drawWrapped x y fg bg scale flags text) s = .next { s with pu := s.pu.ended s.cfg (failedAt cs j) rest o .peripheralError })

/-- R195 (a): every glyph of a wrapped text lies inside the safe area, hence inside the full panel. -/
def Obligations.WrappedStaysInSafeArea : Prop :=
  ∀ (cfg : Config) (x y s : Nat) (text : List Byte), cfg.valid = true → x + 8 * s ≤ cfg.safeW →
    ∀ c ∈ (wrapPlan cfg x y s text).1, c.InSafeArea cfg s ∧ insidePanel cfg c.x c.y (8 * s) (8 * s) = true

/-- The layout DRAW_WRAPPED ends with (R193, R195): `max_x` is the largest right edge of a drawn cell in safe coordinates, or `x`; the
height is `lines * 8s + (lines - 1) * LINE_GAP`; `max_x <= SAFE_W`; `lines <= n + 1`; and the 16-bit registers hold all three uncut (R263).
A line break at the end of the text, on an empty line too, draws nothing and starts a line at `x`, `8s + 2` further down, if that line fits;
else it changes nothing (R192, R195 (c), (d)). -/
def Obligations.WrappedReport : Prop :=
  ∀ (cfg : Config) (x y s : Nat) (text : List Byte) (u : PanelUnit), cfg.valid = true → x + 8 * s ≤ cfg.safeW → 1 ≤ s → s ≤ 255 →
    let plan := wrapPlan cfg x y s text
    plan.2.maxX = plan.1.foldl (fun m c => max m (c.x - cfg.safeX + 8 * s)) x ∧
    layoutHeight s plan.2 = plan.2.lines * (8 * s) + (plan.2.lines - 1) * 2 ∧
    1 ≤ plan.2.lines ∧ plan.2.lines ≤ textEnd text + 1 ∧ plan.2.maxX ≤ cfg.safeW ∧
    (u.reported true s plan.2).boundsMaxX.toNat = plan.2.maxX ∧
    (u.reported true s plan.2).boundsHeight.toNat = layoutHeight s plan.2 ∧
    (u.reported true s plan.2).boundsLines.toNat = plan.2.lines ∧
    ((0 : Byte) ∉ text →
      wrapPlan cfg x y s (text ++ [0x0A]) =
        (plan.1, if plan.2.curY + 2 * (8 * s) + 2 ≤ cfg.safeH then
          { plan.2 with curX := x, curY := plan.2.curY + (8 * s + 2), lines := plan.2.lines + 1 } else plan.2))

/-- R196: DRAW_WRAPPED and DRAW_FORMATTED write only glyph cells: every byte of the panel memory outside the cells of the layout reads as
before. -/
def Obligations.WrappedLeavesTheRestAlone : Prop :=
  ∀ (x y : Half) (fg bg : Pixel) (scale flags : Byte) (text : List Byte) (s t : State), s.PanelReady → s.pu.env.sink.dead = false →
    s.pu.env.sink.mem.wf = true → t.pu.status = .ok → t.pu.inFlight = false →
    (exec (.drawWrapped x y fg bg scale flags text) s = .next t →
      ∀ a, (∀ c ∈ (wrapPlan s.cfg x.toNat y.toNat scale.toNat text).1,
          ¬ InRectangle s.cfg c.x c.y (8 * scale.toNat) (8 * scale.toNat) a) →
        t.pu.env.sink.mem.read a = s.pu.env.sink.mem.read a) ∧
    (exec (.drawFormatted x y fg bg scale flags text) s = .next t →
      ∀ a, (∀ c ∈ (wrapPlan s.cfg x.toNat y.toNat scale.toNat (formattedChars s.cfg text)).1,
          ¬ InRectangle s.cfg c.x c.y (8 * scale.toNat) (8 * scale.toNat) a) →
        t.pu.env.sink.mem.read a = s.pu.env.sink.mem.read a)

/-- The bounds registers change only when DRAW_WRAPPED or DRAW_FORMATTED ends `OK` with the bounds flag set (R29, R193). -/
def Obligations.BoundsRegistersKept : Prop :=
  ∀ (i : Instr) (s t : State), exec i s = .next t →
    (t.pu.boundsMaxX = s.pu.boundsMaxX ∧ t.pu.boundsHeight = s.pu.boundsHeight ∧ t.pu.boundsLines = s.pu.boundsLines) ∨
    ((opcode i = .drawWrapped ∨ opcode i = .drawFormatted) ∧ t.pu.op.flags.getLsbD 0 = true ∧ t.pu.status = .ok ∧ t.pu.inFlight = false)

/-- R200, R201: every case of DRAW_FORMATTED in which the panel answers, on the text cut to `FMT_BUF - 1` characters (log 23 as above). -/
def Obligations.DrawFormattedMeaning : Prop :=
  ∀ (x y : Half) (fg bg : Pixel) (scale flags : Byte) (text : List Byte) (s : State), s.PanelIdle →
    let o := { s.pu.op with x, y, fg, bg, scale, flags, len := BitVec.ofNat 16 text.length, text }
    let kept := text.take (min (textEnd text) (s.cfg.fmtBuf - 1))
    let plan := wrapPlan s.cfg x.toNat y.toNat scale.toNat kept
    let cs := cellsTx s.cfg fg bg scale.toNat plan.1
    let room := x.toNat + 8 * scale.toNat ≤ s.cfg.safeW
    (s.pu.init = false → exec (.drawFormatted x y fg bg scale flags text) s = .next { s with pu := s.pu.endedEarly o .notInitialized }) ∧
    (s.pu.init = true → scale = 0 → exec (.drawFormatted x y fg bg scale flags text) s = .refused .zeroScale) ∧
    (s.pu.init = true → scale ≠ 0 → ¬ room →
      exec (.drawFormatted x y fg bg scale flags text) s = .next { s with pu := s.pu.endedEarly o .invalidBounds }) ∧
    (s.pu.init = true → scale ≠ 0 → room → ∀ rest, s.pu.env.answers = List.replicate cs.length .ok ++ rest →
      exec (.drawFormatted x y fg bg scale flags text) s = .next { s with
        pu := (s.pu.ended s.cfg (okEvents cs) rest o .ok).reported (flags.getLsbD 0) scale.toNat plan.2 }) ∧
    (s.pu.init = true → scale ≠ 0 → room → ∀ j rest, j < cs.length → s.pu.env.answers = List.replicate j .ok ++ .fail :: rest →
      exec (.drawFormatted x y fg bg scale flags text) s = .next { s with pu := s.pu.ended s.cfg (failedAt cs j) rest o .peripheralError })

/-- R125: DRAW_FORMATTED is DRAW_WRAPPED on the text cut to `FMT_BUF - 1` characters, whatever the answers. -/
def Obligations.FormattedIsWrappedCut : Prop :=
  ∀ (x y : Half) (fg bg : Pixel) (scale flags : Byte) (text : List Byte) (s : State),
    SamePanelEffect (exec (.drawFormatted x y fg bg scale flags text) s)
      (exec (.drawWrapped x y fg bg scale flags (formattedChars s.cfg text)) s)

/-! ### LED Engine -/

/-- R211, R213: every case of LED_INIT in which the allocation is answered. That the pin is still low after a failure is the model's choice
(log 27; 91_not_in_source.md N17). -/
def Obligations.LedInitMeaning : Prop :=
  ∀ (pin chan : Byte) (s : State), s.LedIdle →
    let o := { s.lu.op with pin, chan }
    let asked := fun a : Answer => s.lu.trace ++ [.pinOutLow pin, .chanAlloc s.cfg.resHz a]
    (s.lu.init = true → exec (.ledInit pin chan) s = .refused .ledAlreadyInitialized) ∧
    (s.lu.init = false → ∀ rest, s.lu.env.answers = .fail :: rest →
      exec (.ledInit pin chan) s = .next { s with
        lu := { s.lu with op := o, pins := { pin, chan }, status := .peripheralError, trace := asked .fail
                          env := { s.lu.env with answers := rest, line := some .low } } }) ∧
    (s.lu.init = false → (pulseTable s.cfg).hasZero = true → ∀ rest, s.lu.env.answers = .ok :: rest →
      exec (.ledInit pin chan) s = .next { s with
        lu := { s.lu with op := o, pins := { pin, chan }, status := .configurationError, trace := asked .ok
                          env := { s.lu.env with answers := rest, line := some .low } } }) ∧
    (s.lu.init = false → (pulseTable s.cfg).hasZero = false → ∀ rest, s.lu.env.answers = .ok :: rest →
      exec (.ledInit pin chan) s = .next { s with
        lu := { s.lu with op := o, pins := { pin, chan }, status := .ok, trace := asked .ok ++ [.chanEnable]
                          ticks := pulseTable s.cfg, encPhase := .color, encBitpos := 0, colorValid := false, init := true
                          env := { s.lu.env with answers := rest, line := some .low } } })

/-- R121: the tick count of a duration, rounded to nearest; R211, R212: the five counts are those of the five durations. R212: a duration
converts to 0 exactly when its product with `RES_HZ` is below half of 10^9; with the reference durations LED_INIT's test fails at 1666666
ticks a second and passes at 1666667. -/
def Obligations.TickThreshold : Prop :=
  (∀ (cfg : Config) (ns : Nat), ticksOf cfg ns = (ns * cfg.resHz + 500000000) / 1000000000) ∧
  (∀ cfg : Config, pulseTable cfg =
    { t0h := ticksOf cfg cfg.t0hNs, t0l := ticksOf cfg cfg.t0lNs, t1h := ticksOf cfg cfg.t1hNs, t1l := ticksOf cfg cfg.t1lNs,
      treset := ticksOf cfg cfg.tresetNs }) ∧
  (∀ t : PulseTable, t.hasZero = true ↔ t.t0h = 0 ∨ t.t0l = 0 ∨ t.t1h = 0 ∨ t.t1l = 0 ∨ t.treset = 0) ∧
  (∀ (cfg : Config) (ns : Nat), ticksOf cfg ns = 0 ↔ ns * cfg.resHz < 500000000) ∧
  (∀ n, n ≤ 1666666 → (pulseTable { cfgRef with resHz := n }).hasZero = true) ∧
  (∀ n, 1666667 ≤ n → (pulseTable { cfgRef with resHz := n }).hasZero = false)

/-- R215: every case of SET_COLOR in which the peripheral answers and goes on. 26 moves are enough for every transmission, 25 invocations and
the completion (R220; log 7); what the LED shows is the train's bytes in its own wire order (R90; log 16); the latches are log 9. -/
def Obligations.SetColorMeaning : Prop :=
  ∀ (r g b : Byte) (s : State), s.LedIdle →
    let o := { s.lu.op with r, g, b }
    let c : Rgb := { r, g, b }
    (s.lu.init = false → exec (.setColor r g b) s = .next { s with lu := { s.lu with op := o, status := .notInitialized } }) ∧
    (s.lu.init = true → s.lu.busy = false → ∀ rest, s.lu.env.answers = .fail :: rest →
      exec (.setColor r g b) s = .next { s with lu := { s.lu.rejected s.cfg c rest with op := o, status := .transmitError } }) ∧
    (s.LedReady → ∀ rest, s.lu.env.answers = .ok :: rest → 26 ≤ s.lu.env.moves.length → (∀ m ∈ s.lu.env.moves.take 26, m ≠ .stall) →
      ∃ n, 2 ≤ n ∧ n ≤ 26 ∧
        exec (.setColor r g b) s = .next { s with
          lu := { s.lu.sent s.cfg c rest (s.lu.env.moves.drop n) with op := o, status := .ok } })

/-- R220, R89: a transmission emits the train of R223 and nothing else, whatever free slots the peripheral grants and however large its buffer
is; it takes at most 25 invocations, and the encoder is in its initial state again. The moves and the bounds on a slot count are the
model's form of the peripheral (log 5, log 7). -/
def Obligations.YieldsDoNotChangeTheTrain : Prop :=
  ∀ (cfg : Config) (u : LedUnit), u.encPhase = .color → u.encBitpos = 0 → 25 ≤ u.env.moves.length →
    (∀ m ∈ u.env.moves.take 25, m ≠ .stall) →
    ∃ n, 1 ≤ n ∧ n ≤ 25 ∧
      encodeTrain cfg 25 u = (.done, { u with
        trace := u.trace ++ trainEvents u.ticks u.encBytes
        env := { u.env with line := some .low, moves := u.env.moves.drop n } })

/-- R268: the transition table of the pulse encoder, row by row, for every number of free slots. And what it plays, written out: R222, a bit
is its high pulse and then its low pulse; R221, bit `k` is bit `7 - k % 8` of byte `k / 8`; R216, the three bytes in each wire order; R223,
the train. -/
def Obligations.EncoderTransitions : Prop :=
  (∀ t : PulseTable, symbolPulses t false = [.pulse .high t.t0h, .pulse .low t.t0l] ∧
    symbolPulses t true = [.pulse .high t.t1h, .pulse .low t.t1l] ∧ resetPulse t = .pulse .low t.treset) ∧
  (∀ (w : WireBytes) (k : Nat),
    (k < 8 → bitAt w k = w.b0.getLsbD (7 - k % 8)) ∧ (8 ≤ k → k < 16 → bitAt w k = w.b1.getLsbD (7 - k % 8)) ∧
    (16 ≤ k → k < 24 → bitAt w k = w.b2.getLsbD (7 - k % 8))) ∧
  (∀ r g b : Byte, [WireOrder.rgb, .rbg, .grb, .gbr, .brg, .bgr].map (fun o => wireBytes o { r, g, b }) =
    [{ b0 := r, b1 := g, b2 := b }, { b0 := r, b1 := b, b2 := g }, { b0 := g, b1 := r, b2 := b }, { b0 := g, b1 := b, b2 := r },
      { b0 := b, b1 := r, b2 := g }, { b0 := b, b1 := g, b2 := r }]) ∧
  (∀ (t : PulseTable) (w : WireBytes),
    trainEvents t w = bitSymbols t w 0 24 ++ [.pulse .low t.treset] ∧ (trainEvents t w).length = 49) ∧
  (∀ (u : LedUnit) (free : Nat), 1 ≤ free → u.encBitpos ≤ 24 →
    let left := 24 - u.encBitpos
    let bits := bitSymbols u.ticks u.encBytes u.encBitpos
    (u.encPhase = .color → free < left →
      encode1 free u = (.bufferFull, { u.emits (bits free) with encBitpos := u.encBitpos + free })) ∧
    (u.encPhase = .color → left = free →
      encode1 free u = (.bufferFull, { u.emits (bits left) with encPhase := .reset, encBitpos := 24 })) ∧
    (u.encPhase = .color → left < free →
      encode1 free u = (.done, { u.emits (bits left ++ [resetPulse u.ticks]) with encPhase := .color, encBitpos := 0 })) ∧
    (u.encPhase = .reset →
      encode1 free u = (.done, { u.emits [resetPulse u.ticks] with encPhase := .color, encBitpos := 0 })))

/-- R226: every case of SET_HSV in which the peripheral answers and goes on (log 7, log 9, log 16 as for SET_COLOR). -/
def Obligations.SetHsvMeaning : Prop :=
  ∀ (hue : Half) (sat val : Byte) (s : State), s.LedIdle →
    let o := { s.lu.op with hue, sat, val }
    let c := hsvToRgb hue sat val
    (s.lu.init = false → exec (.setHsv hue sat val) s = .next { s with lu := { s.lu with op := o, status := .notInitialized } }) ∧
    (s.lu.init = true → s.lu.busy = false → ∀ rest, s.lu.env.answers = .fail :: rest →
      exec (.setHsv hue sat val) s = .next { s with lu := { s.lu.rejected s.cfg c rest with op := o, status := .transmitError } }) ∧
    (s.LedReady → ∀ rest, s.lu.env.answers = .ok :: rest → 26 ≤ s.lu.env.moves.length → (∀ m ∈ s.lu.env.moves.take 26, m ≠ .stall) →
      ∃ n, 2 ≤ n ∧ n ≤ 26 ∧
        exec (.setHsv hue sat val) s = .next { s with
          lu := { s.lu.sent s.cfg c rest (s.lu.env.moves.drop n) with op := o, status := .ok } })

/-- R228: every case of TURN_OFF in which the peripheral answers and goes on: the colour is black (log 7, log 9, log 16). -/
def Obligations.TurnOffMeaning : Prop :=
  ∀ s : State, s.LedIdle →
    let c : Rgb := { r := 0, g := 0, b := 0 }
    (s.lu.init = false → exec .turnOff s = .next { s with lu := { s.lu with status := .notInitialized } }) ∧
    (s.lu.init = true → s.lu.busy = false → ∀ rest, s.lu.env.answers = .fail :: rest →
      exec .turnOff s = .next { s with lu := { s.lu.rejected s.cfg c rest with status := .transmitError } }) ∧
    (s.LedReady → ∀ rest, s.lu.env.answers = .ok :: rest → 26 ≤ s.lu.env.moves.length → (∀ m ∈ s.lu.env.moves.take 26, m ≠ .stall) →
      ∃ n, 2 ≤ n ∧ n ≤ 26 ∧
        exec .turnOff s = .next { s with lu := { s.lu.sent s.cfg c rest (s.lu.env.moves.drop n) with status := .ok } })

/-- R230, R231: every case of LED_DEINIT in which the peripheral answers and goes on: a no-op success when not initialised; else the turn-off,
and the release whatever its status (log 7, log 9; what the LED shows is R90 and log 16; the pin's level after the release is log 27). -/
def Obligations.LedDeinitMeaning : Prop :=
  ∀ s : State, s.LedIdle →
    let c : Rgb := { r := 0, g := 0, b := 0 }
    (s.lu.init = false → exec .ledDeinit s = .next { s with lu := { s.lu with status := .ok } }) ∧
    (s.lu.init = true → s.lu.busy = false → ∀ rest, s.lu.env.answers = .fail :: rest →
      exec .ledDeinit s = .next { s with
        lu := { s.lu.rejected s.cfg c rest with
          trace := (s.lu.rejected s.cfg c rest).trace ++ [.chanRelease], init := false, colorValid := false, status := .transmitError } }) ∧
    (s.LedReady → ∀ rest, s.lu.env.answers = .ok :: rest → 26 ≤ s.lu.env.moves.length → (∀ m ∈ s.lu.env.moves.take 26, m ≠ .stall) →
      ∃ n, 2 ≤ n ∧ n ≤ 26 ∧
        exec .ledDeinit s = .next { s with
          lu := { s.lu.sent s.cfg c rest (s.lu.env.moves.drop n) with
            trace := (s.lu.sent s.cfg c rest (s.lu.env.moves.drop n)).trace ++ [.chanRelease], init := false, status := .ok } })

/-- R125: SET_HSV is SET_COLOR with the converted triple, and TURN_OFF is SET_COLOR with black, whatever the answers and moves. -/
def Obligations.ColourOperationsAreSetColor : Prop :=
  (∀ (hue : Half) (sat val : Byte) (s : State),
    SameLedEffect (exec (.setHsv hue sat val) s)
      (exec (.setColor (hsvToRgb hue sat val).r (hsvToRgb hue sat val).g (hsvToRgb hue sat val).b) s)) ∧
  (∀ s : State, SameLedEffect (exec .turnOff s) (exec (.setColor 0 0 0) s))

/-! ### Colour Utility -/

/-- R251, R252: PACK565 in every state with a valid configuration: the result register holds the pixel, zero-extended; the pixel's fields
are the top 5, 6 and 5 bits of the channels. The utility's operand latches are the model's (log 9). -/
def Obligations.Pack565Meaning : Prop :=
  ∀ (r g b : Byte) (s : State), s.cfg.valid = true →
    ∃ p : Pixel,
      exec (.pack565 r g b) s = .next { s with cu := { status := .ok, result := p.setWidth 24, op := { s.cu.op with r, g, b } } } ∧
      p.toNat = (r.toNat / 8) * 2048 + (g.toNat / 4) * 32 + b.toNat / 8 ∧
      p.extractLsb' 11 5 = r.extractLsb' 3 5 ∧ p.extractLsb' 5 6 = g.extractLsb' 2 6 ∧ p.extractLsb' 0 5 = b.extractLsb' 3 5

/-- R254 to R256: HSV2RGB in every state with a valid configuration: the result register holds red in bits 23 to 16, green in 15 to 8, blue in
7 to 0, the components `HsvToRgb` gives, uncut. They are written out: the operands clamped and rescaled, then R256's table, region by region
(`m` is the remainder, `h8` less the region's first value, times 6). The utility's operand latches are the model's (log 9). -/
def Obligations.Hsv2RgbMeaning : Prop :=
  ∀ (hue : Half) (sat val : Byte) (s : State), s.cfg.valid = true →
    let h8 := min hue.toNat 360 * 255 / 360
    let s8 := min sat.toNat 100 * 255 / 100
    let v8 := min val.toNat 100 * 255 / 100
    let p := v8 * (255 - s8) / 256
    let q := fun m => v8 * (255 - s8 * m / 256) / 256
    let t := fun m => v8 * (255 - s8 * (255 - m) / 256) / 256
    ∃ (v : BitVec 24) (r g b : Nat),
      exec (.hsv2rgb hue sat val) s = .next { s with cu := { status := .ok, result := v, op := { s.cu.op with hue, sat, val } } } ∧
      v.toNat = r * 65536 + g * 256 + b ∧ r ≤ 255 ∧ g ≤ 255 ∧ b ≤ 255 ∧
      hsvToRgb hue sat val = { r := BitVec.ofNat 8 r, g := BitVec.ofNat 8 g, b := BitVec.ofNat 8 b } ∧
      (s8 = 0 → (r, g, b) = (v8, v8, v8)) ∧
      (s8 ≠ 0 → h8 ≤ 42 → (r, g, b) = (v8, t (h8 * 6), p)) ∧
      (s8 ≠ 0 → 43 ≤ h8 → h8 ≤ 85 → (r, g, b) = (q ((h8 - 43) * 6), v8, p)) ∧
      (s8 ≠ 0 → 86 ≤ h8 → h8 ≤ 128 → (r, g, b) = (p, v8, t ((h8 - 86) * 6))) ∧
      (s8 ≠ 0 → 129 ≤ h8 → h8 ≤ 171 → (r, g, b) = (p, q ((h8 - 129) * 6), v8)) ∧
      (s8 ≠ 0 → 172 ≤ h8 → h8 ≤ 214 → (r, g, b) = (t ((h8 - 172) * 6), p, v8)) ∧
      (s8 ≠ 0 → 215 ≤ h8 → (r, g, b) = (v8, p, q ((h8 - 215) * 6)))

/-- R257: saturation 0 gives grey at the rescaled value, at every hue; 0 is the only saturation that rescales to 0, and 1 rescales to 2. -/
def Obligations.ZeroSaturationIsGrey : Prop :=
  (∀ (hue : Half) (val : Byte),
    let v : Byte := BitVec.ofNat 8 (min val.toNat 100 * 255 / 100)
    hsvToRgb hue 0 val = { r := v, g := v, b := v }) ∧
  (∀ (hue : Half) (sat val : Byte), (rescaleHsv hue sat val).2.1 = 0 ↔ sat = 0) ∧
  (∀ hue val, (rescaleHsv hue 1 val).2.1 = 2)

/-- R258: the clamping laws; hue 360 is not folded onto hue 0; the rescaled values of `val`. -/
def Obligations.HsvClamps : Prop :=
  (∀ (hue : Half) (sat val : Byte),
    hsvToRgb hue sat val =
      hsvToRgb (BitVec.ofNat 16 (min hue.toNat 360)) (BitVec.ofNat 8 (min sat.toNat 100)) (BitVec.ofNat 8 (min val.toNat 100))) ∧
  hsvToRgb 360 100 100 = { r := 255, g := 0, b := 15 } ∧ hsvToRgb 0 100 100 = { r := 255, g := 0, b := 0 } ∧
  (∀ (hue : Half) (sat : Byte), ([0, 1, 2, 99, 100].map fun val => (rescaleHsv hue sat val).2.2) = [0, 2, 5, 252, 255]) ∧
  (∀ (hue : Half) (sat val : Byte), (rescaleHsv hue sat val).2.2 = 255 ↔ 100 ≤ val.toNat)
end

