-- ==== Sys2Proof/Laws/Bytes.lean ====
section
/-! SUPPORT. The byte-order helpers undo each other. -/

namespace Sys2Proof

@[simp] theorem ofBe16_hi8_lo8 (v : Half) : ofBe16 (hi8 v) (lo8 v) = v := by
  apply BitVec.eq_of_getLsbD_eq
  intro i hi
  simp only [ofBe16, hi8, lo8, BitVec.getLsbD_append, BitVec.getLsbD_extractLsb']
  by_cases h : i < 8
  · simp [h]
  · have e : 8 + (i - 8) = i := by omega
    have e2 : i - 8 < 8 := by omega
    simp [h, e, e2]

@[simp] theorem hi8_ofBe16 (hi lo : Byte) : hi8 (ofBe16 hi lo) = hi := by
  apply BitVec.eq_of_getLsbD_eq
  intro i h
  simp only [ofBe16, hi8, BitVec.getLsbD_extractLsb', BitVec.getLsbD_append]
  have e : 8 + i - 8 = i := by omega
  simp [h, e, show ¬ 8 + i < 8 by omega]

@[simp] theorem lo8_ofBe16 (hi lo : Byte) : lo8 (ofBe16 hi lo) = lo := by
  apply BitVec.eq_of_getLsbD_eq
  intro i h
  simp only [ofBe16, lo8, BitVec.getLsbD_extractLsb', BitVec.getLsbD_append]
  simp [h]

@[simp] theorem be16_length (v : Half) : (be16 v).length = 2 := rfl

@[simp] theorem be32_length (v : Word) : (be32 v).length = 4 := rfl

/-- A 32-bit field is read back from its four bytes. -/
theorem ofBe32_bytes (v : Word) :
    ofBe32 (v.extractLsb' 24 8) (v.extractLsb' 16 8) (v.extractLsb' 8 8) (v.extractLsb' 0 8) = v := by
  apply BitVec.eq_of_getLsbD_eq
  intro i hi
  simp only [ofBe32, BitVec.getLsbD_append, BitVec.getLsbD_extractLsb']
  rcases Nat.lt_or_ge i 8 with h | h
  · simp [h, show i < 16 by omega]
  · rcases Nat.lt_or_ge i 16 with h2 | h2
    · simp [h2, show ¬ i < 8 by omega, show i - 8 < 8 by omega, show 8 + (i - 8) = i by omega]
    · rcases Nat.lt_or_ge i 24 with h3 | h3
      · simp [show ¬ i < 16 by omega, show i - 16 < 8 by omega, show 16 + (i - 16) = i by omega]
      · simp [show ¬ i < 16 by omega, show ¬ i - 16 < 8 by omega, show i - 16 - 8 < 8 by omega,
          show 24 + (i - 16 - 8) = i by omega]

/-- Four bytes are read back from the 32-bit field they make. -/
theorem be32_ofBe32 (a b c d : Byte) : be32 (ofBe32 a b c d) = [a, b, c, d] := by
  have h : ∀ (x y : Byte), x = y ↔ ∀ i, i < 8 → x.getLsbD i = y.getLsbD i := by
    intro x y
    constructor
    · rintro rfl _ _; rfl
    · intro h; exact BitVec.eq_of_getLsbD_eq (fun i hi => h i hi)
  simp only [be32, ofBe32, List.cons.injEq, and_true, h, BitVec.getLsbD_extractLsb', BitVec.getLsbD_append]
  refine ⟨?_, ?_, ?_, ?_⟩ <;> intro i hi
  · simp only [hi, show ¬ 24 + i < 16 by omega, show ¬ 24 + i - 16 < 8 by omega, show 24 + i - 16 - 8 = i by omega,
      decide_true, Bool.true_and, if_false]
  · simp only [hi, show ¬ 16 + i < 16 by omega, show 16 + i - 16 = i by omega,
      decide_true, Bool.true_and, if_false, if_true]
  · simp only [hi, show 8 + i < 16 by omega, show ¬ 8 + i < 8 by omega, show 8 + i - 8 = i by omega,
      decide_true, Bool.true_and, if_false, if_true]
  · simp only [hi, Nat.zero_add, show i < 16 by omega, decide_true, Bool.true_and, if_true]

/-- The opcode bytes of R100 name their opcodes. -/
@[simp] theorem opcodeOf_opcodeByte (o : Opcode) : opcodeOf (opcodeByte o) = some o := by
  cases o <;> decide

/-- A byte that names an opcode is that opcode's byte. -/
theorem opcodeByte_of_opcodeOf {b : Byte} {o : Opcode} (h : opcodeOf b = some o) : b = opcodeByte o := by
  unfold opcodeOf at h
  iterate 15
    rcases ite_eq_iff.mp h with ⟨hb, ho⟩ | ⟨-, h⟩
    · injection ho with ho
      rw [hb, ← ho]
      rfl
  cases h

end Sys2Proof
end

