-- ==== Sys2Proof/Laws/State.lean ====
section
/-! SUPPORT. One lemma for each field of each named update of the two engines' records, so that no later proof unfolds an update. -/

namespace Sys2Proof.Machine

/-! ### An event of the Panel Engine -/

@[simp] theorem PanelUnit.emit_init (u : PanelUnit) (cfg : Config) (e : PanelEvent) : (u.emit cfg e).init = u.init := rfl
@[simp] theorem PanelUnit.emit_status (u : PanelUnit) (cfg : Config) (e : PanelEvent) : (u.emit cfg e).status = u.status := rfl
@[simp] theorem PanelUnit.emit_setupErrs (u : PanelUnit) (cfg : Config) (e : PanelEvent) : (u.emit cfg e).setupErrs = u.setupErrs := rfl
@[simp] theorem PanelUnit.emit_pins (u : PanelUnit) (cfg : Config) (e : PanelEvent) : (u.emit cfg e).pins = u.pins := rfl
@[simp] theorem PanelUnit.emit_boundsMaxX (u : PanelUnit) (cfg : Config) (e : PanelEvent) : (u.emit cfg e).boundsMaxX = u.boundsMaxX := rfl
@[simp] theorem PanelUnit.emit_boundsHeight (u : PanelUnit) (cfg : Config) (e : PanelEvent) : (u.emit cfg e).boundsHeight = u.boundsHeight := rfl
@[simp] theorem PanelUnit.emit_boundsLines (u : PanelUnit) (cfg : Config) (e : PanelEvent) : (u.emit cfg e).boundsLines = u.boundsLines := rfl
@[simp] theorem PanelUnit.emit_op (u : PanelUnit) (cfg : Config) (e : PanelEvent) : (u.emit cfg e).op = u.op := rfl
@[simp] theorem PanelUnit.emit_work (u : PanelUnit) (cfg : Config) (e : PanelEvent) : (u.emit cfg e).work = u.work := rfl
@[simp] theorem PanelUnit.emit_inFlight (u : PanelUnit) (cfg : Config) (e : PanelEvent) : (u.emit cfg e).inFlight = u.inFlight := rfl
@[simp] theorem PanelUnit.emit_trace (u : PanelUnit) (cfg : Config) (e : PanelEvent) : (u.emit cfg e).trace = u.trace ++ [e] := rfl
@[simp] theorem PanelUnit.emit_env (u : PanelUnit) (cfg : Config) (e : PanelEvent) : (u.emit cfg e).env = u.env.observe cfg e := rfl

/-! ### An answer taken on the panel side -/

@[simp] theorem PanelUnit.takeAnswer_init (u : PanelUnit) : (u.takeAnswer).init = u.init := rfl
@[simp] theorem PanelUnit.takeAnswer_status (u : PanelUnit) : (u.takeAnswer).status = u.status := rfl
@[simp] theorem PanelUnit.takeAnswer_setupErrs (u : PanelUnit) : (u.takeAnswer).setupErrs = u.setupErrs := rfl
@[simp] theorem PanelUnit.takeAnswer_pins (u : PanelUnit) : (u.takeAnswer).pins = u.pins := rfl
@[simp] theorem PanelUnit.takeAnswer_boundsMaxX (u : PanelUnit) : (u.takeAnswer).boundsMaxX = u.boundsMaxX := rfl
@[simp] theorem PanelUnit.takeAnswer_boundsHeight (u : PanelUnit) : (u.takeAnswer).boundsHeight = u.boundsHeight := rfl
@[simp] theorem PanelUnit.takeAnswer_boundsLines (u : PanelUnit) : (u.takeAnswer).boundsLines = u.boundsLines := rfl
@[simp] theorem PanelUnit.takeAnswer_op (u : PanelUnit) : (u.takeAnswer).op = u.op := rfl
@[simp] theorem PanelUnit.takeAnswer_work (u : PanelUnit) : (u.takeAnswer).work = u.work := rfl
@[simp] theorem PanelUnit.takeAnswer_inFlight (u : PanelUnit) : (u.takeAnswer).inFlight = u.inFlight := rfl
@[simp] theorem PanelUnit.takeAnswer_trace (u : PanelUnit) : (u.takeAnswer).trace = u.trace := rfl

@[simp] theorem PanelUnit.takeAnswer_env_dcLine (u : PanelUnit) : u.takeAnswer.env.dcLine = u.env.dcLine := rfl
@[simp] theorem PanelUnit.takeAnswer_env_rstLine (u : PanelUnit) : u.takeAnswer.env.rstLine = u.env.rstLine := rfl
@[simp] theorem PanelUnit.takeAnswer_env_sink (u : PanelUnit) : u.takeAnswer.env.sink = u.env.sink := rfl

/-! ### The layout of the running call -/

@[simp] theorem PanelUnit.setLayout_init (u : PanelUnit) (l : TextLayout) : (u.setLayout l).init = u.init := rfl
@[simp] theorem PanelUnit.setLayout_status (u : PanelUnit) (l : TextLayout) : (u.setLayout l).status = u.status := rfl
@[simp] theorem PanelUnit.setLayout_setupErrs (u : PanelUnit) (l : TextLayout) : (u.setLayout l).setupErrs = u.setupErrs := rfl
@[simp] theorem PanelUnit.setLayout_pins (u : PanelUnit) (l : TextLayout) : (u.setLayout l).pins = u.pins := rfl
@[simp] theorem PanelUnit.setLayout_boundsMaxX (u : PanelUnit) (l : TextLayout) : (u.setLayout l).boundsMaxX = u.boundsMaxX := rfl
@[simp] theorem PanelUnit.setLayout_boundsHeight (u : PanelUnit) (l : TextLayout) : (u.setLayout l).boundsHeight = u.boundsHeight := rfl
@[simp] theorem PanelUnit.setLayout_boundsLines (u : PanelUnit) (l : TextLayout) : (u.setLayout l).boundsLines = u.boundsLines := rfl
@[simp] theorem PanelUnit.setLayout_op (u : PanelUnit) (l : TextLayout) : (u.setLayout l).op = u.op := rfl
@[simp] theorem PanelUnit.setLayout_work (u : PanelUnit) (l : TextLayout) : (u.setLayout l).work = { u.work with layout := l } := rfl
@[simp] theorem PanelUnit.setLayout_inFlight (u : PanelUnit) (l : TextLayout) : (u.setLayout l).inFlight = u.inFlight := rfl
@[simp] theorem PanelUnit.setLayout_trace (u : PanelUnit) (l : TextLayout) : (u.setLayout l).trace = u.trace := rfl
@[simp] theorem PanelUnit.setLayout_env (u : PanelUnit) (l : TextLayout) : (u.setLayout l).env = u.env := rfl

/-! ### The panel-side environment -/

@[simp] theorem PanelSide.observe_answers (cfg : Config) (v : PanelSide) (e : PanelEvent) : (v.observe cfg e).answers = v.answers := rfl
@[simp] theorem PanelSide.observe_drawn (cfg : Config) (v : PanelSide) (e : PanelEvent) : (v.observe cfg e).drawn = v.drawn := rfl
@[simp] theorem PanelSide.observe_sink (cfg : Config) (v : PanelSide) (e : PanelEvent) : (v.observe cfg e).sink = v.sink.observe cfg e := rfl

/-! ### An event of the LED Engine -/

@[simp] theorem LedUnit.emit_init (u : LedUnit) (e : LedEvent) : (u.emit e).init = u.init := rfl
@[simp] theorem LedUnit.emit_status (u : LedUnit) (e : LedEvent) : (u.emit e).status = u.status := rfl
@[simp] theorem LedUnit.emit_pins (u : LedUnit) (e : LedEvent) : (u.emit e).pins = u.pins := rfl
@[simp] theorem LedUnit.emit_ticks (u : LedUnit) (e : LedEvent) : (u.emit e).ticks = u.ticks := rfl
@[simp] theorem LedUnit.emit_color (u : LedUnit) (e : LedEvent) : (u.emit e).color = u.color := rfl
@[simp] theorem LedUnit.emit_colorValid (u : LedUnit) (e : LedEvent) : (u.emit e).colorValid = u.colorValid := rfl
@[simp] theorem LedUnit.emit_encPhase (u : LedUnit) (e : LedEvent) : (u.emit e).encPhase = u.encPhase := rfl
@[simp] theorem LedUnit.emit_encBitpos (u : LedUnit) (e : LedEvent) : (u.emit e).encBitpos = u.encBitpos := rfl
@[simp] theorem LedUnit.emit_encBytes (u : LedUnit) (e : LedEvent) : (u.emit e).encBytes = u.encBytes := rfl
@[simp] theorem LedUnit.emit_busy (u : LedUnit) (e : LedEvent) : (u.emit e).busy = u.busy := rfl
@[simp] theorem LedUnit.emit_op (u : LedUnit) (e : LedEvent) : (u.emit e).op = u.op := rfl
@[simp] theorem LedUnit.emit_inFlight (u : LedUnit) (e : LedEvent) : (u.emit e).inFlight = u.inFlight := rfl
@[simp] theorem LedUnit.emit_trace (u : LedUnit) (e : LedEvent) : (u.emit e).trace = u.trace ++ [e] := rfl
@[simp] theorem LedUnit.emit_env (u : LedUnit) (e : LedEvent) : (u.emit e).env = { u.env with line := lineAfter u.env.line e } := rfl

/-! ### An answer taken on the pulse side -/

@[simp] theorem LedUnit.takeAnswer_init (u : LedUnit) : (u.takeAnswer).init = u.init := rfl
@[simp] theorem LedUnit.takeAnswer_status (u : LedUnit) : (u.takeAnswer).status = u.status := rfl
@[simp] theorem LedUnit.takeAnswer_pins (u : LedUnit) : (u.takeAnswer).pins = u.pins := rfl
@[simp] theorem LedUnit.takeAnswer_ticks (u : LedUnit) : (u.takeAnswer).ticks = u.ticks := rfl
@[simp] theorem LedUnit.takeAnswer_color (u : LedUnit) : (u.takeAnswer).color = u.color := rfl
@[simp] theorem LedUnit.takeAnswer_colorValid (u : LedUnit) : (u.takeAnswer).colorValid = u.colorValid := rfl
@[simp] theorem LedUnit.takeAnswer_encPhase (u : LedUnit) : (u.takeAnswer).encPhase = u.encPhase := rfl
@[simp] theorem LedUnit.takeAnswer_encBitpos (u : LedUnit) : (u.takeAnswer).encBitpos = u.encBitpos := rfl
@[simp] theorem LedUnit.takeAnswer_encBytes (u : LedUnit) : (u.takeAnswer).encBytes = u.encBytes := rfl
@[simp] theorem LedUnit.takeAnswer_busy (u : LedUnit) : (u.takeAnswer).busy = u.busy := rfl
@[simp] theorem LedUnit.takeAnswer_op (u : LedUnit) : (u.takeAnswer).op = u.op := rfl
@[simp] theorem LedUnit.takeAnswer_inFlight (u : LedUnit) : (u.takeAnswer).inFlight = u.inFlight := rfl
@[simp] theorem LedUnit.takeAnswer_trace (u : LedUnit) : (u.takeAnswer).trace = u.trace := rfl

@[simp] theorem LedUnit.takeAnswer_env_moves (u : LedUnit) : u.takeAnswer.env.moves = u.env.moves := rfl
@[simp] theorem LedUnit.takeAnswer_env_drawnMoves (u : LedUnit) : u.takeAnswer.env.drawnMoves = u.env.drawnMoves := rfl
@[simp] theorem LedUnit.takeAnswer_env_line (u : LedUnit) : u.takeAnswer.env.line = u.env.line := rfl
@[simp] theorem LedUnit.takeAnswer_env_wired (u : LedUnit) : u.takeAnswer.env.wired = u.env.wired := rfl
@[simp] theorem LedUnit.takeAnswer_env_shown (u : LedUnit) : u.takeAnswer.env.shown = u.env.shown := rfl

/-! ### An unknown LED -/

@[simp] theorem LedUnit.showUnknown_init (u : LedUnit) : (u.showUnknown).init = u.init := rfl
@[simp] theorem LedUnit.showUnknown_status (u : LedUnit) : (u.showUnknown).status = u.status := rfl
@[simp] theorem LedUnit.showUnknown_pins (u : LedUnit) : (u.showUnknown).pins = u.pins := rfl
@[simp] theorem LedUnit.showUnknown_ticks (u : LedUnit) : (u.showUnknown).ticks = u.ticks := rfl
@[simp] theorem LedUnit.showUnknown_color (u : LedUnit) : (u.showUnknown).color = u.color := rfl
@[simp] theorem LedUnit.showUnknown_colorValid (u : LedUnit) : (u.showUnknown).colorValid = u.colorValid := rfl
@[simp] theorem LedUnit.showUnknown_encPhase (u : LedUnit) : (u.showUnknown).encPhase = u.encPhase := rfl
@[simp] theorem LedUnit.showUnknown_encBitpos (u : LedUnit) : (u.showUnknown).encBitpos = u.encBitpos := rfl
@[simp] theorem LedUnit.showUnknown_encBytes (u : LedUnit) : (u.showUnknown).encBytes = u.encBytes := rfl
@[simp] theorem LedUnit.showUnknown_busy (u : LedUnit) : (u.showUnknown).busy = u.busy := rfl
@[simp] theorem LedUnit.showUnknown_op (u : LedUnit) : (u.showUnknown).op = u.op := rfl
@[simp] theorem LedUnit.showUnknown_inFlight (u : LedUnit) : (u.showUnknown).inFlight = u.inFlight := rfl
@[simp] theorem LedUnit.showUnknown_trace (u : LedUnit) : (u.showUnknown).trace = u.trace := rfl
@[simp] theorem LedUnit.showUnknown_env (u : LedUnit) : (u.showUnknown).env = { u.env with shown := none } := rfl

/-! ### A move taken on the pulse side -/

@[simp] theorem LedUnit.takeMove_init (u : LedUnit) : u.takeMove.init = u.init := by unfold LedUnit.takeMove; split <;> rfl
@[simp] theorem LedUnit.takeMove_status (u : LedUnit) : u.takeMove.status = u.status := by unfold LedUnit.takeMove; split <;> rfl
@[simp] theorem LedUnit.takeMove_pins (u : LedUnit) : u.takeMove.pins = u.pins := by unfold LedUnit.takeMove; split <;> rfl
@[simp] theorem LedUnit.takeMove_ticks (u : LedUnit) : u.takeMove.ticks = u.ticks := by unfold LedUnit.takeMove; split <;> rfl
@[simp] theorem LedUnit.takeMove_color (u : LedUnit) : u.takeMove.color = u.color := by unfold LedUnit.takeMove; split <;> rfl
@[simp] theorem LedUnit.takeMove_colorValid (u : LedUnit) : u.takeMove.colorValid = u.colorValid := by unfold LedUnit.takeMove; split <;> rfl
@[simp] theorem LedUnit.takeMove_encPhase (u : LedUnit) : u.takeMove.encPhase = u.encPhase := by unfold LedUnit.takeMove; split <;> rfl
@[simp] theorem LedUnit.takeMove_encBitpos (u : LedUnit) : u.takeMove.encBitpos = u.encBitpos := by unfold LedUnit.takeMove; split <;> rfl
@[simp] theorem LedUnit.takeMove_encBytes (u : LedUnit) : u.takeMove.encBytes = u.encBytes := by unfold LedUnit.takeMove; split <;> rfl
@[simp] theorem LedUnit.takeMove_busy (u : LedUnit) : u.takeMove.busy = u.busy := by unfold LedUnit.takeMove; split <;> rfl
@[simp] theorem LedUnit.takeMove_op (u : LedUnit) : u.takeMove.op = u.op := by unfold LedUnit.takeMove; split <;> rfl
@[simp] theorem LedUnit.takeMove_inFlight (u : LedUnit) : u.takeMove.inFlight = u.inFlight := by unfold LedUnit.takeMove; split <;> rfl
@[simp] theorem LedUnit.takeMove_trace (u : LedUnit) : u.takeMove.trace = u.trace := by unfold LedUnit.takeMove; split <;> rfl
@[simp] theorem LedUnit.takeMove_env_answers (u : LedUnit) : u.takeMove.env.answers = u.env.answers := by unfold LedUnit.takeMove; split <;> rfl
@[simp] theorem LedUnit.takeMove_env_drawnAnswers (u : LedUnit) : u.takeMove.env.drawnAnswers = u.env.drawnAnswers := by unfold LedUnit.takeMove; split <;> rfl
@[simp] theorem LedUnit.takeMove_env_line (u : LedUnit) : u.takeMove.env.line = u.env.line := by unfold LedUnit.takeMove; split <;> rfl
@[simp] theorem LedUnit.takeMove_env_wired (u : LedUnit) : u.takeMove.env.wired = u.env.wired := by unfold LedUnit.takeMove; split <;> rfl
@[simp] theorem LedUnit.takeMove_env_shown (u : LedUnit) : u.takeMove.env.shown = u.env.shown := by unfold LedUnit.takeMove; split <;> rfl

/-! ### A status written, a descriptor taken -/

@[simp] theorem State.setStatus_cfg (s : State) (u : BlockUnit) (st : Status) : (s.setStatus u st).cfg = s.cfg := by cases u <;> rfl
@[simp] theorem State.setStatus_pending (s : State) (u : BlockUnit) (st : Status) : (s.setStatus u st).pending = s.pending := by cases u <;> rfl

end Sys2Proof.Machine
end

