-- ==== Sys2Proof/Laws/Traffic.lean ====
section
/-! SUPPORT. What a sequence of transactions does: `sendAll`, its outcomes, and equality of procedures up to the transient work state. Every
drawing procedure is a `sendAll` of a list of transactions computed from its operands (Laws/Drawing.lean), so what can happen to it is
said here once. -/

namespace Sys2Proof.Machine

/-! ### Events seen by the environment -/

/-- The panel unit after the events `es`, with the script, the count of free answers and the work state that stand there then. -/
def PanelUnit.ran (cfg : Config) (es : List PanelEvent) (answers : List Answer) (drawn : Nat) (work : Transient) (u : PanelUnit) :
    PanelUnit :=
  { u with trace := u.trace ++ es, work := work, env := { es.foldl (PanelSide.observe cfg) u.env with answers, drawn } }

theorem PanelSide.observe_script (cfg : Config) (v : PanelSide) (a : List Answer) (d : Nat) (es : List PanelEvent) :
    es.foldl (PanelSide.observe cfg) { v with answers := a, drawn := d } =
      { es.foldl (PanelSide.observe cfg) v with answers := a, drawn := d } := by
  induction es generalizing v with
  | nil => rfl
  | cons e es ih => exact ih (v.observe cfg e)

theorem PanelSide.observe_all_answers (cfg : Config) (es : List PanelEvent) (v : PanelSide) :
    (es.foldl (PanelSide.observe cfg) v).answers = v.answers ∧ (es.foldl (PanelSide.observe cfg) v).drawn = v.drawn := by
  induction es generalizing v with
  | nil => exact ⟨rfl, rfl⟩
  | cons e es ih => exact ih (v.observe cfg e)

theorem PanelSide.observe_all_sink (cfg : Config) (es : List PanelEvent) (v : PanelSide) :
    (es.foldl (PanelSide.observe cfg) v).sink = es.foldl (PanelSink.observe cfg) v.sink := by
  induction es generalizing v with
  | nil => rfl
  | cons e es ih => exact ih (v.observe cfg e)

theorem PanelUnit.ran_nil (cfg : Config) (u : PanelUnit) : u.ran cfg [] u.env.answers u.env.drawn u.work = u := by
  simp [PanelUnit.ran]

theorem PanelUnit.ran_ran (cfg : Config) (u : PanelUnit) (es fs : List PanelEvent) (a b : List Answer) (d e : Nat) (w x : Transient) :
    (u.ran cfg es a d w).ran cfg fs b e x = u.ran cfg (es ++ fs) b e x := by
  simp [PanelUnit.ran, PanelSide.observe_script, List.foldl_append]

@[simp] theorem PanelUnit.ran_env_answers (cfg : Config) (u : PanelUnit) (es : List PanelEvent) (a : List Answer) (d : Nat) (w : Transient) :
    (u.ran cfg es a d w).env.answers = a := rfl
@[simp] theorem PanelUnit.ran_env_drawn (cfg : Config) (u : PanelUnit) (es : List PanelEvent) (a : List Answer) (d : Nat) (w : Transient) :
    (u.ran cfg es a d w).env.drawn = d := rfl
@[simp] theorem PanelUnit.ran_work (cfg : Config) (u : PanelUnit) (es : List PanelEvent) (a : List Answer) (d : Nat) (w : Transient) :
    (u.ran cfg es a d w).work = w := rfl
@[simp] theorem PanelUnit.ran_setupErrs (cfg : Config) (u : PanelUnit) (es : List PanelEvent) (a : List Answer) (d : Nat) (w : Transient) :
    (u.ran cfg es a d w).setupErrs = u.setupErrs := rfl

theorem PanelUnit.after_eq_ran (cfg : Config) (u : PanelUnit) (es : List PanelEvent) (rest : List Answer) :
    u.after cfg es rest = u.ran cfg es rest u.env.drawn u.work := by
  have h := (PanelSide.observe_all_answers cfg es u.env).2
  simp only [PanelUnit.after, PanelUnit.ran, ← h]

/-- One event and no answer taken. -/
theorem PanelUnit.emit_eq_ran (cfg : Config) (u : PanelUnit) (e : PanelEvent) :
    u.emit cfg e = u.ran cfg [e] u.env.answers u.env.drawn u.work := rfl

/-- One event and the answer taken with it. -/
theorem PanelUnit.takeAnswer_emit_eq_ran (cfg : Config) (u : PanelUnit) (e : PanelEvent) :
    u.takeAnswer.emit cfg e = u.ran cfg [e] u.takeAnswer.env.answers u.takeAnswer.env.drawn u.work := rfl

/-! ### Sequencing -/

@[simp] theorem andThen_done {α : Type} (u : α) (k : α → Flow × α) : andThen (.done, u) k = k u := rfl
@[simp] theorem andThen_fail {α : Type} (st : Status) (u : α) (k : α → Flow × α) : andThen (.fail st, u) k = (.fail st, u) := rfl
@[simp] theorem andThen_hang {α : Type} (u : α) (k : α → Flow × α) : andThen (.hang, u) k = (.hang, u) := rfl

theorem andThen_assoc {α : Type} (r : Flow × α) (k l : α → Flow × α) :
    andThen (andThen r k) l = andThen r fun u => andThen (k u) l := by
  obtain ⟨f, u⟩ := r; cases f <;> rfl

/-- What a sequence of two parts can do. -/
theorem andThen_cases {α : Type} (r : Flow × α) (k : α → Flow × α) :
    (r.1 = .done ∧ andThen r k = k r.2) ∨ (r.1 ≠ .done ∧ andThen r k = r) := by
  obtain ⟨f, u⟩ := r; cases f <;> simp

/-! ### Equality up to the work state -/

/-- The unit with another work state. -/
def PanelUnit.withWork (w : Transient) (u : PanelUnit) : PanelUnit := { u with work := w }

/-- Two results that differ in the work state at most. -/
def SameTraffic (r r' : Flow × PanelUnit) : Prop := r.1 = r'.1 ∧ r.2.withWork .clear = r'.2.withWork .clear

theorem SameTraffic.refl (r : Flow × PanelUnit) : SameTraffic r r := ⟨rfl, rfl⟩
theorem SameTraffic.symm {r r' : Flow × PanelUnit} (h : SameTraffic r r') : SameTraffic r' r := ⟨h.1.symm, h.2.symm⟩
theorem SameTraffic.trans {a b c : Flow × PanelUnit} (h : SameTraffic a b) (k : SameTraffic b c) : SameTraffic a c :=
  ⟨h.1.trans k.1, h.2.trans k.2⟩

theorem PanelUnit.withWork_eq_iff {u v : PanelUnit} : u.withWork .clear = v.withWork .clear ↔ v = u.withWork v.work := by
  constructor
  · intro h
    have := congrArg (PanelUnit.withWork v.work) h
    exact this.symm
  · intro h; rw [h]; rfl

theorem SameTraffic.andThen {r r' : Flow × PanelUnit} {k k' : PanelUnit → Flow × PanelUnit} (h : SameTraffic r r')
    (hk : r.1 = .done → SameTraffic (k r.2) (k' r'.2)) : SameTraffic (andThen r k) (andThen r' k') := by
  obtain ⟨f, u⟩ := r
  obtain ⟨f', u'⟩ := r'
  obtain ⟨h1, h2⟩ := h
  simp only at h1; subst h1
  cases f with
  | done => exact hk rfl
  | fail st => exact ⟨rfl, h2⟩
  | hang => exact ⟨rfl, h2⟩

/-- An operation that has ended is the same for both. -/
theorem SameTraffic.finish {r r' : Flow × PanelUnit} (h : SameTraffic r r') (hh : r.1 ≠ .hang) :
    PanelUnit.finish r = PanelUnit.finish r' := by
  obtain ⟨f, u⟩ := r
  obtain ⟨f', u'⟩ := r'
  obtain ⟨h1, h2⟩ := h
  simp only at h1; subst h1
  rw [PanelUnit.withWork_eq_iff] at h2
  simp only at h2
  rw [h2]
  cases f with
  | done => rfl
  | fail st => rfl
  | hang => exact absurd rfl hh

/-! ### One transaction -/

/-- All that one transaction can do. -/
theorem PanelUnit.send_cases (cfg : Config) (dc : DcLine) (bytes : List Byte) (u : PanelUnit) :
    ((u.answer = .ok ∧ (u.send cfg dc bytes).1 = .done) ∨ (u.answer = .fail ∧ (u.send cfg dc bytes).1 = .fail .peripheralError) ∨
      (u.answer = .never ∧ (u.send cfg dc bytes).1 = .hang)) ∧
    (u.send cfg dc bytes).2 =
      u.ran cfg [.tx dc bytes u.answer] u.takeAnswer.env.answers u.takeAnswer.env.drawn u.work := by
  unfold PanelUnit.send PanelUnit.tx
  cases h : u.answer <;> simp [PanelUnit.takeAnswer_emit_eq_ran]

theorem PanelUnit.send_withWork (cfg : Config) (dc : DcLine) (bytes : List Byte) (u : PanelUnit) (w : Transient) :
    (u.withWork w).send cfg dc bytes = ((u.send cfg dc bytes).1, (u.send cfg dc bytes).2.withWork w) := by
  have e : (u.withWork w).answer = u.answer := rfl
  unfold PanelUnit.send PanelUnit.tx
  rw [e]
  cases u.answer <;> rfl

theorem PanelUnit.answer_of_script {u : PanelUnit} {a : Answer} {rest : List Answer} (h : u.env.answers = a :: rest) : u.answer = a := by
  simp [PanelUnit.answer, nextAnswer, h]

theorem PanelUnit.takeAnswer_of_script {u : PanelUnit} {a : Answer} {rest : List Answer} (h : u.env.answers = a :: rest) :
    u.takeAnswer.env.answers = rest ∧ u.takeAnswer.env.drawn = u.env.drawn := by
  simp [PanelUnit.takeAnswer, nextAnswer, h]

/-! ### Transactions in order -/

/-- Transactions one after the other, up to the first that fails. -/
def sendAll (cfg : Config) : List TxContent → PanelUnit → Flow × PanelUnit
  | [], u => (.done, u)
  | c :: cs, u => andThen (u.send cfg c.1 c.2) (sendAll cfg cs)

theorem sendAll_append (cfg : Config) (as bs : List TxContent) (u : PanelUnit) :
    sendAll cfg (as ++ bs) u = andThen (sendAll cfg as u) (sendAll cfg bs) := by
  induction as generalizing u with
  | nil => rfl
  | cons a as ih =>
    simp only [List.cons_append, sendAll, andThen_assoc]
    congr 1
    funext v; exact ih v

theorem sendAll_withWork (cfg : Config) (cs : List TxContent) (u : PanelUnit) (w : Transient) :
    sendAll cfg cs (u.withWork w) = ((sendAll cfg cs u).1, (sendAll cfg cs u).2.withWork w) := by
  induction cs generalizing u with
  | nil => rfl
  | cons c cs ih =>
    simp only [sendAll, PanelUnit.send_withWork]
    cases h : u.send cfg c.1 c.2 with
    | mk f v => cases f <;> simp [andThen, ih]

theorem sendAll_sameTraffic (cfg : Config) (cs : List TxContent) {u v : PanelUnit} (h : u.withWork .clear = v.withWork .clear) :
    SameTraffic (sendAll cfg cs u) (sendAll cfg cs v) := by
  rw [PanelUnit.withWork_eq_iff] at h
  rw [h, sendAll_withWork]
  exact ⟨rfl, rfl⟩

/-- All that a sequence of transactions can do: every one answered `ok`; or those before the `j`-th, which is answered `fail`, or never. -/
theorem sendAll_cases (cfg : Config) (cs : List TxContent) (u : PanelUnit) :
    ∃ a d, ((sendAll cfg cs u).1 = .done ∧ (sendAll cfg cs u).2 = u.ran cfg (okEvents cs) a d u.work) ∨
      ∃ j, ∃ h : j < cs.length,
        ((sendAll cfg cs u).1 = .fail .peripheralError ∧
          (sendAll cfg cs u).2 = u.ran cfg (okEvents (cs.take j) ++ [txEvent .fail cs[j]]) a d u.work) ∨
        ((sendAll cfg cs u).1 = .hang ∧
          (sendAll cfg cs u).2 = u.ran cfg (okEvents (cs.take j) ++ [txEvent .never cs[j]]) a d u.work) := by
  induction cs generalizing u with
  | nil => exact ⟨_, _, .inl ⟨rfl, (PanelUnit.ran_nil cfg u).symm⟩⟩
  | cons c cs ih =>
    obtain ⟨hf, hu⟩ := PanelUnit.send_cases cfg c.1 c.2 u
    rcases hs : u.send cfg c.1 c.2 with ⟨f, v⟩
    rw [hs] at hf hu
    simp only at hf hu
    simp only [sendAll, hs]
    rcases hf with ⟨ha, rfl⟩ | ⟨ha, rfl⟩ | ⟨ha, rfl⟩
    · obtain ⟨a, d, h⟩ := ih v
      refine ⟨a, d, ?_⟩
      simp only [andThen_done]
      rw [ha] at hu
      rcases h with ⟨h1, h2⟩ | ⟨j, hj, h⟩
      · refine .inl ⟨h1, ?_⟩
        rw [h2, hu, PanelUnit.ran_ran]
        rfl
      · refine .inr ⟨j + 1, by simpa using hj, ?_⟩
        rcases h with ⟨h1, h2⟩ | ⟨h1, h2⟩
        · refine .inl ⟨h1, ?_⟩
          rw [h2, hu, PanelUnit.ran_ran]; rfl
        · refine .inr ⟨h1, ?_⟩
          rw [h2, hu, PanelUnit.ran_ran]; rfl
    · exact ⟨_, _, .inr ⟨0, by simp, .inl ⟨rfl, by simp only [andThen_fail]; rw [hu, ha]; rfl⟩⟩⟩
    · exact ⟨_, _, .inr ⟨0, by simp, .inr ⟨rfl, by simp only [andThen_hang]; rw [hu, ha]; rfl⟩⟩⟩

/-- With a script of `ok` answers every transaction is sent. -/
theorem sendAll_ok (cfg : Config) (cs : List TxContent) (u : PanelUnit) (rest : List Answer)
    (h : u.env.answers = List.replicate cs.length .ok ++ rest) :
    sendAll cfg cs u = (.done, u.after cfg (okEvents cs) rest) := by
  rw [PanelUnit.after_eq_ran]
  induction cs generalizing u with
  | nil =>
    simp only [List.length_nil, List.replicate_zero, List.nil_append] at h
    simp only [sendAll, ← h, okEvents, List.map_nil, PanelUnit.ran_nil]
  | cons c cs ih =>
    have ha : u.env.answers = .ok :: (List.replicate cs.length .ok ++ rest) := by simpa [List.replicate_succ] using h
    obtain ⟨hf, hu⟩ := PanelUnit.send_cases cfg c.1 c.2 u
    have ht := PanelUnit.takeAnswer_of_script ha
    have hans := PanelUnit.answer_of_script ha
    rw [hans, ht.1, ht.2] at hu
    rcases hs : u.send cfg c.1 c.2 with ⟨f, v⟩
    rw [hs] at hf hu
    simp only [hans] at hf hu
    have hd : f = .done := by simpa using hf
    subst hd
    simp only [sendAll, hs, andThen_done]
    rw [ih v (by rw [hu]; rfl), hu, PanelUnit.ran_ran]
    rfl

/-- With `j` answers `ok` and then a bad one, the transactions up to the `j`-th are sent and the rest is not. -/
theorem sendAll_stops (cfg : Config) (cs : List TxContent) (u : PanelUnit) (rest : List Answer) (bad : Answer) (hb : bad ≠ .ok) (j : Nat)
    (hj : j < cs.length) (h : u.env.answers = List.replicate j .ok ++ bad :: rest) :
    sendAll cfg cs u =
      (if bad = .fail then .fail .peripheralError else .hang,
        u.after cfg (okEvents (cs.take j) ++ [txEvent bad cs[j]]) rest) := by
  rw [PanelUnit.after_eq_ran]
  induction cs generalizing u j with
  | nil => simp at hj
  | cons c cs ih =>
    obtain ⟨hf, hu⟩ := PanelUnit.send_cases cfg c.1 c.2 u
    rcases hs : u.send cfg c.1 c.2 with ⟨f, v⟩
    rw [hs] at hf hu
    simp only at hf hu
    simp only [sendAll, hs]
    cases j with
    | zero =>
      have ha : u.env.answers = bad :: rest := by simpa using h
      have hans := PanelUnit.answer_of_script ha
      have ht := PanelUnit.takeAnswer_of_script ha
      rw [hans, ht.1, ht.2] at hu
      rw [hans] at hf
      rw [hu]
      cases bad with
      | ok => exact absurd rfl hb
      | fail => have : f = .fail .peripheralError := by simpa using hf
                subst this; rfl
      | never => have : f = .hang := by simpa using hf
                 subst this; rfl
    | succ j =>
      have ha : u.env.answers = .ok :: (List.replicate j .ok ++ bad :: rest) := by simpa [List.replicate_succ] using h
      have hans := PanelUnit.answer_of_script ha
      have ht := PanelUnit.takeAnswer_of_script ha
      rw [hans, ht.1, ht.2] at hu
      have hd : f = .done := by simpa [hans] using hf
      subst hd
      simp only [andThen_done]
      rw [ih v j (by simpa using hj) (by rw [hu]; rfl), hu, PanelUnit.ran_ran]
      rfl

end Sys2Proof.Machine
end

