-- ==== Sys2Proof/Laws/Drawing.lean ====
section
/-! SUPPORT. The drawing procedures are sequences of transactions: WINDOW, STREAM, GLYPH, DRAW_STRING's loop and WRAPPED, each equal, up to the
work state, to `sendAll` of a list computed from its operands; and the facts of arithmetic those lists rest on. -/

namespace Sys2Proof.Machine

/-! ### What a valid configuration gives -/

/-- The facts about a configuration that layout rests on. -/
theorem Config.valid_safe {c : Config} (h : c.valid = true) :
    c.safeX + c.safeW ≤ c.panelW ∧ c.safeY + c.safeH ≤ c.panelH ∧ 1 ≤ c.chunkPixels ∧ 1 ≤ c.fmtBuf ∧ 1 ≤ c.symbuf ∧
    c.safeW ≤ 65535 ∧ c.safeH ≤ 65535 ∧ c.panelW + c.colOffset ≤ 65536 ∧ c.panelH + c.rowOffset ≤ 65536 := by
  simp only [Config.valid, Bool.and_eq_true, decide_eq_true_eq] at h
  omega

theorem Config.valid_commands {c : Config} (h : c.valid = true) :
    c.cmdCaset ≠ c.cmdRaset ∧ c.cmdCaset ≠ c.cmdRamwr ∧ c.cmdRaset ≠ c.cmdRamwr := by
  simp only [Config.valid, Bool.and_eq_true, decide_eq_true_eq] at h
  exact ⟨h.1.1.1.1.1.1.1.1.1.2, h.1.1.1.1.1.1.1.1.2, h.1.1.1.1.1.1.1.2⟩

/-- The rows of R5 that the source fixes. -/
theorem Config.valid_fixed {c : Config} (h : c.valid = true) :
    c.glyphW = 8 ∧ c.glyphH = 8 ∧ c.fontFirst = 0x20 ∧ c.fontLast = 0x7A ∧ c.lineGap = 2 ∧ c.font.length = 728 := by
  simp only [Config.valid, Config.fixedBySource, Bool.and_eq_true, decide_eq_true_eq] at h
  obtain ⟨_, ⟨⟨⟨⟨h1, h2⟩, h3⟩, h4⟩, h5⟩, h6⟩ := h
  rw [h2, h3, h4] at h6
  exact ⟨h1, h2, h3, h4, h5, h6⟩

theorem glyphWidth_eq {c : Config} (h : c.valid = true) (s : Nat) : glyphWidth c s = 8 * s := by
  rw [glyphWidth, (Config.valid_fixed h).1]

theorem glyphHeight_eq {c : Config} (h : c.valid = true) (s : Nat) : glyphHeight c s = 8 * s := by
  rw [glyphHeight, (Config.valid_fixed h).2.1]

theorem lineHeight_eq {c : Config} (h : c.valid = true) (s : Nat) : lineHeight c s = 8 * s + 2 := by
  rw [lineHeight, glyphHeight_eq h, (Config.valid_fixed h).2.2.2.2.1]

theorem glyphIndex_eq {c : Config} (h : c.valid = true) (ch : Byte) :
    glyphIndex c ch = if 0x20 ≤ ch.toNat ∧ ch.toNat ≤ 0x7A then ch.toNat - 0x20 else 0 := by
  rw [glyphIndex, (Config.valid_fixed h).2.2.1, (Config.valid_fixed h).2.2.2.1]

theorem fontRead_eq {c : Config} (h : c.valid = true) (idx row : Nat) : fontRead c idx row = c.font.getD (idx * 8 + row) 0 := by
  rw [fontRead, (Config.valid_fixed h).2.1]

theorem andThen_pure {α : Type} (r : Flow × α) : andThen r (fun u => (Flow.done, u)) = r := by
  obtain ⟨f, u⟩ := r; cases f <;> rfl

theorem window_eq_sendAll (cfg : Config) (x0 y0 x1 y1 : Nat) (u : PanelUnit) :
    window cfg x0 y0 x1 y1 u = sendAll cfg (windowTx cfg x0 y0 x1 y1) u := by
  simp only [windowTx, sendAll, andThen_pure]; rfl

/-! ### STREAM -/

theorem chunkSizes_zero (c : Nat) : chunkSizes 0 c = [] := by simp [chunkSizes]

theorem chunkSizes_step {n c : Nat} (hn : 0 < n) (hc : 0 < c) : chunkSizes n c = min n c :: chunkSizes (n - min n c) c := by
  rcases Nat.lt_or_ge n c with h | h
  · simp [chunkSizes, Nat.div_eq_of_lt h, Nat.mod_eq_of_lt h, Nat.min_eq_left (Nat.le_of_lt h), Nat.ne_of_gt hn]
  · have e1 : n / c = (n - c) / c + 1 := Nat.div_eq_sub_div hc h
    have e2 : n % c = (n - c) % c := Nat.mod_eq_sub_mod h
    simp only [chunkSizes, e1, e2, List.replicate_succ, Nat.min_eq_right h, List.cons_append]

theorem chunkSizes_sum (n c : Nat) : (chunkSizes n c).sum = n := by
  have h := Nat.div_add_mod n c
  unfold chunkSizes
  split
  · rename_i h0; simp only [List.append_nil, List.sum_replicate, smul_eq_mul]; rw [Nat.mul_comm]; omega
  · simp only [List.sum_append, List.sum_replicate, smul_eq_mul, List.sum_cons, List.sum_nil]; rw [Nat.mul_comm]; omega

theorem streamLoop_sameTraffic (cfg : Config) (hc : 1 ≤ cfg.chunkPixels) (color : Pixel) (turns rem : Nat) (h : rem ≤ turns)
    (u : PanelUnit) :
    SameTraffic (streamLoop cfg color turns rem u)
      (sendAll cfg ((chunkSizes rem cfg.chunkPixels).map fun k => (DcLine.data, chunkBytes color k)) u) := by
  induction turns generalizing rem u with
  | zero =>
    have : rem = 0 := by omega
    subst this
    simp [streamLoop, chunkSizes_zero, sendAll, SameTraffic.refl]
  | succ turns ih =>
    by_cases h0 : rem = 0
    · subst h0
      simp [streamLoop, chunkSizes_zero, sendAll, SameTraffic.refl]
    · rw [chunkSizes_step (by omega) (by omega)]
      simp only [streamLoop, h0, if_false, List.map_cons, sendAll]
      apply SameTraffic.andThen
      · have := PanelUnit.send_withWork cfg .data (chunkBytes color (min rem cfg.chunkPixels)) u
          { u.work with fillRem := rem, chunkBuf := chunkBytes color (min rem cfg.chunkPixels) }
        simp only [PanelUnit.withWork] at this
        rw [this]
        exact ⟨rfl, rfl⟩
      · intro _
        refine (ih _ (by omega) _).trans ?_
        apply sendAll_sameTraffic
        have := PanelUnit.send_withWork cfg .data (chunkBytes color (min rem cfg.chunkPixels)) u
          { u.work with fillRem := rem, chunkBuf := chunkBytes color (min rem cfg.chunkPixels) }
        simp only [PanelUnit.withWork] at this ⊢
        rw [this]

theorem fill_sameTraffic (cfg : Config) (hc : 1 ≤ cfg.chunkPixels) (color : Pixel) (x y w h : Nat) (u : PanelUnit) :
    SameTraffic (andThen (window cfg x y (x + w - 1) (y + h - 1) u) (stream cfg color (w * h))) (sendAll cfg (fillTx cfg color x y w h) u) := by
  unfold fillTx
  rw [sendAll_append, window_eq_sendAll]
  exact SameTraffic.andThen (SameTraffic.refl _) fun _ => streamLoop_sameTraffic cfg hc color _ _ (Nat.le_refl _) _

/-! ### GLYPH -/

theorem glyph_sameTraffic (cfg : Config) (hv : cfg.valid = true) (x y : Nat) (ch : Byte) (fg bg : Pixel) (s : Nat) (u : PanelUnit)
    (h : insidePanel cfg x y (8 * s) (8 * s) = true) :
    SameTraffic (glyph cfg x y ch fg bg s u) (sendAll cfg (glyphTx cfg x y ch fg bg s) u) := by
  unfold glyphTx glyph
  rw [sendAll_append]
  simp only [glyphWidth_eq hv, glyphHeight_eq hv, h, if_true, window_eq_sendAll]
  apply SameTraffic.andThen (SameTraffic.refl _)
  intro _
  generalize (sendAll cfg (windowTx cfg x y (x + 8 * s - 1) (y + 8 * s - 1)) u).2 = v
  generalize pixelBytes (glyphPixels cfg (glyphIndex cfg ch) s fg bg) = buf
  have := PanelUnit.send_withWork cfg .data buf v { v.work with glyphBuf := buf }
  simp only [PanelUnit.withWork] at this
  rw [this]
  simp only [sendAll, andThen_pure]
  exact ⟨rfl, rfl⟩

/-! ### DRAW_STRING -/

/-- The cells the loop draws from the index `i` on. -/
def loopCells (cfg : Config) (x y s : Nat) : List Byte → Nat → List TextCell
  | [], _ => []
  | c :: rest, i =>
    if insidePanel cfg (x + i * (8 * s)) y (8 * s) (8 * s) then
      { x := x + i * (8 * s), y := y, ch := c } :: loopCells cfg x y s rest (i + 1)
    else []

theorem cellsTx_cons (cfg : Config) (fg bg : Pixel) (s : Nat) (c : TextCell) (cells : List TextCell) :
    cellsTx cfg fg bg s (c :: cells) = glyphTx cfg c.x c.y c.ch fg bg s ++ cellsTx cfg fg bg s cells := rfl

theorem stringLoop_sameTraffic (cfg : Config) (hv : cfg.valid = true) (x y : Nat) (fg bg : Pixel) (s : Nat) (cs : List Byte) (i : Nat) (u : PanelUnit) :
    SameTraffic (stringLoop cfg x y fg bg s cs i u) (sendAll cfg (cellsTx cfg fg bg s (loopCells cfg x y s cs i)) u) := by
  induction cs generalizing i u with
  | nil => exact SameTraffic.refl _
  | cons c rest ih =>
    simp only [stringLoop, loopCells, glyphWidth_eq hv, glyphHeight_eq hv]
    split
    · rename_i h
      rw [cellsTx_cons, sendAll_append]
      have e : PanelUnit.withWork .clear { u with work := { u.work with charIdx := i } } = u.withWork .clear := rfl
      have h1 := (glyph_sameTraffic cfg hv (x + i * (8 * s)) y c fg bg s { u with work := { u.work with charIdx := i } } h).trans
        (sendAll_sameTraffic cfg _ e)
      refine SameTraffic.andThen h1 fun _ => (ih _ _).trans (sendAll_sameTraffic cfg _ h1.2)
    · exact ⟨rfl, rfl⟩

theorem textEnd_le (text : List Byte) : textEnd text ≤ text.length := by
  unfold textEnd textChars
  exact (List.takeWhile_sublist _).length_le

theorem textChars_eq_take (text : List Byte) : textChars text = text.take (textEnd text) := by
  have h := List.takeWhile_append_dropWhile (p := fun c : Byte => decide (c ≠ 0)) (l := text)
  have h2 := List.take_left' (l₁ := textChars text) (l₂ := text.dropWhile fun c => decide (c ≠ 0)) (i := textEnd text) rfl
  unfold textChars at h2
  rw [h] at h2
  exact h2.symm

/-- The loop's stop test counts the cells: they are those of `stringCells`. -/
theorem loopCells_eq (cfg : Config) (x y s : Nat) (hs : 0 < s) (cs : List Byte) (i : Nat) :
    loopCells cfg x y s cs i =
      (List.range (min cs.length (if y + 8 * s > cfg.panelH ∨ x + 8 * s > cfg.panelW then 0
        else (cfg.panelW - x) / (8 * s) - i))).map fun j =>
          { x := x + (i + j) * (8 * s), y := y, ch := cs.getD j 0 } := by
  have hg : 0 < 8 * s := by omega
  generalize hw : 8 * s = g at *
  induction cs generalizing i with
  | nil => simp [loopCells]
  | cons c rest ih =>
    have key : (insidePanel cfg (x + i * g) y g g = true) ↔
        (¬ (y + g > cfg.panelH ∨ x + g > cfg.panelW)) ∧ i < (cfg.panelW - x) / g := by
      have h1 : i < (cfg.panelW - x) / g ↔ (i + 1) * g ≤ cfg.panelW - x := Nat.le_div_iff_mul_le hg
      have h2 : (i + 1) * g = i * g + g := by rw [Nat.add_mul, Nat.one_mul]
      simp only [insidePanel, Bool.and_eq_true, decide_eq_true_eq]
      rw [h1, h2]
      have : 0 ≤ i * g := Nat.zero_le _
      constructor
      · rintro ⟨h3, h4⟩
        refine ⟨by omega, by omega⟩
      · rintro ⟨h3, h4⟩
        refine ⟨by omega, by omega⟩
    simp only [loopCells, hw]
    by_cases hin : insidePanel cfg (x + i * g) y g g = true
    · obtain ⟨k1, k2⟩ := key.1 hin
      simp only [hin, if_true, ih, k1, if_false]
      have e : min (c :: rest).length ((cfg.panelW - x) / g - i) = min rest.length ((cfg.panelW - x) / g - (i + 1)) + 1 := by
        simp only [List.length_cons]; omega
      rw [e, List.range_succ_eq_map]
      simp only [List.map_cons, List.map_map, List.cons.injEq]
      refine ⟨by simp, ?_⟩
      apply List.map_congr_left
      intro j _
      simp only [Function.comp, TextCell.mk.injEq, List.getD_cons_succ, and_true]
      congr 2; omega
    · simp only [hin, Bool.false_eq_true, if_false]
      have h0 : (if y + g > cfg.panelH ∨ x + g > cfg.panelW then 0 else (cfg.panelW - x) / g - i) = 0 := by
        split
        · rfl
        · rename_i h
          by_contra hne
          exact hin (key.2 ⟨h, by omega⟩)
      rw [h0]; simp

theorem loopCells_eq_stringCells (cfg : Config) (x y s : Nat) (hs : 0 < s) (text : List Byte) :
    loopCells cfg x y s (textChars text) 0 = stringCells cfg x y s text := by
  rw [loopCells_eq cfg x y s hs]
  unfold stringCells stringCount
  have hl : (textChars text).length = textEnd text := rfl
  rw [hl]
  simp only [Nat.sub_zero, Nat.zero_add]
  apply List.map_congr_left
  intro j hj
  have hj' : j < textEnd text := by
    have := List.mem_range.1 hj; omega
  simp only [TextCell.mk.injEq, true_and]
  rw [textChars_eq_take]
  simp [List.getD_eq_getElem?_getD, hj']

theorem string_sameTraffic (cfg : Config) (hv : cfg.valid = true) (x y : Nat) (fg bg : Pixel) (s : Nat) (hs : 0 < s) (text : List Byte) (u : PanelUnit) :
    SameTraffic (stringLoop cfg x y fg bg s (textChars text) 0 u) (sendAll cfg (cellsTx cfg fg bg s (stringCells cfg x y s text)) u) := by
  rw [← loopCells_eq_stringCells cfg x y s hs text]
  exact stringLoop_sameTraffic cfg hv x y fg bg s _ 0 u

/-! ### WRAPPED -/

/-- One character of the plan, in the machine's own terms. -/
theorem wrapCells_cons {cfg : Config} (hv : cfg.valid = true) (x s : Nat) (c : Byte) (rest : List Byte) (l : TextLayout) :
    wrapCells cfg x s (c :: rest) l =
      if c = newlineChar then
        match newLine cfg x s l with
        | none => ([], l)
        | some m => wrapCells cfg x s rest m
      else
        match wrapFor cfg x s l with
        | none => ([], l)
        | some m =>
          let r := wrapCells cfg x s rest (advance cfg s m)
          ({ x := cfg.safeX + m.curX, y := cfg.safeY + m.curY, ch := c } :: r.1, r.2) := by
  have e : l.curY + (8 * s + 2) + 8 * s > cfg.safeH ↔ ¬ l.curY + 2 * (8 * s) + 2 ≤ cfg.safeH := by omega
  simp only [wrapCells, newLine, wrapFor, advance, newlineChar, glyphWidth_eq hv, glyphHeight_eq hv, lineHeight_eq hv, e]
  by_cases h1 : l.curY + 2 * (8 * s) + 2 ≤ cfg.safeH <;> by_cases h2 : c = 0x0A <;> by_cases h3 : l.curX + 8 * s > cfg.safeW <;>
    simp [h1, h2, h3]

theorem newLine_some {cfg : Config} (hv : cfg.valid = true) {x s : Nat} {l m : TextLayout} (h : newLine cfg x s l = some m) :
    m = { l with curX := x, curY := l.curY + (8 * s + 2), lines := l.lines + 1 } ∧ m.curY + 8 * s ≤ cfg.safeH := by
  rw [newLine, lineHeight_eq hv, glyphHeight_eq hv] at h
  split at h
  · cases h
  · cases h; refine ⟨rfl, ?_⟩; simp only; omega

/-- Where a character is drawn: it fits on the line and the line fits in the safe area. -/
theorem wrapFor_some {cfg : Config} (hv : cfg.valid = true) {x s : Nat} {l m : TextLayout} (hx : x + 8 * s ≤ cfg.safeW)
    (hl : l.curY + 8 * s ≤ cfg.safeH) (h : wrapFor cfg x s l = some m) :
    m.curX + 8 * s ≤ cfg.safeW ∧ m.curY + 8 * s ≤ cfg.safeH := by
  rw [wrapFor, glyphWidth_eq hv] at h
  split at h
  · obtain ⟨h1, h2⟩ := newLine_some hv h
    exact ⟨by rw [h1]; exact hx, h2⟩
  · cases h; exact ⟨by omega, hl⟩

theorem cell_insidePanel {cfg : Config} (hv : cfg.valid = true) {s : Nat} {m : TextLayout} (h1 : m.curX + 8 * s ≤ cfg.safeW)
    (h2 : m.curY + 8 * s ≤ cfg.safeH) :
    insidePanel cfg (cfg.safeX + m.curX) (cfg.safeY + m.curY) (8 * s) (8 * s) = true := by
  have := Config.valid_safe hv
  simp only [insidePanel, Bool.and_eq_true, decide_eq_true_eq]
  omega

theorem sendAll_work (cfg : Config) (cs : List TxContent) (u : PanelUnit) : (sendAll cfg cs u).2.work = u.work := by
  obtain ⟨a, d, h⟩ := sendAll_cases cfg cs u
  rcases h with ⟨_, h⟩ | ⟨j, hj, ⟨_, h⟩ | ⟨_, h⟩⟩ <;> rw [h] <;> rfl

/-- The loop draws the cells of `wrapCells`, and when it is done its layout is the plan's. -/
theorem wrappedLoop_sameTraffic (cfg : Config) (hv : cfg.valid = true) (x : Nat) (fg bg : Pixel) (s : Nat) (hx : x + 8 * s ≤ cfg.safeW)
    (cs : List Byte) (i : Nat) (u : PanelUnit) (hl : u.work.layout.curY + 8 * s ≤ cfg.safeH) :
    SameTraffic (wrappedLoop cfg x fg bg s cs i u) (sendAll cfg (cellsTx cfg fg bg s (wrapCells cfg x s cs u.work.layout).1) u) ∧
    ((wrappedLoop cfg x fg bg s cs i u).1 = .done →
      (wrappedLoop cfg x fg bg s cs i u).2.work.layout = (wrapCells cfg x s cs u.work.layout).2) := by
  induction cs generalizing i u with
  | nil => exact ⟨SameTraffic.refl _, fun _ => rfl⟩
  | cons c rest ih =>
    rw [wrapCells_cons hv]
    simp only [wrappedLoop]
    split
    · cases hn : newLine cfg x s u.work.layout with
      | none => exact ⟨⟨rfl, rfl⟩, fun _ => rfl⟩
      | some l =>
        have h1 := newLine_some hv hn
        have h2 := ih (i + 1) (PanelUnit.setLayout { u with work := { u.work with charIdx := i } } l) h1.2
        refine ⟨h2.1.trans ?_, h2.2⟩
        exact sendAll_sameTraffic cfg _ rfl
    · cases hn : wrapFor cfg x s u.work.layout with
      | none => exact ⟨⟨rfl, rfl⟩, fun _ => rfl⟩
      | some l =>
        have h1 := wrapFor_some hv hx hl hn
        have hin := cell_insidePanel hv h1.1 h1.2
        have hg := (glyph_sameTraffic cfg hv _ _ c fg bg s (PanelUnit.setLayout { u with work := { u.work with charIdx := i } } l) hin).trans
          (sendAll_sameTraffic cfg _ (v := u) rfl)
        simp only
        rw [cellsTx_cons, sendAll_append]
        generalize glyph cfg (cfg.safeX + l.curX) (cfg.safeY + l.curY) c fg bg s
          (PanelUnit.setLayout { u with work := { u.work with charIdx := i } } l) = r at hg ⊢
        obtain ⟨f, v⟩ := r
        have h2 := ih (i + 1) (v.setLayout (advance cfg s l)) h1.2
        refine ⟨SameTraffic.andThen hg fun _ => h2.1.trans ?_, ?_⟩
        · exact sendAll_sameTraffic cfg _ hg.2
        · cases f with
          | done => exact h2.2
          | fail st => intro hd; cases hd
          | hang => intro hd; cases hd

end Sys2Proof.Machine
end

