-- ==== Sys2Proof/Laws/Ops.lean ====
section
/-! SUPPORT. Issuing an operation to a unit: when it answers a next state and what that is; and the bodies of the drawing operations, each
stopped before any effect or a `sendAll`. -/

namespace Sys2Proof.Machine

/-! ### Issuing -/

theorem State.panelOp_next {s : State} (h : s.PanelIdle) {latch : Latches → Latches}
    {body : Config → PanelUnit → Except Stop (Flow × PanelUnit)} {r : Flow × PanelUnit}
    (hb : body s.cfg { s.pu with op := latch s.pu.op } = .ok r) :
    s.panelOp latch body = .next { s with pu := PanelUnit.finish r } := by
  unfold State.panelOp
  rw [if_pos h.1, if_neg (by rw [h.2]; simp), hb]
  rfl

theorem State.panelOp_cases {s t : State} {latch : Latches → Latches} {body : Config → PanelUnit → Except Stop (Flow × PanelUnit)}
    (h : s.panelOp latch body = .next t) :
    s.PanelIdle ∧ ∃ r, body s.cfg { s.pu with op := latch s.pu.op } = .ok r ∧ t = { s with pu := PanelUnit.finish r } := by
  unfold State.panelOp at h
  split at h
  · split at h
    · cases h
    · rename_i h1 h2
      refine ⟨⟨h1, by simpa using h2⟩, ?_⟩
      cases hb : body s.cfg { s.pu with op := latch s.pu.op } with
      | ok r => rw [hb] at h; cases h; exact ⟨r, rfl, rfl⟩
      | error e => rw [hb] at h; cases e <;> cases h
  · cases h

theorem State.ledOp_next {s : State} (h : s.LedIdle) {latch : Latches → Latches}
    {body : Config → LedUnit → Except Stop (Flow × LedUnit)} {r : Flow × LedUnit}
    (hb : body s.cfg { s.lu with op := latch s.lu.op } = .ok r) :
    s.ledOp latch body = .next { s with lu := LedUnit.finish r } := by
  unfold State.ledOp
  rw [if_pos h.1, if_neg (by rw [h.2]; simp), hb]
  rfl

theorem State.ledOp_cases {s t : State} {latch : Latches → Latches} {body : Config → LedUnit → Except Stop (Flow × LedUnit)}
    (h : s.ledOp latch body = .next t) :
    s.LedIdle ∧ ∃ r, body s.cfg { s.lu with op := latch s.lu.op } = .ok r ∧ t = { s with lu := LedUnit.finish r } := by
  unfold State.ledOp at h
  split at h
  · split at h
    · cases h
    · rename_i h1 h2
      refine ⟨⟨h1, by simpa using h2⟩, ?_⟩
      cases hb : body s.cfg { s.lu with op := latch s.lu.op } with
      | ok r => rw [hb] at h; cases h; exact ⟨r, rfl, rfl⟩
      | error e => rw [hb] at h; cases e <;> cases h
  · cases h

theorem State.utilityOp_cases {s t : State} {latch : Latches → Latches} {result : Latches → BitVec 24}
    (h : s.utilityOp latch result = .next t) :
    s.cfg.valid = true ∧ t = { s with cu := { status := .ok, result := result (latch s.cu.op), op := latch s.cu.op } } := by
  unfold State.utilityOp at h
  split at h
  · rename_i h1; cases h; exact ⟨h1, rfl⟩
  · cases h

/-! ### Ending -/

theorem PanelUnit.finish_done (u : PanelUnit) : PanelUnit.finish (.done, u) = { u with status := .ok, work := .clear } := rfl
theorem PanelUnit.finish_fail (st : Status) (u : PanelUnit) : PanelUnit.finish (.fail st, u) = { u with status := st, work := .clear } := rfl
theorem PanelUnit.finish_hang (u : PanelUnit) : PanelUnit.finish (.hang, u) = { u with inFlight := true } := rfl
theorem LedUnit.finish_done (u : LedUnit) : LedUnit.finish (.done, u) = { u with status := .ok } := rfl
theorem LedUnit.finish_fail (st : Status) (u : LedUnit) : LedUnit.finish (.fail st, u) = { u with status := st } := rfl
theorem LedUnit.finish_hang (u : LedUnit) : LedUnit.finish (.hang, u) = { u with inFlight := true } := rfl

/-- A procedure that sent its transactions, all answered `ok`, and ended. -/
theorem finish_of_sameTraffic_ok {cfg : Config} {u : PanelUnit} {o : Latches} {r : Flow × PanelUnit} {cs : List TxContent} {rest : List Answer}
    (h : SameTraffic r (sendAll cfg cs { u with op := o })) (ha : u.env.answers = List.replicate cs.length .ok ++ rest) :
    PanelUnit.finish r = u.ended cfg (okEvents cs) rest o .ok := by
  have e := sendAll_ok cfg cs { u with op := o } rest ha
  rw [h.finish (by rw [h.1, e]; simp), e]
  rfl

/-- A procedure whose `j`-th transaction was answered `fail`. -/
theorem finish_of_sameTraffic_fail {cfg : Config} {u : PanelUnit} {o : Latches} {r : Flow × PanelUnit} {cs : List TxContent}
    {rest : List Answer} {j : Nat} (h : SameTraffic r (sendAll cfg cs { u with op := o })) (hj : j < cs.length)
    (ha : u.env.answers = List.replicate j .ok ++ .fail :: rest) :
    PanelUnit.finish r = u.ended cfg (failedAt cs j) rest o .peripheralError := by
  have e := sendAll_stops cfg cs { u with op := o } rest .fail (by simp) j hj ha
  rw [h.finish (by rw [h.1, e]; simp), e]
  simp only [failedAt, List.getElem?_eq_getElem hj, Option.toList_some, List.map_cons, List.map_nil]
  rfl

/-- A procedure whose `j`-th transaction is never answered: the engine stays with it, in the midst of its work. -/
theorem finish_of_sameTraffic_never {cfg : Config} {u : PanelUnit} {o : Latches} {r : Flow × PanelUnit} {cs : List TxContent}
    {rest : List Answer} {j : Nat} (h : SameTraffic r (sendAll cfg cs { u with op := o })) (hj : j < cs.length)
    (ha : u.env.answers = List.replicate j .ok ++ .never :: rest) :
    PanelUnit.finish r = u.waiting cfg (neverAt cs j) rest o r.2.work := by
  have e := sendAll_stops cfg cs { u with op := o } rest .never (by simp) j hj ha
  obtain ⟨f, v⟩ := r
  obtain ⟨h1, h2⟩ := h
  have h2 := PanelUnit.withWork_eq_iff.1 h2.symm
  rw [e] at h1 h2
  have hf : f = .hang := by simpa using h1
  subst hf
  rw [PanelUnit.finish_hang]
  simp only [neverAt, List.getElem?_eq_getElem hj, Option.toList_some, List.map_cons, List.map_nil] at h2 ⊢
  generalize hw : v.work = w at h2 ⊢
  subst h2
  rfl

/-! ### The bodies of the drawing operations -/

theorem setWindowBody_eq {cfg : Config} {u : PanelUnit} (hi : u.init = true)
    (hb : windowInside cfg u.op.x0.toNat u.op.y0.toNat u.op.x1.toNat u.op.y1.toNat = true) :
    setWindowBody cfg u = .ok (sendAll cfg (windowTx cfg u.op.x0.toNat u.op.y0.toNat u.op.x1.toNat u.op.y1.toNat) u) := by
  simp [setWindowBody, whenPanelReady, hi, hb, window_eq_sendAll]

theorem fillBody_eq {cfg : Config} (hv : cfg.valid = true) {u : PanelUnit} (hi : u.init = true) (hw : u.op.w.toNat ≠ 0) (hh : u.op.h.toNat ≠ 0)
    (hb : insidePanel cfg u.op.x.toNat u.op.y.toNat u.op.w.toNat u.op.h.toNat = true) :
    ∃ r, fillBody cfg u = .ok r ∧
      SameTraffic r (sendAll cfg (fillTx cfg u.op.color u.op.x.toNat u.op.y.toNat u.op.w.toNat u.op.h.toNat) u) := by
  refine ⟨_, ?_, fill_sameTraffic cfg (Config.valid_safe hv).2.2.1 _ _ _ _ _ _⟩
  simp [fillBody, whenPanelReady, hi, hw, hh, hb]

/-- A pixel is one more transaction after its window. -/
theorem drawPixelBody_eq {cfg : Config} {u : PanelUnit} (hi : u.init = true)
    (hb : insidePanel cfg u.op.x.toNat u.op.y.toNat 1 1 = true) :
    drawPixelBody cfg u = .ok (sendAll cfg
      (windowTx cfg u.op.x.toNat u.op.y.toNat u.op.x.toNat u.op.y.toNat ++ [(.data, be16 u.op.color)]) u) := by
  rw [sendAll_append]
  simp only [drawPixelBody, whenPanelReady, hi, if_true, hb, window_eq_sendAll, sendAll, andThen_pure]

theorem drawGlyphBody_eq {cfg : Config} (hv : cfg.valid = true) {u : PanelUnit} (hi : u.init = true) (hs : u.op.scale.toNat ≠ 0)
    (hb : insidePanel cfg u.op.x.toNat u.op.y.toNat (8 * u.op.scale.toNat) (8 * u.op.scale.toNat) = true) :
    ∃ r, drawGlyphBody cfg u = .ok r ∧
      SameTraffic r (sendAll cfg (glyphTx cfg u.op.x.toNat u.op.y.toNat u.op.ch u.op.fg u.op.bg u.op.scale.toNat) u) := by
  refine ⟨_, ?_, glyph_sameTraffic cfg hv _ _ _ _ _ _ _ hb⟩
  simp [drawGlyphBody, whenPanelReady, hi, whenScaled, hs]

theorem drawStringBody_eq {cfg : Config} (hv : cfg.valid = true) {u : PanelUnit} (hi : u.init = true) (hs : u.op.scale.toNat ≠ 0) :
    ∃ r, drawStringBody cfg u = .ok r ∧
      SameTraffic r (sendAll cfg (cellsTx cfg u.op.fg u.op.bg u.op.scale.toNat
        (stringCells cfg u.op.x.toNat u.op.y.toNat u.op.scale.toNat u.op.text)) u) := by
  refine ⟨_, ?_, string_sameTraffic cfg hv _ _ _ _ _ (by omega) _ _⟩
  simp [drawStringBody, whenPanelReady, hi, whenScaled, hs]

/-- WRAPPED: the cells of the plan, and when they are drawn the report. -/
theorem wrapped_sameTraffic {cfg : Config} (hv : cfg.valid = true) (x y : Nat) (text : List Byte) (fg bg : Pixel) (s : Nat) (want : Bool)
    (hx : x + 8 * s ≤ cfg.safeW) (u : PanelUnit) :
    SameTraffic (wrapped cfg x y text fg bg s want u)
      (andThen (sendAll cfg (cellsTx cfg fg bg s (wrapPlan cfg x y s text).1) u) fun v =>
        (.done, v.reported want s (wrapPlan cfg x y s text).2)) := by
  have report : ∀ (l : TextLayout) (v v' : PanelUnit), v.work.layout = l → v.withWork .clear = v'.withWork .clear →
      SameTraffic (.done, reportBounds cfg want s v) (.done, v'.reported want s l) := by
    intro l v v' hl hw
    rw [PanelUnit.withWork_eq_iff] at hw
    subst hl
    rw [hw]
    unfold reportBounds
    rw [glyphHeight_eq hv]
    cases want <;> exact ⟨rfl, rfl⟩
  unfold wrapped
  rw [glyphWidth_eq hv, glyphHeight_eq hv, if_neg (by omega)]
  unfold wrapPlan
  by_cases hy : y + 8 * s ≤ cfg.safeH
  · simp only [hy, if_true]
    have h := wrappedLoop_sameTraffic cfg hv x fg bg s hx (textChars text) 0 (u.setLayout (startLayout x y)) hy
    have h1 := h.1.trans (sendAll_sameTraffic cfg _ (v := u) rfl)
    have h2 := h.2
    simp only [PanelUnit.setLayout_work] at h1 h2
    exact SameTraffic.andThen h1 fun hd => report _ _ _ (h2 hd) h1.2
  · simp only [hy, if_false]
    simp only [andThen_done, cellsTx, List.flatMap_nil, sendAll]
    exact report _ _ _ rfl rfl

theorem drawWrappedBody_eq {cfg : Config} (hv : cfg.valid = true) {u : PanelUnit} (hi : u.init = true) (hs : u.op.scale.toNat ≠ 0)
    (hx : u.op.x.toNat + 8 * u.op.scale.toNat ≤ cfg.safeW) :
    ∃ r, drawWrappedBody cfg u = .ok r ∧
      SameTraffic r (andThen (sendAll cfg (cellsTx cfg u.op.fg u.op.bg u.op.scale.toNat
          (wrapPlan cfg u.op.x.toNat u.op.y.toNat u.op.scale.toNat u.op.text).1) u) fun v =>
        (.done, v.reported (u.op.flags.getLsbD 0) u.op.scale.toNat
          (wrapPlan cfg u.op.x.toNat u.op.y.toNat u.op.scale.toNat u.op.text).2)) := by
  refine ⟨_, ?_, wrapped_sameTraffic hv _ _ _ _ _ _ _ hx u⟩
  simp [drawWrappedBody, whenPanelReady, hi, whenScaled, hs]

theorem SameTraffic.report {r r' : Flow × PanelUnit} (h : SameTraffic r r') (want : Bool) (s : Nat) (l : TextLayout) :
    SameTraffic (Machine.andThen r fun v => (.done, v.reported want s l)) (Machine.andThen r' fun v => (.done, v.reported want s l)) := by
  refine SameTraffic.andThen h fun _ => ?_
  have hw := PanelUnit.withWork_eq_iff.1 h.2
  rw [hw]
  cases want <;> exact ⟨rfl, rfl⟩

theorem drawFormattedBody_eq {cfg : Config} (hv : cfg.valid = true) {u : PanelUnit} (hi : u.init = true) (hs : u.op.scale.toNat ≠ 0)
    (hx : u.op.x.toNat + 8 * u.op.scale.toNat ≤ cfg.safeW) :
    ∃ r, drawFormattedBody cfg u = .ok r ∧
      SameTraffic r (andThen (sendAll cfg (cellsTx cfg u.op.fg u.op.bg u.op.scale.toNat
          (wrapPlan cfg u.op.x.toNat u.op.y.toNat u.op.scale.toNat (formattedChars cfg u.op.text)).1) u) fun v =>
        (.done, v.reported (u.op.flags.getLsbD 0) u.op.scale.toNat
          (wrapPlan cfg u.op.x.toNat u.op.y.toNat u.op.scale.toNat (formattedChars cfg u.op.text)).2)) := by
  refine ⟨_, ?_, (wrapped_sameTraffic hv _ u.op.y.toNat (formattedChars cfg u.op.text) u.op.fg u.op.bg _ (u.op.flags.getLsbD 0) hx
    (fillFormatBuffer cfg u)).trans ?_⟩
  · simp [drawFormattedBody, whenPanelReady, hi, whenScaled, hs]
  · exact SameTraffic.report (sendAll_sameTraffic cfg _ (u := fillFormatBuffer cfg u) (v := u) rfl) _ _ _

/-! ### What a drawing operation can do, whatever the answers -/

/-- A transaction event. -/
def isTx : PanelEvent → Prop
  | .tx _ _ _ => True
  | .claim _ => False
  | .pinOutDc => False
  | .rst _ => False
  | .delay _ => False
  | .log _ => False

/-- The result of a drawing body: its transactions, and the bounds registers when it is done. -/
def Drew (cfg : Config) (u : PanelUnit) (r : Flow × PanelUnit) : Prop :=
  ∃ es a d w bx bh bl,
    r.2 = PanelUnit.ran cfg es a d w { u with boundsMaxX := bx, boundsHeight := bh, boundsLines := bl } ∧
    (∀ e ∈ es, isTx e) ∧
    (r.1 ≠ .done → bx = u.boundsMaxX ∧ bh = u.boundsHeight ∧ bl = u.boundsLines)

theorem sendAll_drew (cfg : Config) (cs : List TxContent) (u : PanelUnit) :
    Drew cfg u (sendAll cfg cs u) ∧
      ((sendAll cfg cs u).1 = .done ∨ (sendAll cfg cs u).1 = .fail .peripheralError ∨ (sendAll cfg cs u).1 = .hang) := by
  have hok : ∀ cs : List TxContent, ∀ e ∈ okEvents cs, isTx e := by
    intro cs e he
    obtain ⟨c, _, rfl⟩ := List.mem_map.1 he
    trivial
  have hbad : ∀ (cs : List TxContent) (a : Answer) (c : TxContent), ∀ e ∈ okEvents cs ++ [txEvent a c], isTx e := by
    intro cs a c e he
    rcases List.mem_append.1 he with h | h
    · exact hok _ e h
    · cases List.mem_singleton.1 h; trivial
  obtain ⟨a, d, h⟩ := sendAll_cases cfg cs u
  rcases h with ⟨h1, h2⟩ | ⟨j, hj, ⟨h1, h2⟩ | ⟨h1, h2⟩⟩
  · exact ⟨⟨_, a, d, u.work, _, _, _, h2, hok _, fun _ => ⟨rfl, rfl, rfl⟩⟩, .inl h1⟩
  · exact ⟨⟨_, a, d, u.work, _, _, _, h2, hbad _ _ _, fun _ => ⟨rfl, rfl, rfl⟩⟩, .inr (.inl h1)⟩
  · exact ⟨⟨_, a, d, u.work, _, _, _, h2, hbad _ _ _, fun _ => ⟨rfl, rfl, rfl⟩⟩, .inr (.inr h1)⟩

theorem Drew.of_sameTraffic {cfg : Config} {u : PanelUnit} {r r' : Flow × PanelUnit} (h : SameTraffic r r') (hd : Drew cfg u r') :
    Drew cfg u r := by
  obtain ⟨es, a, d, w, bx, bh, bl, h1, h2, h3⟩ := hd
  have hw := PanelUnit.withWork_eq_iff.1 h.2.symm
  refine ⟨es, a, d, r.2.work, bx, bh, bl, ?_, h2, by rw [h.1]; exact h3⟩
  rw [hw, h1]; rfl

theorem Drew.nothing (cfg : Config) (u : PanelUnit) (f : Flow) : Drew cfg u (f, u) :=
  ⟨[], u.env.answers, u.env.drawn, u.work, u.boundsMaxX, u.boundsHeight, u.boundsLines, (PanelUnit.ran_nil cfg u).symm, by simp, fun _ => ⟨rfl, rfl, rfl⟩⟩

theorem Drew.reported {cfg : Config} (cs : List TxContent) (u : PanelUnit) (want : Bool) (s : Nat) (l : TextLayout) :
    Drew cfg u (andThen (sendAll cfg cs u) fun v => (.done, v.reported want s l)) := by
  obtain ⟨⟨es, a, d, w, bx, bh, bl, h1, h2, h3⟩, hf⟩ := sendAll_drew cfg cs u
  rcases andThen_cases (sendAll cfg cs u) fun v => (Flow.done, v.reported want s l) with ⟨_, h⟩ | ⟨hn, h⟩
  · rw [h, h1]
    cases want
    · exact ⟨es, a, d, w, bx, bh, bl, rfl, h2, fun hc => absurd rfl hc⟩
    · exact ⟨es, a, d, w, _, _, _, rfl, h2, fun hc => absurd rfl hc⟩
  · rw [h]
    exact ⟨es, a, d, w, bx, bh, bl, h1, h2, h3⟩

/-- How a drawing body can end. -/
def DrawEnds (bounds : Bool) (u : PanelUnit) : Flow → Prop
  | .done => u.init = true
  | .fail st => (u.init = false ∧ st = .notInitialized) ∨ (u.init = true ∧ (st = .peripheralError ∨ (bounds = true ∧ st = .invalidBounds)))
  | .hang => u.init = true

theorem DrawEnds.of_sendAll {bounds : Bool} {u : PanelUnit} (hi : u.init = true) {f : Flow}
    (h : f = .done ∨ f = .fail .peripheralError ∨ f = .hang) : DrawEnds bounds u f := by
  rcases h with rfl | rfl | rfl
  · exact hi
  · exact .inr ⟨hi, .inl rfl⟩
  · exact hi

theorem whenPanelReady_drew {bounds : Bool} {cfg : Config} {u : PanelUnit} {body : Except Stop (Flow × PanelUnit)} {r : Flow × PanelUnit}
    (h : whenPanelReady u body = .ok r)
    (hb : u.init = true → body = .ok r → Drew cfg u r ∧ DrawEnds bounds u r.1) : Drew cfg u r ∧ DrawEnds bounds u r.1 := by
  unfold whenPanelReady at h
  split at h
  · exact hb (by assumption) h
  · rename_i hi; cases h; exact ⟨Drew.nothing cfg u _, .inl ⟨by simpa using hi, rfl⟩⟩

theorem setWindowBody_drew {cfg : Config} {u : PanelUnit} {r : Flow × PanelUnit} (h : setWindowBody cfg u = .ok r) :
    Drew cfg u r ∧ DrawEnds true u r.1 := by
  refine whenPanelReady_drew h fun hi h => ?_
  split at h
  · rw [window_eq_sendAll] at h; cases h
    exact ⟨(sendAll_drew cfg _ u).1, .of_sendAll hi (sendAll_drew cfg _ u).2⟩
  · cases h; exact ⟨Drew.nothing cfg u _, .inr ⟨hi, .inr ⟨rfl, rfl⟩⟩⟩

theorem fillBody_drew {cfg : Config} (hv : cfg.valid = true) {u : PanelUnit} {r : Flow × PanelUnit} (h : fillBody cfg u = .ok r) :
    Drew cfg u r ∧ DrawEnds true u r.1 := by
  refine whenPanelReady_drew h fun hi h => ?_
  simp only at h
  split at h
  · cases h
  · split at h
    · cases h
      have hs := fill_sameTraffic cfg (Config.valid_safe hv).2.2.1 u.op.color u.op.x.toNat u.op.y.toNat u.op.w.toNat u.op.h.toNat u
      exact ⟨(sendAll_drew cfg _ u).1.of_sameTraffic hs, .of_sendAll hi (by rw [hs.1]; exact (sendAll_drew cfg _ u).2)⟩
    · cases h; exact ⟨Drew.nothing cfg u _, .inr ⟨hi, .inr ⟨rfl, rfl⟩⟩⟩

theorem drawPixelBody_drew {cfg : Config} {u : PanelUnit} {r : Flow × PanelUnit} (h : drawPixelBody cfg u = .ok r) :
    Drew cfg u r ∧ DrawEnds true u r.1 := by
  refine whenPanelReady_drew h fun hi _ => ?_
  by_cases hb : insidePanel cfg u.op.x.toNat u.op.y.toNat 1 1 = true
  · rw [drawPixelBody_eq hi hb] at h; cases h
    exact ⟨(sendAll_drew cfg _ u).1, .of_sendAll hi (sendAll_drew cfg _ u).2⟩
  · simp only [drawPixelBody, whenPanelReady, hi, if_true, hb] at h
    cases h; exact ⟨Drew.nothing cfg u _, .inr ⟨hi, .inr ⟨rfl, rfl⟩⟩⟩

theorem drawGlyphBody_drew {cfg : Config} (hv : cfg.valid = true) {u : PanelUnit} {r : Flow × PanelUnit} (h : drawGlyphBody cfg u = .ok r) :
    Drew cfg u r ∧ DrawEnds true u r.1 := by
  refine whenPanelReady_drew h fun hi h' => ?_
  unfold whenScaled at h'
  split at h'
  · cases h'
  · by_cases hb : insidePanel cfg u.op.x.toNat u.op.y.toNat (8 * u.op.scale.toNat) (8 * u.op.scale.toNat) = true
    · cases h'
      have hs := glyph_sameTraffic cfg hv u.op.x.toNat u.op.y.toNat u.op.ch u.op.fg u.op.bg u.op.scale.toNat u hb
      exact ⟨(sendAll_drew cfg _ u).1.of_sameTraffic hs, .of_sendAll hi (by rw [hs.1]; exact (sendAll_drew cfg _ u).2)⟩
    · simp only [glyph, glyphWidth_eq hv, glyphHeight_eq hv, hb] at h'
      cases h'; exact ⟨Drew.nothing cfg u _, .inr ⟨hi, .inr ⟨rfl, rfl⟩⟩⟩

theorem drawStringBody_drew {cfg : Config} (hv : cfg.valid = true) {u : PanelUnit} {r : Flow × PanelUnit} (h : drawStringBody cfg u = .ok r) :
    Drew cfg u r ∧ DrawEnds false u r.1 := by
  refine whenPanelReady_drew h fun hi h' => ?_
  unfold whenScaled at h'
  split at h'
  · cases h'
  · rename_i hz
    cases h'
    have hs := string_sameTraffic cfg hv u.op.x.toNat u.op.y.toNat u.op.fg u.op.bg u.op.scale.toNat (by omega) u.op.text u
    exact ⟨(sendAll_drew cfg _ u).1.of_sameTraffic hs, .of_sendAll hi (by rw [hs.1]; exact (sendAll_drew cfg _ u).2)⟩

theorem andThen_reported_flow (cfg : Config) (cs : List TxContent) (u : PanelUnit) (want : Bool) (s : Nat) (l : TextLayout) :
    (andThen (sendAll cfg cs u) fun v => (Flow.done, v.reported want s l)).1 = (sendAll cfg cs u).1 := by
  rcases sendAll cfg cs u with ⟨f, v⟩
  cases f <;> rfl

theorem wrapped_drew {cfg : Config} (hv : cfg.valid = true) (x y : Nat) (text : List Byte) (fg bg : Pixel) (s : Nat) (want : Bool)
    {u : PanelUnit} (hi : u.init = true) :
    Drew cfg u (wrapped cfg x y text fg bg s want u) ∧ DrawEnds true u (wrapped cfg x y text fg bg s want u).1 := by
  by_cases hx : x + 8 * s ≤ cfg.safeW
  · have hs := wrapped_sameTraffic hv x y text fg bg s want hx u
    refine ⟨(Drew.reported _ u want s _).of_sameTraffic hs, .of_sendAll hi ?_⟩
    rw [hs.1, andThen_reported_flow]
    exact (sendAll_drew cfg _ u).2
  · unfold wrapped
    rw [glyphWidth_eq hv, if_pos (by omega)]
    exact ⟨Drew.nothing cfg u _, .inr ⟨hi, .inr ⟨rfl, rfl⟩⟩⟩

theorem drawWrappedBody_drew {cfg : Config} (hv : cfg.valid = true) {u : PanelUnit} {r : Flow × PanelUnit} (h : drawWrappedBody cfg u = .ok r) :
    Drew cfg u r ∧ DrawEnds true u r.1 := by
  refine whenPanelReady_drew h fun hi h' => ?_
  unfold whenScaled at h'
  split at h'
  · cases h'
  · cases h'
    exact wrapped_drew hv _ _ _ _ _ _ _ hi

theorem drawFormattedBody_drew {cfg : Config} (hv : cfg.valid = true) {u : PanelUnit} {r : Flow × PanelUnit}
    (h : drawFormattedBody cfg u = .ok r) : Drew cfg u r ∧ DrawEnds true u r.1 := by
  refine whenPanelReady_drew h fun hi h' => ?_
  unfold whenScaled at h'
  split at h'
  · cases h'
  · cases h'
    have hi' : (fillFormatBuffer cfg u).init = true := hi
    obtain ⟨⟨es, a, d, w, bx, bh, bl, h1, h2, h3⟩, he⟩ := wrapped_drew hv u.op.x.toNat u.op.y.toNat (formattedChars cfg u.op.text) u.op.fg u.op.bg
      u.op.scale.toNat (u.op.flags.getLsbD 0) hi'
    exact ⟨⟨es, a, d, w, bx, bh, bl, h1, h2, h3⟩, he⟩

end Sys2Proof.Machine
end

