-- ==== Sys2Proof/Laws/Led.lean ====
section
/-! SUPPORT. The LED Engine's SEND: what one invocation of the encoder does, that a whole transmission plays the train of R223 whatever slots the
peripheral grants, what it has played when the peripheral stops, and what SEND can do. -/

namespace Sys2Proof.Machine

/-! ### The encoder -/

/-- The LED unit after it has played `es`, with the encoder's place and the peripheral's script that stand there then. -/
def LedUnit.played (es : List LedEvent) (ph : EncPhase) (bp : Nat) (moves : List PeripheralMove) (drawn : Nat) (u : LedUnit) : LedUnit :=
  { u with
    trace := u.trace ++ es, encPhase := ph, encBitpos := bp
    env := { u.env with line := es.foldl lineAfter u.env.line, moves := moves, drawnMoves := drawn } }

theorem LedUnit.played_played (es fs : List LedEvent) (ph ph' : EncPhase) (bp bp' : Nat) (m m' : List PeripheralMove) (d d' : Nat) (u : LedUnit) :
    LedUnit.played fs ph' bp' m' d' (LedUnit.played es ph bp m d u) = LedUnit.played (es ++ fs) ph' bp' m' d' u := by
  simp [LedUnit.played, List.foldl_append]

theorem LedUnit.played_nil (u : LedUnit) : LedUnit.played [] u.encPhase u.encBitpos u.env.moves u.env.drawnMoves u = u := by
  simp [LedUnit.played]

@[simp] theorem LedUnit.played_env_moves (es : List LedEvent) (ph : EncPhase) (bp : Nat) (m : List PeripheralMove) (d : Nat) (u : LedUnit) :
    (LedUnit.played es ph bp m d u).env.moves = m := rfl
@[simp] theorem LedUnit.played_env_drawnMoves (es : List LedEvent) (ph : EncPhase) (bp : Nat) (m : List PeripheralMove) (d : Nat) (u : LedUnit) :
    (LedUnit.played es ph bp m d u).env.drawnMoves = d := rfl
@[simp] theorem LedUnit.played_encPhase (es : List LedEvent) (ph : EncPhase) (bp : Nat) (m : List PeripheralMove) (d : Nat) (u : LedUnit) :
    (LedUnit.played es ph bp m d u).encPhase = ph := rfl
@[simp] theorem LedUnit.played_encBitpos (es : List LedEvent) (ph : EncPhase) (bp : Nat) (m : List PeripheralMove) (d : Nat) (u : LedUnit) :
    (LedUnit.played es ph bp m d u).encBitpos = bp := rfl

theorem LedUnit.emit_eq_played (u : LedUnit) (e : LedEvent) :
    u.emit e = LedUnit.played [e] u.encPhase u.encBitpos u.env.moves u.env.drawnMoves u := rfl

theorem LedUnit.emits_eq_played (es : List LedEvent) (u : LedUnit) :
    u.emits es = LedUnit.played es u.encPhase u.encBitpos u.env.moves u.env.drawnMoves u := by
  unfold LedUnit.emits
  induction es generalizing u with
  | nil => exact (LedUnit.played_nil u).symm
  | cons e es ih =>
    rw [List.foldl_cons, ih, LedUnit.emit_eq_played]
    simp only [LedUnit.played_encPhase, LedUnit.played_encBitpos, LedUnit.played_env_moves, LedUnit.played_env_drawnMoves,
      LedUnit.played_played]
    rfl

theorem bitSymbols_succ (t : PulseTable) (w : WireBytes) (k n : Nat) :
    bitSymbols t w k (n + 1) = symbolPulses t (bitAt w k) ++ bitSymbols t w (k + 1) n := by
  simp [bitSymbols, List.range'_succ]

theorem bitSymbols_add (t : PulseTable) (w : WireBytes) (k m n : Nat) :
    bitSymbols t w k (m + n) = bitSymbols t w k m ++ bitSymbols t w (k + m) n := by
  unfold bitSymbols
  rw [← List.range'_append_1, List.flatMap_append]

/-- What the encoder has still to play. -/
def LedUnit.remaining (u : LedUnit) : List LedEvent :=
  match u.encPhase with
  | .color => bitSymbols u.ticks u.encBytes u.encBitpos (24 - u.encBitpos) ++ [resetPulse u.ticks]
  | .reset => [resetPulse u.ticks]

/-- The invocations the encoder can still need. -/
def LedUnit.toGo (u : LedUnit) : Nat :=
  match u.encPhase with
  | .color => 25 - u.encBitpos
  | .reset => 1

theorem encodeBits_spec (free : Nat) (u : LedUnit) (h : u.encBitpos ≤ 24) :
    encodeBits free u = (free - min free (24 - u.encBitpos),
      LedUnit.played (bitSymbols u.ticks u.encBytes u.encBitpos (min free (24 - u.encBitpos))) u.encPhase
        (u.encBitpos + min free (24 - u.encBitpos)) u.env.moves u.env.drawnMoves u) := by
  induction free generalizing u with
  | zero => simp [encodeBits, bitSymbols, LedUnit.played]
  | succ free ih =>
    unfold encodeBits
    by_cases hlt : u.encBitpos < 24
    · rw [if_pos hlt]
      simp only [LedUnit.emits_eq_played]
      rw [ih]
      · have e : min (free + 1) (24 - u.encBitpos) = min free (24 - (u.encBitpos + 1)) + 1 := by omega
        simp only [LedUnit.played, e, bitSymbols_succ, List.append_assoc, List.foldl_append, Prod.mk.injEq, true_and, and_true,
          LedUnit.mk.injEq]
        omega
      · simp only [LedUnit.played]; omega
    · have e : u.encBitpos = 24 := by omega
      rw [if_neg hlt]
      have e0 : 24 - u.encBitpos = 0 := by omega
      rw [e0, Nat.min_zero]
      simp [bitSymbols, LedUnit.played_nil]

/-- All that one invocation can do: the rest of the train and DONE, or a part of it and BUFFER_FULL, with fewer invocations to go. -/
theorem encode1_spec (free : Nat) (hf : 1 ≤ free) (u : LedUnit) (h : u.encBitpos ≤ 24) :
    encode1 free u = (.done, LedUnit.played u.remaining .color 0 u.env.moves u.env.drawnMoves u) ∨
    ∃ es ph bp, encode1 free u = (.bufferFull, LedUnit.played es ph bp u.env.moves u.env.drawnMoves u) ∧ bp ≤ 24 ∧
      u.remaining = es ++ (LedUnit.played es ph bp u.env.moves u.env.drawnMoves u).remaining ∧
      (LedUnit.played es ph bp u.env.moves u.env.drawnMoves u).toGo < u.toGo := by
  unfold encode1
  cases hph : u.encPhase with
  | reset => exact .inl (by simp [encodeReset, LedUnit.remaining, hph, LedUnit.emit, LedUnit.played])
  | color =>
    simp only [encodeBits_spec free u h]
    by_cases hlt : u.encBitpos + min free (24 - u.encBitpos) < 24
    · right
      refine ⟨bitSymbols u.ticks u.encBytes u.encBitpos (min free (24 - u.encBitpos)), .color,
        u.encBitpos + min free (24 - u.encBitpos), ?_, by omega, ?_, ?_⟩
      · simp only [LedUnit.played_encBitpos, hlt, if_true, hph]
      · simp only [LedUnit.remaining, hph, LedUnit.played]
        rw [← List.append_assoc, ← bitSymbols_add]
        congr 2; omega
      · simp only [LedUnit.toGo, hph, LedUnit.played]; omega
    · have e : u.encBitpos + min free (24 - u.encBitpos) = 24 := by omega
      have e2 : min free (24 - u.encBitpos) = 24 - u.encBitpos := by omega
      simp only [LedUnit.played_encBitpos, hlt, if_false]
      by_cases h0 : free - min free (24 - u.encBitpos) = 0
      · right
        refine ⟨bitSymbols u.ticks u.encBytes u.encBitpos (min free (24 - u.encBitpos)), .reset, 24, ?_, by omega, ?_, ?_⟩
        · simp only [h0, if_true, e]; rfl
        · simp only [LedUnit.remaining, hph, LedUnit.played, e2]
        · simp only [LedUnit.toGo, hph, LedUnit.played]; omega
      · left
        simp only [h0, if_false]
        simp [encodeReset, LedUnit.remaining, hph, LedUnit.emit, LedUnit.played, e2, List.foldl_append]

theorem slotsOf_pos (cfg : Config) (free : Nat) : 1 ≤ slotsOf cfg free := by unfold slotsOf; omega

theorem LedUnit.takeMove_eq_played (u : LedUnit) :
    u.takeMove = LedUnit.played [] u.encPhase u.encBitpos u.takeMove.env.moves u.takeMove.env.drawnMoves u := by
  unfold LedUnit.takeMove
  split <;> simp [LedUnit.played]

/-- All that a transmission can do: the whole rest of the train, or a beginning of it and then nothing more. -/
theorem encodeTrain_spec (cfg : Config) (left : Nat) (u : LedUnit) (h : u.encBitpos ≤ 24) (hl : u.toGo ≤ left) :
    ∃ m d, encodeTrain cfg left u = (.done, LedUnit.played u.remaining .color 0 m d u) ∨
      ∃ es ph bp, es <+: u.remaining ∧ bp ≤ 24 ∧ encodeTrain cfg left u = (.hang, LedUnit.played es ph bp m d u) := by
  induction left generalizing u with
  | zero => have : 1 ≤ u.toGo := by unfold LedUnit.toGo; split <;> omega
            omega
  | succ left ih =>
    unfold encodeTrain
    cases hm : u.move with
    | stall =>
      refine ⟨u.takeMove.env.moves, u.takeMove.env.drawnMoves, .inr ⟨[], u.encPhase, u.encBitpos, List.nil_prefix, h, ?_⟩⟩
      simp only
      rw [← LedUnit.takeMove_eq_played]
    | proceed free =>
      have ht := LedUnit.takeMove_eq_played u
      generalize u.takeMove.env.moves = m at ht
      generalize u.takeMove.env.drawnMoves = d at ht
      simp only [ht]
      have hr : ∀ es ph bp m d, (LedUnit.played es ph bp m d (LedUnit.played [] u.encPhase u.encBitpos m d u)) = LedUnit.played es ph bp m d u := by
        intros; rw [LedUnit.played_played]; rfl
      rcases encode1_spec (slotsOf cfg free) (slotsOf_pos cfg free) (LedUnit.played [] u.encPhase u.encBitpos m d u) h with
        h1 | ⟨es, ph, bp, h1, hbp, hrem, hgo⟩
      · refine ⟨m, d, .inl ?_⟩
        simp only [h1]
        rw [LedUnit.played_played]; rfl
      · simp only [h1]
        have hg2 : (LedUnit.played es ph bp (LedUnit.played [] u.encPhase u.encBitpos m d u).env.moves
            (LedUnit.played [] u.encPhase u.encBitpos m d u).env.drawnMoves (LedUnit.played [] u.encPhase u.encBitpos m d u)).toGo < u.toGo := hgo
        have hrem' : u.remaining = _ := hrem
        obtain ⟨m', d', h2⟩ := ih _ hbp (Nat.le_of_lt_succ (Nat.lt_of_lt_of_le hg2 hl))
        refine ⟨m', d', ?_⟩
        rcases h2 with h2 | ⟨fs, ph', bp', hpre, hb, h2⟩
        · left; rw [h2, hrem', LedUnit.played_played, LedUnit.played_played]; rfl
        · right
          refine ⟨es ++ fs, ph', bp', ?_, hb, ?_⟩
          · rw [hrem']; exact (List.prefix_append_right_inj es).2 hpre
          · rw [h2, LedUnit.played_played, LedUnit.played_played]; rfl

/-- A transmission under a script of moves none of which is a stall. -/
theorem encodeTrain_script (cfg : Config) (left : Nat) (u : LedUnit) (h : u.encBitpos ≤ 24) (hl : u.toGo ≤ left) (hlen : left ≤ u.env.moves.length)
    (hs : ∀ m ∈ u.env.moves.take left, m ≠ .stall) :
    ∃ n, 1 ≤ n ∧ n ≤ left ∧
      encodeTrain cfg left u = (.done, LedUnit.played u.remaining .color 0 (u.env.moves.drop n) u.env.drawnMoves u) := by
  induction left generalizing u with
  | zero => have : 1 ≤ u.toGo := by unfold LedUnit.toGo; split <;> omega
            omega
  | succ left ih =>
    obtain ⟨m, ms, hm⟩ : ∃ m ms, u.env.moves = m :: ms := by
      cases he : u.env.moves with
      | nil => rw [he] at hlen; simp at hlen
      | cons m ms => exact ⟨m, ms, rfl⟩
    have hne : m ≠ .stall := hs m (by rw [hm]; simp)
    have hmv : u.move = m := by simp [LedUnit.move, hm]
    have ht : u.takeMove = LedUnit.played [] u.encPhase u.encBitpos ms u.env.drawnMoves u := by
      simp [LedUnit.takeMove, hm, LedUnit.played]
    unfold encodeTrain
    rw [hmv]
    cases m with
    | stall => exact absurd rfl hne
    | proceed free =>
      simp only [ht]
      rcases encode1_spec (slotsOf cfg free) (slotsOf_pos cfg free) (LedUnit.played [] u.encPhase u.encBitpos ms u.env.drawnMoves u) h with
        h1 | ⟨es, ph, bp, h1, hbp, hrem, hgo⟩
      · refine ⟨1, by omega, by omega, ?_⟩
        simp only [h1]
        rw [LedUnit.played_played, hm]; rfl
      · simp only [h1]
        have hg2 : (LedUnit.played es ph bp (LedUnit.played [] u.encPhase u.encBitpos ms u.env.drawnMoves u).env.moves
            (LedUnit.played [] u.encPhase u.encBitpos ms u.env.drawnMoves u).env.drawnMoves
            (LedUnit.played [] u.encPhase u.encBitpos ms u.env.drawnMoves u)).toGo < u.toGo := hgo
        have hrem' : u.remaining = _ := hrem
        obtain ⟨n, hn1, hn2, h2⟩ := ih _ hbp (Nat.le_of_lt_succ (Nat.lt_of_lt_of_le hg2 hl))
          (by simp only [LedUnit.played_env_moves]; rw [hm] at hlen; simpa using hlen)
          (by
            simp only [LedUnit.played_env_moves]
            intro x hx
            exact hs x (by rw [hm, List.take_succ_cons]; exact List.mem_cons_of_mem _ hx))
        refine ⟨n + 1, by omega, by omega, ?_⟩
        rw [h2, hrem', LedUnit.played_played, LedUnit.played_played, hm]; rfl

/-! ### SEND -/

theorem trainEvents_eq (t : PulseTable) (w : WireBytes) : trainEvents t w = bitSymbols t w 0 24 ++ [resetPulse t] := by
  simp [trainEvents, bitSymbols, List.range_eq_range']

theorem foldl_lineAfter_append_low (es : List LedEvent) (t : PulseTable) (l : Option Level) :
    (es ++ [resetPulse t]).foldl lineAfter l = some .low := by
  rw [List.foldl_append]; rfl

theorem LedUnit.answer_of_script {u : LedUnit} {a : Answer} {rest : List Answer} (h : u.env.answers = a :: rest) : u.answer = a := by
  simp [LedUnit.answer, nextAnswer, h]

theorem LedUnit.takeAnswer_of_script {u : LedUnit} {a : Answer} {rest : List Answer} (h : u.env.answers = a :: rest) :
    u.takeAnswer = { u with env := { u.env with answers := rest } } := by
  simp [LedUnit.takeAnswer, nextAnswer, h]

/-- A rejected request. -/
theorem send_rejected (cfg : Config) (c : Rgb) {u : LedUnit} {rest : List Answer} (h : u.env.answers = .fail :: rest) :
    send cfg c u = (.fail .transmitError, u.rejected cfg c rest) := by
  unfold send LedUnit.txReq
  have ha : LedUnit.answer { u with encBytes := wireBytes cfg.wireOrder c } = .fail := LedUnit.answer_of_script h
  rw [ha, LedUnit.takeAnswer_of_script (u := { u with encBytes := wireBytes cfg.wireOrder c }) h]
  rfl

/-- An accepted transmission whose peripheral goes on: the train is played and the colour state written. -/
theorem send_sent (cfg : Config) (c : Rgb) {u : LedUnit} {rest : List Answer} (h : u.env.answers = .ok :: rest) (hp : u.encPhase = .color)
    (hb : u.encBitpos = 0) (hbusy : u.busy = false) (hlen : 26 ≤ u.env.moves.length) (hs : ∀ m ∈ u.env.moves.take 26, m ≠ .stall) :
    ∃ n, 2 ≤ n ∧ n ≤ 26 ∧ send cfg c u = (.done, u.sent cfg c rest (u.env.moves.drop n)) := by
  unfold send LedUnit.txReq
  have ha : LedUnit.answer { u with encBytes := wireBytes cfg.wireOrder c } = .ok := LedUnit.answer_of_script h
  rw [ha, LedUnit.takeAnswer_of_script (u := { u with encBytes := wireBytes cfg.wireOrder c }) h]
  simp only [transmit]
  obtain ⟨n, h1, h2, h3⟩ := encodeTrain_script cfg maxInvocations
    { (LedUnit.emit { u with encBytes := wireBytes cfg.wireOrder c, env := { u.env with answers := rest } }
        (.txReq (wireBytes cfg.wireOrder c).toList .ok)).showUnknown with busy := true }
    (by simp [hb]) (by simp [LedUnit.toGo, hp, hb]) (by simp only [LedUnit.showUnknown, LedUnit.emit, maxInvocations]; omega)
    (by
      intro m hm
      refine hs m ?_
      have : m ∈ u.env.moves.take 25 := by simpa [LedUnit.showUnknown, LedUnit.emit] using hm
      exact (List.take_prefix_take_left (by omega)).subset this)
  simp only [maxInvocations] at h2
  have hn : ∃ x ms, u.env.moves.drop n = x :: ms ∧ x ≠ .stall ∧ u.env.moves.drop (n + 1) = ms := by
    have hlt : n < u.env.moves.length := by omega
    refine ⟨u.env.moves[n], u.env.moves.drop (n + 1), List.drop_eq_getElem_cons hlt, ?_, rfl⟩
    apply hs
    have : n < (u.env.moves.take 26).length := by simp; omega
    have := List.getElem_mem this
    simpa using this
  obtain ⟨x, ms, hx1, hx2, hx3⟩ := hn
  refine ⟨n + 1, by omega, by omega, ?_⟩
  rw [h3]
  simp only [andThen_done]
  have hmv : ∀ v : LedUnit, v.env.moves = x :: ms → v.move = x ∧ v.takeMove = { v with env := { v.env with moves := ms } } := by
    intro v hv; simp [LedUnit.move, LedUnit.takeMove, hv]
  have h4 := hmv (LedUnit.played (LedUnit.remaining { (LedUnit.emit { u with encBytes := wireBytes cfg.wireOrder c, env := { u.env with answers := rest } }
        (.txReq (wireBytes cfg.wireOrder c).toList .ok)).showUnknown with busy := true }) .color 0 (u.env.moves.drop n) u.env.drawnMoves
        { (LedUnit.emit { u with encBytes := wireBytes cfg.wireOrder c, env := { u.env with answers := rest } }
        (.txReq (wireBytes cfg.wireOrder c).toList .ok)).showUnknown with busy := true }) hx1
  simp only [LedUnit.showUnknown_env, LedUnit.emit_env] at h4 ⊢
  rw [h4.1]
  cases x with
  | stall => exact absurd rfl hx2
  | proceed _ =>
    simp only
    rw [h4.2]
    simp only [LedUnit.remaining, LedUnit.showUnknown, LedUnit.emit, hp, hb, Nat.sub_zero, completeSend, LedUnit.played, LedUnit.sent,
      foldl_lineAfter_append_low, trainEvents_eq, List.append_assoc, hx3, hbusy, List.cons_append, List.nil_append]

/-- What every LED operation leaves as it was, and what it adds to the trace. -/
structure LedKept (u v : LedUnit) : Prop where
  init : v.init = u.init
  status : v.status = u.status
  pins : v.pins = u.pins
  ticks : v.ticks = u.ticks
  op : v.op = u.op
  inFlight : v.inFlight = u.inFlight
  wired : v.env.wired = u.env.wired
  trace : u.trace <+: v.trace

/-- All that SEND can do from an idle encoder: the train and the colour state; a rejected request; or a wait without an end. -/
theorem send_cases (cfg : Config) (c : Rgb) (u : LedUnit) (hp : u.encPhase = .color) (hb : u.encBitpos = 0) (hbusy : u.busy = false) :
    ∃ a da m dm,
      send cfg c u = (.done, { u.sent cfg c a m with env := { (u.sent cfg c a m).env with drawnAnswers := da, drawnMoves := dm } }) ∨
      send cfg c u = (.fail .transmitError, { u.rejected cfg c a with env := { (u.rejected cfg c a).env with drawnAnswers := da } }) ∨
      ((send cfg c u).1 = .hang ∧ LedKept u (send cfg c u).2 ∧ (send cfg c u).2.encBitpos ≤ 24 ∧
        (send cfg c u).2.color = u.color ∧ (send cfg c u).2.colorValid = u.colorValid) := by
  have hta : u.takeAnswer.env = { u.env with answers := u.takeAnswer.env.answers, drawnAnswers := u.takeAnswer.env.drawnAnswers } := rfl
  have htu : ∀ v : LedUnit, v.takeAnswer =
      { v with env := { v.env with answers := v.takeAnswer.env.answers, drawnAnswers := v.takeAnswer.env.drawnAnswers } } := fun _ => rfl
  unfold send LedUnit.txReq
  have ha : LedUnit.answer { u with encBytes := wireBytes cfg.wireOrder c } = u.answer := rfl
  rw [ha]
  have e := htu { u with encBytes := wireBytes cfg.wireOrder c }
  generalize (LedUnit.takeAnswer { u with encBytes := wireBytes cfg.wireOrder c }).env.answers = a at e
  generalize (LedUnit.takeAnswer { u with encBytes := wireBytes cfg.wireOrder c }).env.drawnAnswers = da at e
  rw [e]
  cases u.answer with
  | fail => exact ⟨a, da, [], 0, .inr (.inl rfl)⟩
  | never =>
    refine ⟨a, da, [], 0, .inr (.inr ⟨rfl, ?_, ?_, rfl, rfl⟩)⟩
    · exact ⟨rfl, rfl, rfl, rfl, rfl, rfl, rfl, List.prefix_append _ _⟩
    · simp [hb]
  | ok =>
    simp only [transmit]
    obtain ⟨m, d, h1⟩ := encodeTrain_spec cfg maxInvocations
      { (LedUnit.emit { u with encBytes := wireBytes cfg.wireOrder c, env := { u.env with answers := a, drawnAnswers := da } }
        (.txReq (wireBytes cfg.wireOrder c).toList .ok)).showUnknown with busy := true }
      (by simp [hb]) (by simp [LedUnit.toGo, hp, hb])
    rcases h1 with h1 | ⟨es, ph, bp, hpre, hbp, h1⟩
    · rw [h1]
      simp only [andThen_done]
      generalize hv : LedUnit.played (LedUnit.remaining { (LedUnit.emit { u with encBytes := wireBytes cfg.wireOrder c, env := { u.env with answers := a, drawnAnswers := da } }
        (.txReq (wireBytes cfg.wireOrder c).toList .ok)).showUnknown with busy := true }) .color 0 m d
        { (LedUnit.emit { u with encBytes := wireBytes cfg.wireOrder c, env := { u.env with answers := a, drawnAnswers := da } }
        (.txReq (wireBytes cfg.wireOrder c).toList .ok)).showUnknown with busy := true } = v
      have htm := LedUnit.takeMove_eq_played v
      refine ⟨a, da, v.takeMove.env.moves, v.takeMove.env.drawnMoves, ?_⟩
      cases hm : v.move with
      | stall =>
        right; right
        simp only
        refine ⟨trivial, ?_, ?_, ?_, ?_⟩
        · rw [htm, ← hv]
          refine ⟨rfl, rfl, rfl, rfl, rfl, rfl, rfl, ?_⟩
          simp only [LedUnit.played, LedUnit.showUnknown, LedUnit.emit, List.append_assoc]
          exact List.prefix_append _ _
        · rw [LedUnit.takeMove_encBitpos, ← hv]; simp
        · rw [LedUnit.takeMove_color, ← hv]; rfl
        · rw [LedUnit.takeMove_colorValid, ← hv]; rfl
      | proceed _ =>
        left
        simp only
        congr 1
        rw [htm]
        generalize v.takeMove.env.moves = m2
        generalize v.takeMove.env.drawnMoves = d2
        rw [← hv]
        simp only [LedUnit.remaining, LedUnit.showUnknown, LedUnit.emit, hp, hb, Nat.sub_zero, completeSend, LedUnit.played, LedUnit.sent,
          foldl_lineAfter_append_low, trainEvents_eq, List.append_assoc, hbusy, List.cons_append, List.nil_append, List.foldl_nil, List.append_nil]
    · rw [h1]
      refine ⟨a, da, [], 0, .inr (.inr ⟨rfl, ?_, hbp, rfl, rfl⟩)⟩
      refine ⟨rfl, rfl, rfl, rfl, rfl, rfl, rfl, ?_⟩
      simp only [andThen_hang, LedUnit.played, LedUnit.showUnknown, LedUnit.emit, List.append_assoc]
      exact List.prefix_append _ _

/-! ### A peripheral that stops -/

/-- The encoder stands where `p` slots of the train are filled and it has reported BUFFER_FULL, or has not begun. -/
def LedUnit.AtSlot (u : LedUnit) (p : Nat) : Prop :=
  p ≤ 24 ∧ u.encBitpos = p ∧ u.encPhase = if p = 24 then .reset else .color

theorem encode1_atSlot {u : LedUnit} {p free : Nat} (h : u.AtSlot p) (hf : 1 ≤ free) :
    encode1 free u =
      if p + free ≤ 24 then
        (.bufferFull, LedUnit.played (bitSymbols u.ticks u.encBytes p free) (if p + free = 24 then .reset else .color) (p + free)
          u.env.moves u.env.drawnMoves u)
      else (.done, LedUnit.played u.remaining .color 0 u.env.moves u.env.drawnMoves u) := by
  obtain ⟨h1, h2, h3⟩ := h
  unfold encode1
  by_cases h4 : p = 24
  · rw [if_pos h4] at h3
    have h5 : ¬ p + free ≤ 24 := by omega
    simp [h3, h5, encodeReset, LedUnit.remaining, LedUnit.emit, LedUnit.played]
  · rw [if_neg h4] at h3
    simp only [h3, encodeBits_spec free u (by omega), LedUnit.played_encBitpos, h2]
    by_cases h5 : p + free ≤ 24
    · rw [if_pos h5, Nat.min_eq_left (by omega)]
      by_cases h6 : p + free = 24
      · rw [if_neg (by omega), if_pos (by omega), if_pos h6]; rfl
      · rw [if_pos (by omega), if_neg h6]
    · rw [if_neg h5, Nat.min_eq_right (by omega), if_neg (by omega), if_neg (by omega)]
      simp [encodeReset, LedUnit.remaining, h3, h2, LedUnit.emit, LedUnit.played, List.foldl_append]

/-- The slots that these grants fill, if none is cut short. -/
def slotsFilled (cfg : Config) (slots : List Nat) : Nat := (slots.map (slotsOf cfg)).sum

theorem slotsFilled_cons (cfg : Config) (k : Nat) (slots : List Nat) : slotsFilled cfg (k :: slots) = slotsOf cfg k + slotsFilled cfg slots := by
  simp [slotsFilled]

theorem length_le_slotsFilled (cfg : Config) (slots : List Nat) : slots.length ≤ slotsFilled cfg slots := by
  induction slots with
  | nil => simp
  | cons k slots ih => have := slotsOf_pos cfg k; rw [slotsFilled_cons, List.length_cons]; omega

theorem encodeTrain_succ_proceed (cfg : Config) (left : Nat) {u : LedUnit} {p k : Nat} {ms : List PeripheralMove} (h : u.AtSlot p)
    (hm : u.env.moves = .proceed k :: ms) :
    encodeTrain cfg (left + 1) u =
      if p + slotsOf cfg k ≤ 24 then
        encodeTrain cfg left (LedUnit.played (bitSymbols u.ticks u.encBytes p (slotsOf cfg k))
          (if p + slotsOf cfg k = 24 then .reset else .color) (p + slotsOf cfg k) ms u.env.drawnMoves u)
      else (.done, LedUnit.played u.remaining .color 0 ms u.env.drawnMoves u) := by
  have hmv : u.move = .proceed k := by simp [LedUnit.move, hm]
  have ht : u.takeMove = LedUnit.played [] u.encPhase u.encBitpos ms u.env.drawnMoves u := by simp [LedUnit.takeMove, hm, LedUnit.played]
  have ha : (LedUnit.played [] u.encPhase u.encBitpos ms u.env.drawnMoves u).AtSlot p := h
  rw [encodeTrain, hmv]
  simp only [ht]
  rw [encode1_atSlot ha (slotsOf_pos cfg k)]
  by_cases h5 : p + slotsOf cfg k ≤ 24
  · simp only [h5, if_true, LedUnit.played_played]; rfl
  · simp only [h5, if_false, LedUnit.played_played]; rfl

/-- The peripheral stops within the train. -/
theorem encodeTrain_stalls (cfg : Config) (slots : List Nat) (moves : List PeripheralMove) (left : Nat) {u : LedUnit} {p : Nat} (h : u.AtSlot p)
    (hm : u.env.moves = slots.map .proceed ++ .stall :: moves) (hs : p + slotsFilled cfg slots ≤ 24) (hl : slots.length < left) :
    encodeTrain cfg left u = (.hang, LedUnit.played (bitSymbols u.ticks u.encBytes p (slotsFilled cfg slots))
      (if p + slotsFilled cfg slots = 24 then .reset else .color) (p + slotsFilled cfg slots) moves u.env.drawnMoves u) := by
  induction slots generalizing u p left with
  | nil =>
    obtain ⟨left, rfl⟩ : ∃ n, left = n + 1 := ⟨left - 1, by simp at hl; omega⟩
    have hmv : u.move = .stall := by simp [LedUnit.move, hm]
    have e : slotsFilled cfg [] = 0 := rfl
    rw [encodeTrain, hmv, e, Nat.add_zero, ← h.2.2]
    simp [LedUnit.takeMove, hm, LedUnit.played, bitSymbols, h.2.1]
  | cons k slots ih =>
    obtain ⟨left, rfl⟩ : ∃ n, left = n + 1 := ⟨left - 1, by simp at hl; omega⟩
    rw [slotsFilled_cons] at hs ⊢
    rw [encodeTrain_succ_proceed cfg left h (k := k) (ms := slots.map .proceed ++ .stall :: moves) (by rw [hm]; rfl), if_pos (by omega)]
    have h' : (LedUnit.played (bitSymbols u.ticks u.encBytes p (slotsOf cfg k)) (if p + slotsOf cfg k = 24 then .reset else .color)
        (p + slotsOf cfg k) (slots.map .proceed ++ .stall :: moves) u.env.drawnMoves u).AtSlot (p + slotsOf cfg k) := ⟨by omega, rfl, rfl⟩
    have e := ih left h' rfl (by omega) (by simpa using hl)
    rw [e, LedUnit.played_played, bitSymbols_add, Nat.add_assoc]
    rfl

/-- The peripheral stops when it has been given the whole train. -/
theorem encodeTrain_filled (cfg : Config) (slots : List Nat) (moves : List PeripheralMove) (left : Nat) {u : LedUnit} {p : Nat} (h : u.AtSlot p)
    (hm : u.env.moves = slots.map .proceed ++ moves) (h1 : p + slotsFilled cfg slots.dropLast ≤ 24)
    (h2 : 25 ≤ p + slotsFilled cfg slots) (hl : slots.length ≤ left) :
    encodeTrain cfg left u = (.done, LedUnit.played u.remaining .color 0 moves u.env.drawnMoves u) := by
  induction slots generalizing u p left with
  | nil => have := h.1; simp [slotsFilled] at h2; omega
  | cons k slots ih =>
    obtain ⟨left, rfl⟩ : ∃ n, left = n + 1 := ⟨left - 1, by simp at hl; omega⟩
    rw [encodeTrain_succ_proceed cfg left h (k := k) (ms := slots.map .proceed ++ moves) (by rw [hm]; rfl)]
    rw [slotsFilled_cons] at h2
    cases hs : slots with
    | nil =>
      subst hs
      have e : slotsFilled cfg [] = 0 := rfl
      rw [if_neg (by omega)]; rfl
    | cons k2 rest =>
      have hd : (k :: slots).dropLast = k :: slots.dropLast := by rw [hs]; rfl
      rw [hd, slotsFilled_cons] at h1
      rw [if_pos (by omega), ← hs]
      have h' : (LedUnit.played (bitSymbols u.ticks u.encBytes p (slotsOf cfg k)) (if p + slotsOf cfg k = 24 then .reset else .color)
          (p + slotsOf cfg k) (slots.map .proceed ++ moves) u.env.drawnMoves u).AtSlot (p + slotsOf cfg k) := ⟨by omega, rfl, rfl⟩
      have e := ih left h' rfl (by omega) (by omega) (by simpa using hl)
      rw [e, LedUnit.played_played]
      have hrem : u.remaining = bitSymbols u.ticks u.encBytes p (slotsOf cfg k) ++
          (LedUnit.played (bitSymbols u.ticks u.encBytes p (slotsOf cfg k)) (if p + slotsOf cfg k = 24 then .reset else .color)
            (p + slotsOf cfg k) (slots.map .proceed ++ moves) u.env.drawnMoves u).remaining := by
        have := slotsOf_pos cfg k
        have hc : u.encPhase = .color := by rw [h.2.2, if_neg (by omega)]
        by_cases h24 : p + slotsOf cfg k = 24
        · simp only [LedUnit.remaining, hc, LedUnit.played, h24, if_true, h.2.1]
          rw [show 24 - p = slotsOf cfg k by omega]
        · simp only [LedUnit.remaining, hc, LedUnit.played, h24, if_false, h.2.1]
          rw [← List.append_assoc, ← bitSymbols_add, show slotsOf cfg k + (24 - (p + slotsOf cfg k)) = 24 - p by omega]
      rw [hrem]
      rfl

theorem bitSymbols_length (t : PulseTable) (w : WireBytes) (k n : Nat) : (bitSymbols t w k n).length = 2 * n := by
  have : ∀ b, (symbolPulses t b).length = 2 := by intro b; cases b <;> rfl
  simp [bitSymbols, List.length_flatMap, this, Nat.mul_comm]

/-- A slot of the train is two events, but for the last, which is the reset pulse. -/
theorem trainEvents_take (t : PulseTable) (w : WireBytes) {n : Nat} (h : n ≤ 24) : (trainEvents t w).take (2 * n) = bitSymbols t w 0 n := by
  rw [trainEvents_eq, show 24 = n + (24 - n) by omega, bitSymbols_add, List.append_assoc, List.take_left' (bitSymbols_length t w 0 n)]

theorem trainEvents_take_all (t : PulseTable) (w : WireBytes) : (trainEvents t w).take (2 * 25) = trainEvents t w := by
  apply List.take_of_length_le
  simp [trainEvents_eq, bitSymbols_length]

theorem foldl_lineAfter_bitSymbols (t : PulseTable) (w : WireBytes) (k n : Nat) (l : Option Level) :
    (bitSymbols t w k n).foldl lineAfter l = if n = 0 then l else some .low := by
  cases n with
  | zero => rfl
  | succ n =>
    rw [bitSymbols_add, List.foldl_append, bitSymbols_succ]
    simp only [bitSymbols, List.range'_zero, List.flatMap_nil, List.append_nil, Nat.succ_ne_zero, if_false]
    cases bitAt w (k + n) <;> rfl

theorem foldl_lineAfter_train (t : PulseTable) (w : WireBytes) (l : Option Level) : (trainEvents t w).foldl lineAfter l = some .low := by
  rw [trainEvents_eq, foldl_lineAfter_append_low]

/-- A request that is never answered. -/
theorem send_unanswered (cfg : Config) (c : Rgb) {u : LedUnit} {rest : List Answer} (h : u.env.answers = .never :: rest) :
    (send cfg c u).1 = .hang ∧ LedUnit.finish (send cfg c u) = u.unanswered cfg c rest u.op := by
  unfold send LedUnit.txReq
  have ha : LedUnit.answer { u with encBytes := wireBytes cfg.wireOrder c } = .never := LedUnit.answer_of_script h
  rw [ha, LedUnit.takeAnswer_of_script (u := { u with encBytes := wireBytes cfg.wireOrder c }) h]
  exact ⟨rfl, rfl⟩

/-- An accepted request whose peripheral stops, within the train or when it has been given the whole of it. -/
theorem send_stalled (cfg : Config) (c : Rgb) {u : LedUnit} {rest : List Answer} {slots : List Nat} {moves : List PeripheralMove}
    (h : u.env.answers = .ok :: rest) (hp : u.encPhase = .color) (hb : u.encBitpos = 0)
    (hm : u.env.moves = slots.map .proceed ++ .stall :: moves) :
    (slotsFilled cfg slots ≤ 24 →
      (send cfg c u).1 = .hang ∧ LedUnit.finish (send cfg c u) = u.stalled cfg c rest moves u.op (slotsFilled cfg slots)) ∧
    (slotsFilled cfg slots.dropLast ≤ 24 → 25 ≤ slotsFilled cfg slots →
      (send cfg c u).1 = .hang ∧ LedUnit.finish (send cfg c u) = u.stalled cfg c rest moves u.op 25) := by
  unfold send LedUnit.txReq
  have ha : LedUnit.answer { u with encBytes := wireBytes cfg.wireOrder c } = .ok := LedUnit.answer_of_script h
  rw [ha, LedUnit.takeAnswer_of_script (u := { u with encBytes := wireBytes cfg.wireOrder c }) h]
  simp only [transmit]
  generalize hv : ({ (LedUnit.emit { u with encBytes := wireBytes cfg.wireOrder c, env := { u.env with answers := rest } }
        (.txReq (wireBytes cfg.wireOrder c).toList .ok)).showUnknown with busy := true } : LedUnit) = v
  have hat : v.AtSlot 0 := by subst hv; exact ⟨by omega, hb, hp⟩
  have hmv : v.env.moves = slots.map .proceed ++ .stall :: moves := by subst hv; exact hm
  have hlen := length_le_slotsFilled cfg slots
  refine ⟨fun hn => ?_, fun h1 h2 => ?_⟩
  · rw [encodeTrain_stalls cfg slots moves maxInvocations hat hmv (by omega) (by simp only [maxInvocations]; omega)]
    refine ⟨rfl, ?_⟩
    simp only [andThen_hang, LedUnit.finish_hang, Nat.zero_add]
    subst hv
    simp only [LedUnit.played, LedUnit.showUnknown, LedUnit.emit, LedUnit.stalled, trainEvents_take _ _ hn, foldl_lineAfter_bitSymbols, hn,
      if_true, List.append_assoc, List.cons_append, List.nil_append]
    rfl
  · have hlen2 := length_le_slotsFilled cfg slots.dropLast
    rw [encodeTrain_filled cfg slots (.stall :: moves) maxInvocations hat hmv (by omega) (by omega)
      (by simp only [maxInvocations]; rw [List.length_dropLast] at hlen2; omega)]
    simp only [andThen_done]
    generalize hw : LedUnit.played v.remaining .color 0 (.stall :: moves) v.env.drawnMoves v = w
    have hm1 : w.move = .stall := by subst hw; rfl
    have hm2 : w.takeMove = { w with env := { w.env with moves := moves } } := by subst hw; rfl
    rw [hm1]
    simp only [hm2]
    refine ⟨trivial, ?_⟩
    rw [LedUnit.finish_hang]
    subst hw; subst hv
    simp only [LedUnit.remaining, LedUnit.played, LedUnit.showUnknown, LedUnit.emit, LedUnit.stalled, trainEvents_take_all, hp, hb, Nat.sub_zero,
      foldl_lineAfter_train, ← trainEvents_eq, List.append_assoc, List.cons_append, List.nil_append]
    rfl

/-! ### The bodies of the LED operations -/

theorem whenLedReady_notInit {u : LedUnit} (hi : u.init = false) (body : Except Stop (Flow × LedUnit)) :
    whenLedReady u body = .ok (.fail .notInitialized, u) := by
  unfold whenLedReady; rw [hi]; rfl

theorem setColorBody_eq (cfg : Config) {u : LedUnit} (hi : u.init = true) (hb : u.busy = false) :
    setColorBody cfg u = .ok (send cfg { r := u.op.r, g := u.op.g, b := u.op.b } u) := by
  unfold setColorBody whenLedReady whenIdle; rw [hi, hb]; rfl

theorem setHsvBody_eq (cfg : Config) {u : LedUnit} (hi : u.init = true) (hb : u.busy = false) :
    setHsvBody cfg u = .ok (send cfg (hsvToRgb u.op.hue u.op.sat u.op.val) u) := by
  unfold setHsvBody whenLedReady whenIdle; rw [hi, hb]; rfl

theorem turnOffBody_eq (cfg : Config) {u : LedUnit} (hi : u.init = true) (hb : u.busy = false) :
    turnOffBody cfg u = .ok (send cfg blackRgb u) := by
  unfold turnOffBody whenLedReady whenIdle; rw [hi, hb]; rfl

theorem ledDeinitBody_eq (cfg : Config) {u : LedUnit} (hi : u.init = true) (hb : u.busy = false) :
    ledDeinitBody cfg u = .ok (releaseAfter (send cfg blackRgb u)) := by
  unfold ledDeinitBody whenIdle; rw [hi, hb]; rfl

theorem ledDeinitBody_notInit (cfg : Config) {u : LedUnit} (hi : u.init = false) : ledDeinitBody cfg u = .ok (.done, u) := by
  unfold ledDeinitBody; rw [hi]; rfl

/-- The unit after LED_INIT's two first events, the allocation being answered `a`. -/
def LedUnit.asked (cfg : Config) (a : Answer) (rest : List Answer) (u : LedUnit) : LedUnit :=
  { u with
    pins := { pin := u.op.pin, chan := u.op.chan }
    trace := u.trace ++ [.pinOutLow u.op.pin, .chanAlloc cfg.resHz a]
    env := { u.env with answers := rest, line := some .low } }

/-- How LED_INIT goes on after its allocation. -/
def LedUnit.allocated (cfg : Config) (rest : List Answer) (u : LedUnit) : Answer → Flow × LedUnit
  | .fail => (.fail .peripheralError, u.asked cfg .fail rest)
  | .never => (.hang, u.asked cfg .never rest)
  | .ok => startEngine cfg (u.asked cfg .ok rest)

/-- LED_INIT on an engine that is not initialised, by the answer to its allocation. -/
theorem ledInitBody_eq (cfg : Config) {u : LedUnit} (hi : u.init = false) {a : Answer} {rest : List Answer} (ha : u.env.answers = a :: rest) :
    ledInitBody cfg u = .ok (u.allocated cfg rest a) := by
  have h1 : LedUnit.chanAlloc cfg (LedUnit.emit { u with pins := { pin := u.op.pin, chan := u.op.chan } } (.pinOutLow u.op.pin)) =
      (a, u.asked cfg a rest) := by
    unfold LedUnit.chanAlloc LedUnit.asked
    have h := LedUnit.answer_of_script (u := LedUnit.emit { u with pins := { pin := u.op.pin, chan := u.op.chan } } (.pinOutLow u.op.pin)) ha
    rw [h, LedUnit.takeAnswer_of_script (u := LedUnit.emit { u with pins := { pin := u.op.pin, chan := u.op.chan } } (.pinOutLow u.op.pin)) ha]
    simp [LedUnit.emit, lineAfter]
  unfold ledInitBody
  rw [if_neg (by simp [hi])]
  simp only [h1]
  cases a <;> rfl

end Sys2Proof.Machine
end

