-- ==== Sys2Proof/Laws/Memory.lean ====
section
/-! SUPPORT. The panel memory: every operation keeps its canonical form, what is read after a write, and the one-pass merge is the loop of
R84. -/

namespace Sys2Proof.Machine

/-- Every address of `m` is at least `lo`. -/
def Memory.Above (lo : Nat) (m : Memory) : Prop := ∀ c ∈ m, lo ≤ c.1

/-- The canonical form, as rising from a lower bound. -/
def Memory.Rising : Nat → Memory → Prop
  | _, [] => True
  | lo, c :: m => lo ≤ c.1 ∧ Memory.Rising (c.1 + 1) m

theorem Memory.rising_mono {lo lo' : Nat} (h : lo' ≤ lo) {m : Memory} (hm : m.Rising lo) : m.Rising lo' := by
  cases m with
  | nil => trivial
  | cons c m => exact ⟨le_trans h hm.1, hm.2⟩

theorem Memory.wf_iff_rising (m : Memory) : m.wf = true ↔ m.Rising 0 := by
  have key : ∀ (m : Memory) (lo : Nat), m.Rising lo ↔ m.wf = true ∧ ∀ c ∈ m.head?, lo ≤ c.1 := by
    intro m
    induction m with
    | nil => intro lo; simp [Memory.Rising, Memory.wf]
    | cons c m ih =>
      intro lo
      cases m with
      | nil => simp [Memory.Rising, Memory.wf]
      | cons d m =>
        have := ih (c.1 + 1)
        simp only [Memory.Rising, Memory.wf, List.head?_cons, Option.mem_def, Option.some.injEq, forall_eq'] at this ⊢
        simp only [Bool.and_eq_true, decide_eq_true_eq]
        constructor
        · rintro ⟨h1, h2⟩
          have := this.1 h2
          exact ⟨⟨by omega, this.1⟩, h1⟩
        · rintro ⟨⟨h1, h2⟩, h3⟩
          exact ⟨h3, this.2 ⟨h2, by omega⟩⟩
  simp [key m 0]

/-- Nothing is listed below the first address. -/
theorem Memory.read_below {m : Memory} {lo a : Nat} (hm : m.Rising lo) (h : a < lo) : m.read a = none := by
  induction m generalizing lo with
  | nil => rfl
  | cons c m ih =>
    have h1 : ¬ a = c.1 := by have := hm.1; omega
    have h2 := ih hm.2 (by have := hm.1; omega)
    simp [Memory.read, h1, h2]

theorem Memory.write_rising {m : Memory} {lo a : Nat} {b : Byte} (hm : m.Rising lo) (h : lo ≤ a) : (m.write a b).Rising lo := by
  induction m generalizing lo with
  | nil => exact ⟨h, trivial⟩
  | cons c m ih =>
    obtain ⟨k, v⟩ := c
    have hm1 : lo ≤ k := hm.1
    have hm2 : Memory.Rising (k + 1) m := hm.2
    simp only [Memory.write]
    split
    · exact ⟨h, by assumption, hm2⟩
    · split
      · rename_i h2; subst h2; exact ⟨h, hm2⟩
      · exact ⟨hm1, ih hm2 (by omega)⟩

/-- A write keeps the canonical form. -/
theorem Memory.write_wf {m : Memory} (hm : m.wf = true) (a : Nat) (b : Byte) : (m.write a b).wf = true := by
  rw [Memory.wf_iff_rising] at *
  exact Memory.write_rising hm (Nat.zero_le a)

/-- A read after a write: the written address gives the byte, every other address what it gave. -/
theorem Memory.read_write (m : Memory) (a : Nat) (b : Byte) (x : Nat) :
    (m.write a b).read x = if x = a then some b else m.read x := by
  induction m with
  | nil => simp [Memory.write, Memory.read]
  | cons c m ih =>
    obtain ⟨k, v⟩ := c
    simp only [Memory.write]
    split
    · simp [Memory.read]
    · split
      · rename_i h; subst h; simp only [Memory.read]; split <;> rfl
      · rename_i h1 h2
        simp only [Memory.read, ih]
        by_cases hx : x = k
        · simp [hx, show ¬ k = a by omega]
        · simp [hx]

/-- Two memories in canonical form that read alike are equal. -/
theorem Memory.ext_of_read {m n : Memory} {lo : Nat} (hm : m.Rising lo) (hn : n.Rising lo) (h : ∀ a, m.read a = n.read a) : m = n := by
  induction m generalizing n lo with
  | nil =>
    cases n with
    | nil => rfl
    | cons d n => have := h d.1; simp [Memory.read] at this
  | cons c m ih =>
    obtain ⟨k, v⟩ := c
    cases n with
    | nil => have := h k; simp [Memory.read] at this
    | cons d n =>
      obtain ⟨k', v'⟩ := d
      have hkk : k = k' := by
        rcases Nat.lt_trichotomy k k' with hl | he | hl
        · have h1 := h k
          have h2 : Memory.read n k = none := Memory.read_below (lo := k' + 1) hn.2 (by omega)
          simp [Memory.read, h2, show ¬ k = k' by omega] at h1
        · exact he
        · have h1 := h k'
          have h2 : Memory.read m k' = none := Memory.read_below (lo := k + 1) hm.2 (by omega)
          simp [Memory.read, h2, show ¬ k' = k by omega] at h1
      subst hkk
      have hv : v = v' := by have := h k; simpa [Memory.read] using this
      subst hv
      have : m = n := by
        apply ih (lo := k + 1) hm.2 hn.2
        intro a
        by_cases ha : a = k
        · subst ha
          rw [Memory.read_below hm.2 (by simp), Memory.read_below hn.2 (by simp)]
        · have := h a; simpa [Memory.read, ha] using this
      rw [this]

theorem Memory.wf_ext {m n : Memory} (hm : m.wf = true) (hn : n.wf = true) (h : ∀ a, m.read a = n.read a) : m = n :=
  Memory.ext_of_read ((Memory.wf_iff_rising m).1 hm) ((Memory.wf_iff_rising n).1 hn) h

theorem Memory.mergeCell_rising {c : Host.Cell} {cs : Memory} {lo : Nat} (hc : lo ≤ c.1) (hcs : cs.Rising (c.1 + 1))
    (ih : ∀ {lo' : Nat} {m : Memory}, cs.Rising lo' → m.Rising lo' → (Memory.merge cs m).Rising lo') {m : Memory} (hm : m.Rising lo) :
    (Memory.mergeCell c cs (Memory.merge cs) m).Rising lo := by
  induction m generalizing lo with
  | nil => exact ⟨hc, hcs⟩
  | cons d m ihm =>
    have hd := hm.1
    have hm2 := hm.2
    simp only [Memory.mergeCell]
    split
    · exact ⟨hc, ih hcs ⟨by omega, hm2⟩⟩
    · split
      · rename_i h; exact ⟨hc, ih hcs (by rw [h]; exact hm2)⟩
      · exact ⟨hd, ihm (by omega) hm2⟩

/-- A merge keeps the canonical form. -/
theorem Memory.merge_rising {cs m : Memory} {lo : Nat} (hcs : cs.Rising lo) (hm : m.Rising lo) : (cs.merge m).Rising lo := by
  induction cs generalizing lo m with
  | nil => exact hm
  | cons c cs ih =>
    exact Memory.mergeCell_rising hcs.1 hcs.2 (fun h1 h2 => ih h1 h2) hm

theorem Memory.read_mergeCell {c : Host.Cell} {cs : Memory} (hcs : cs.Rising (c.1 + 1))
    (ih : ∀ (m : Memory) (a lo : Nat), cs.Rising lo → m.Rising lo → (Memory.merge cs m).read a = (cs.read a).or (m.read a))
    {m : Memory} {lo : Nat} (hm : m.Rising lo) (a : Nat) :
    (Memory.mergeCell c cs (Memory.merge cs) m).read a = (Memory.read (c :: cs) a).or (m.read a) := by
  induction m generalizing lo with
  | nil => simp [Memory.mergeCell, Memory.read]
  | cons d m ihm =>
    obtain ⟨k, v⟩ := d
    obtain ⟨kc, vc⟩ := c
    have hm2 : Memory.Rising (k + 1) m := hm.2
    simp only [Memory.mergeCell]
    split
    · rename_i h
      have hr : Memory.Rising (kc + 1) ((k, v) :: m) := ⟨h, hm2⟩
      simp only [Memory.read, ih _ a _ hcs hr]
      split <;> rfl
    · split
      · rename_i h1 h2
        subst h2
        simp only [Memory.read, ih m a (kc + 1) hcs hm2]
        by_cases ha : a = kc
        · simp [ha]
        · simp [ha]
      · rename_i h1 h2
        have hi := ihm hm2
        simp only [Memory.read] at hi ⊢
        rw [hi]
        by_cases ha : a = k
        · subst ha
          have h4 : cs.read a = none := Memory.read_below hcs (by simp only; omega)
          have h5 : ¬ a = kc := fun e => h2 e.symm
          simp [h4, h5]
        · simp [ha]

/-- A read after a merge: what the merged cells list, else what was there. -/
theorem Memory.read_merge (cs m : Memory) (a lo : Nat) (hcs : cs.Rising lo) (hm : m.Rising lo) :
    (cs.merge m).read a = (cs.read a).or (m.read a) := by
  induction cs generalizing m a lo with
  | nil => simp [Memory.merge, Memory.read]
  | cons c cs ih =>
    exact Memory.read_mergeCell hcs.2 (fun m a lo h1 h2 => ih m a lo h1 h2) hm a

/-- The pixels of different coordinates have different addresses, when the columns are 16-bit values. -/
theorem gramAddr_inj {c r c' r' : Nat} (h : c < 65536) (h' : c' < 65536) (e : gramAddr c r = gramAddr c' r') : c = c' ∧ r = r' := by
  unfold gramAddr at e; omega

/-- A pixel write, read by byte addresses. -/
theorem Memory.read_gramWrite (m : Memory) (c r : Nat) (v : Pixel) (a : Nat) :
    (m.gramWrite c r v).read a = if a = gramAddr c r + 1 then some (lo8 v) else if a = gramAddr c r then some (hi8 v) else m.read a := by
  simp [Memory.gramWrite, Memory.read_write]

theorem Memory.gramWrite_wf {m : Memory} (hm : m.wf = true) (c r : Nat) (v : Pixel) : (m.gramWrite c r v).wf = true :=
  Memory.write_wf (Memory.write_wf hm _ _) _ _

/-- The byte address of pixel number `q` of a stream. -/
def streamAddr (xs ys ww q : Nat) : Nat := gramAddr (xs + q % ww) (ys + q / ww)

/-- The addresses of a stream's pixels rise, while the window's columns stay below 65536. -/
theorem streamAddr_step (xs ys ww q : Nat) (hw : 0 < ww) (hx : xs + ww ≤ 65536) :
    streamAddr xs ys ww q + 2 ≤ streamAddr xs ys ww (q + 1) := by
  have hq := Nat.mod_lt q hw
  unfold streamAddr gramAddr
  by_cases hlast : q % ww + 1 = ww
  · have d := Nat.div_add_mod q ww
    have e0 : q + 1 = ww * (q / ww + 1) := by rw [Nat.mul_add]; omega
    have e1 : (q + 1) % ww = 0 := by rw [e0, Nat.mul_mod_right]
    have e2 : (q + 1) / ww = q / ww + 1 := by rw [e0, Nat.mul_div_cancel_left _ hw]
    rw [e1, e2]; omega
  · have hlt : q % ww + 1 < ww := by omega
    have d := Nat.div_add_mod q ww
    have e0 : q + 1 = (q % ww + 1) + ww * (q / ww) := by omega
    have e1 : (q + 1) % ww = q % ww + 1 := by
      rw [e0, Nat.add_mul_mod_self_left, Nat.mod_eq_of_lt hlt]
    have e2 : (q + 1) / ww = q / ww := by
      rw [e0, Nat.add_mul_div_left _ _ hw, Nat.div_eq_of_lt hlt, Nat.zero_add]
    rw [e1, e2]; omega

theorem streamAddr_lt (xs ys ww q d : Nat) (hw : 0 < ww) (hx : xs + ww ≤ 65536) :
    streamAddr xs ys ww q + 2 ≤ streamAddr xs ys ww (q + d + 1) := by
  induction d with
  | zero => exact streamAddr_step xs ys ww q hw hx
  | succ d ih => have := streamAddr_step xs ys ww (q + d + 1) hw hx; rw [Nat.add_succ q d]; simp only [Nat.succ_eq_add_one] at *; omega

/-- The cells of a stream rise strictly, from the address of its first pixel on. -/
theorem streamCells_rising (xs ys ww q : Nat) (hw : 0 < ww) (hx : xs + ww ≤ 65536) (vs : List Pixel) :
    (streamCells xs ys ww q vs).Rising (gramAddr (xs + q % ww) (ys + q / ww)) := by
  induction vs generalizing q with
  | nil => trivial
  | cons v vs ih =>
    have h1 := streamAddr_step xs ys ww q hw hx
    unfold streamAddr at h1
    refine ⟨Nat.le_refl _, Nat.le_refl _, ?_⟩
    exact Memory.rising_mono (by omega) (ih (q + 1))

/-- What the cells of a stream list at its pixels. -/
theorem read_streamCells (xs ys ww q : Nat) (hw : 0 < ww) (hx : xs + ww ≤ 65536) (vs : List Pixel) (i : Nat) (hi : i < vs.length) :
    (streamCells xs ys ww q vs).read (streamAddr xs ys ww (q + i)) = some (hi8 vs[i]) ∧
    (streamCells xs ys ww q vs).read (streamAddr xs ys ww (q + i) + 1) = some (lo8 vs[i]) := by
  induction vs generalizing q i with
  | nil => simp at hi
  | cons v vs ih =>
    cases i with
    | zero => simp [streamCells, pixelCells, Memory.read, streamAddr]
    | succ i =>
      have h1 := ih (q + 1) i (by simpa using hi)
      have h2 := streamAddr_lt xs ys ww q i hw hx
      rw [show q + 1 + i = q + (i + 1) by omega] at h1
      simp only [streamCells, pixelCells, List.cons_append, List.nil_append, Memory.read, List.getElem_cons_succ]
      have e : gramAddr (xs + q % ww) (ys + q / ww) = streamAddr xs ys ww q := rfl
      rw [e]
      rw [show q + (i + 1) = q + i + 1 by omega] at h1 ⊢
      have n1 : ¬ streamAddr xs ys ww (q + i + 1) = streamAddr xs ys ww q := by omega
      have n2 : ¬ streamAddr xs ys ww (q + i + 1) = streamAddr xs ys ww q + 1 := by omega
      have n3 : ¬ streamAddr xs ys ww (q + i + 1) + 1 = streamAddr xs ys ww q := by omega
      have n4 : ¬ streamAddr xs ys ww (q + i + 1) + 1 = streamAddr xs ys ww q + 1 := by omega
      simp only [n1, n2, n3, n4, if_false]
      exact h1

/-- The cells of a stream list nothing elsewhere. -/
theorem read_streamCells_outside (xs ys ww q : Nat) (vs : List Pixel) (a : Nat)
    (h : ∀ i < vs.length, a ≠ streamAddr xs ys ww (q + i) ∧ a ≠ streamAddr xs ys ww (q + i) + 1) :
    (streamCells xs ys ww q vs).read a = none := by
  induction vs generalizing q with
  | nil => rfl
  | cons v vs ih =>
    have h0 := h 0 (by simp)
    simp only [Nat.add_zero, streamAddr] at h0
    simp only [streamCells, pixelCells, List.cons_append, List.nil_append, Memory.read, h0.1, h0.2, if_false]
    apply ih
    intro i hi
    have := h (i + 1) (by simpa using hi)
    rw [show q + 1 + i = q + (i + 1) by omega]
    exact this

/-- One pass over the memory is R84's loop, one `GramWrite` after the other. -/
theorem streamPixels_eq_loop {xs ys ww q : Nat} (hw : 0 < ww) (hx : xs + ww ≤ 65536) (vs : List Pixel) {m : Memory} (hm : m.wf = true) :
    streamPixels xs ys ww q vs m = gramWriteLoop xs ys ww q vs m := by
  have rise := fun q vs => Memory.rising_mono (Nat.zero_le _) (streamCells_rising xs ys ww q hw hx vs)
  have hwf : ∀ (q : Nat) (vs : List Pixel) (m : Memory), m.wf = true → (gramWriteLoop xs ys ww q vs m).wf = true := by
    intro q vs
    induction vs generalizing q with
    | nil => exact fun m h => h
    | cons v vs ih => exact fun m h => ih (q + 1) _ (Memory.gramWrite_wf h _ _ _)
  have hread : ∀ (q : Nat) (vs : List Pixel) (m : Memory) (a : Nat),
      (gramWriteLoop xs ys ww q vs m).read a = ((streamCells xs ys ww q vs).read a).or (m.read a) := by
    intro q vs
    induction vs generalizing q with
    | nil => intro m a; simp [gramWriteLoop, streamCells, Memory.read]
    | cons v vs ih =>
      intro m a
      simp only [gramWriteLoop, ih, Memory.read_gramWrite, streamCells, pixelCells, List.cons_append, List.nil_append, Memory.read]
      have hr := streamCells_rising xs ys ww q hw hx (v :: vs)
      have hr2 : Memory.Rising (gramAddr (xs + q % ww) (ys + q / ww) + 1 + 1) (streamCells xs ys ww (q + 1) vs) := hr.2.2
      by_cases h1 : a = gramAddr (xs + q % ww) (ys + q / ww)
      · rw [h1, Memory.read_below hr2 (by omega)]; simp
      · by_cases h2 : a = gramAddr (xs + q % ww) (ys + q / ww) + 1
        · rw [h2, Memory.read_below hr2 (by omega)]; simp
        · simp [h1, h2]
  have hm' := (Memory.wf_iff_rising m).1 hm
  apply Memory.ext_of_read (lo := 0)
  · exact Memory.merge_rising (rise q vs) hm'
  · exact (Memory.wf_iff_rising _).1 (hwf q vs m hm)
  · intro a
    rw [hread, streamPixels, Memory.read_merge _ _ a 0 (rise q vs) hm']

/-- A stream into a window whose columns are 16-bit values keeps the canonical form. -/
theorem streamPixels_wf {xs ys ww q : Nat} (hw : 0 < ww) (hx : xs + ww ≤ 65536) (vs : List Pixel) {m : Memory} (hm : m.wf = true) :
    (streamPixels xs ys ww q vs m).wf = true := by
  rw [Memory.wf_iff_rising] at *
  exact Memory.merge_rising (Memory.rising_mono (Nat.zero_le _) (streamCells_rising xs ys ww q hw hx vs)) hm

theorem gramWriteLoop_append (xs ys ww q : Nat) (as bs : List Pixel) (m : Memory) :
    gramWriteLoop xs ys ww q (as ++ bs) m = gramWriteLoop xs ys ww (q + as.length) bs (gramWriteLoop xs ys ww q as m) := by
  induction as generalizing q m with
  | nil => rfl
  | cons a as ih =>
    simp only [List.cons_append, gramWriteLoop, ih, List.length_cons]
    rw [show q + 1 + as.length = q + (as.length + 1) by omega]

/-- A stream in two parts. -/
theorem streamPixels_append {xs ys ww q : Nat} (hw : 0 < ww) (hx : xs + ww ≤ 65536) (as bs : List Pixel) {m : Memory} (hm : m.wf = true) :
    streamPixels xs ys ww q (as ++ bs) m = streamPixels xs ys ww (q + as.length) bs (streamPixels xs ys ww q as m) := by
  have h1 := streamPixels_wf (q := q) (ys := ys) hw hx as hm
  rw [streamPixels_eq_loop hw hx _ h1, streamPixels_eq_loop hw hx _ hm, streamPixels_eq_loop hw hx _ hm, gramWriteLoop_append]

/-- What is read after a stream: at its pixels their bytes, elsewhere what was there. -/
theorem read_streamPixels {xs ys ww q : Nat} (hw : 0 < ww) (hx : xs + ww ≤ 65536) (vs : List Pixel) {m : Memory} (hm : m.wf = true) :
    (∀ i, (hi : i < vs.length) →
      (streamPixels xs ys ww q vs m).read (streamAddr xs ys ww (q + i)) = some (hi8 vs[i]) ∧
      (streamPixels xs ys ww q vs m).read (streamAddr xs ys ww (q + i) + 1) = some (lo8 vs[i])) ∧
    (∀ a, (∀ i < vs.length, a ≠ streamAddr xs ys ww (q + i) ∧ a ≠ streamAddr xs ys ww (q + i) + 1) →
      (streamPixels xs ys ww q vs m).read a = m.read a) := by
  have hr := Memory.rising_mono (Nat.zero_le _) (streamCells_rising xs ys ww q hw hx vs)
  have hm' := (Memory.wf_iff_rising m).1 hm
  refine ⟨fun i hi => ?_, fun a ha => ?_⟩
  · have h := read_streamCells xs ys ww q hw hx vs i hi
    simp [streamPixels, Memory.read_merge _ _ _ 0 hr hm', h]
  · simp [streamPixels, Memory.read_merge _ _ _ 0 hr hm', read_streamCells_outside xs ys ww q vs a ha]

end Sys2Proof.Machine
end

