-- ==== Sys2Proof/Laws/PerInstr.lean ====
section
/-! SUPPORT. The per-instruction family `DescriptorLength`: the descriptor of a well-formed operation has the opcode byte of its row first and
the length its format gives (30_encoding.md R100 to R111). One lemma for each constructor. -/

namespace Sys2Proof.Laws.DescriptorLength

/-- What is said of each operation. -/
def Statement (i : Instr) : Prop :=
  WellFormed i → (encode i).head? = some (opcodeByte (opcode i)) ∧ (encode i).length = descriptorLength (opcode i) (encode i)

/-- The length of a format T descriptor is read back from its bytes 11 and 12. -/
theorem text_length (b : Byte) (x y : Half) (fg bg : Pixel) (scale flags : Byte) {text : List Byte} (h : textFits text = true) :
    (b :: encodeTextFields x y fg bg scale flags text).length =
      13 + (ofBe16 ((b :: encodeTextFields x y fg bg scale flags text).getD 11 0)
        ((b :: encodeTextFields x y fg bg scale flags text).getD 12 0)).toNat := by
  have hl : text.length ≤ 65535 := by simpa [textFits] using h
  have e : (BitVec.ofNat 16 text.length).toNat = text.length := by
    rw [BitVec.toNat_ofNat]; exact Nat.mod_eq_of_lt (by omega)
  simp only [encodeTextFields, be16, List.cons_append, List.nil_append, List.getD_cons_succ, List.getD_cons_zero, ofBe16_hi8_lo8, e,
    List.length_cons]
  omega

theorem panelInit (dc rst cs sclk mosi : Byte) (hz : Word) : Statement (.panelInit dc rst cs sclk mosi hz) := fun _ => ⟨rfl, rfl⟩
theorem setWindow (x0 y0 x1 y1 : Half) : Statement (.setWindow x0 y0 x1 y1) := fun _ => ⟨rfl, rfl⟩
theorem fill (color : Pixel) (x y w h : Half) : Statement (.fill color x y w h) := fun _ => ⟨rfl, rfl⟩
theorem drawPixel (x y : Half) (color : Pixel) : Statement (.drawPixel x y color) := fun _ => ⟨rfl, rfl⟩
theorem drawGlyph (x y : Half) (ch : Byte) (fg bg : Pixel) (scale : Byte) : Statement (.drawGlyph x y ch fg bg scale) :=
  fun _ => ⟨rfl, rfl⟩
theorem drawString (x y : Half) (fg bg : Pixel) (scale flags : Byte) (text : List Byte) :
    Statement (.drawString x y fg bg scale flags text) := fun h =>
  ⟨rfl, text_length _ _ _ _ _ _ _ (by simp only [WellFormed, wellFormed, Bool.and_eq_true] at h; exact h.1)⟩
theorem drawWrapped (x y : Half) (fg bg : Pixel) (scale flags : Byte) (text : List Byte) :
    Statement (.drawWrapped x y fg bg scale flags text) := fun h =>
  ⟨rfl, text_length _ _ _ _ _ _ _ (by simp only [WellFormed, wellFormed, Bool.and_eq_true] at h; exact h.1)⟩
theorem drawFormatted (x y : Half) (fg bg : Pixel) (scale flags : Byte) (text : List Byte) :
    Statement (.drawFormatted x y fg bg scale flags text) := fun h =>
  ⟨rfl, text_length _ _ _ _ _ _ _ (by simp only [WellFormed, wellFormed, Bool.and_eq_true] at h; exact h.1)⟩
theorem ledInit (pin chan : Byte) : Statement (.ledInit pin chan) := fun _ => ⟨rfl, rfl⟩
theorem setColor (r g b : Byte) : Statement (.setColor r g b) := fun _ => ⟨rfl, rfl⟩
theorem setHsv (hue : Half) (sat val : Byte) : Statement (.setHsv hue sat val) := fun _ => ⟨rfl, rfl⟩
theorem turnOff : Statement .turnOff := fun _ => ⟨rfl, rfl⟩
theorem ledDeinit : Statement .ledDeinit := fun _ => ⟨rfl, rfl⟩
theorem pack565 (r g b : Byte) : Statement (.pack565 r g b) := fun _ => ⟨rfl, rfl⟩
theorem hsv2rgb (hue : Half) (sat val : Byte) : Statement (.hsv2rgb hue sat val) := fun _ => ⟨rfl, rfl⟩

end Sys2Proof.Laws.DescriptorLength
end

