-- ==== Sys2Proof/Laws/Setup.lean ====
section
/-! SUPPORT. PANEL_INIT's set-up sequence: what it can do whatever the answers, and what it does under a script of answers. -/

namespace Sys2Proof.Machine

theorem PanelUnit.ran_trace (cfg : Config) (es : List PanelEvent) (a : List Answer) (d : Nat) (w : Transient) (u : PanelUnit) :
    (u.ran cfg es a d w).trace = u.trace ++ es := rfl

/-! ### Whatever the answers -/

/-- An event of the set-up sequence: it does not touch the controller's reset line. -/
def isSetup : PanelEvent → Prop
  | .tx _ _ _ => True
  | .delay _ => True
  | .log _ => True
  | .claim _ => True
  | .pinOutDc => True
  | .rst _ => False

/-- The result of a part of PANEL_INIT after the controller's reset. -/
def SetUp (cfg : Config) (u : PanelUnit) (r : Flow × PanelUnit) : Prop :=
  (∃ es a d n, r.2 = PanelUnit.ran cfg es a d u.work { u with setupErrs := n } ∧ ∀ e ∈ es, isSetup e) ∧
  (r.1 = .done ∨ r.1 = .fail .peripheralError ∨ r.1 = .hang)

theorem SetUp.andThen {cfg : Config} {u : PanelUnit} {r : Flow × PanelUnit} {k : PanelUnit → Flow × PanelUnit} (h : SetUp cfg u r)
    (hk : ∀ v, SetUp cfg v (k v)) : SetUp cfg u (andThen r k) := by
  rcases andThen_cases r k with ⟨_, e⟩ | ⟨_, e⟩
  · rw [e]
    obtain ⟨⟨es, a, d, n, h1, h2⟩, _⟩ := h
    obtain ⟨⟨fs, b, c, m, k1, k2⟩, k3⟩ := hk r.2
    refine ⟨⟨es ++ fs, b, c, m, ?_, ?_⟩, k3⟩
    · rw [k1, h1]
      simp [PanelUnit.ran, PanelSide.observe_script, List.foldl_append]
    · intro e he
      rcases List.mem_append.1 he with h | h
      · exact h2 e h
      · exact k2 e h
  · rw [e]; exact h

theorem SetUp.nothing (cfg : Config) (u : PanelUnit) : SetUp cfg u (.done, u) :=
  ⟨⟨[], u.env.answers, u.env.drawn, u.setupErrs, (PanelUnit.ran_nil cfg u).symm, by simp⟩, .inl rfl⟩

theorem setupTx_setUp (cfg : Config) (cmd : Byte) (dc : DcLine) (bytes : List Byte) (u : PanelUnit) :
    SetUp cfg u (setupTx cfg cmd dc bytes u) := by
  unfold setupTx PanelUnit.tx
  cases u.answer with
  | ok => exact ⟨⟨[_], _, _, u.setupErrs, rfl, by simp [isSetup]⟩, .inl rfl⟩
  | never => exact ⟨⟨[_], _, _, u.setupErrs, rfl, by simp [isSetup]⟩, .inr (.inr rfl)⟩
  | fail =>
    unfold setupFail
    cases cfg.initErrPolicy with
    | ignore =>
      refine ⟨⟨[.tx dc bytes .fail, .log cmd], u.takeAnswer.env.answers, u.takeAnswer.env.drawn,
        BitVec.ofNat 16 (min (u.setupErrs.toNat + 1) 65535), ?_, by simp [isSetup]⟩, .inl rfl⟩
      rw [PanelUnit.takeAnswer_emit_eq_ran]
      simp only [PanelUnit.emit_eq_ran, PanelUnit.ran_ran, PanelUnit.ran_env_answers, PanelUnit.ran_env_drawn, PanelUnit.ran_work]
      rfl
    | propagate => exact ⟨⟨[_], _, _, u.setupErrs, rfl, by simp [isSetup]⟩, .inr (.inl rfl)⟩

theorem settle_setUp (cfg : Config) (n : Nat) (u : PanelUnit) : SetUp cfg u (.done, settle cfg n u) := by
  unfold settle
  split
  · exact ⟨⟨[_], _, _, u.setupErrs, rfl, by simp [isSetup]⟩, .inl rfl⟩
  · exact SetUp.nothing cfg u

theorem setupEntry_setUp (cfg : Config) (e : InitEntry) (u : PanelUnit) : SetUp cfg u (setupEntry cfg e u) := by
  unfold setupEntry
  refine (setupTx_setUp cfg _ _ _ u).andThen fun v => SetUp.andThen ?_ fun w => settle_setUp cfg _ w
  split
  · exact SetUp.nothing cfg v
  · exact setupTx_setUp cfg _ _ _ v

theorem setupSequence_setUp (cfg : Config) (es : List InitEntry) (u : PanelUnit) : SetUp cfg u (setupSequence cfg es u) := by
  induction es generalizing u with
  | nil => exact SetUp.nothing cfg u
  | cons e es ih => exact (setupEntry_setUp cfg e u).andThen ih

/-! ### Under a script of answers -/

theorem PanelUnit.tx_of_script {cfg : Config} {dc : DcLine} {bytes : List Byte} {u : PanelUnit} {a : Answer} {rest : List Answer}
    (h : u.env.answers = a :: rest) :
    u.tx cfg dc bytes = (a, u.ran cfg [.tx dc bytes a] rest u.env.drawn u.work) := by
  have ht := PanelUnit.takeAnswer_of_script h
  unfold PanelUnit.tx
  rw [PanelUnit.answer_of_script h, PanelUnit.takeAnswer_emit_eq_ran, ht.1, ht.2]

theorem settle_eq_ran (cfg : Config) (n : Nat) (u : PanelUnit) :
    settle cfg n u = u.ran cfg (if 0 < n then [.delay n] else []) u.env.answers u.env.drawn u.work := by
  unfold settle
  split
  · rfl
  · exact (PanelUnit.ran_nil cfg u).symm

theorem entryTx_length (e : InitEntry) : (entryTx e).length = if e.data = [] then 1 else 2 := by
  unfold entryTx; split <;> simp

/-- Every set-up transaction answered `ok`, under both policies. -/
theorem setupSequence_ok (cfg : Config) (es : List InitEntry) (u : PanelUnit) (rest : List Answer)
    (h : u.env.answers = List.replicate (es.flatMap entryTx).length .ok ++ rest) :
    setupSequence cfg es u = (.done, u.ran cfg (es.flatMap entryEvents) rest u.env.drawn u.work) := by
  induction es generalizing u with
  | nil =>
    simp only [List.flatMap_nil, List.length_nil, List.replicate_zero, List.nil_append] at h
    simp only [setupSequence, List.flatMap_nil, ← h, PanelUnit.ran_nil]
  | cons e es ih =>
    have hn : ∃ n, (es.flatMap entryTx).length = n := ⟨_, rfl⟩
    obtain ⟨n, hn⟩ := hn
    simp only [List.flatMap_cons, List.length_append, entryTx_length, hn] at h
    rw [hn] at ih
    simp only [setupSequence, setupEntry, setupTx, andThen_assoc]
    by_cases hd : e.data = []
    · simp only [hd, if_true, Nat.add_comm 1 n, List.replicate_succ, List.cons_append] at h
      rw [PanelUnit.tx_of_script h]
      simp only [andThen_done, hd, if_true, settle_eq_ran]
      rw [PanelUnit.ran_ran, ih _ rfl, PanelUnit.ran_ran]
      simp [entryEvents, entryTx, hd, okEvents, txEvent, PanelUnit.ran]
    · simp only [hd, if_false, Nat.add_comm 2 n, List.replicate_succ, List.cons_append] at h
      rw [PanelUnit.tx_of_script h]
      simp only [andThen_done, hd, if_false]
      rw [PanelUnit.tx_of_script rfl]
      simp only [andThen_done, settle_eq_ran]
      rw [PanelUnit.ran_ran, PanelUnit.ran_ran, ih _ rfl, PanelUnit.ran_ran]
      simp [entryEvents, entryTx, hd, okEvents, txEvent, PanelUnit.ran]

/-- The saturating count of set-up failures (10_state.md R27). -/
def countedErrs (n : BitVec 16) (k : Nat) : BitVec 16 := BitVec.ofNat 16 (min (n.toNat + k) 65535)

theorem countedErrs_zero (n : BitVec 16) : countedErrs n 0 = n := by
  have := n.isLt
  apply BitVec.eq_of_toNat_eq
  simp only [countedErrs, BitVec.toNat_ofNat]
  omega

theorem countedErrs_add (n : BitVec 16) (j k : Nat) : countedErrs (countedErrs n j) k = countedErrs n (j + k) := by
  have := n.isLt
  apply BitVec.eq_of_toNat_eq
  simp only [countedErrs, BitVec.toNat_ofNat]
  omega

/-- One set-up transaction under `IGNORE`. -/
theorem setupTx_ignore {cfg : Config} (hp : cfg.initErrPolicy = .ignore) (cmd : Byte) (c : TxContent) {u : PanelUnit} {a : Answer}
    {rest : List Answer} (h : u.env.answers = a :: rest) (ha : a ≠ .never) :
    setupTx cfg cmd c.1 c.2 u =
      (.done, PanelUnit.ran cfg (ignoredTx cmd (c, a)) rest u.env.drawn u.work
        { u with setupErrs := countedErrs u.setupErrs ([a].count .fail) }) := by
  unfold setupTx
  rw [PanelUnit.tx_of_script h]
  cases a with
  | never => exact absurd rfl ha
  | ok => simp only [ignoredTx, List.count_singleton, beq_iff_eq]; rw [show (if Answer.ok = Answer.fail then 1 else 0) = 0 by simp, countedErrs_zero]; rfl
  | fail =>
    simp only [setupFail, hp]
    simp only [PanelUnit.emit_eq_ran, PanelUnit.ran_ran, PanelUnit.ran_env_answers, PanelUnit.ran_env_drawn, PanelUnit.ran_work,
      PanelUnit.ran_setupErrs, ignoredTx, if_true]
    rfl

/-- The set-up sequence under `IGNORE`: every failed transaction is logged and counted, and the next entry follows. -/
theorem setupSequence_ignore {cfg : Config} (hp : cfg.initErrPolicy = .ignore) (es : List InitEntry) (u : PanelUnit) (as rest : List Answer)
    (hl : as.length = (es.flatMap entryTx).length) (hn : Answer.never ∉ as) (h : u.env.answers = as ++ rest) :
    setupSequence cfg es u =
      (.done, PanelUnit.ran cfg (ignoredEvents es as) rest u.env.drawn u.work
        { u with setupErrs := countedErrs u.setupErrs (as.count .fail) }) := by
  induction es generalizing u as with
  | nil =>
    simp only [List.flatMap_nil, List.length_nil, List.length_eq_zero_iff] at hl
    subst hl
    simp only [List.nil_append] at h
    simp only [setupSequence, ignoredEvents, ← h, List.count_nil, countedErrs_zero, PanelUnit.ran_nil]
  | cons e es ih =>
    simp only [List.flatMap_cons, List.length_append, entryTx_length] at hl
    simp only [setupSequence, setupEntry, andThen_assoc]
    by_cases hd : e.data = []
    · simp only [hd, if_true] at hl
      obtain ⟨a, bs, rfl⟩ : ∃ a bs, as = a :: bs := by cases as with
        | nil => simp at hl; omega
        | cons a bs => exact ⟨a, bs, rfl⟩
      have h1 := setupTx_ignore hp e.cmd (.command, [e.cmd]) (u := u) (rest := bs ++ rest) (by simpa using h) (fun he => hn (by simp [he]))
      simp only at h1
      rw [h1]
      simp only [andThen_done, hd, if_true, settle_eq_ran, PanelUnit.ran_ran]
      rw [ih _ bs (by simp only [List.length_cons] at hl; omega) (fun hb => hn (by simp [hb])) rfl]
      simp [PanelUnit.ran, PanelSide.observe_script, List.foldl_append, ignoredEvents, entryTx, hd, countedErrs_add,
        List.count_cons, Nat.add_comm]
    · simp only [hd, if_false] at hl
      obtain ⟨a, b, bs, rfl⟩ : ∃ a b bs, as = a :: b :: bs := by
        match as, hl with
        | [], hl => simp at hl; omega
        | [_], hl => simp at hl; omega
        | a :: b :: bs, _ => exact ⟨a, b, bs, rfl⟩
      have h1 := setupTx_ignore hp e.cmd (.command, [e.cmd]) (u := u) (rest := b :: (bs ++ rest)) (by simpa using h) (fun he => hn (by simp [he]))
      simp only at h1
      rw [h1]
      simp only [andThen_done, hd, if_false]
      have h2 := setupTx_ignore hp e.cmd (.data, e.data) (u := PanelUnit.ran cfg (ignoredTx e.cmd ((.command, [e.cmd]), a)) (b :: (bs ++ rest))
        u.env.drawn u.work { u with setupErrs := countedErrs u.setupErrs ([a].count .fail) }) (a := b) (rest := bs ++ rest) rfl
        (fun he => hn (by simp [he]))
      simp only at h2
      rw [h2]
      simp only [andThen_done, settle_eq_ran]
      rw [ih _ bs (by simp only [List.length_cons] at hl; omega) (fun hb => hn (by simp [hb])) rfl]
      simp [PanelUnit.ran, PanelSide.observe_script, List.foldl_append, ignoredEvents, entryTx, hd, countedErrs_add,
        List.count_cons, Nat.add_comm, Nat.add_left_comm]

/-- Where the set-up sequence stops: at the first transaction that fails under `PROPAGATE`, or that is never answered under either policy;
nothing follows that. -/
theorem setupSequence_stops {cfg : Config} {bad : Answer} (hb : (bad = .fail ∧ cfg.initErrPolicy = .propagate) ∨ bad = .never) (es : List InitEntry) (u : PanelUnit) (j : Nat)
    (rest : List Answer) (hj : j < (es.flatMap entryTx).length) (h : u.env.answers = List.replicate j .ok ++ bad :: rest) :
    ∃ before c behind, es.flatMap entryEvents = before ++ txEvent .ok c :: behind ∧ (before.filterMap txOf).length = j ∧
      setupSequence cfg es u =
        (if bad = .fail then .fail .peripheralError else .hang, u.ran cfg (before ++ [txEvent bad c]) rest u.env.drawn u.work) := by
  induction es generalizing u j with
  | nil => simp at hj
  | cons e es ih =>
    simp only [List.flatMap_cons, List.length_append, entryTx_length] at hj
    simp only [setupSequence, setupEntry, setupTx, andThen_assoc, List.flatMap_cons]
    cases j with
    | zero =>
      simp only [List.replicate_zero, List.nil_append] at h
      rw [PanelUnit.tx_of_script h]
      refine ⟨[], (.command, [e.cmd]), (entryEvents e).tail ++ es.flatMap entryEvents, ?_, rfl, ?_⟩
      · simp [entryEvents, entryTx, okEvents]
      · rcases hb with ⟨rfl, hp⟩ | rfl
        · simp only [setupFail, hp, andThen_fail]; rfl
        · rfl
    | succ j =>
      simp only [List.replicate_succ, List.cons_append] at h
      rw [PanelUnit.tx_of_script h]
      simp only [andThen_done]
      by_cases hd : e.data = []
      · simp only [hd, if_true] at hj
        simp only [hd, if_true, andThen_done, settle_eq_ran, PanelUnit.ran_ran]
        obtain ⟨b, c, f, k1, k2, k3⟩ := ih (PanelUnit.ran cfg ([.tx .command [e.cmd] .ok] ++ if 0 < e.delay then [.delay e.delay] else [])
          (List.replicate j .ok ++ bad :: rest) u.env.drawn u.work u) j (by omega) rfl
        refine ⟨entryEvents e ++ b, c, f, by rw [k1]; simp, ?_, ?_⟩
        · rw [List.filterMap_append, List.length_append, k2]
          simp only [entryEvents, entryTx, hd, okEvents, txEvent, if_true, List.map_cons, List.map_nil]
          split <;> simp [txOf, Nat.add_comm]
        · have := k3
          simp only [PanelUnit.ran_ran] at this
          rw [show entryEvents e = [.tx .command [e.cmd] .ok] ++ (if 0 < e.delay then [.delay e.delay] else []) by
            simp [entryEvents, entryTx, hd, okEvents, txEvent]]
          rw [← List.append_assoc] at this
          exact this
      · simp only [hd, if_false] at hj
        simp only [hd, if_false]
        cases j with
        | zero =>
          rw [PanelUnit.tx_of_script (a := bad) (rest := rest) rfl]
          refine ⟨[txEvent .ok (.command, [e.cmd])], (.data, e.data), (if 0 < e.delay then [.delay e.delay] else []) ++ es.flatMap entryEvents,
            ?_, rfl, ?_⟩
          · simp [entryEvents, entryTx, okEvents, hd]
          · rcases hb with ⟨rfl, hp⟩ | rfl
            · simp only [setupFail, hp, andThen_fail, PanelUnit.ran_ran]; rfl
            · simp only [andThen_hang, PanelUnit.ran_ran]; rfl
        | succ j =>
          rw [PanelUnit.tx_of_script (a := .ok) (rest := List.replicate j .ok ++ bad :: rest) (by rw [List.replicate_succ]; rfl)]
          simp only [andThen_done, settle_eq_ran, PanelUnit.ran_ran]
          obtain ⟨b, c, f, k1, k2, k3⟩ := ih (PanelUnit.ran cfg ([.tx .command [e.cmd] .ok] ++ [.tx .data e.data .ok] ++
            if 0 < e.delay then [.delay e.delay] else []) (List.replicate j .ok ++ bad :: rest) u.env.drawn u.work u) j (by omega) rfl
          refine ⟨entryEvents e ++ b, c, f, by rw [k1]; simp, ?_, ?_⟩
          · rw [List.filterMap_append, List.length_append, k2]
            simp only [entryEvents, entryTx, hd, okEvents, txEvent, if_false, List.map_cons, List.map_nil]
            split
            · have e2 : (List.filterMap txOf [PanelEvent.delay e.delay]).length = 0 := rfl
              simp [txOf, e2]; omega
            · simp [txOf]; omega
          · have := k3
            simp only [PanelUnit.ran_ran] at this
            rw [show entryEvents e = [.tx .command [e.cmd] .ok] ++ [.tx .data e.data .ok] ++ (if 0 < e.delay then [.delay e.delay] else []) by
              simp [entryEvents, entryTx, hd, okEvents, txEvent]]
            simp only [List.append_assoc] at this ⊢
            exact this

theorem resetController_eq_ran (cfg : Config) (u : PanelUnit) :
    resetController cfg u = u.ran cfg (resetEvents cfg) u.env.answers u.env.drawn u.work := by
  simp only [resetController, PanelUnit.emit_eq_ran, PanelUnit.ran_ran, PanelUnit.ran_env_answers, PanelUnit.ran_env_drawn, PanelUnit.ran_work]
  rfl

/-- The bus claim under a script. -/
theorem claimBus_of_script {cfg : Config} {u : PanelUnit} {a : Answer} {rest : List Answer} (h : u.env.answers = a :: rest) :
    claimBus cfg u =
      (match a with | .ok => .done | .fail => .fail .peripheralError | .never => .hang, u.ran cfg [.claim a] rest u.env.drawn u.work) := by
  have ht := PanelUnit.takeAnswer_of_script h
  unfold claimBus PanelUnit.claim
  rw [PanelUnit.answer_of_script h, PanelUnit.takeAnswer_emit_eq_ran, ht.1, ht.2]
  cases a <;> rfl

/-- PANEL_INIT after a bus claim answered `ok`: the controller's reset, and then the set-up sequence. -/
theorem panelInitBody_claimed {cfg : Config} {u : PanelUnit} (hi : u.init = false) {rest : List Answer} (h : u.env.answers = .ok :: rest) :
    panelInitBody cfg u =
      .ok (andThen (setupSequence cfg cfg.initSeq ((latchPins u).ran cfg (.claim .ok :: resetEvents cfg) rest u.env.drawn u.work))
        fun v => (.done, { v with init := true })) := by
  unfold panelInitBody
  rw [if_neg (by rw [hi]; simp), claimBus_of_script (u := latchPins u) h]
  simp only [andThen_done, resetController_eq_ran, PanelUnit.ran_ran, PanelUnit.ran_env_answers, PanelUnit.ran_env_drawn, PanelUnit.ran_work]
  rfl

/-- PANEL_INIT after a bus claim answered `fail`, or never. -/
theorem panelInitBody_notClaimed {cfg : Config} {u : PanelUnit} (hi : u.init = false) {bad : Answer} (hb : bad ≠ .ok) {rest : List Answer}
    (h : u.env.answers = bad :: rest) :
    panelInitBody cfg u = .ok (if bad = .fail then .fail .peripheralError else .hang,
      (latchPins u).ran cfg [.claim bad] rest u.env.drawn u.work) := by
  unfold panelInitBody
  rw [if_neg (by rw [hi]; simp), claimBus_of_script (u := latchPins u) h]
  cases bad with
  | ok => exact absurd rfl hb
  | fail => rfl
  | never => rfl

/-- The bus claim, whatever the answer. -/
theorem claimBus_setUp (cfg : Config) (u : PanelUnit) : SetUp cfg u (claimBus cfg u) := by
  unfold claimBus PanelUnit.claim
  cases u.answer with
  | ok => exact ⟨⟨[_], _, _, u.setupErrs, rfl, by simp [isSetup]⟩, .inl rfl⟩
  | fail => exact ⟨⟨[_], _, _, u.setupErrs, rfl, by simp [isSetup]⟩, .inr (.inl rfl)⟩
  | never => exact ⟨⟨[_], _, _, u.setupErrs, rfl, by simp [isSetup]⟩, .inr (.inr rfl)⟩

end Sys2Proof.Machine
end

