-- ==== Sys2Proof/Laws/Sink.lean ====
section
/-! SUPPORT. What the panel makes of the traffic: one event keeps the memory's canonical form; a window and a pixel stream that fills it write
exactly its rectangle, however the stream is cut into transactions. -/

namespace Sys2Proof.Machine

/-! ### One event -/

theorem PanelSink.pixelData_wf {p : PanelSink} (h : p.mem.wf = true) (bytes : List Byte) : (p.pixelData bytes).mem.wf = true := by
  unfold PanelSink.pixelData
  split
  · rfl
  · rename_i ps _
    split
    · rename_i hc
      simp only [Bool.and_eq_true, decide_eq_true_eq] at hc
      by_cases hw : p.xe.toNat + 1 - p.xs.toNat = 0
      · have : ps.length = 0 := by
          have := hc.2
          simp only [PanelSink.windowPixels, hw, Nat.zero_mul] at this
          omega
        have : ps = [] := List.length_eq_zero_iff.1 this
        subst this
        exact h
      · exact streamPixels_wf (by omega) (by have := p.xe.isLt; omega) ps h
    · rfl

theorem PanelSink.command_mem (cfg : Config) (p : PanelSink) (c : Byte) : (p.command cfg c).mem = p.mem := by
  unfold PanelSink.command
  repeat (first | split | rfl)

theorem PanelSink.dataBytes_wf {p : PanelSink} (h : p.mem.wf = true) (bytes : List Byte) : (p.dataBytes bytes).mem.wf = true := by
  unfold PanelSink.dataBytes
  split
  · exact h
  · split
    · exact h
    · rfl
  · split
    · exact h
    · rfl
  · exact PanelSink.pixelData_wf h bytes

/-- Every event keeps the canonical form of the panel memory. -/
theorem PanelSink.observe_wf (cfg : Config) {p : PanelSink} (h : p.mem.wf = true) (e : PanelEvent) : (p.observe cfg e).mem.wf = true := by
  unfold PanelSink.observe
  split
  · exact h
  · split
    · rfl
    · rw [PanelSink.command_mem]; exact h
    · rfl
    · exact PanelSink.dataBytes_wf h _
    all_goals first | rfl | exact h

theorem PanelSink.observe_all_wf (cfg : Config) (es : List PanelEvent) {p : PanelSink} (h : p.mem.wf = true) :
    (es.foldl (PanelSink.observe cfg) p).mem.wf = true := by
  induction es generalizing p with
  | nil => exact h
  | cons e es ih => exact ih (PanelSink.observe_wf cfg h e)

/-! ### A window and its pixels -/

theorem pixelBytes_cons (p : Pixel) (ps : List Pixel) : pixelBytes (p :: ps) = hi8 p :: lo8 p :: pixelBytes ps := rfl

theorem pixelsOf_pixelBytes (ps : List Pixel) : pixelsOf (pixelBytes ps) = some ps := by
  induction ps with
  | nil => rfl
  | cons p ps ih => simp [pixelBytes_cons, pixelsOf, ih, ofBe16_hi8_lo8]

theorem chunkBytes_eq_pixelBytes (color : Pixel) (k : Nat) : chunkBytes color k = pixelBytes (List.replicate k color) := by
  induction k with
  | zero => rfl
  | succ k ih => simp only [chunkBytes, List.replicate_succ, List.flatten_cons] at *; rw [ih, pixelBytes_cons]; rfl

/-- The sink after the five transactions of a window. -/
theorem sink_window {cfg : Config} (hv : cfg.valid = true) {p : PanelSink} (hd : p.dead = false) (x0 y0 x1 y1 : Nat) :
    (okEvents (windowTx cfg x0 y0 x1 y1)).foldl (PanelSink.observe cfg) p =
      { p with
        sync := true, mode := .write, haveCol := true, haveRow := true, k := 0
        xs := BitVec.ofNat 16 (x0 + cfg.colOffset), xe := BitVec.ofNat 16 (x1 + cfg.colOffset)
        ys := BitVec.ofNat 16 (y0 + cfg.rowOffset), ye := BitVec.ofNat 16 (y1 + cfg.rowOffset) } := by
  obtain ⟨h1, h2, h3⟩ := Config.valid_commands hv
  simp [okEvents, windowTx, txEvent, PanelSink.observe, hd, PanelSink.command, PanelSink.dataBytes, coordPair, be16, ofBe16_hi8_lo8, h1.symm,
    h2.symm, h3.symm]

/-- The sink after transactions that carry the pixels `pss`, in a window that has room for them. -/
theorem sink_pixels {cfg : Config} {p : PanelSink} (hd : p.dead = false) (hs : p.sync = true) (hm : p.mode = .write)
    (hw : p.mem.wf = true) (hx : p.xs.toNat ≤ p.xe.toNat) (pss : List (List Pixel)) (hk : p.k + pss.flatten.length ≤ p.windowPixels) :
    (okEvents (pss.map fun ps => (DcLine.data, pixelBytes ps))).foldl (PanelSink.observe cfg) p =
      { p with
        mem := streamPixels p.xs.toNat p.ys.toNat (p.xe.toNat + 1 - p.xs.toNat) p.k pss.flatten p.mem
        k := p.k + pss.flatten.length } := by
  have hxe := p.xe.isLt
  induction pss generalizing p with
  | nil => simp [okEvents, streamPixels, streamCells, Memory.merge]
  | cons ps pss ih =>
    simp only [List.flatten_cons, List.length_append] at hk
    have e : p.observe cfg (txEvent .ok (DcLine.data, pixelBytes ps)) =
        { p with
          mem := streamPixels p.xs.toNat p.ys.toNat (p.xe.toNat + 1 - p.xs.toNat) p.k ps p.mem
          k := p.k + ps.length } := by
      have h2 : p.k + ps.length ≤ p.windowPixels := by omega
      simp [PanelSink.observe, txEvent, hd, PanelSink.dataBytes, hm, PanelSink.pixelData, pixelsOf_pixelBytes, hs, h2]
    have hww : 0 < p.xe.toNat + 1 - p.xs.toNat := by omega
    have hcol : p.xs.toNat + (p.xe.toNat + 1 - p.xs.toNat) ≤ 65536 := by omega
    simp only [List.map_cons, okEvents, List.foldl_cons]
    rw [e]
    have := ih (p := { p with
          mem := streamPixels p.xs.toNat p.ys.toNat (p.xe.toNat + 1 - p.xs.toNat) p.k ps p.mem
          k := p.k + ps.length }) hd hs hm (streamPixels_wf hww hcol ps hw) hx
          (by simp only [PanelSink.windowPixels] at hk ⊢; omega) hxe
    simp only [okEvents] at this
    rw [this]
    simp only [List.flatten_cons, List.length_append, streamPixels_append hww hcol ps pss.flatten hw, Nat.add_assoc]

/-- A rectangle of the panel, in the controller's coordinates, as a window: nothing is cut to 16 bits. -/
theorem window_coords {cfg : Config} (hv : cfg.valid = true) {x y w h : Nat} (hb : insidePanel cfg x y w h = true) (hw : 0 < w) (hh : 0 < h) :
    (BitVec.ofNat 16 (x + cfg.colOffset)).toNat = x + cfg.colOffset ∧
    (BitVec.ofNat 16 (x + w - 1 + cfg.colOffset)).toNat = x + w - 1 + cfg.colOffset ∧
    (BitVec.ofNat 16 (y + cfg.rowOffset)).toNat = y + cfg.rowOffset ∧
    (BitVec.ofNat 16 (y + h - 1 + cfg.rowOffset)).toNat = y + h - 1 + cfg.rowOffset := by
  have := Config.valid_safe hv
  simp only [insidePanel, Bool.and_eq_true, decide_eq_true_eq] at hb
  simp only [BitVec.toNat_ofNat]
  refine ⟨?_, ?_, ?_, ?_⟩ <;> exact Nat.mod_eq_of_lt (by omega)

/-- The panel memory after a window on a rectangle and the pixels that fill it, in any number of transactions. -/
theorem sink_rectangle {cfg : Config} (hv : cfg.valid = true) {p : PanelSink} (hd : p.dead = false) (hm : p.mem.wf = true) {x y w h : Nat}
    (hb : insidePanel cfg x y w h = true) (hw : 0 < w) (hh : 0 < h) (pss : List (List Pixel)) (hl : pss.flatten.length = w * h) :
    (okEvents (windowTx cfg x y (x + w - 1) (y + h - 1) ++ pss.map fun ps => (DcLine.data, pixelBytes ps))).foldl
        (PanelSink.observe cfg) p =
      { p with
        sync := true, mode := .write, haveCol := true, haveRow := true, k := w * h
        xs := BitVec.ofNat 16 (x + cfg.colOffset), xe := BitVec.ofNat 16 (x + w - 1 + cfg.colOffset)
        ys := BitVec.ofNat 16 (y + cfg.rowOffset), ye := BitVec.ofNat 16 (y + h - 1 + cfg.rowOffset)
        mem := streamPixels (x + cfg.colOffset) (y + cfg.rowOffset) w 0 pss.flatten p.mem } := by
  obtain ⟨c1, c2, c3, c4⟩ := window_coords hv hb hw hh
  have e : ∀ (a b : List TxContent), okEvents (a ++ b) = okEvents a ++ okEvents b := fun a b => List.map_append
  rw [e, List.foldl_append, sink_window hv hd, sink_pixels]
  · simp only [c1, c2, c3, Nat.zero_add, hl]
    rw [show x + w - 1 + cfg.colOffset + 1 - (x + cfg.colOffset) = w by omega]
  · exact hd
  · rfl
  · rfl
  · exact hm
  · simp only [c1, c2]; omega
  · simp only [PanelSink.windowPixels, c1, c2, c3, c4, hl]
    rw [show x + w - 1 + cfg.colOffset + 1 - (x + cfg.colOffset) = w by omega,
      show y + h - 1 + cfg.rowOffset + 1 - (y + cfg.rowOffset) = h by omega]
    omega

/-- What is read after that: every pixel of the rectangle as the stream says, every byte outside as before. -/
theorem read_rectangle {cfg : Config} (hv : cfg.valid = true) {m : Memory} (hm : m.wf = true) {x y w h : Nat}
    (hb : insidePanel cfg x y w h = true) (hw : 0 < w) (vs : List Pixel) (hl : vs.length = w * h) :
    (∀ i j, i < w → j < h → (hq : j * w + i < vs.length) →
      (streamPixels (x + cfg.colOffset) (y + cfg.rowOffset) w 0 vs m).pixel (x + i + cfg.colOffset) (y + j + cfg.rowOffset) =
        some vs[j * w + i]) ∧
    (∀ a, ¬ InRectangle cfg x y w h a →
      (streamPixels (x + cfg.colOffset) (y + cfg.rowOffset) w 0 vs m).read a = m.read a) := by
  have hc := Config.valid_safe hv
  simp only [insidePanel, Bool.and_eq_true, decide_eq_true_eq] at hb
  obtain ⟨h1, h2⟩ := read_streamPixels (xs := x + cfg.colOffset) (ys := y + cfg.rowOffset) (q := 0) hw (by omega) vs hm
  refine ⟨fun i j hi hj hq => ?_, fun a ha => h2 a fun q hq => ?_⟩
  · have e1 : (j * w + i) % w = i := by
      rw [Nat.add_comm, Nat.add_mul_mod_self_right, Nat.mod_eq_of_lt hi]
    have e2 : (j * w + i) / w = j := by
      rw [Nat.add_comm, Nat.add_mul_div_right _ _ hw, Nat.div_eq_of_lt hi, Nat.zero_add]
    have h3 := h1 (j * w + i) hq
    simp only [streamAddr, Nat.zero_add, e1, e2] at h3
    rw [show x + cfg.colOffset + i = x + i + cfg.colOffset by omega, show y + cfg.rowOffset + j = y + j + cfg.rowOffset by omega] at h3
    simp only [Memory.pixel, h3.1, h3.2, ofBe16_hi8_lo8]
  · rw [Nat.zero_add]
    have hd := Nat.div_add_mod q w
    have hi := Nat.mod_lt q hw
    have hj : q / w < h := by
      apply Nat.div_lt_of_lt_mul
      rw [← hl]; exact hq
    have e : streamAddr (x + cfg.colOffset) (y + cfg.rowOffset) w q =
        gramAddr (x + q % w + cfg.colOffset) (y + q / w + cfg.rowOffset) := by
      unfold streamAddr; congr 1 <;> omega
    rw [e]
    constructor
    · intro he; exact ha ⟨q % w, q / w, hi, hj, .inl he⟩
    · intro he; exact ha ⟨q % w, q / w, hi, hj, .inr he⟩

/-! ### The pixels of a glyph -/

theorem glyphPixels_length (cfg : Config) (idx s : Nat) (fg bg : Pixel) :
    (glyphPixels cfg idx s fg bg).length = glyphHeight cfg s * glyphWidth cfg s := by
  unfold glyphPixels
  rw [List.length_flatMap]
  simp

theorem flatMap_range_getElem? {α : Type} (f : Nat → List α) (w : Nat) (hf : ∀ j, (f j).length = w) (n i j : Nat) (hi : i < w) (hj : j < n) :
    ((List.range n).flatMap f)[j * w + i]? = (f j)[i]? := by
  induction n with
  | zero => omega
  | succ n ih =>
    rw [List.range_succ, List.flatMap_append, List.flatMap_singleton]
    have hlen : ((List.range n).flatMap f).length = n * w := by
      rw [List.length_flatMap]
      simp [hf]
    by_cases hjn : j < n
    · have : j * w + i < n * w := by
        have : (j + 1) * w ≤ n * w := Nat.mul_le_mul_right w hjn
        rw [Nat.add_mul] at this; omega
      rw [List.getElem?_append_left (by omega)]
      exact ih hjn
    · have : j = n := by omega
      subst this
      rw [List.getElem?_append_right (by omega), hlen]
      congr 1; omega

/-- Pixel `(px, py)` of a glyph, in row-major order. -/
theorem glyphPixels_getElem? (cfg : Config) (idx s : Nat) (fg bg : Pixel) (px py : Nat) (hx : px < glyphWidth cfg s)
    (hy : py < glyphHeight cfg s) :
    (glyphPixels cfg idx s fg bg)[py * glyphWidth cfg s + px]? = some (glyphPixel cfg idx s px py fg bg) := by
  unfold glyphPixels
  rw [flatMap_range_getElem? _ (glyphWidth cfg s) (by simp) _ _ _ hx hy]
  simp [hx]

end Sys2Proof.Machine
end

