-- ==== Sys2Proof/Machine/Spelling.lean ====
section
/-! DEFINITION. The textual spelling of an operation (30_encoding.md R124): a mnemonic and its operands in the source's order, separated by
commas. `spell` writes it and `assemble` reads it; `encode` gives the descriptor bytes of what `assemble` reads. Characters are handled by
their codes (log 19). -/

namespace Sys2Proof

/-! ### Writing -/

/-- An operand of the textual spelling. -/
inductive Operand where
  /-- A number, or a character by its code. -/
  | num (n : Nat)
  /-- A text in double quotes. -/
  | text (bytes : List Byte)
  /-- The final operand `B` of the wrapped operations: the bounds flag is set. -/
  | boundsFlag
deriving DecidableEq, Repr

/-- One hexadecimal digit. -/
def hexDigit (n : Nat) : Char := if n < 10 then Char.ofNat (48 + n) else Char.ofNat (55 + n)

/-- One byte of a text operand, with the escapes of R124. -/
def spellByte (b : Byte) : List Char :=
  let n := b.toNat
  let backslash := Char.ofNat 92
  if n = 0x0A then [backslash, 'n']
  else if n = 0 then [backslash, '0']
  else if n = 92 ∨ n = 34 then [backslash, Char.ofNat n]
  else if 0x20 ≤ n ∧ n ≤ 0x7E then [Char.ofNat n]
  else [backslash, 'x', hexDigit (n / 16), hexDigit (n % 16)]

/-- One operand as text. -/
def spellOperand : Operand → String
  | .num n => Nat.repr n
  | .text bytes => String.ofList ([Char.ofNat 34] ++ bytes.flatMap spellByte ++ [Char.ofNat 34])
  | .boundsFlag => "B"

/-- The mnemonics of R100. -/
def mnemonic : Opcode → String
  | .panelInit => "PANEL_INIT"
  | .setWindow => "SET_WINDOW"
  | .fill => "FILL"
  | .drawPixel => "DRAW_PIXEL"
  | .drawGlyph => "DRAW_GLYPH"
  | .drawString => "DRAW_STRING"
  | .drawWrapped => "DRAW_WRAPPED"
  | .drawFormatted => "DRAW_FORMATTED"
  | .ledInit => "LED_INIT"
  | .setColor => "SET_COLOR"
  | .setHsv => "SET_HSV"
  | .turnOff => "TURN_OFF"
  | .ledDeinit => "LED_DEINIT"
  | .pack565 => "PACK565"
  | .hsv2rgb => "HSV2RGB"

/-- The bounds flag as a final operand (R124): written when bit 0 of `flags` is set. -/
def flagOperand (flags : Byte) : List Operand := if flags.getLsbD 0 then [.boundsFlag] else []

/-- The operands of an operation in the order of its textual spelling (R124). -/
def operandsOf : Instr → List Operand
  | .panelInit dc rst cs sclk mosi hz => [.num dc.toNat, .num rst.toNat, .num cs.toNat, .num sclk.toNat, .num mosi.toNat, .num hz.toNat]
  | .setWindow x0 y0 x1 y1 => [.num x0.toNat, .num y0.toNat, .num x1.toNat, .num y1.toNat]
  | .fill color x y w h => [.num color.toNat, .num x.toNat, .num y.toNat, .num w.toNat, .num h.toNat]
  | .drawPixel x y color => [.num x.toNat, .num y.toNat, .num color.toNat]
  | .drawGlyph x y ch fg bg scale => [.num x.toNat, .num y.toNat, .num ch.toNat, .num fg.toNat, .num bg.toNat, .num scale.toNat]
  | .drawString x y fg bg scale _ text => [.num x.toNat, .num y.toNat, .text text, .num fg.toNat, .num bg.toNat, .num scale.toNat]
  | .drawWrapped x y fg bg scale flags text =>
    [.num x.toNat, .num y.toNat, .text text, .num fg.toNat, .num bg.toNat, .num scale.toNat] ++ flagOperand flags
  | .drawFormatted x y fg bg scale flags text =>
    [.num x.toNat, .num y.toNat, .num fg.toNat, .num bg.toNat, .num scale.toNat, .text text] ++ flagOperand flags
  | .ledInit pin chan => [.num pin.toNat, .num chan.toNat]
  | .setColor r g b => [.num r.toNat, .num g.toNat, .num b.toNat]
  | .setHsv hue sat val => [.num hue.toNat, .num sat.toNat, .num val.toNat]
  | .turnOff => []
  | .ledDeinit => []
  | .pack565 r g b => [.num r.toNat, .num g.toNat, .num b.toNat]
  | .hsv2rgb hue sat val => [.num hue.toNat, .num sat.toNat, .num val.toNat]

/-- The textual spelling of an operation (R124). -/
def spell (i : Instr) : String :=
  match operandsOf i with
  | [] => mnemonic (opcode i)
  | ops => mnemonic (opcode i) ++ " " ++ ", ".intercalate (ops.map spellOperand)

/-! ### Reading -/

/-- The value of a hexadecimal digit, by its code. -/
def hexValue (c : Nat) : Option Nat :=
  if 48 ≤ c ∧ c ≤ 57 then some (c - 48)
  else if 65 ≤ c ∧ c ≤ 70 then some (c - 55)
  else if 97 ≤ c ∧ c ≤ 102 then some (c - 87)
  else none

/-- A code that may stand in a mnemonic: a letter, a digit or an underscore. -/
def isWordCode (c : Nat) : Bool :=
  (decide (48 ≤ c) && decide (c ≤ 57)) || (decide (65 ≤ c) && decide (c ≤ 90)) || (decide (97 ≤ c) && decide (c ≤ 122)) || decide (c = 95)

/-- A blank between tokens. -/
def isBlankCode (c : Nat) : Bool := decide (c = 32) || decide (c = 9)

/-- A token of the textual spelling. -/
inductive Token where
  | word (codes : List Nat)
  | num (n : Nat)
  | text (bytes : List Byte)
  | comma
deriving DecidableEq, Repr

/-- The bytes of a text operand after its opening quote, and what follows its closing quote (R124). -/
def lexText : List Nat → Option (List Byte × List Nat)
  | [] => none
  | c :: rest =>
    if c = 34 then some ([], rest)
    else if c = 92 then
      match rest with
      | [] => none
      | e :: rest1 =>
        if e = 110 then (lexText rest1).map fun r => (0x0A :: r.1, r.2)
        else if e = 48 then (lexText rest1).map fun r => (0x00 :: r.1, r.2)
        else if e = 92 ∨ e = 34 then (lexText rest1).map fun r => (BitVec.ofNat 8 e :: r.1, r.2)
        else if e = 120 then
          match rest1 with
          | h :: l :: rest2 =>
            match hexValue h, hexValue l with
            | some hv, some lv => (lexText rest2).map fun r => (BitVec.ofNat 8 (hv * 16 + lv) :: r.1, r.2)
            | _, _ => none
          | _ => none
        else none
    else if c < 256 then (lexText rest).map fun r => (BitVec.ofNat 8 c :: r.1, r.2)
    else none

/-- A number in a given base from the digits it is written with. -/
def readDigits (base : Nat) : List Nat → Nat → Option Nat
  | [], acc => some acc
  | c :: rest, acc =>
    match hexValue c with
    | some v => if v < base then readDigits base rest (acc * base + v) else none
    | none => none

/-- A number: decimal, or `0x` and hexadecimal digits (R124). -/
def readNumber : List Nat → Option Nat
  | 48 :: 120 :: d :: rest => readDigits 16 (d :: rest) 0
  | codes => readDigits 10 codes 0

/-- The tokens of a line. The first argument bounds the number of tokens and blanks; the length of the line suffices. -/
def lex : Nat → List Nat → Option (List Token)
  | _, [] => some []
  | 0, _ :: _ => none
  | n + 1, c :: rest =>
    if isBlankCode c then lex n rest
    else if c = 44 then (lex n rest).map (Token.comma :: ·)
    else if c = 34 then
      match lexText rest with
      | some (bytes, rest1) => (lex n rest1).map (Token.text bytes :: ·)
      | none => none
    else if c = 39 then
      match rest with
      | ch :: 39 :: rest1 => (lex n rest1).map (Token.num ch :: ·)
      | _ => none
    else if isWordCode c then
      let codes := (c :: rest).takeWhile isWordCode
      let rest1 := (c :: rest).dropWhile isWordCode
      if 48 ≤ c ∧ c ≤ 57 then
        match readNumber codes with
        | some v => (lex n rest1).map (Token.num v :: ·)
        | none => none
      else (lex n rest1).map (Token.word codes :: ·)
    else none

/-- One operand from its token. -/
def operandOfToken : Token → Option Operand
  | .num n => some (.num n)
  | .text b => some (.text b)
  | .word codes => if codes = [66] then some .boundsFlag else none
  | .comma => none

/-- Operands separated by commas. -/
def readOperands : List Token → Option (List Operand)
  | [] => none
  | [t] => (operandOfToken t).map fun o => [o]
  | t :: .comma :: rest =>
    match operandOfToken t, readOperands rest with
    | some o, some os => some (o :: os)
    | _, _ => none
  | _ :: _ => none

/-- The opcode whose mnemonic is written with these codes. -/
def opcodeOfCodes (codes : List Nat) : Option Opcode :=
  [Opcode.panelInit, .setWindow, .fill, .drawPixel, .drawGlyph, .drawString, .drawWrapped, .drawFormatted,
    .ledInit, .setColor, .setHsv, .turnOff, .ledDeinit, .pack565, .hsv2rgb].find?
    (fun o => decide ((mnemonic o).toList.map Char.toNat = codes))

/-- A number that fits `w` bits. -/
def fitBits (w : Nat) (n : Nat) : Option (BitVec w) := if n < 2 ^ w then some (BitVec.ofNat w n) else none

/-- The final bounds flag of the wrapped operations, set or left out (R124). -/
def readFlag : List Operand → Option Byte
  | [] => some 0
  | [.boundsFlag] => some 1
  | _ => none

/-- The operation a mnemonic and its operands spell (R124); `none` for operands that do not fit their fields. -/
def buildInstr : Opcode → List Operand → Option Instr
  | .panelInit, [.num a, .num b, .num c, .num d, .num e, .num f] => do
    return .panelInit (← fitBits 8 a) (← fitBits 8 b) (← fitBits 8 c) (← fitBits 8 d) (← fitBits 8 e) (← fitBits 32 f)
  | .setWindow, [.num a, .num b, .num c, .num d] => do
    return .setWindow (← fitBits 16 a) (← fitBits 16 b) (← fitBits 16 c) (← fitBits 16 d)
  | .fill, [.num a, .num b, .num c, .num d, .num e] => do
    return .fill (← fitBits 16 a) (← fitBits 16 b) (← fitBits 16 c) (← fitBits 16 d) (← fitBits 16 e)
  | .drawPixel, [.num a, .num b, .num c] => do return .drawPixel (← fitBits 16 a) (← fitBits 16 b) (← fitBits 16 c)
  | .drawGlyph, [.num a, .num b, .num c, .num d, .num e, .num f] => do
    return .drawGlyph (← fitBits 16 a) (← fitBits 16 b) (← fitBits 8 c) (← fitBits 16 d) (← fitBits 16 e) (← fitBits 8 f)
  | .drawString, [.num a, .num b, .text t, .num c, .num d, .num e] => do
    return .drawString (← fitBits 16 a) (← fitBits 16 b) (← fitBits 16 c) (← fitBits 16 d) (← fitBits 8 e) 0 t
  | .drawWrapped, .num a :: .num b :: .text t :: .num c :: .num d :: .num e :: flag => do
    return .drawWrapped (← fitBits 16 a) (← fitBits 16 b) (← fitBits 16 c) (← fitBits 16 d) (← fitBits 8 e) (← readFlag flag) t
  | .drawFormatted, .num a :: .num b :: .num c :: .num d :: .num e :: .text t :: flag => do
    return .drawFormatted (← fitBits 16 a) (← fitBits 16 b) (← fitBits 16 c) (← fitBits 16 d) (← fitBits 8 e) (← readFlag flag) t
  | .ledInit, [.num a, .num b] => do return .ledInit (← fitBits 8 a) (← fitBits 8 b)
  | .setColor, [.num a, .num b, .num c] => do return .setColor (← fitBits 8 a) (← fitBits 8 b) (← fitBits 8 c)
  | .setHsv, [.num a, .num b, .num c] => do return .setHsv (← fitBits 16 a) (← fitBits 8 b) (← fitBits 8 c)
  | .turnOff, [] => some .turnOff
  | .ledDeinit, [] => some .ledDeinit
  | .pack565, [.num a, .num b, .num c] => do return .pack565 (← fitBits 8 a) (← fitBits 8 b) (← fitBits 8 c)
  | .hsv2rgb, [.num a, .num b, .num c] => do return .hsv2rgb (← fitBits 16 a) (← fitBits 8 b) (← fitBits 8 c)
  | _, _ => none

/-- The operation a line spells (R124), when it spells a well-formed one. -/
def assemble (line : String) : Option Instr :=
  let codes := line.toList.map Char.toNat
  let built :=
    match lex codes.length codes with
    | some [.word m] => (opcodeOfCodes m).bind fun o => buildInstr o []
    | some (.word m :: rest) =>
      match opcodeOfCodes m, readOperands rest with
      | some o, some ops => buildInstr o ops
      | _, _ => none
    | _ => none
  built.filter wellFormed

end Sys2Proof
end

