-- ==== Sys2Proof/Tests/Slice0.lean ====
section
/-! SUPPORT. Tests and witnesses. The expected results of the tests are those of 95_test_vectors.md (the vector is named in each comment); the
witnesses show for each statement of Certificates/Slice0/Obligations.lean a state and operands that meet its hypotheses, each clause at a
boundary of its range. -/

namespace Sys2Proof.Tests

open Sys2Proof Sys2Proof.Machine

/-! ### Helpers -/

/-- The outcome is a next state with a property. -/
def nextIs (p : State → Bool) : Host.Outcome State Fault Refusal → Bool
  | .next t => p t
  | .fault _ => false
  | .refused _ => false

/-- The outcome is this refusal. -/
def refusedAs (r : Refusal) : Host.Outcome State Fault Refusal → Bool
  | .next _ => false
  | .fault _ => false
  | .refused q => decide (q = r)

theorem exists_next {o : Host.Outcome State Fault Refusal} {p : State → Bool} (h : nextIs p o = true) : ∃ t, o = .next t ∧ p t = true := by
  cases o with
  | next t => exact ⟨t, rfl, h⟩
  | fault _ => cases h
  | refused _ => cases h

/-- After reset, with these answers waiting for both engines and 26 encoder invocations of 48 slots. -/
def fresh (answers : List Answer) : State :=
  let s := State.reset
  { s with
    pu := { s.pu with env := { s.pu.env with answers } }
    lu := { s.lu with env := { s.lu.env with answers, moves := List.replicate 26 (.proceed 48) } } }

/-- Both engines initialised, with these answers waiting. -/
def ready (answers : List Answer) : State :=
  let s := fresh answers
  { s with
    pu := { s.pu with init := true, env := { s.pu.env with rstLine := some .high } }
    lu := { s.lu with init := true, ticks := pulseTable cfgRef, env := { s.lu.env with line := some .low } } }

/-- A state with these descriptors issued. -/
def issuing (s : State) (ds : List (List Byte)) : State := { s with pending := ds }

/-- `n` answers `ok`. -/
def oks (n : Nat) : List Answer := List.replicate n .ok

/-- The operation has ended in its unit with this status. -/
def endsWith (u : BlockUnit) (st : Status) (t : State) : Bool := decide (t.statusOf u = st) && !t.inFlightOf u

/-- The events `t` has added to the panel trace of an empty one, as transactions and answers. -/
def txs (t : State) : List (TxContent × Answer) := t.pu.trace.filterMap txOf

/-! ### WellFormed: an ill-formed term for each check -/

theorem test_textTooLong_illFormed : wellFormed (.drawString 0 0 0 0 1 0 (List.replicate 65536 0x41)) = false := by
  show (decide ((List.replicate 65536 (0x41 : Byte)).length ≤ 65535) && decide ((0 : Byte) = 0)) = false
  rw [List.length_replicate]; decide
theorem test_drawString_flags_illFormed : wellFormed (.drawString 0 0 0 0 1 1 [0x41]) = false := by decide
theorem test_drawWrapped_flags_illFormed : wellFormed (.drawWrapped 0 0 0 0 1 2 [0x41]) = false := by decide
theorem test_drawFormatted_flags_illFormed : wellFormed (.drawFormatted 0 0 0 0 1 0x80 [0x41]) = false := by decide

/-! ### Decode: every constructor, from a descriptor written out -/

theorem test_decode_panelInit :  -- V-DEC-1
    decode [0x10, 0x0F, 0x15, 0x0E, 0x07, 0x06, 0x02, 0x62, 0x5A, 0x00] = .ok (.panelInit 15 21 14 7 6 40000000) := by decide
theorem test_decode_setWindow :  -- V-DEC-2
    decode [0x11, 0x00, 0x0A, 0x00, 0x14, 0x00, 0x0D, 0x00, 0x15] = .ok (.setWindow 10 20 13 21) := by decide
theorem test_decode_fill :  -- V-DEC-3
    decode [0x12, 0xF8, 0x00, 0x00, 0x0A, 0x00, 0x14, 0x00, 0x04, 0x00, 0x02] = .ok (.fill 0xF800 10 20 4 2) := by decide
theorem test_decode_drawPixel :  -- V-DEC-4
    decode [0x13, 0x00, 0xAB, 0x01, 0x3F, 0xF8, 0x00] = .ok (.drawPixel 171 319 0xF800) := by decide
theorem test_decode_drawGlyph :  -- V-DEC-5
    decode [0x14, 0x00, 0x00, 0x00, 0x00, 0x41, 0xFF, 0xFF, 0x00, 0x00, 0x01] = .ok (.drawGlyph 0 0 0x41 0xFFFF 0 1) := by decide
theorem test_decode_drawString :  -- V-DEC-6
    decode [0x15, 0x00, 0x96, 0x00, 0x00, 0xFF, 0xFF, 0x00, 0x00, 0x01, 0x00, 0x00, 0x04, 0x41, 0x41, 0x41, 0x41] =
      .ok (.drawString 150 0 0xFFFF 0 1 0 [0x41, 0x41, 0x41, 0x41]) := by decide
theorem test_decode_drawString_empty :  -- V-DEC-16
    decode [0x15, 0, 0, 0, 0, 0, 0, 0, 0, 0x01, 0, 0, 0] = .ok (.drawString 0 0 0 0 1 0 []) := by decide
theorem test_decode_drawWrapped :  -- V-DEC-7
    decode [0x16, 0x00, 0x00, 0x00, 0x00, 0xFF, 0xFF, 0x00, 0x00, 0x02, 0x01, 0x00, 0x04, 0x41, 0x21, 0x0A, 0x41] =
      .ok (.drawWrapped 0 0 0xFFFF 0 2 1 [0x41, 0x21, 0x0A, 0x41]) := by decide
theorem test_decode_drawFormatted :  -- V-DEC-8
    decode [0x17, 0x00, 0x00, 0x00, 0x00, 0xFF, 0xFF, 0x00, 0x00, 0x01, 0x01, 0x00, 0x05, 0x41, 0x21, 0x41, 0x21, 0x41] =
      .ok (.drawFormatted 0 0 0xFFFF 0 1 1 [0x41, 0x21, 0x41, 0x21, 0x41]) := by decide
theorem test_decode_ledInit : decode [0x20, 0x08, 0x00] = .ok (.ledInit 8 0) := by decide  -- V-DEC-9
theorem test_decode_setColor : decode [0x21, 0x10, 0x20, 0x30] = .ok (.setColor 16 32 48) := by decide  -- V-DEC-10
theorem test_decode_setHsv : decode [0x22, 0x01, 0x69, 0x96, 0x64] = .ok (.setHsv 361 150 100) := by decide  -- V-DEC-11
theorem test_decode_turnOff : decode [0x23] = .ok .turnOff := by decide  -- V-DEC-12
theorem test_decode_ledDeinit : decode [0x24] = .ok .ledDeinit := by decide  -- V-DEC-13
theorem test_decode_pack565 : decode [0x30, 0xFF, 0xA5, 0x00] = .ok (.pack565 255 165 0) := by decide  -- V-DEC-14
theorem test_decode_hsv2rgb : decode [0x31, 0x00, 0xF0, 0x64, 0x64] = .ok (.hsv2rgb 240 100 100) := by decide  -- V-DEC-15

theorem test_decode_unassigned :  -- V-DEC-17 to V-DEC-22
    decode [] = .error .empty ∧ decode [0x00] = .error .unassignedOpcode ∧ decode [0x18] = .error .unassignedOpcode ∧
    decode [0x25] = .error .unassignedOpcode ∧ decode [0x32] = .error .unassignedOpcode ∧ decode [0xFF, 0, 0] = .error .unassignedOpcode := by
  decide
theorem test_decode_wrongLength :  -- V-DEC-23 to V-DEC-26, V-DEC-29 to V-DEC-31
    decode [0x23, 0] = .error .wrongLength ∧ decode [0x11, 0, 0, 0, 0, 0, 0, 1, 0] ≠ .error .wrongLength ∧
    decode [0x11, 0, 0, 0, 0, 0, 1, 0] = .error .wrongLength ∧ decode [0x21, 1, 2] = .error .wrongLength ∧
    decode [0x30, 1, 2, 3, 4] = .error .wrongLength ∧
    decode [0x16, 0, 0, 0, 0, 0xFF, 0xFF, 0, 0, 1, 0, 0, 4, 0x41, 0x41, 0x41] = .error .wrongLength ∧
    decode [0x16, 0, 0, 0, 0, 0xFF, 0xFF, 0, 0, 1, 0, 0] = .error .wrongLength ∧
    decode [0x16, 0, 0, 0, 0, 0xFF, 0xFF, 0, 0, 1, 0, 0, 1, 0x41, 0x41] = .error .wrongLength := by
  decide
theorem test_decode_reservedFlags :  -- V-DEC-27, V-DEC-28
    decode [0x16, 0, 0, 0, 0, 0xFF, 0xFF, 0, 0, 1, 2, 0, 1, 0x41] = .error .reservedFlags ∧
    decode [0x15, 0, 0, 0, 0, 0xFF, 0xFF, 0, 0, 1, 1, 0, 1, 0x41] = .error .reservedFlags := by
  decide
theorem test_decodingComesFirst :  -- V-DEC-32, V-DEC-33
    nextIs (endsWith .panel .notInitialized) (step (issuing State.reset [[0x12, 0, 0, 0, 0, 0, 0, 0, 1, 0, 1]])) = true ∧
    nextIs (endsWith .panel .illegalCommand) (step (issuing State.reset [[0x12, 0, 0, 0, 0, 0, 0, 0, 1, 0]])) = true := by
  decide +kernel
theorem test_spelling :  -- R124; programs A and E
    assemble "DRAW_PIXEL 171, 319, 0xF800" = some (.drawPixel 171 319 0xF800) ∧
    assemble "DRAW_WRAPPED 0, 0, \"A!\\nA\", 0xFFFF, 0x0000, 2, B" = some (.drawWrapped 0 0 0xFFFF 0 2 1 [0x41, 0x21, 0x0A, 0x41]) ∧
    assemble "DRAW_FORMATTED 0, 0, 0xFFFF, 0x0000, 1, \"A!A\", B" = some (.drawFormatted 0 0 0xFFFF 0 1 1 [0x41, 0x21, 0x41]) ∧
    assemble "TURN_OFF" = some .turnOff ∧ spell (.ledInit 8 0) = "LED_INIT 8, 0" := by
  decide +kernel

/-! ### The reference configuration -/

theorem test_cfgRef_valid : cfgRef.valid = true ∧ cfgRef.followsGroupOrder = true := by decide +kernel  -- R5, R6, R143
theorem test_normative_values :  -- R5: another LINE_GAP or GLYPH_W than the source's is no configuration of this hardware
    ({ cfgRef with lineGap := 3 } : Config).valid = false ∧ ({ cfgRef with glyphW := 7 } : Config).valid = false := by decide +kernel

/-! ### One step of each operation -/

theorem test_panelInit_trace :  -- V-INIT-1
    nextIs (fun t => endsWith .panel .ok t && t.pu.init && decide (t.pu.trace.length = 20) && decide (t.pu.setupErrs = 0) &&
        decide ((txs t).map (fun c => c.1.2) = [[0x01], [0x11], [0x3A], [0x55], [0x36], [0x00], [0xB2], [0x0C, 0x0C, 0x00, 0x33, 0x33], [0xE0],
          [0, 1, 2, 3, 4, 5, 6, 7, 8, 9, 10, 11, 12, 13], [0x21], [0x29]]))
      (exec (.panelInit 15 21 14 7 6 40000000) (fresh (oks 13))) = true := by decide +kernel
theorem test_panelInit_ignoredFailures :  -- V-INIT-3
    nextIs (fun t => endsWith .panel .ok t && t.pu.init && decide (t.pu.trace.length = 22) && decide (t.pu.setupErrs = 2) &&
        decide (t.pu.trace.filter isLog = [.log 0x3A, .log 0x36]) && t.pu.env.sink.dead)
      (exec (.panelInit 15 21 14 7 6 40000000) (fresh (oks 3 ++ [.fail, .ok, .ok, .fail] ++ oks 6))) = true := by decide +kernel

theorem test_setWindow_trace :  -- V-WIN-1
    nextIs (fun t => endsWith .panel .ok t && decide ((txs t).map (fun c => c.1) =
        [(.command, [0x2A]), (.data, [0x00, 0x2C, 0x00, 0x2F]), (.command, [0x2B]), (.data, [0x00, 0x14, 0x00, 0x15]), (.command, [0x2C])]))
      (exec (.setWindow 10 20 13 21) (ready (oks 5))) = true := by decide +kernel
theorem test_setWindow_failure :  -- V-WIN-8
    nextIs (fun t => endsWith .panel .peripheralError t && decide ((txs t).map (fun c => c.2) = [.ok, .ok, .fail]))
      (exec (.setWindow 10 20 13 21) (ready (oks 2 ++ [.fail]))) = true := by decide +kernel

theorem test_fill_pixels :  -- V-FILL-1
    nextIs (fun t => endsWith .panel .ok t && decide ((txs t).length = 6) && decide (t.pu.env.sink.k = 8) &&
        decide (t.pixelAt 13 21 = some 0xF800) && decide (t.pixelAt 14 21 = none) && decide (t.pixelAt 9 20 = none))
      (exec (.fill 0xF800 10 20 4 2) (ready (oks 6))) = true := by decide +kernel
theorem test_fill_bounds :  -- V-FILL-6, V-FILL-9, V-FILL-10
    nextIs (endsWith .panel .ok) (exec (.fill 0xFFFF 171 319 1 1) (ready (oks 6))) = true ∧
    nextIs (endsWith .panel .invalidBounds) (exec (.fill 0xFFFF 170 0 3 1) (ready (oks 6))) = true ∧
    nextIs (endsWith .panel .invalidBounds) (exec (.fill 0xFFFF 65535 0 1 1) (ready (oks 6))) = true := by decide +kernel

theorem test_drawPixel :  -- V-PIX-1
    nextIs (fun t => endsWith .panel .ok t && decide (((txs t).map (fun c => c.1.2)).drop 5 = [[0x07, 0xE0]]) &&
        decide (t.pixelAt 171 319 = some 0x07E0))
      (exec (.drawPixel 171 319 0x07E0) (ready (oks 6))) = true := by decide +kernel

theorem test_drawGlyph_rows :  -- V-GLY-2: font row 0 of `A` is 0x0C
    nextIs (fun t => endsWith .panel .ok t && decide (t.pixelAt 103 200 = some 0x001F) && decide (t.pixelAt 104 201 = some 0xF800) &&
        decide (t.pixelAt 107 200 = some 0xF800) && decide (t.pixelAt 108 200 = some 0x001F) && decide (t.pixelAt 116 200 = none))
      (exec (.drawGlyph 100 200 0x41 0xF800 0x001F 2) (ready (oks 6))) = true := by decide +kernel
theorem test_drawGlyph_bounds :  -- V-GLY-7, V-GLY-8
    nextIs (endsWith .panel .ok) (exec (.drawGlyph 164 312 0x41 1 2 1) (ready (oks 6))) = true ∧
    nextIs (endsWith .panel .invalidBounds) (exec (.drawGlyph 165 0 0x41 1 2 1) (ready (oks 6))) = true := by decide +kernel

theorem test_drawString_clips :  -- V-STR-1: two of four cells fit
    nextIs (fun t => endsWith .panel .ok t && decide ((txs t).length = 12))
      (exec (.drawString 150 0 0xFFFF 0 1 0 [0x41, 0x41, 0x41, 0x41]) (ready (oks 24))) = true := by decide +kernel
theorem test_drawString_terminator :  -- V-STR-4
    nextIs (fun t => endsWith .panel .ok t && decide ((txs t).length = 6))
      (exec (.drawString 0 0 0xFFFF 0 1 0 [0x41, 0x00, 0x41]) (ready (oks 24))) = true := by decide +kernel

/-- The bounds registers. -/
def boundsOf (t : State) : Nat × Nat × Nat := (t.pu.boundsMaxX.toNat, t.pu.boundsHeight.toNat, t.pu.boundsLines.toNat)

theorem test_drawWrapped_bounds :  -- V-WRAP-2
    nextIs (fun t => endsWith .panel .ok t && decide ((txs t).length = 36) && decide (boundsOf t = (58, 52, 3)))
      (exec (.drawWrapped 10 5 0xFFFF 0 2 1 [0x41, 0x41, 0x41, 0x0A, 0x41, 0x41, 0x0A, 0x21]) (ready (oks 36))) = true := by decide +kernel
theorem test_drawWrapped_layouts :  -- V-WRAP-3, V-WRAP-4, V-WRAP-15, V-WRAP-20, V-WRAP-28
    (wrapPlan cfgRef 0 0 1 (List.replicate 20 0x41)).2.lines = 1 ∧
    (wrapPlan cfgRef 1 0 1 (List.replicate 20 0x41)).1.getLast? = some { x := 7, y := 20, ch := 0x41 } ∧
    (wrapPlan cfgRef 0 283 1 (List.replicate 25 0x41)).1.length = 20 ∧
    (wrapPlan cfgRef 0 0 1 (List.replicate 700 0x41)).1.length = 600 ∧
    layoutHeight 1 (wrapPlan cfgRef 0 0 1 (List.replicate 700 0x41)).2 = 298 ∧
    (wrapPlan cfgRef 0 0 20 [0x41, 0x41]).1.length = 1 := by decide +kernel

theorem test_drawFormatted_bounds :  -- V-FMT-4
    nextIs (fun t => endsWith .panel .ok t && decide ((txs t).length = 30) && decide (boundsOf t = (40, 8, 1)))
      (exec (.drawFormatted 0 0 0xFFFF 0 1 1 [0x41, 0x21, 0x41, 0x21, 0x41]) (ready (oks 30))) = true := by decide +kernel
theorem test_drawFormatted_cut :  -- V-FMT-5: the line break is kept, the last letter is dropped
    formattedChars cfgRef (List.replicate 126 0x41 ++ [0x0A, 0x41]) = List.replicate 126 0x41 ++ [0x0A] ∧
    (wrapPlan cfgRef 0 0 1 (List.replicate 126 0x41 ++ [0x0A])).2.lines = 8 := by decide +kernel

theorem test_ledInit :  -- V-LI-1, V-LI-12
    nextIs (fun t => endsWith .led .ok t && t.lu.init && decide (t.lu.ticks = { t0h := 3, t0l := 9, t1h := 9, t1l := 3, treset := 500 }) &&
        decide (t.lu.trace = [.pinOutLow 8, .chanAlloc 10000000 .ok, .chanEnable]))
      (exec (.ledInit 8 0) (fresh [.ok])) = true ∧
    nextIs (fun t => endsWith .led .peripheralError t && !t.lu.init) (exec (.ledInit 8 0) (fresh [.fail])) = true := by decide +kernel
theorem test_ticks :  -- V-LI-3, V-LI-4, V-LI-8
    ticksOf { cfgRef with resHz := 1666666 } 300 = 0 ∧ ticksOf { cfgRef with resHz := 1666667 } 300 = 1 ∧
    ticksOf cfgRef 850 = 9 ∧ ticksOf cfgRef 450 = 5 := by decide

/-- The pulses of a bit under the reference ticks (V-LED: `N` for 1, `Z` for 0). -/
def bitPulses (b : Bool) : List LedEvent :=
  if b then [.pulse .high 9, .pulse .low 3] else [.pulse .high 3, .pulse .low 9]

theorem test_setColor_train :  -- V-LED-2
    nextIs (fun t => endsWith .led .ok t && decide (t.lu.trace = .txReq [0x0F, 0xA5, 0x81] .ok ::
        ([false, false, false, false, true, true, true, true, true, false, true, false, false, true, false, true,
          true, false, false, false, false, false, false, true].flatMap bitPulses ++ [.pulse .low 500])) &&
        decide (t.lu.env.shown = some { r := 0xA5, g := 0x0F, b := 0x81 }))
      (exec (.setColor 0xA5 0x0F 0x81) (ready [.ok])) = true := by decide +kernel
theorem test_setColor_rejected :  -- V-LED-7
    nextIs (fun t => endsWith .led .transmitError t && decide (t.lu.trace = [.txReq [2, 1, 3] .fail]) && decide (t.lu.color = { r := 0, g := 0, b := 0 }))
      (exec (.setColor 1 2 3) (ready [.fail])) = true := by decide +kernel
theorem test_wireOrders :  -- V-LED-3
    ([WireOrder.rgb, .rbg, .grb, .gbr, .brg, .bgr].map fun o => (wireBytes o { r := 0x12, g := 0x34, b := 0x56 }).toList) =
      [[0x12, 0x34, 0x56], [0x12, 0x56, 0x34], [0x34, 0x12, 0x56], [0x34, 0x56, 0x12], [0x56, 0x12, 0x34], [0x56, 0x34, 0x12]] := by decide
theorem test_encoder_yields :  -- V-ENC-5: three invocations of ten slots
    (encode1 10 (ready []).lu).1 = .bufferFull ∧ (encode1 10 (ready []).lu).2.encBitpos = 10 ∧
    (encode1 10 (encode1 10 (encode1 10 (ready []).lu).2).2).1 = .done := by decide +kernel

theorem test_setHsv :  -- V-LED-4
    nextIs (fun t => endsWith .led .ok t && decide (t.lu.color = { r := 3, g := 255, b := 0 }) &&
        decide (t.lu.trace.head? = some (.txReq [0xFF, 0x03, 0x00] .ok)))
      (exec (.setHsv 120 100 100) (ready [.ok])) = true := by decide +kernel
theorem test_turnOff :  -- V-LED-6
    nextIs (fun t => endsWith .led .ok t && t.lu.colorValid && decide (t.lu.trace.length = 50)) (exec .turnOff (ready [.ok])) = true := by
  decide +kernel
theorem test_ledDeinit :  -- V-LED-8, V-LED-10
    nextIs (fun t => endsWith .led .ok t && !t.lu.init && t.lu.colorValid && decide (t.lu.trace.getLast? = some .chanRelease))
      (exec .ledDeinit (ready [.ok])) = true ∧
    nextIs (fun t => endsWith .led .transmitError t && !t.lu.init && !t.lu.colorValid && decide (t.lu.trace.length = 2))
      (exec .ledDeinit (ready [.fail])) = true := by decide +kernel
theorem test_ledDeinit_again :  -- V-LED-9
    nextIs (fun t => endsWith .led .ok t && decide (t.lu.trace = [])) (exec .ledDeinit (fresh [])) = true := by decide +kernel

theorem test_pack565 :  -- V-PACK-8, V-PACK-7
    nextIs (fun t => endsWith .utility .ok t && decide (t.cu.result = 0x11AA)) (exec (.pack565 0x12 0x34 0x56) State.reset) = true ∧
    packRgb565 { r := 8, g := 4, b := 8 } = 0x0821 := by decide +kernel
theorem test_hsv2rgb :  -- V-HSV-12, V-HSV-21, V-HSV-25, V-HSV-26
    nextIs (fun t => endsWith .utility .ok t && decide (t.cu.result = 0xFF000F)) (exec (.hsv2rgb 65535 255 255) State.reset) = true ∧
    packRgb888 (hsvToRgb 210 75 20) = 0x0C2133 ∧ packRgb888 (hsvToRgb 303 100 100) = 0xFC00FF ∧
    packRgb888 (hsvToRgb 304 100 100) = 0xFF00FE := by decide +kernel

/-! ### Witnesses: the hypotheses of the statements are met -/

/-- An operation with its operands at the ends of their ranges: the longest text, the largest scale. -/
def sampleInstr : Instr := .drawWrapped 0xFFFF 0 0xFFFF 0 255 1 (List.replicate 65535 0x41)

theorem witness_DecodeOfEncode : WellFormed sampleInstr := by
  show (decide ((List.replicate 65535 (0x41 : Byte)).length ≤ 65535) && decide ((1 : Byte).toNat ≤ 1)) = true
  rw [List.length_replicate]; decide
theorem witness_EncodeOfDecode : decode [0x24] = .ok .ledDeinit := by decide
theorem witness_IllegalDescriptors :
    State.reset.cfg.valid = true ∧ (issuing State.reset [[]]).pending = [] :: [] ∧
    illegalByRule [] = true ∧ illegalByRule [0x18] = true ∧ illegalByRule [0x25] = true ∧ illegalByRule [0x32] = true ∧
    illegalByRule [0x23, 0] = true ∧ illegalByRule [0x16, 0, 0, 0, 0, 0, 0, 0, 0, 1, 2, 0, 0] = true ∧
    illegalByRule [0x15, 0, 0, 0, 0, 0, 0, 0, 0, 1, 1, 0, 0] = true ∧ illegalByRule [0x23] = false := by decide +kernel
theorem witness_StepRunsDecoded :
    (issuing (ready []) [[0x23], [0x24]]).pending = [0x23] :: [[0x24]] ∧ decode [0x23] = .ok .turnOff ∧ State.reset.pending = [] := by
  decide +kernel
theorem witness_FetchWordRuns :
    decodeTableWord 8 0x23 = some .turnOff ∧ decodeTableWord 8 0x12 = some (.fill 0 0 0 0 0) ∧
    decodeTableWord 8 0x15 = some (.drawString 0 0 0 0 0 0 []) ∧ decodeTableWord 24 0x000820 = some (.ledInit 8 0) := by decide

theorem ready_coherent (as : List Answer) : (ready as).Coherent := by
  refine ⟨⟨rfl, fun _ => rfl, fun _ => rfl⟩, fun _ => ⟨rfl, rfl, rfl⟩, Nat.zero_le _, fun _ => rfl, fun _ _ => rfl, fun _ h => by cases h⟩

/-- A fill, a colour, and an operation that waits for ever: each a step from a coherent state. -/
theorem witness_StepKeepsCoherent :
    (issuing (ready (oks 6)) [encode (.fill 0xF800 10 20 4 2)]).Coherent ∧
    nextIs (endsWith .panel .ok) (step (issuing (ready (oks 6)) [encode (.fill 0xF800 10 20 4 2)])) = true ∧
    (issuing (ready [.ok]) [encode (.setColor 1 2 3)]).Coherent ∧
    nextIs (endsWith .led .ok) (step (issuing (ready [.ok]) [encode (.setColor 1 2 3)])) = true ∧
    nextIs (fun t => t.lu.inFlight) (step (issuing (ready [.never]) [encode .turnOff])) = true :=
  ⟨ready_coherent _, by decide +kernel, ready_coherent _, by decide +kernel, by decide +kernel⟩
theorem witness_StepKeepsSinkFollowsTrace :
    (issuing (fresh (oks 13)) [encode (.panelInit 1 2 3 4 5 6)]).SinkFollowsTrace ∧
    nextIs (endsWith .panel .ok) (step (issuing (fresh (oks 13)) [encode (.panelInit 1 2 3 4 5 6)])) = true := ⟨rfl, by decide +kernel⟩
theorem witness_CoherentNeverFaults : (ready []).Coherent := ready_coherent []
theorem witness_TracesOnlyGrow :
    nextIs (fun t => decide (t.lu.trace.length = 50)) (step (issuing (ready [.ok]) [encode .turnOff])) = true := by decide +kernel
theorem witness_OperationsKeepOtherUnits :
    nextIs (endsWith .panel .ok) (exec (.setWindow 0 0 1 1) (ready (oks 5))) = true ∧
    nextIs (endsWith .led .ok) (exec .turnOff (ready (oks 5))) = true ∧
    nextIs (endsWith .utility .ok) (exec (.pack565 1 2 3) (ready [])) = true := by decide +kernel
theorem witness_UnitsCommute :
    unitOf (.setWindow 0 0 1 1) ≠ unitOf .turnOff ∧
    ∃ a, exec (.setWindow 0 0 1 1) (ready (oks 5)) = .next a ∧ nextIs (endsWith .led .ok) (exec .turnOff a) = true := by
  refine ⟨by decide, ?_⟩
  exact exists_next (p := fun a => nextIs (endsWith .led .ok) (exec .turnOff a)) (by decide +kernel)
theorem witness_InitFlagLifeCycle :
    nextIs (fun t => t.pu.init && !(fresh (oks 13)).pu.init) (exec (.panelInit 1 2 3 4 5 6) (fresh (oks 13))) = true ∧
    nextIs (fun t => t.lu.init && !(fresh [.ok]).lu.init) (exec (.ledInit 8 0) (fresh [.ok])) = true ∧
    nextIs (fun t => !t.lu.init && (ready [.fail]).lu.init) (exec .ledDeinit (ready [.fail])) = true := by decide +kernel
theorem witness_StatusMatrix :
    nextIs (fun t => !t.inFlightOf .panel) (exec (.drawPixel 172 0 0) (ready [])) = true ∧
    nextIs (fun t => !t.inFlightOf .led) (exec .turnOff (ready [.fail])) = true := by decide +kernel
theorem witness_NotInitializedExactly :
    State.reset.cfg.valid = true ∧ needsInit (.fill 0 0 0 0 0) = true ∧ State.reset.inFlightOf .panel = false ∧ State.reset.initOf .panel = false ∧
    needsInit .turnOff = true ∧ State.reset.inFlightOf .led = false ∧ State.reset.initOf .led = false ∧
    nextIs (endsWith .panel .notInitialized) (exec (.fill 0 0 0 0 0) State.reset) = true ∧
    nextIs (endsWith .led .notInitialized) (exec .turnOff State.reset) = true := by decide +kernel
theorem witness_InvalidConfigurationRefused :
    let s := issuing (State.resetOf { cfgRef with chunkPixels := 0 }) [[]]
    s.cfg.valid = false ∧ s.pending ≠ [] := by decide +kernel
theorem witness_BusyEngineRefused :
    State.reset.cfg.valid = true ∧ unitOf (.fill 0 0 0 0 0) = .panel ∧ unitOf .turnOff = .led ∧
    nextIs (fun t => t.pu.inFlight) (exec (.setWindow 0 0 1 1) (ready [.never])) = true ∧
    nextIs (fun t => t.lu.inFlight) (exec .turnOff (ready [.never])) = true := by decide +kernel
theorem witness_UnspecifiedInputsRefused :
    (ready []).PanelReady ∧ (ready []).LedIdle ∧ (ready []).lu.init = true ∧
    refusedAs .emptyRectangle (exec (.fill 1 0 0 0 1) (ready [])) = true ∧
    refusedAs .zeroScale (exec (.drawString 0 0 1 2 0 0 []) (ready [])) = true := by decide +kernel

/-- `ready` with these moves of the peripheral waiting. -/
def readyWithMoves (answers : List Answer) (moves : List PeripheralMove) : State :=
  let s := ready answers
  { s with lu := { s.lu with env := { s.lu.env with moves } } }

/-- The operation is left in flight by each kind of silence: a claim, the last transaction of a set-up or of a fill, an allocation, a
request, and a peripheral that stops at the first slot, after the last bit, or after the reset pulse. -/
theorem witness_UnansweredOperationDoesNotEnd :
    nextIs (fun t => t.inFlightOf .panel) (exec (.panelInit 1 2 3 4 5 6) (fresh [.ok, .never])) = true ∧
    nextIs (fun t => t.inFlightOf .led) (exec .ledDeinit (ready [.never])) = true ∧
    ((ready (oks 5 ++ [.never])).PanelReady ∧ ((drawingTx cfgRef (.fill 0 170 318 2 2)).map List.length = some 6) ∧ 5 < 6 ∧
      (ready (oks 5 ++ [.never])).pu.env.answers = List.replicate 5 .ok ++ .never :: []) ∧
    ((fresh [.never]).PanelIdle ∧ (fresh [.never]).pu.init = false ∧ (fresh [.never]).pu.env.answers = .never :: [] ∧
      11 < (setupTxs cfgRef).length ∧ (fresh (.ok :: oks 11 ++ [.never])).pu.env.answers = .ok :: List.replicate 11 .ok ++ .never :: []) ∧
    ((fresh [.never]).LedIdle ∧ (fresh [.never]).lu.init = false ∧ (fresh [.never]).lu.env.answers = .never :: []) ∧
    ((ready [.never]).LedIdle ∧ (ready [.never]).lu.init = true ∧ (ready [.never]).lu.busy = false ∧
      (ready [.never]).lu.env.answers = .never :: [] ∧ (sentBy .turnOff).isSome = true) ∧
    (readyWithMoves [.ok] [.stall]).LedReady ∧
    (readyWithMoves [.ok] [.proceed 24, .stall]).lu.env.moves = [24].map .proceed ++ .stall :: [] ∧ max 1 (min 24 cfgRef.symbuf) = 24 ∧
    (readyWithMoves [.ok] [.proceed 24, .proceed 0, .stall]).lu.env.moves = [24, 0].map .proceed ++ .stall :: [] ∧
    max 1 (min 24 cfgRef.symbuf) + max 1 (min 0 cfgRef.symbuf) = 25 := by decide +kernel
theorem test_send_stalls :  -- R215, R217, R220: the bits are out, the reset pulse is not; then the whole train, not reported played
    nextIs (fun t => t.lu.inFlight && t.lu.busy && decide (t.lu.trace.length = 49) && decide (t.lu.encBitpos = 24) && !t.lu.colorValid)
      (exec (.setColor 1 2 3) (readyWithMoves [.ok] [.proceed 24, .stall])) = true ∧
    nextIs (fun t => t.lu.inFlight && t.lu.busy && decide (t.lu.trace.length = 50) && decide (t.lu.encBitpos = 0) && !t.lu.colorValid)
      (exec (.setColor 1 2 3) (readyWithMoves [.ok] [.proceed 24, .proceed 0, .stall])) = true := by decide +kernel

theorem witness_PanelInitCompletes :
    (fresh (oks 13)).PanelIdle ∧ (fresh (oks 13)).pu.init = false ∧
    (fresh (oks 13)).pu.env.answers = List.replicate (1 + (setupTxs cfgRef).length) .ok ++ [] := by decide +kernel
theorem witness_PanelInitClaimFails :
    (fresh [.fail]).PanelIdle ∧ (fresh [.fail]).pu.init = false ∧ (fresh [.fail]).pu.env.answers = .fail :: [] := by decide +kernel
/-- `fresh` under `PROPAGATE`. -/
def freshPropagating (answers : List Answer) : State := { fresh answers with cfg := { cfgRef with initErrPolicy := .propagate } }

/-- Both policies, each with a script for it in one state; the first and the last set-up transaction failing. -/
theorem witness_SetupFailurePolicy :
    (let s := fresh (.ok :: (oks 11 ++ [.fail]))
     s.PanelIdle ∧ s.pu.init = false ∧ s.cfg.initErrPolicy = .ignore ∧ (oks 11 ++ [Answer.fail]).length = (setupTxs s.cfg).length ∧
      Answer.never ∉ oks 11 ++ [Answer.fail] ∧ Answer.fail ∈ oks 11 ++ [Answer.fail] ∧
      s.pu.env.answers = .ok :: (oks 11 ++ [.fail]) ++ []) ∧
    (let s := freshPropagating (.ok :: .fail :: oks 3)
     s.PanelIdle ∧ s.pu.init = false ∧ s.cfg.initErrPolicy = .propagate ∧ 0 < (setupTxs s.cfg).length ∧
      s.pu.env.answers = .ok :: List.replicate 0 .ok ++ .fail :: oks 3) ∧
    (let s := freshPropagating (.ok :: oks 11 ++ [.fail])
     s.PanelIdle ∧ s.pu.init = false ∧ s.cfg.initErrPolicy = .propagate ∧ 11 < (setupTxs s.cfg).length ∧
      s.pu.env.answers = .ok :: List.replicate 11 .ok ++ .fail :: []) := by decide +kernel
theorem witness_PanelUnknownAfterInit :
    (fresh (oks 13)).pu.env.sink.dead = false ∧ nextIs (endsWith .panel .ok) (exec (.panelInit 1 2 3 4 5 6) (fresh (oks 13))) = true := by
  decide +kernel

/-- The last pixel of the panel is inside, the next column is not; the fifth transaction may fail. -/
theorem witness_SetWindowMeaning :
    (fresh []).PanelIdle ∧ (fresh []).pu.init = false ∧ (ready (oks 5)).PanelIdle ∧ (ready (oks 5)).pu.init = true ∧
    (ready (oks 5)).pu.env.answers = List.replicate 5 .ok ++ [] ∧ (ready (oks 4 ++ [.fail])).pu.env.answers = List.replicate 4 .ok ++ .fail :: [] ∧
    windowInside cfgRef 171 319 171 319 = true ∧ windowInside cfgRef 171 319 172 319 = false := by decide +kernel
theorem witness_SetWindowOnPanel :
    (ready (oks 5)).PanelReady ∧ (ready (oks 5)).pu.env.sink.dead = false ∧
    nextIs (endsWith .panel .ok) (exec (.setWindow 0 0 171 319) (ready (oks 5))) = true := by decide +kernel
/-- A rectangle that ends on the panel's edge is inside, one pixel more is not. -/
theorem witness_FillMeaning :
    (fresh []).PanelIdle ∧ (fresh []).pu.init = false ∧ (ready (oks 6)).PanelIdle ∧ (ready (oks 6)).pu.init = true ∧
    170 + 2 ≤ cfgRef.panelW ∧ 318 + 2 ≤ cfgRef.panelH ∧ ¬ 170 + 3 ≤ cfgRef.panelW ∧
    (ready (oks 6)).pu.env.answers = List.replicate (fillTx cfgRef 0 170 318 2 2).length .ok ++ [] ∧
    5 < (fillTx cfgRef 0 170 318 2 2).length ∧ (ready (oks 5 ++ [.fail])).pu.env.answers = List.replicate 5 .ok ++ .fail :: [] := by
  decide +kernel
/-- One pixel, one full chunk, one pixel more. -/
theorem witness_StreamChunks :
    1 ≤ cfgRef.chunkPixels ∧ chunkSizes 1 1024 = [1] ∧ chunkSizes 1024 1024 = [1024] ∧ chunkSizes 1025 1024 = [1024, 1] ∧
    (ready (oks 2)).pu.env.answers = List.replicate (chunkSizes 1025 cfgRef.chunkPixels).length .ok ++ [] := by decide +kernel
theorem witness_FillPaintsRectangle :
    (ready (oks 6)).PanelReady ∧ (ready (oks 6)).pu.env.sink.dead = false ∧ (ready (oks 6)).pu.env.sink.mem.wf = true ∧
    nextIs (endsWith .panel .ok) (exec (.fill 0xF800 168 318 4 2) (ready (oks 6))) = true := by decide +kernel
theorem witness_ChunkSizeDoesNotMatter :
    (ready (oks 13)).PanelReady ∧ (ready (oks 13)).pu.env.sink.mem.wf = true ∧
    nextIs (endsWith .panel .ok) (exec (.fill 0xF800 168 318 4 2) (ready (oks 13))) = true ∧
    nextIs (endsWith .panel .ok)
      (exec (.fill 0xF800 168 318 4 2) { ready (oks 13) with cfg := { (ready (oks 13)).cfg with chunkPixels := 1 } }) = true := by
  decide +kernel
theorem witness_DrawPixelMeaning :
    (fresh []).PanelIdle ∧ (fresh []).pu.init = false ∧ (ready (oks 6)).PanelIdle ∧ (ready (oks 6)).pu.init = true ∧
    171 + 1 ≤ cfgRef.panelW ∧ 319 + 1 ≤ cfgRef.panelH ∧ ¬ 172 + 1 ≤ cfgRef.panelW ∧ ¬ 320 + 1 ≤ cfgRef.panelH ∧
    (ready (oks 6)).pu.env.answers = List.replicate 6 .ok ++ [] ∧ (ready (oks 5 ++ [.fail])).pu.env.answers = List.replicate 5 .ok ++ .fail :: [] := by
  decide +kernel
/-- A window of two pixels: two fit, three do not. -/
theorem witness_StreamPlacesPixels :
    let p : PanelSink := { PanelSink.unknown with mode := .write, sync := true, xe := 1 }
    p.dead = false ∧ p.mode = .write ∧ p.sync = true ∧ p.mem.wf = true ∧ p.xs.toNat ≤ p.xe.toNat ∧ p.ys.toNat ≤ p.ye.toNat ∧
    p.k + 2 ≤ (p.xe.toNat - p.xs.toNat + 1) * (p.ye.toNat - p.ys.toNat + 1) ∧
    (p.xe.toNat - p.xs.toNat + 1) * (p.ye.toNat - p.ys.toNat + 1) < p.k + 3 := by decide
theorem witness_PanelDeadForGood :
    PanelSink.unknown.dead = false ∧
    ∃ s, exec (.setWindow 0 0 1 1) (ready (.fail :: oks 5)) = .next s ∧
      (s.pu.env.sink.dead && nextIs (endsWith .panel .ok) (step (issuing s [encode (.setWindow 0 0 1 1)]))) = true :=
  ⟨rfl, exists_next (p := fun s => s.pu.env.sink.dead && nextIs (endsWith .panel .ok) (step (issuing s [encode (.setWindow 0 0 1 1)])))
    (by decide +kernel)⟩

/-- A cell that ends on the panel's edge is inside, one pixel further is not. -/
theorem witness_DrawGlyphMeaning :
    (fresh []).PanelIdle ∧ (fresh []).pu.init = false ∧ (ready (oks 6)).PanelIdle ∧ (ready (oks 6)).pu.init = true ∧ (1 : Byte) ≠ 0 ∧
    164 + 8 * (1 : Byte).toNat ≤ cfgRef.panelW ∧ 312 + 8 * (1 : Byte).toNat ≤ cfgRef.panelH ∧ ¬ 165 + 8 * (1 : Byte).toNat ≤ cfgRef.panelW ∧
    (ready (oks 6)).pu.env.answers = List.replicate 6 .ok ++ [] ∧ (ready (oks 5 ++ [.fail])).pu.env.answers = List.replicate 5 .ok ++ .fail :: [] := by
  decide +kernel
theorem witness_GlyphExpands :
    (ready (oks 6)).PanelReady ∧ (ready (oks 6)).pu.env.sink.dead = false ∧ (ready (oks 6)).pu.env.sink.mem.wf = true ∧
    nextIs (endsWith .panel .ok) (exec (.drawGlyph 156 304 0x41 1 2 2) (ready (oks 6))) = true := by decide +kernel
theorem witness_OutOfRangeCharacterIsSpace :
    (0x1F : Byte).toNat < 0x20 ∧ 0x7A < (0x7B : Byte).toNat ∧ 0x20 ≤ (0x20 : Byte).toNat ∧ (0x7A : Byte).toNat ≤ 0x7A := by decide
/-- Two of four cells fit. -/
theorem witness_DrawStringMeaning :
    (fresh []).PanelIdle ∧ (fresh []).pu.init = false ∧ (ready (oks 12)).PanelIdle ∧ (ready (oks 12)).pu.init = true ∧ (1 : Byte) ≠ 0 ∧
    (cellsTx cfgRef 1 2 1 (stringCells cfgRef 150 0 1 [0x41, 0x41, 0x41, 0x41])).length = 12 ∧
    (ready (oks 12)).pu.env.answers = List.replicate 12 .ok ++ [] ∧
    (ready (oks 11 ++ [.fail])).pu.env.answers = List.replicate 11 .ok ++ .fail :: [] := by decide +kernel
theorem witness_StringPaintsCells :
    (ready (oks 12)).PanelReady ∧ (ready (oks 12)).pu.env.sink.dead = false ∧ (ready (oks 12)).pu.env.sink.mem.wf = true ∧
    nextIs (endsWith .panel .ok) (exec (.drawString 150 312 1 2 1 0 [0x41, 0x21, 0x41, 0x41]) (ready (oks 12))) = true := by decide +kernel
/-- A cell that ends on the safe area's edge has room, one pixel further has not. -/
theorem witness_DrawWrappedMeaning :
    (fresh []).PanelIdle ∧ (fresh []).pu.init = false ∧ (ready (oks 12)).PanelIdle ∧ (ready (oks 12)).pu.init = true ∧ (1 : Byte) ≠ 0 ∧
    152 + 8 * (1 : Byte).toNat ≤ cfgRef.safeW ∧ ¬ 153 + 8 * (1 : Byte).toNat ≤ cfgRef.safeW ∧
    (cellsTx cfgRef 1 2 1 (wrapPlan cfgRef 152 0 1 [0x41, 0x41]).1).length = 12 ∧
    (ready (oks 12)).pu.env.answers = List.replicate 12 .ok ++ [] ∧
    (ready (oks 11 ++ [.fail])).pu.env.answers = List.replicate 11 .ok ++ .fail :: [] := by decide +kernel
theorem witness_WrappedStaysInSafeArea :
    cfgRef.valid = true ∧ 152 + 8 * 1 ≤ cfgRef.safeW ∧ (wrapPlan cfgRef 152 282 1 [0x41, 0x41, 0x41]).1.length = 2 := by decide +kernel
theorem witness_WrappedReport :
    cfgRef.valid = true ∧ 152 + 8 * 1 ≤ cfgRef.safeW ∧ 0 + 8 * 20 ≤ cfgRef.safeW ∧ (0 : Byte) ∉ [(0x41 : Byte), 0x0A] ∧
    ({ cfgRef with panelW := 2048, safeX := 0, safeW := 2048 } : Config).valid = true ∧ 0 + 8 * 255 ≤ 2048 := by decide +kernel
theorem witness_WrappedLeavesTheRestAlone :
    (ready (oks 12)).PanelReady ∧ (ready (oks 12)).pu.env.sink.dead = false ∧ (ready (oks 12)).pu.env.sink.mem.wf = true ∧
    nextIs (endsWith .panel .ok) (exec (.drawWrapped 152 0 1 2 1 0 [0x41, 0x41]) (ready (oks 12))) = true ∧
    nextIs (endsWith .panel .ok) (exec (.drawFormatted 152 0 1 2 1 0 [0x41, 0x41]) (ready (oks 12))) = true := by decide +kernel
theorem witness_BoundsRegistersKept :
    nextIs (fun t => decide (boundsOf t = (160, 18, 2))) (exec (.drawWrapped 152 0 1 2 1 1 [0x41, 0x41]) (ready (oks 12))) = true ∧
    nextIs (fun t => decide (boundsOf t = (0, 0, 0))) (exec (.drawWrapped 152 0 1 2 1 0 [0x41, 0x41]) (ready (oks 12))) = true := by decide +kernel
theorem witness_DrawFormattedMeaning :
    (fresh []).PanelIdle ∧ (fresh []).pu.init = false ∧ (ready (oks 12)).PanelIdle ∧ (ready (oks 12)).pu.init = true ∧ (1 : Byte) ≠ 0 ∧
    152 + 8 * (1 : Byte).toNat ≤ cfgRef.safeW ∧ ¬ 153 + 8 * (1 : Byte).toNat ≤ cfgRef.safeW ∧
    [0x41, 0x41, 0, 0x41].take (min (textEnd [0x41, 0x41, 0, 0x41]) (cfgRef.fmtBuf - 1)) = ([0x41, 0x41] : List Byte) ∧
    (cellsTx cfgRef 1 2 1 (wrapPlan cfgRef 152 0 1 [0x41, 0x41]).1).length = 12 ∧
    (ready (oks 12)).pu.env.answers = List.replicate 12 .ok ++ [] ∧
    (ready (oks 11 ++ [.fail])).pu.env.answers = List.replicate 11 .ok ++ .fail :: [] := by decide +kernel

/-- The lowest resolution at which every reference count is positive, and the one below it. -/
theorem witness_LedInitMeaning :
    (fresh [.ok]).LedIdle ∧ (fresh [.ok]).lu.init = false ∧ (ready []).LedIdle ∧ (ready []).lu.init = true ∧
    (fresh [.ok]).lu.env.answers = .ok :: [] ∧ (fresh [.fail]).lu.env.answers = .fail :: [] ∧
    (pulseTable { cfgRef with resHz := 1666666 }).hasZero = true ∧ ({ cfgRef with resHz := 1666666 } : Config).valid = true ∧
    (pulseTable { cfgRef with resHz := 1666667 }).hasZero = false ∧ ({ cfgRef with resHz := 1666667 } : Config).valid = true := by decide +kernel
theorem witness_TickThreshold : 300 * 1666666 < 500000000 ∧ ¬ 300 * 1666667 < 500000000 := by decide
/-- For SET_COLOR, SET_HSV, TURN_OFF and LED_DEINIT: not initialised; a rejected request; an accepted one with 26 moves. -/
theorem witness_SetColorMeaning :
    (fresh []).LedIdle ∧ (fresh []).lu.init = false ∧
    (ready [.fail]).LedIdle ∧ (ready [.fail]).lu.init = true ∧ (ready [.fail]).lu.busy = false ∧ (ready [.fail]).lu.env.answers = .fail :: [] ∧
    (ready [.ok]).LedReady ∧ (ready [.ok]).lu.env.answers = .ok :: [] ∧ 26 ≤ (ready [.ok]).lu.env.moves.length ∧
    (∀ m ∈ (ready [.ok]).lu.env.moves.take 26, m ≠ .stall) := by decide +kernel
theorem witness_SetHsvMeaning : (fresh []).LedIdle ∧ (fresh []).lu.init = false ∧ (ready [.fail]).LedIdle ∧ (ready [.ok]).LedReady ∧
    26 ≤ (ready [.ok]).lu.env.moves.length ∧ (∀ m ∈ (ready [.ok]).lu.env.moves.take 26, m ≠ .stall) := by decide +kernel
theorem witness_TurnOffMeaning : (fresh []).LedIdle ∧ (fresh []).lu.init = false ∧ (ready [.fail]).LedIdle ∧ (ready [.ok]).LedReady ∧
    26 ≤ (ready [.ok]).lu.env.moves.length ∧ (∀ m ∈ (ready [.ok]).lu.env.moves.take 26, m ≠ .stall) := by decide +kernel
theorem witness_LedDeinitMeaning : (fresh []).LedIdle ∧ (fresh []).lu.init = false ∧ (ready [.fail]).LedIdle ∧ (ready [.ok]).LedReady ∧
    26 ≤ (ready [.ok]).lu.env.moves.length ∧ (∀ m ∈ (ready [.ok]).lu.env.moves.take 26, m ≠ .stall) := by decide +kernel
theorem witness_YieldsDoNotChangeTheTrain :
    let u := (ready []).lu
    u.encPhase = .color ∧ u.encBitpos = 0 ∧ 25 ≤ u.env.moves.length ∧ (∀ m ∈ u.env.moves.take 25, m ≠ .stall) := by decide +kernel
/-- Each row of the table, at the bit positions 0, 23 and 24. -/
theorem witness_EncoderTransitions :
    let u := (ready []).lu
    u.encPhase = .color ∧ u.encBitpos = 0 ∧ 1 ≤ 23 ∧ 23 < 24 - 0 ∧ 24 - 0 = 24 ∧ 24 - 0 < 25 ∧ 24 - 23 = 1 ∧ 24 - 24 < 1 ∧
    ({ u with encPhase := .reset, encBitpos := 24 } : LedUnit).encPhase = .reset := by decide +kernel
theorem witness_Pack565Meaning : State.reset.cfg.valid = true := by decide +kernel
/-- Grey, and a hue at each end of each region: hues 60 and 61 stand on the two sides of the first limit, and 360 gives the last value, 255. -/
theorem witness_Hsv2RgbMeaning :
    State.reset.cfg.valid = true ∧ min (0 : Byte).toNat 100 * 255 / 100 = 0 ∧ min (1 : Byte).toNat 100 * 255 / 100 ≠ 0 ∧
    [0, 60, 61, 121, 122, 182, 183, 242, 243, 303, 304, 360].map (fun h => min h 360 * 255 / 360) =
      [0, 42, 43, 85, 86, 128, 129, 171, 172, 214, 215, 255] := by decide +kernel

end Sys2Proof.Tests
end

/-! What is refused (00_scope.md R5, R6; 93_implementation_defined.md U1 to U5): what a valid configuration is, and every ground on
which an operation is stopped before it has any effect. -/

namespace Sys2Proof.Machine

/-! ### The entry of each operation -/

theorem exec_panelInit (dc rst cs sclk mosi : Byte) (hz : Word) (s : State) :
    exec (.panelInit dc rst cs sclk mosi hz) s =
      s.panelOp (fun o => { o with pinDc := dc, pinRst := rst, pinCs := cs, pinSclk := sclk, pinMosi := mosi, busHz := hz }) panelInitBody := rfl
theorem exec_setWindow (x0 y0 x1 y1 : Half) (s : State) :
    exec (.setWindow x0 y0 x1 y1) s = s.panelOp (fun o => { o with x0, y0, x1, y1 }) setWindowBody := rfl
theorem exec_fill (color : Pixel) (x y w h : Half) (s : State) :
    exec (.fill color x y w h) s = s.panelOp (fun o => { o with color, x, y, w, h }) fillBody := rfl
theorem exec_drawPixel (x y : Half) (color : Pixel) (s : State) :
    exec (.drawPixel x y color) s = s.panelOp (fun o => { o with x, y, color }) drawPixelBody := rfl
theorem exec_drawGlyph (x y : Half) (ch : Byte) (fg bg : Pixel) (scale : Byte) (s : State) :
    exec (.drawGlyph x y ch fg bg scale) s = s.panelOp (fun o => { o with x, y, ch, fg, bg, scale }) drawGlyphBody := rfl
theorem exec_drawString (x y : Half) (fg bg : Pixel) (scale flags : Byte) (text : List Byte) (s : State) :
    exec (.drawString x y fg bg scale flags text) s =
      s.panelOp (fun o => { o with x, y, fg, bg, scale, flags, len := BitVec.ofNat 16 text.length, text }) drawStringBody := rfl
theorem exec_drawWrapped (x y : Half) (fg bg : Pixel) (scale flags : Byte) (text : List Byte) (s : State) :
    exec (.drawWrapped x y fg bg scale flags text) s =
      s.panelOp (fun o => { o with x, y, fg, bg, scale, flags, len := BitVec.ofNat 16 text.length, text }) drawWrappedBody := rfl
theorem exec_drawFormatted (x y : Half) (fg bg : Pixel) (scale flags : Byte) (text : List Byte) (s : State) :
    exec (.drawFormatted x y fg bg scale flags text) s =
      s.panelOp (fun o => { o with x, y, fg, bg, scale, flags, len := BitVec.ofNat 16 text.length, text }) drawFormattedBody := rfl
theorem exec_ledInit (pin chan : Byte) (s : State) :
    exec (.ledInit pin chan) s = s.ledOp (fun o => { o with pin, chan }) ledInitBody := rfl
theorem exec_setColor (r g b : Byte) (s : State) : exec (.setColor r g b) s = s.ledOp (fun o => { o with r, g, b }) setColorBody := rfl
theorem exec_setHsv (hue : Half) (sat val : Byte) (s : State) :
    exec (.setHsv hue sat val) s = s.ledOp (fun o => { o with hue, sat, val }) setHsvBody := rfl
theorem exec_turnOff (s : State) : exec .turnOff s = s.ledOp (fun o => o) turnOffBody := rfl
theorem exec_ledDeinit (s : State) : exec .ledDeinit s = s.ledOp (fun o => o) ledDeinitBody := rfl
theorem exec_pack565 (r g b : Byte) (s : State) : exec (.pack565 r g b) s = s.utilityOp (fun o => { o with r, g, b }) pack565Result := rfl
theorem exec_hsv2rgb (hue : Half) (sat val : Byte) (s : State) :
    exec (.hsv2rgb hue sat val) s = s.utilityOp (fun o => { o with hue, sat, val }) hsv2rgbResult := rfl

/-! ### The refusals of a unit -/

theorem outcomeOf_eq_refused_iff {α : Type} {put : α → State} {r : Except Stop α} {q : Refusal} :
    outcomeOf put r = .refused q ↔ r = .error (.refuse q) := by
  rcases r with (_ | _) | _ <;> simp [outcomeOf]

theorem State.panelOp_eq_refused_iff {s : State} {latch : Latches → Latches} {body : Config → PanelUnit → Except Stop (Flow × PanelUnit)}
    {q : Refusal} :
    s.panelOp latch body = .refused q ↔
      (q = .invalidConfiguration ∧ s.cfg.valid = false) ∨ (q = .panelBusy ∧ s.cfg.valid = true ∧ s.pu.inFlight = true) ∨
      (s.PanelIdle ∧ body s.cfg { s.pu with op := latch s.pu.op } = .error (.refuse q)) := by
  cases hv : s.cfg.valid <;> cases hf : s.pu.inFlight <;> simp [State.panelOp, State.PanelIdle, hv, hf, outcomeOf_eq_refused_iff, eq_comm (b := q)]

theorem State.ledOp_eq_refused_iff {s : State} {latch : Latches → Latches} {body : Config → LedUnit → Except Stop (Flow × LedUnit)}
    {q : Refusal} :
    s.ledOp latch body = .refused q ↔
      (q = .invalidConfiguration ∧ s.cfg.valid = false) ∨ (q = .ledBusy ∧ s.cfg.valid = true ∧ s.lu.inFlight = true) ∨
      (s.LedIdle ∧ body s.cfg { s.lu with op := latch s.lu.op } = .error (.refuse q)) := by
  cases hv : s.cfg.valid <;> cases hf : s.lu.inFlight <;> simp [State.ledOp, State.LedIdle, hv, hf, outcomeOf_eq_refused_iff, eq_comm (b := q)]

theorem State.utilityOp_eq_refused_iff {s : State} {latch : Latches → Latches} {result : Latches → BitVec 24} {q : Refusal} :
    s.utilityOp latch result = .refused q ↔ q = .invalidConfiguration ∧ s.cfg.valid = false := by
  cases hv : s.cfg.valid <;> simp [State.utilityOp, hv, eq_comm (b := q)]

theorem State.panelOp_refused {s : State} (hs : s.PanelIdle) {latch : Latches → Latches}
    {body : Config → PanelUnit → Except Stop (Flow × PanelUnit)} {q : Refusal}
    (hb : body s.cfg { s.pu with op := latch s.pu.op } = .error (.refuse q)) : s.panelOp latch body = .refused q :=
  State.panelOp_eq_refused_iff.2 (.inr (.inr ⟨hs, hb⟩))

theorem State.ledOp_refused {s : State} (hs : s.LedIdle) {latch : Latches → Latches}
    {body : Config → LedUnit → Except Stop (Flow × LedUnit)} {q : Refusal}
    (hb : body s.cfg { s.lu with op := latch s.lu.op } = .error (.refuse q)) : s.ledOp latch body = .refused q :=
  State.ledOp_eq_refused_iff.2 (.inr (.inr ⟨hs, hb⟩))

theorem State.panelOp_invalidConfiguration {s : State} (h : s.cfg.valid = false) (latch : Latches → Latches)
    (body : Config → PanelUnit → Except Stop (Flow × PanelUnit)) : s.panelOp latch body = .refused .invalidConfiguration :=
  State.panelOp_eq_refused_iff.2 (.inl ⟨rfl, h⟩)

theorem State.ledOp_invalidConfiguration {s : State} (h : s.cfg.valid = false) (latch : Latches → Latches)
    (body : Config → LedUnit → Except Stop (Flow × LedUnit)) : s.ledOp latch body = .refused .invalidConfiguration :=
  State.ledOp_eq_refused_iff.2 (.inl ⟨rfl, h⟩)

theorem State.utilityOp_invalidConfiguration {s : State} (h : s.cfg.valid = false) (latch : Latches → Latches)
    (result : Latches → BitVec 24) : s.utilityOp latch result = .refused .invalidConfiguration :=
  State.utilityOp_eq_refused_iff.2 ⟨rfl, h⟩

/-! ### A configuration that breaks a constraint -/

theorem Config.fixedBySource_iff (c : Config) :
    c.fixedBySource = true ↔
      (c.glyphW = 8 ∧ c.glyphH = 8 ∧ c.fontFirst = 0x20 ∧ c.fontLast = 0x7A ∧ c.lineGap = 2) ∧ c.font.length = 91 * 8 := by
  simp only [Config.fixedBySource, Bool.and_eq_true, decide_eq_true_eq]
  constructor
  · rintro ⟨⟨⟨⟨⟨hw, hh⟩, hfirst⟩, hlast⟩, hgap⟩, hfont⟩
    rw [hh, hfirst, hlast] at hfont
    exact ⟨⟨hw, hh, hfirst, hlast, hgap⟩, hfont⟩
  · rintro ⟨⟨hw, hh, hfirst, hlast, hgap⟩, hfont⟩
    rw [hh, hfirst, hlast]
    exact ⟨⟨⟨⟨⟨hw, rfl⟩, rfl⟩, rfl⟩, hgap⟩, hfont⟩

theorem exec_invalidConfiguration (i : Instr) {s : State} (h : s.cfg.valid = false) : exec i s = .refused .invalidConfiguration := by
  cases i with
  | panelInit => rw [exec_panelInit, State.panelOp_invalidConfiguration h]
  | setWindow => rw [exec_setWindow, State.panelOp_invalidConfiguration h]
  | fill => rw [exec_fill, State.panelOp_invalidConfiguration h]
  | drawPixel => rw [exec_drawPixel, State.panelOp_invalidConfiguration h]
  | drawGlyph => rw [exec_drawGlyph, State.panelOp_invalidConfiguration h]
  | drawString => rw [exec_drawString, State.panelOp_invalidConfiguration h]
  | drawWrapped => rw [exec_drawWrapped, State.panelOp_invalidConfiguration h]
  | drawFormatted => rw [exec_drawFormatted, State.panelOp_invalidConfiguration h]
  | ledInit => rw [exec_ledInit, State.ledOp_invalidConfiguration h]
  | setColor => rw [exec_setColor, State.ledOp_invalidConfiguration h]
  | setHsv => rw [exec_setHsv, State.ledOp_invalidConfiguration h]
  | turnOff => rw [exec_turnOff, State.ledOp_invalidConfiguration h]
  | ledDeinit => rw [exec_ledDeinit, State.ledOp_invalidConfiguration h]
  | pack565 => rw [exec_pack565, State.utilityOp_invalidConfiguration h]
  | hsv2rgb => rw [exec_hsv2rgb, State.utilityOp_invalidConfiguration h]

theorem step_of_decode_ok {s : State} {d : List Byte} {rest : List (List Byte)} {i : Instr} (hp : s.pending = d :: rest)
    (hd : decode d = .ok i) : step s = exec i { s with pending := rest } := by
  simp [step, State.takeDescriptor, hp, hd]

theorem step_of_decode_error {s : State} {d : List Byte} {rest : List (List Byte)} {e : DecodeError} (hp : s.pending = d :: rest)
    (hd : decode d = .error e) : step s = { s with pending := rest }.rejectDescriptor d := by
  simp [step, State.takeDescriptor, hp, hd]

theorem State.rejectDescriptor_invalidConfiguration {s : State} (h : s.cfg.valid = false) (d : List Byte) :
    s.rejectDescriptor d = .refused .invalidConfiguration := by
  simp [State.rejectDescriptor, h]

theorem step_invalidConfiguration {s : State} (h : s.cfg.valid = false) (hp : s.pending ≠ []) :
    step s = .refused .invalidConfiguration := by
  obtain ⟨d, rest, hp⟩ := List.exists_cons_of_ne_nil hp
  cases hd : decode d with
  | ok i => rw [step_of_decode_ok hp hd]; exact exec_invalidConfiguration i h
  | error e => rw [step_of_decode_error hp hd]; exact State.rejectDescriptor_invalidConfiguration (s := { s with pending := rest }) h d

/-- Settles O18: the rows of `Config.valid` are read off in order, and a configuration that is not valid is refused by each unit's entry and
by the rejection of an illegal descriptor (log 22). -/
theorem invalidConfigurationRefused : Obligations.InvalidConfigurationRefused := by
  refine ⟨fun c => ?_, fun i s => exec_invalidConfiguration i, fun s => step_invalidConfiguration⟩
  simp only [Config.valid, Bool.and_eq_true, decide_eq_true_eq, List.all_eq_true, Config.fixedBySource_iff, and_assoc]

/-! ### What stops the body of an operation -/

theorem whenPanelReady_eq_error_iff {u : PanelUnit} {body : Except Stop (Flow × PanelUnit)} {e : Stop} :
    whenPanelReady u body = .error e ↔ u.init = true ∧ body = .error e := by
  cases hi : u.init <;> simp [whenPanelReady, hi]

theorem whenLedReady_eq_error_iff {u : LedUnit} {body : Except Stop (Flow × LedUnit)} {e : Stop} :
    whenLedReady u body = .error e ↔ u.init = true ∧ body = .error e := by
  cases hi : u.init <;> simp [whenLedReady, hi]

theorem whenScaled_eq_error_iff {u : PanelUnit} {body : Flow × PanelUnit} {e : Stop} :
    whenScaled u body = .error e ↔ u.op.scale = 0 ∧ e = .refuse .zeroScale := by
  have hz : u.op.scale = 0 ↔ u.op.scale.toNat = 0 := (BitVec.toNat_inj (y := 0)).symm
  rw [hz, whenScaled]
  by_cases h : u.op.scale.toNat = 0
  · simp only [h, if_true, true_and, Except.error.injEq, eq_comm (b := e)]
  · simp only [h, if_false, false_and, reduceCtorEq]

/-- SEND's wait stops an operation with a fault (log 8), never with a refusal. -/
theorem whenIdle_ne_refuse (u : LedUnit) (body : Flow × LedUnit) (q : Refusal) : whenIdle u body ≠ .error (.refuse q) := by
  cases hb : u.busy <;> simp [whenIdle, hb]

theorem panelInitBody_eq_error_iff {cfg : Config} {u : PanelUnit} {e : Stop} :
    panelInitBody cfg u = .error e ↔ u.init = true ∧ e = .refuse .panelAlreadyInitialized := by
  cases hi : u.init <;> simp [panelInitBody, hi, eq_comm (b := e)]

theorem setWindowBody_ne_error (cfg : Config) (u : PanelUnit) (e : Stop) : setWindowBody cfg u ≠ .error e := by
  intro h
  obtain ⟨-, h⟩ := whenPanelReady_eq_error_iff.1 h
  split at h <;> cases h

theorem fillBody_eq_error_iff {cfg : Config} {u : PanelUnit} {e : Stop} :
    fillBody cfg u = .error e ↔ u.init = true ∧ (u.op.w = 0 ∨ u.op.h = 0) ∧ e = .refuse .emptyRectangle := by
  have hz : (u.op.w = 0 ∨ u.op.h = 0) ↔ (u.op.w.toNat = 0 ∨ u.op.h.toNat = 0) :=
    or_congr (BitVec.toNat_inj (y := 0)).symm (BitVec.toNat_inj (y := 0)).symm
  refine whenPanelReady_eq_error_iff.trans (and_congr_right fun _ => ?_)
  rw [hz]
  by_cases he : u.op.w.toNat = 0 ∨ u.op.h.toNat = 0
  · simp only [he, if_true, true_and, Except.error.injEq, eq_comm (b := e)]
  · simp only [he, if_false, false_and, iff_false]
    split <;> exact nofun

theorem drawPixelBody_ne_error (cfg : Config) (u : PanelUnit) (e : Stop) : drawPixelBody cfg u ≠ .error e := by
  intro h
  obtain ⟨-, h⟩ := whenPanelReady_eq_error_iff.1 h
  simp only at h
  split at h <;> cases h

/-- The four glyph and text operations have the same two entry tests (U3). -/
theorem whenPanelReady_whenScaled_eq_error_iff {u : PanelUnit} {body : Flow × PanelUnit} {e : Stop} :
    whenPanelReady u (whenScaled u body) = .error e ↔ u.init = true ∧ u.op.scale = 0 ∧ e = .refuse .zeroScale :=
  whenPanelReady_eq_error_iff.trans (and_congr_right fun _ => whenScaled_eq_error_iff)

theorem drawGlyphBody_eq_error_iff {cfg : Config} {u : PanelUnit} {e : Stop} :
    drawGlyphBody cfg u = .error e ↔ u.init = true ∧ u.op.scale = 0 ∧ e = .refuse .zeroScale := whenPanelReady_whenScaled_eq_error_iff
theorem drawStringBody_eq_error_iff {cfg : Config} {u : PanelUnit} {e : Stop} :
    drawStringBody cfg u = .error e ↔ u.init = true ∧ u.op.scale = 0 ∧ e = .refuse .zeroScale := whenPanelReady_whenScaled_eq_error_iff
theorem drawWrappedBody_eq_error_iff {cfg : Config} {u : PanelUnit} {e : Stop} :
    drawWrappedBody cfg u = .error e ↔ u.init = true ∧ u.op.scale = 0 ∧ e = .refuse .zeroScale := whenPanelReady_whenScaled_eq_error_iff
theorem drawFormattedBody_eq_error_iff {cfg : Config} {u : PanelUnit} {e : Stop} :
    drawFormattedBody cfg u = .error e ↔ u.init = true ∧ u.op.scale = 0 ∧ e = .refuse .zeroScale := whenPanelReady_whenScaled_eq_error_iff

theorem ledInitBody_eq_error_iff {cfg : Config} {u : LedUnit} {e : Stop} :
    ledInitBody cfg u = .error e ↔ u.init = true ∧ e = .refuse .ledAlreadyInitialized := by
  cases hi : u.init <;> simp [ledInitBody, hi, eq_comm (b := e)]

theorem whenLedReady_whenIdle_ne_refuse (u : LedUnit) (body : Flow × LedUnit) (q : Refusal) :
    whenLedReady u (whenIdle u body) ≠ .error (.refuse q) :=
  fun h => whenIdle_ne_refuse u body q (whenLedReady_eq_error_iff.1 h).2

theorem ledDeinitBody_ne_refuse (cfg : Config) (u : LedUnit) (q : Refusal) : ledDeinitBody cfg u ≠ .error (.refuse q) := by
  unfold ledDeinitBody
  split
  · exact whenIdle_ne_refuse u _ q
  · simp

/-! ### The refusals of an operation -/

/-- The operations, operands and states to which the spec gives no meaning (93_implementation_defined.md U1 to U4), with the name of each
refusal. `exec_refused_of_unspecified` and `refusalGround_of_exec_refused` tie it to `exec`. -/
inductive Unspecified (s : State) : Instr → Refusal → Prop where
  | panelInitAgain (dc rst cs sclk mosi : Byte) (hz : Word) (hi : s.pu.init = true) :
    Unspecified s (.panelInit dc rst cs sclk mosi hz) .panelAlreadyInitialized
  | emptyFill (color : Pixel) (x y w h : Half) (hi : s.pu.init = true) (he : w = 0 ∨ h = 0) :
    Unspecified s (.fill color x y w h) .emptyRectangle
  | unscaledGlyph (x y : Half) (ch : Byte) (fg bg : Pixel) (hi : s.pu.init = true) :
    Unspecified s (.drawGlyph x y ch fg bg 0) .zeroScale
  | unscaledString (x y : Half) (fg bg : Pixel) (flags : Byte) (text : List Byte) (hi : s.pu.init = true) :
    Unspecified s (.drawString x y fg bg 0 flags text) .zeroScale
  | unscaledWrapped (x y : Half) (fg bg : Pixel) (flags : Byte) (text : List Byte) (hi : s.pu.init = true) :
    Unspecified s (.drawWrapped x y fg bg 0 flags text) .zeroScale
  | unscaledFormatted (x y : Half) (fg bg : Pixel) (flags : Byte) (text : List Byte) (hi : s.pu.init = true) :
    Unspecified s (.drawFormatted x y fg bg 0 flags text) .zeroScale
  | ledInitAgain (pin chan : Byte) (hi : s.lu.init = true) : Unspecified s (.ledInit pin chan) .ledAlreadyInitialized

theorem exec_refused_of_unspecified {i : Instr} {s : State} {q : Refusal} (h : Unspecified s i q) (hv : s.cfg.valid = true)
    (hf : s.inFlightOf (unitOf i) = false) : exec i s = .refused q := by
  cases h with
  | panelInitAgain dc rst cs sclk mosi hz hi =>
    rw [exec_panelInit, State.panelOp_refused ⟨hv, hf⟩ (panelInitBody_eq_error_iff.2 ⟨hi, rfl⟩)]
  | emptyFill color x y w height hi he => rw [exec_fill, State.panelOp_refused ⟨hv, hf⟩ (fillBody_eq_error_iff.2 ⟨hi, he, rfl⟩)]
  | unscaledGlyph x y ch fg bg hi =>
    rw [exec_drawGlyph, State.panelOp_refused ⟨hv, hf⟩ (drawGlyphBody_eq_error_iff.2 ⟨hi, rfl, rfl⟩)]
  | unscaledString x y fg bg flags text hi =>
    rw [exec_drawString, State.panelOp_refused ⟨hv, hf⟩ (drawStringBody_eq_error_iff.2 ⟨hi, rfl, rfl⟩)]
  | unscaledWrapped x y fg bg flags text hi =>
    rw [exec_drawWrapped, State.panelOp_refused ⟨hv, hf⟩ (drawWrappedBody_eq_error_iff.2 ⟨hi, rfl, rfl⟩)]
  | unscaledFormatted x y fg bg flags text hi =>
    rw [exec_drawFormatted, State.panelOp_refused ⟨hv, hf⟩ (drawFormattedBody_eq_error_iff.2 ⟨hi, rfl, rfl⟩)]
  | ledInitAgain pin chan hi => rw [exec_ledInit, State.ledOp_refused ⟨hv, hf⟩ (ledInitBody_eq_error_iff.2 ⟨hi, rfl⟩)]

/-- The grounds of a refusal: R6, U5 on either engine, U1 to U4. `refusalGround_of_exec_refused` ties it to `exec`. -/
def RefusalGround (s : State) (i : Instr) (q : Refusal) : Prop :=
  (q = .invalidConfiguration ∧ s.cfg.valid = false) ∨ (q = .panelBusy ∧ unitOf i = .panel ∧ s.pu.inFlight = true) ∨
  (q = .ledBusy ∧ unitOf i = .led ∧ s.lu.inFlight = true) ∨ Unspecified s i q

theorem RefusalGround.of_panelOp {s : State} {i : Instr} {q : Refusal} (hu : unitOf i = .panel) {latch : Latches → Latches}
    {body : Config → PanelUnit → Except Stop (Flow × PanelUnit)} (h : s.panelOp latch body = .refused q)
    (hb : body s.cfg { s.pu with op := latch s.pu.op } = .error (.refuse q) → Unspecified s i q) : RefusalGround s i q := by
  obtain hv | ⟨hq, -, hf⟩ | ⟨-, he⟩ := State.panelOp_eq_refused_iff.1 h
  · exact .inl hv
  · exact .inr (.inl ⟨hq, hu, hf⟩)
  · exact .inr (.inr (.inr (hb he)))

theorem RefusalGround.of_ledOp {s : State} {i : Instr} {q : Refusal} (hu : unitOf i = .led) {latch : Latches → Latches}
    {body : Config → LedUnit → Except Stop (Flow × LedUnit)} (h : s.ledOp latch body = .refused q)
    (hb : body s.cfg { s.lu with op := latch s.lu.op } = .error (.refuse q) → Unspecified s i q) : RefusalGround s i q := by
  obtain hv | ⟨hq, -, hf⟩ | ⟨-, he⟩ := State.ledOp_eq_refused_iff.1 h
  · exact .inl hv
  · exact .inr (.inr (.inl ⟨hq, hu, hf⟩))
  · exact .inr (.inr (.inr (hb he)))

theorem refusalGround_of_exec_refused {i : Instr} {s : State} {q : Refusal} (h : exec i s = .refused q) : RefusalGround s i q := by
  cases i with
  | panelInit dc rst cs sclk mosi hz =>
    rw [exec_panelInit] at h
    refine .of_panelOp rfl h fun hb => ?_
    obtain ⟨hi, ⟨⟩⟩ := panelInitBody_eq_error_iff.1 hb
    exact .panelInitAgain _ _ _ _ _ _ hi
  | setWindow => rw [exec_setWindow] at h; exact .of_panelOp rfl h fun hb => (setWindowBody_ne_error _ _ _ hb).elim
  | fill color x y w height =>
    rw [exec_fill] at h
    refine .of_panelOp rfl h fun hb => ?_
    obtain ⟨hi, he, ⟨⟩⟩ := fillBody_eq_error_iff.1 hb
    exact .emptyFill _ _ _ _ _ hi he
  | drawPixel => rw [exec_drawPixel] at h; exact .of_panelOp rfl h fun hb => (drawPixelBody_ne_error _ _ _ hb).elim
  | drawGlyph x y ch fg bg scale =>
    rw [exec_drawGlyph] at h
    refine .of_panelOp rfl h fun hb => ?_
    obtain ⟨hi, rfl, ⟨⟩⟩ := drawGlyphBody_eq_error_iff.1 hb
    exact .unscaledGlyph _ _ _ _ _ hi
  | drawString x y fg bg scale flags text =>
    rw [exec_drawString] at h
    refine .of_panelOp rfl h fun hb => ?_
    obtain ⟨hi, rfl, ⟨⟩⟩ := drawStringBody_eq_error_iff.1 hb
    exact .unscaledString _ _ _ _ _ _ hi
  | drawWrapped x y fg bg scale flags text =>
    rw [exec_drawWrapped] at h
    refine .of_panelOp rfl h fun hb => ?_
    obtain ⟨hi, rfl, ⟨⟩⟩ := drawWrappedBody_eq_error_iff.1 hb
    exact .unscaledWrapped _ _ _ _ _ _ hi
  | drawFormatted x y fg bg scale flags text =>
    rw [exec_drawFormatted] at h
    refine .of_panelOp rfl h fun hb => ?_
    obtain ⟨hi, rfl, ⟨⟩⟩ := drawFormattedBody_eq_error_iff.1 hb
    exact .unscaledFormatted _ _ _ _ _ _ hi
  | ledInit pin chan =>
    rw [exec_ledInit] at h
    refine .of_ledOp rfl h fun hb => ?_
    obtain ⟨hi, ⟨⟩⟩ := ledInitBody_eq_error_iff.1 hb
    exact .ledInitAgain _ _ hi
  | setColor => rw [exec_setColor] at h; exact .of_ledOp rfl h fun hb => (whenLedReady_whenIdle_ne_refuse _ _ _ hb).elim
  | setHsv => rw [exec_setHsv] at h; exact .of_ledOp rfl h fun hb => (whenLedReady_whenIdle_ne_refuse _ _ _ hb).elim
  | turnOff => rw [exec_turnOff] at h; exact .of_ledOp rfl h fun hb => (whenLedReady_whenIdle_ne_refuse _ _ _ hb).elim
  | ledDeinit => rw [exec_ledDeinit] at h; exact .of_ledOp rfl h fun hb => (ledDeinitBody_ne_refuse _ _ _ hb).elim
  | pack565 => rw [exec_pack565] at h; exact .inl (State.utilityOp_eq_refused_iff.1 h)
  | hsv2rgb => rw [exec_hsv2rgb] at h; exact .inl (State.utilityOp_eq_refused_iff.1 h)

/-- Settles O20: the stated inputs are cases of `Unspecified`, and so is every refusal that has neither an invalid configuration nor an engine
in flight as its ground. -/
theorem unspecifiedInputsRefused : Obligations.UnspecifiedInputsRefused := by
  refine ⟨fun dc rst cs sclk mosi hz s hs hi => exec_refused_of_unspecified (.panelInitAgain _ _ _ _ _ _ hi) hs.1 hs.2,
    fun color x y w h s ⟨hs, hi⟩ he => exec_refused_of_unspecified (.emptyFill _ _ _ _ _ hi he) hs.1 hs.2,
    fun x y ch fg bg s ⟨hs, hi⟩ => exec_refused_of_unspecified (.unscaledGlyph _ _ _ _ _ hi) hs.1 hs.2,
    fun x y fg bg flags text s ⟨hs, hi⟩ =>
      ⟨exec_refused_of_unspecified (.unscaledString _ _ _ _ _ _ hi) hs.1 hs.2,
       exec_refused_of_unspecified (.unscaledWrapped _ _ _ _ _ _ hi) hs.1 hs.2,
       exec_refused_of_unspecified (.unscaledFormatted _ _ _ _ _ _ hi) hs.1 hs.2⟩,
    fun pin chan s hs hi => exec_refused_of_unspecified (.ledInitAgain _ _ hi) hs.1 hs.2, fun i s q h => ?_⟩
  obtain hv | hp | hl | hu := refusalGround_of_exec_refused h
  · exact .inl hv
  · exact .inr (.inl hp)
  · exact .inr (.inr (.inl hl))
  · cases hu with
    | panelInitAgain _ _ _ _ _ _ hi => exact .inr (.inr (.inr (.inl ⟨rfl, rfl, hi⟩)))
    | emptyFill color x y w height hi he => exact .inr (.inr (.inr (.inr (.inl ⟨rfl, hi, color, x, y, w, height, rfl, he⟩))))
    | unscaledGlyph x y ch fg bg hi => exact .inr (.inr (.inr (.inr (.inr (.inl ⟨rfl, hi, .inl ⟨x, y, ch, fg, bg, rfl⟩⟩)))))
    | unscaledString x y fg bg flags text hi =>
      exact .inr (.inr (.inr (.inr (.inr (.inl ⟨rfl, hi, .inr (.inl ⟨x, y, fg, bg, flags, text, rfl⟩)⟩)))))
    | unscaledWrapped x y fg bg flags text hi =>
      exact .inr (.inr (.inr (.inr (.inr (.inl ⟨rfl, hi, .inr (.inr (.inl ⟨x, y, fg, bg, flags, text, rfl⟩))⟩)))))
    | unscaledFormatted x y fg bg flags text hi =>
      exact .inr (.inr (.inr (.inr (.inr (.inl ⟨rfl, hi, .inr (.inr (.inr ⟨x, y, fg, bg, flags, text, rfl⟩))⟩)))))
    | ledInitAgain _ _ hi => exact .inr (.inr (.inr (.inr (.inr (.inr ⟨rfl, rfl, hi⟩)))))

end Sys2Proof.Machine

/-! What every step keeps (10_state.md R29 to R42; 20_memory.md R80, R90; 40_panel_init_window.md R142; 43_led_pulse.md R218, R224): what a
panel operation, a LED operation and a whole step can do, whatever the answers, and the invariants that follow. -/

namespace Sys2Proof.Machine

/-! ### What a procedure of the Panel Engine can do -/

/-- What every procedure of the Panel Engine does to the unit: it appends events, each of them seen by the panel (R39, R80), and leaves the
latches and the in-flight mark alone. -/
structure PanelWent (cfg : Config) (u v : PanelUnit) : Prop where
  op : v.op = u.op
  inFlight : v.inFlight = u.inFlight
  events : ∃ es, v.trace = u.trace ++ es ∧ v.env.sink = es.foldl (PanelSink.observe cfg) u.env.sink

theorem PanelWent.trans {cfg : Config} {u v w : PanelUnit} (h : PanelWent cfg u v) (k : PanelWent cfg v w) : PanelWent cfg u w := by
  obtain ⟨es, ht, hs⟩ := h.events
  obtain ⟨fs, kt, ks⟩ := k.events
  exact ⟨k.op.trans h.op, k.inFlight.trans h.inFlight, es ++ fs, by rw [kt, ht, List.append_assoc], by rw [ks, hs, List.foldl_append]⟩

theorem PanelWent.trace_prefix {cfg : Config} {u v : PanelUnit} (h : PanelWent cfg u v) : u.trace <+: v.trace := by
  obtain ⟨es, ht, -⟩ := h.events
  exact ⟨es, ht.symm⟩

theorem PanelWent.wf {cfg : Config} {u v : PanelUnit} (h : PanelWent cfg u v) (hw : u.env.sink.mem.wf = true) :
    v.env.sink.mem.wf = true := by
  obtain ⟨es, -, hs⟩ := h.events
  rw [hs]
  exact PanelSink.observe_all_wf cfg es hw

/-- A procedure that touches neither the init flag nor the controller's reset line. -/
structure PanelHeld (cfg : Config) (u v : PanelUnit) : Prop extends PanelWent cfg u v where
  init : v.init = u.init
  rstLine : v.env.rstLine = u.env.rstLine

/-- The same bounds registers (10_state.md R29). -/
def PanelUnit.SameBounds (u v : PanelUnit) : Prop :=
  v.boundsMaxX = u.boundsMaxX ∧ v.boundsHeight = u.boundsHeight ∧ v.boundsLines = u.boundsLines

theorem PanelUnit.SameBounds.trans {u v w : PanelUnit} (h : u.SameBounds v) (k : v.SameBounds w) : u.SameBounds w := by
  obtain ⟨hx, hh, hl⟩ := h
  obtain ⟨kx, kh, kl⟩ := k
  exact ⟨kx.trans hx, kh.trans hh, kl.trans hl⟩

theorem isSetup_of_isTx {e : PanelEvent} (h : isTx e) : isSetup e := by
  cases e with
  | tx => trivial
  | claim | pinOutDc | rst | delay | log => exact h.elim

/-- Only `Rst` drives the controller's reset line (60_exceptions.md R292). -/
theorem PanelSide.observe_rstLine (cfg : Config) (v : PanelSide) {e : PanelEvent} (h : isSetup e) : (v.observe cfg e).rstLine = v.rstLine := by
  cases e with
  | rst => exact h.elim
  | tx | claim | pinOutDc | delay | log => rfl

theorem PanelSide.observe_all_rstLine (cfg : Config) {es : List PanelEvent} (h : ∀ e ∈ es, isSetup e) (v : PanelSide) :
    (es.foldl (PanelSide.observe cfg) v).rstLine = v.rstLine := by
  induction es generalizing v with
  | nil => rfl
  | cons e es ih =>
    rw [List.foldl_cons, ih (fun x hx => h x (List.mem_cons_of_mem _ hx)), PanelSide.observe_rstLine cfg v (h e List.mem_cons_self)]

theorem Drew.held {cfg : Config} {u : PanelUnit} {r : Flow × PanelUnit} (h : Drew cfg u r) : PanelHeld cfg u r.2 := by
  obtain ⟨es, a, d, w, bx, bh, bl, hr, htx, -⟩ := h
  rw [hr]
  exact ⟨⟨rfl, rfl, es, rfl, PanelSide.observe_all_sink cfg es u.env⟩, rfl,
    PanelSide.observe_all_rstLine cfg (fun e he => isSetup_of_isTx (htx e he)) u.env⟩

theorem SetUp.held {cfg : Config} {u : PanelUnit} {r : Flow × PanelUnit} (h : SetUp cfg u r) : PanelHeld cfg u r.2 ∧ u.SameBounds r.2 := by
  obtain ⟨⟨es, a, d, n, hr, hes⟩, -⟩ := h
  rw [hr]
  exact ⟨⟨⟨rfl, rfl, es, rfl, PanelSide.observe_all_sink cfg es u.env⟩, rfl, PanelSide.observe_all_rstLine cfg hes u.env⟩, rfl, rfl, rfl⟩

/-! ### PANEL_INIT -/

theorem latchPins_went (cfg : Config) (u : PanelUnit) : PanelWent cfg u (latchPins u) := ⟨rfl, rfl, [], (List.append_nil _).symm, rfl⟩

/-- The controller's reset pulse ends with the line released (R142). -/
theorem resetController_went (cfg : Config) (u : PanelUnit) :
    PanelWent cfg u (resetController cfg u) ∧ u.SameBounds (resetController cfg u) ∧ (resetController cfg u).env.rstLine = some .high := by
  rw [resetController_eq_ran]
  exact ⟨⟨rfl, rfl, resetEvents cfg, rfl, PanelSide.observe_all_sink cfg _ u.env⟩, ⟨rfl, rfl, rfl⟩, rfl⟩

/-- All that PANEL_INIT can do: the bus claim stops it, or the set-up sequence does, or it sets the init flag, with the reset line released. -/
theorem panelInitBody_went {cfg : Config} {u : PanelUnit} {r : Flow × PanelUnit} (h : panelInitBody cfg u = .ok r) :
    PanelWent cfg u r.2 ∧ u.SameBounds r.2 ∧ (r.2.init = true → r.2.env.rstLine = some .high) := by
  unfold panelInitBody at h
  split at h
  · cases h
  · rename_i hi
    obtain ⟨hclaim, hclaimB⟩ := (claimBus_setUp cfg (latchPins u)).held
    have hlatched := (latchPins_went cfg u).trans hclaim.toPanelWent
    cases h
    generalize claimBus cfg (latchPins u) = c at hclaim hclaimB hlatched ⊢
    rcases andThen_cases c fun v =>
        andThen (setupSequence cfg cfg.initSeq (resetController cfg v)) fun w => (.done, { w with init := true }) with ⟨-, e⟩ | ⟨-, e⟩
    · rw [e]
      obtain ⟨hreset, hresetB, hline⟩ := resetController_went cfg c.2
      obtain ⟨hset, hsetB⟩ := (setupSequence_setUp cfg cfg.initSeq (resetController cfg c.2)).held
      have hall := (hlatched.trans hreset).trans hset.toPanelWent
      have hallB : u.SameBounds _ := (hclaimB.trans hresetB).trans hsetB
      have hhigh := hset.rstLine.trans hline
      generalize setupSequence cfg cfg.initSeq (resetController cfg c.2) = q at hall hallB hhigh ⊢
      rcases andThen_cases q fun w => (Flow.done, { w with init := true }) with ⟨-, e⟩ | ⟨-, e⟩
      · rw [e]; exact ⟨⟨hall.op, hall.inFlight, hall.events⟩, hallB, fun _ => hhigh⟩
      · rw [e]; exact ⟨hall, hallB, fun _ => hhigh⟩
    · rw [e]
      exact ⟨hlatched, hclaimB, fun hinit => absurd (hclaim.init.symm.trans hinit) hi⟩

/-! ### The bounds registers -/

/-- A procedure that only sends transactions, or nothing. -/
def Sends (cfg : Config) (u : PanelUnit) (r : Flow × PanelUnit) : Prop :=
  ∃ cs, (sendAll cfg cs u).2.withWork .clear = r.2.withWork .clear

theorem SameTraffic.sends {cfg : Config} {u : PanelUnit} {r : Flow × PanelUnit} {cs : List TxContent} (h : SameTraffic r (sendAll cfg cs u)) :
    Sends cfg u r := ⟨cs, h.2.symm⟩

theorem Sends.nothing (cfg : Config) (u : PanelUnit) (f : Flow) : Sends cfg u (f, u) := ⟨[], rfl⟩

theorem sendAll_sameBounds (cfg : Config) (cs : List TxContent) (u : PanelUnit) : u.SameBounds (sendAll cfg cs u).2 := by
  obtain ⟨a, d, ⟨-, h⟩ | ⟨j, hj, ⟨-, h⟩ | ⟨-, h⟩⟩⟩ := sendAll_cases cfg cs u <;> rw [h] <;> exact ⟨rfl, rfl, rfl⟩

theorem Sends.sameBounds {cfg : Config} {u : PanelUnit} {r : Flow × PanelUnit} (h : Sends cfg u r) : u.SameBounds r.2 := by
  obtain ⟨cs, h⟩ := h
  rw [PanelUnit.withWork_eq_iff.1 h]
  exact sendAll_sameBounds cfg cs u

theorem whenPanelReady_sends {cfg : Config} {u : PanelUnit} {body : Except Stop (Flow × PanelUnit)} {r : Flow × PanelUnit}
    (h : whenPanelReady u body = .ok r) (hb : u.init = true → body = .ok r → Sends cfg u r) : Sends cfg u r := by
  unfold whenPanelReady at h
  split at h
  · exact hb ‹_› h
  · cases h; exact Sends.nothing cfg u _

theorem whenScaled_eq_ok {u : PanelUnit} {body r : Flow × PanelUnit} (h : whenScaled u body = .ok r) : 1 ≤ u.op.scale.toNat ∧ r = body := by
  unfold whenScaled at h
  split at h
  · cases h
  · cases h; exact ⟨by omega, rfl⟩

theorem setWindowBody_sends {cfg : Config} {u : PanelUnit} {r : Flow × PanelUnit} (h : setWindowBody cfg u = .ok r) : Sends cfg u r := by
  refine whenPanelReady_sends h fun _ h => ?_
  split at h
  · cases h; rw [window_eq_sendAll]; exact (SameTraffic.refl _).sends
  · cases h; exact Sends.nothing cfg u _

theorem fillBody_sends {cfg : Config} (hv : cfg.valid = true) {u : PanelUnit} {r : Flow × PanelUnit} (h : fillBody cfg u = .ok r) :
    Sends cfg u r := by
  refine whenPanelReady_sends h fun _ h => ?_
  simp only at h
  split at h
  · cases h
  · split at h
    · obtain ⟨-, -, hchunk, -⟩ := Config.valid_safe hv
      cases h; exact (fill_sameTraffic cfg hchunk _ _ _ _ _ u).sends
    · cases h; exact Sends.nothing cfg u _

theorem drawPixelBody_sends {cfg : Config} {u : PanelUnit} {r : Flow × PanelUnit} (h : drawPixelBody cfg u = .ok r) : Sends cfg u r := by
  refine whenPanelReady_sends h fun hi h' => ?_
  by_cases hb : insidePanel cfg u.op.x.toNat u.op.y.toNat 1 1 = true
  · rw [drawPixelBody_eq hi hb] at h; cases h; exact (SameTraffic.refl _).sends
  · simp only [hb] at h'
    cases h'; exact Sends.nothing cfg u _

theorem drawGlyphBody_sends {cfg : Config} (hv : cfg.valid = true) {u : PanelUnit} {r : Flow × PanelUnit} (h : drawGlyphBody cfg u = .ok r) :
    Sends cfg u r := by
  refine whenPanelReady_sends h fun _ h => ?_
  obtain ⟨-, rfl⟩ := whenScaled_eq_ok h
  by_cases hb : insidePanel cfg u.op.x.toNat u.op.y.toNat (8 * u.op.scale.toNat) (8 * u.op.scale.toNat) = true
  · exact (glyph_sameTraffic cfg hv _ _ _ _ _ _ u hb).sends
  · simp only [glyph, glyphWidth_eq hv, glyphHeight_eq hv, hb]
    exact Sends.nothing cfg u _

theorem drawStringBody_sends {cfg : Config} (hv : cfg.valid = true) {u : PanelUnit} {r : Flow × PanelUnit} (h : drawStringBody cfg u = .ok r) :
    Sends cfg u r := by
  refine whenPanelReady_sends h fun _ h => ?_
  obtain ⟨hs, rfl⟩ := whenScaled_eq_ok h
  exact (string_sameTraffic cfg hv _ _ _ _ _ hs _ u).sends

/-- WRAPPED without a request for the bounds report only sends. -/
theorem wrapped_sends {cfg : Config} (hv : cfg.valid = true) (x y : Nat) (text : List Byte) (fg bg : Pixel) (s : Nat) (u : PanelUnit) :
    Sends cfg u (wrapped cfg x y text fg bg s false u) := by
  by_cases hx : x + 8 * s ≤ cfg.safeW
  · have h := wrapped_sameTraffic hv x y text fg bg s false hx u
    simp only [PanelUnit.reported, Bool.false_eq_true, if_false, andThen_pure] at h
    exact h.sends
  · unfold wrapped
    rw [glyphWidth_eq hv, if_pos (by omega)]
    exact Sends.nothing cfg u _

/-- How the bounds registers can change (R193): not at all; or when the flag is set and the operation is done. -/
def ReportsAtMost (u : PanelUnit) (r : Flow × PanelUnit) : Prop := u.SameBounds r.2 ∨ (u.op.flags.getLsbD 0 = true ∧ r.1 = .done)

theorem Drew.reportsAtMost {cfg : Config} {u : PanelUnit} {r : Flow × PanelUnit} (h : Drew cfg u r)
    (hs : u.op.flags.getLsbD 0 = false → u.SameBounds r.2) : ReportsAtMost u r := by
  cases hf : u.op.flags.getLsbD 0 with
  | false => exact .inl (hs hf)
  | true =>
    by_cases hd : r.1 = .done
    · exact .inr ⟨hf, hd⟩
    · obtain ⟨es, a, d, w, bx, bh, bl, hr, -, hb⟩ := h
      refine .inl ?_
      rw [hr]
      exact hb hd

theorem drawWrappedBody_reportsAtMost {cfg : Config} (hv : cfg.valid = true) {u : PanelUnit} {r : Flow × PanelUnit}
    (h : drawWrappedBody cfg u = .ok r) : ReportsAtMost u r := by
  refine (drawWrappedBody_drew hv h).1.reportsAtMost fun hf => Sends.sameBounds (cfg := cfg) (whenPanelReady_sends h fun _ h => ?_)
  obtain ⟨-, rfl⟩ := whenScaled_eq_ok h
  rw [hf]
  exact wrapped_sends hv _ _ _ _ _ _ u

theorem drawFormattedBody_reportsAtMost {cfg : Config} (hv : cfg.valid = true) {u : PanelUnit} {r : Flow × PanelUnit}
    (h : drawFormattedBody cfg u = .ok r) : ReportsAtMost u r := by
  refine (drawFormattedBody_drew hv h).1.reportsAtMost fun hf => Sends.sameBounds (cfg := cfg) (whenPanelReady_sends h fun _ h => ?_)
  obtain ⟨-, rfl⟩ := whenScaled_eq_ok h
  rw [hf]
  obtain ⟨cs, hcs⟩ := wrapped_sends hv u.op.x.toNat u.op.y.toNat (formattedChars cfg u.op.text) u.op.fg u.op.bg u.op.scale.toNat
    (fillFormatBuffer cfg u)
  exact ⟨cs, (sendAll_sameTraffic cfg cs (u := u) (v := fillFormatBuffer cfg u) rfl).2.trans hcs⟩

/-! ### A panel operation -/

/-- What a panel operation with opcode `c` can do to the unit `u` before it ends. -/
structure PanelRan (cfg : Config) (c : Opcode) (u : PanelUnit) (r : Flow × PanelUnit) : Prop extends PanelWent cfg u r.2 where
  released : (u.init = true → u.env.rstLine = some .high) → r.2.init = true → r.2.env.rstLine = some .high
  bounds : u.SameBounds r.2 ∨ ((c = .drawWrapped ∨ c = .drawFormatted) ∧ u.op.flags.getLsbD 0 = true ∧ r.1 = .done)

theorem Drew.ran {cfg : Config} {c : Opcode} {u : PanelUnit} {r : Flow × PanelUnit} (h : Drew cfg u r)
    (hb : u.SameBounds r.2 ∨ ((c = .drawWrapped ∨ c = .drawFormatted) ∧ ReportsAtMost u r)) : PanelRan cfg c u r where
  toPanelWent := h.held.toPanelWent
  released hu hi := h.held.rstLine.trans (hu (h.held.init.symm.trans hi))
  bounds := by
    obtain hs | ⟨hc, hs | hd⟩ := hb
    · exact .inl hs
    · exact .inl hs
    · exact .inr ⟨hc, hd⟩

/-- Once for every panel operation: what `exec` can answer. -/
theorem exec_panel_cases {i : Instr} {s t : State} (hu : unitOf i = .panel) (h : exec i s = .next t) :
    s.PanelIdle ∧ ∃ o r, t = { s with pu := PanelUnit.finish r } ∧ PanelRan s.cfg (opcode i) { s.pu with op := o } r := by
  cases i with
  | panelInit =>
    rw [exec_panelInit] at h
    obtain ⟨hs, r, hb, rfl⟩ := State.panelOp_cases h
    obtain ⟨hw, hk, hr⟩ := panelInitBody_went hb
    exact ⟨hs, _, r, rfl, hw, fun _ => hr, .inl hk⟩
  | setWindow =>
    rw [exec_setWindow] at h
    obtain ⟨hs, r, hb, rfl⟩ := State.panelOp_cases h
    exact ⟨hs, _, r, rfl, (setWindowBody_drew hb).1.ran (.inl (setWindowBody_sends hb).sameBounds)⟩
  | fill =>
    rw [exec_fill] at h
    obtain ⟨hs, r, hb, rfl⟩ := State.panelOp_cases h
    exact ⟨hs, _, r, rfl, (fillBody_drew hs.1 hb).1.ran (.inl (fillBody_sends hs.1 hb).sameBounds)⟩
  | drawPixel =>
    rw [exec_drawPixel] at h
    obtain ⟨hs, r, hb, rfl⟩ := State.panelOp_cases h
    exact ⟨hs, _, r, rfl, (drawPixelBody_drew hb).1.ran (.inl (drawPixelBody_sends hb).sameBounds)⟩
  | drawGlyph =>
    rw [exec_drawGlyph] at h
    obtain ⟨hs, r, hb, rfl⟩ := State.panelOp_cases h
    exact ⟨hs, _, r, rfl, (drawGlyphBody_drew hs.1 hb).1.ran (.inl (drawGlyphBody_sends hs.1 hb).sameBounds)⟩
  | drawString =>
    rw [exec_drawString] at h
    obtain ⟨hs, r, hb, rfl⟩ := State.panelOp_cases h
    exact ⟨hs, _, r, rfl, (drawStringBody_drew hs.1 hb).1.ran (.inl (drawStringBody_sends hs.1 hb).sameBounds)⟩
  | drawWrapped =>
    rw [exec_drawWrapped] at h
    obtain ⟨hs, r, hb, rfl⟩ := State.panelOp_cases h
    exact ⟨hs, _, r, rfl, (drawWrappedBody_drew hs.1 hb).1.ran (.inr ⟨.inl rfl, drawWrappedBody_reportsAtMost hs.1 hb⟩)⟩
  | drawFormatted =>
    rw [exec_drawFormatted] at h
    obtain ⟨hs, r, hb, rfl⟩ := State.panelOp_cases h
    exact ⟨hs, _, r, rfl, (drawFormattedBody_drew hs.1 hb).1.ran (.inr ⟨.inr rfl, drawFormattedBody_reportsAtMost hs.1 hb⟩)⟩
  | ledInit | setColor | setHsv | turnOff | ledDeinit | pack565 | hsv2rgb => cases hu

@[simp] theorem PanelUnit.finish_trace (r : Flow × PanelUnit) : (PanelUnit.finish r).trace = r.2.trace := by
  obtain ⟨f, u⟩ := r; cases f <;> rfl

/-- Ending an operation keeps the bounds registers. -/
theorem PanelUnit.finish_sameBounds (r : Flow × PanelUnit) : r.2.SameBounds (PanelUnit.finish r) := by
  obtain ⟨f, u⟩ := r; cases f <;> exact ⟨rfl, rfl, rfl⟩

/-- The end of an operation discards its work (10_state.md R36, R37); one that does not end stays in flight. -/
theorem PanelRan.finish_coherent {cfg : Config} {c : Opcode} {u : PanelUnit} {r : Flow × PanelUnit} (h : PanelRan cfg c u r)
    (hu : u.Coherent) : (PanelUnit.finish r).Coherent := by
  obtain ⟨hwf, -, hrst⟩ := hu
  have hwf' := h.wf hwf
  have hrst' := h.released hrst
  obtain ⟨f, v⟩ := r
  cases f with
  | done => exact ⟨hwf', fun _ => rfl, hrst'⟩
  | fail st => exact ⟨hwf', fun _ => rfl, hrst'⟩
  | hang => exact ⟨hwf', nofun, hrst'⟩

/-! ### The LED trace only grows -/

theorem LedUnit.emit_trace_prefix (u : LedUnit) (e : LedEvent) : u.trace <+: (u.emit e).trace := List.prefix_append _ _

theorem LedUnit.emits_trace_prefix (u : LedUnit) (es : List LedEvent) : u.trace <+: (u.emits es).trace := by
  rw [LedUnit.emits_eq_played]
  exact List.prefix_append _ _

theorem encodeBits_trace_prefix (free : Nat) (u : LedUnit) : u.trace <+: (encodeBits free u).2.trace := by
  induction free generalizing u with
  | zero => exact List.prefix_rfl
  | succ free ih =>
    unfold encodeBits
    split
    · refine List.IsPrefix.trans ?_ (ih _)
      exact u.emits_trace_prefix _
    · exact List.prefix_rfl

theorem encode1_trace_prefix (free : Nat) (u : LedUnit) : u.trace <+: (encode1 free u).2.trace := by
  have hbits := encodeBits_trace_prefix free u
  unfold encode1
  split
  · exact u.emit_trace_prefix _
  · simp only
    split
    · exact hbits
    · split
      · exact hbits
      · exact hbits.trans (LedUnit.emit_trace_prefix _ _)

theorem encodeTrain_trace_prefix (cfg : Config) (left : Nat) (u : LedUnit) : u.trace <+: (encodeTrain cfg left u).2.trace := by
  induction left generalizing u with
  | zero => exact List.prefix_rfl
  | succ left ih =>
    unfold encodeTrain
    cases u.move with
    | stall => simp
    | proceed free =>
      have h := encode1_trace_prefix (slotsOf cfg free) u.takeMove
      rw [LedUnit.takeMove_trace] at h
      simp only
      rcases he : encode1 (slotsOf cfg free) u.takeMove with ⟨report, v⟩
      rw [he] at h
      cases report with
      | done => exact h
      | bufferFull => exact h.trans (ih v)

theorem transmit_trace_prefix (cfg : Config) (c : Rgb) (u : LedUnit) : u.trace <+: (transmit cfg c u).2.trace := by
  have h := encodeTrain_trace_prefix cfg maxInvocations { u.showUnknown with busy := true }
  unfold transmit
  generalize encodeTrain cfg maxInvocations { u.showUnknown with busy := true } = r at h ⊢
  obtain ⟨f, v⟩ := r
  cases f with
  | done =>
    simp only [andThen_done]
    cases v.move with
    | stall => simpa using h
    | proceed free => simpa [completeSend] using h
  | fail st => exact h
  | hang => exact h

/-- Of SEND from any state, the encoder's place included. -/
theorem send_trace_prefix (cfg : Config) (c : Rgb) (u : LedUnit) : u.trace <+: (send cfg c u).2.trace := by
  unfold send LedUnit.txReq
  cases LedUnit.answer { u with encBytes := wireBytes cfg.wireOrder c } with
  | ok =>
    refine List.IsPrefix.trans ?_ (transmit_trace_prefix cfg c _)
    exact List.prefix_append _ _
  | fail => exact List.prefix_append _ _
  | never => exact List.prefix_append _ _

/-! ### A coherent LED Engine -/

theorem unwireBytes_wireBytes (o : WireOrder) (c : Rgb) : unwireBytes o (wireBytes o c) = c := by cases o <;> rfl

theorem LedUnit.sent_coherent (cfg : Config) (c : Rgb) (a : List Answer) (m : List PeripheralMove) {u : LedUnit}
    (h : u.Coherent cfg.wireOrder) : (u.sent cfg c a m).Coherent cfg.wireOrder := by
  obtain ⟨hrest, hpos, hticks, -, -⟩ := h
  refine ⟨hrest, hpos, hticks, fun _ _ => rfl, fun _ _ hw => ?_⟩
  have hwired : u.env.wired = cfg.wireOrder := hw
  simp only [LedUnit.sent, hwired, unwireBytes_wireBytes]

/-- SEND from a coherent engine between operations: it completes with a valid colour state, is rejected, or waits, and the unit is coherent. -/
theorem send_coherent (cfg : Config) (c : Rgb) {u : LedUnit} (h : u.Coherent cfg.wireOrder) (hf : u.inFlight = false) :
    (∃ v, send cfg c u = (.done, v) ∧ v.Coherent cfg.wireOrder ∧ v.colorValid = true) ∨
    (∃ v, send cfg c u = (.fail .transmitError, v) ∧ v.Coherent cfg.wireOrder) ∨
    (∃ v, send cfg c u = (.hang, v) ∧ LedUnit.Coherent cfg.wireOrder { v with inFlight := true }) := by
  obtain ⟨hrest, hpos, hticks, -, -⟩ := id h
  obtain ⟨hbusy, hphase, hbit⟩ := hrest hf
  obtain ⟨a, da, m, dm, hs | hs | ⟨hflow, hkept, hbit', -, -⟩⟩ := send_cases cfg c u hphase hbit hbusy
  · exact .inl ⟨_, hs, LedUnit.sent_coherent (u := u) cfg c a m h, rfl⟩
  · exact .inr (.inl ⟨_, hs, h⟩)
  · refine .inr (.inr ⟨_, Prod.ext hflow rfl, nofun, hbit', fun hi => ?_, nofun, nofun⟩)
    have hinit : (send cfg c u).2.init = true := hi
    exact (congrArg PulseTable.hasZero hkept.ticks).trans (hticks (hkept.init.symm.trans hinit))

/-- The release uninitialises the engine; a colour state it calls valid was so before (R230, R231). -/
theorem release_coherent {order : WireOrder} {valid : Bool} {u : LedUnit} (h : u.Coherent order) (hv : valid = true → u.colorValid = true) :
    (release valid u).Coherent order := by
  obtain ⟨hrest, hpos, -, -, hshown⟩ := h
  exact ⟨hrest, hpos, nofun, fun _ => nofun, fun hf hc hw => hshown hf (hv hc) hw⟩

/-- The unit when LED_INIT is done: its tick counts `ticks`, the encoder at rest, no valid colour state, the channel enabled (R211). -/
def LedUnit.started (ticks : PulseTable) (u : LedUnit) : LedUnit :=
  { LedUnit.emit { u with ticks, encPhase := .color, encBitpos := 0, colorValid := false } .chanEnable with init := true }

theorem startEngine_eq (cfg : Config) (u : LedUnit) :
    startEngine cfg u =
      if (pulseTable cfg).hasZero then (.fail .configurationError, u) else (.done, u.started (pulseTable cfg)) := rfl

theorem startEngine_trace_prefix (cfg : Config) (u : LedUnit) : u.trace <+: (startEngine cfg u).2.trace := by
  rw [startEngine_eq]
  split
  · exact List.prefix_rfl
  · exact List.prefix_append _ _

theorem LedUnit.started_coherent {order : WireOrder} {ticks : PulseTable} {u : LedUnit} (h : u.Coherent order) (hl : u.env.line = some .low)
    (hz : ticks.hasZero = false) : (u.started ticks).Coherent order := by
  obtain ⟨hrest, -, -, -, -⟩ := h
  refine ⟨fun hf => ?_, Nat.zero_le _, fun _ => hz, fun _ _ => hl, fun _ => nofun⟩
  obtain ⟨hbusy, -, -⟩ := hrest hf
  exact ⟨hbusy, rfl, rfl⟩

/-- LED_INIT after its allocation, from an engine whose pin is low (R211, R224). -/
theorem startEngine_coherent (cfg : Config) {u : LedUnit} (h : u.Coherent cfg.wireOrder) (hl : u.env.line = some .low) :
    (LedUnit.finish (startEngine cfg u)).Coherent cfg.wireOrder := by
  rw [startEngine_eq]
  split
  · exact h
  · exact LedUnit.started_coherent (u := u) h hl (eq_false_of_ne_true ‹_›)

/-! ### A LED operation -/

/-- What a LED operation can do to the unit `u` before it ends. -/
structure LedRan (cfg : Config) (u : LedUnit) (r : Flow × LedUnit) : Prop where
  trace : u.trace <+: r.2.trace
  coherent : u.inFlight = false → u.Coherent cfg.wireOrder → (LedUnit.finish r).Coherent cfg.wireOrder

theorem LedRan.nothing (cfg : Config) (u : LedUnit) {f : Flow} (hf : f ≠ .hang) : LedRan cfg u (f, u) where
  trace := List.prefix_rfl
  coherent _ h := by
    cases f with
    | done => exact h
    | fail st => exact h
    | hang => exact absurd rfl hf

theorem send_ran (cfg : Config) (c : Rgb) (u : LedUnit) : LedRan cfg u (send cfg c u) where
  trace := send_trace_prefix cfg c u
  coherent hf h := by
    obtain ⟨v, hs, hv, -⟩ | ⟨v, hs, hv⟩ | ⟨v, hs, hv⟩ := send_coherent cfg c h hf
    · rw [hs]; exact hv
    · rw [hs]; exact hv
    · rw [hs]; exact hv

theorem whenIdle_eq_ok {u : LedUnit} {body r : Flow × LedUnit} (h : whenIdle u body = .ok r) : r = body := by
  unfold whenIdle at h
  split at h
  · cases h
  · cases h; rfl

/-- The three colour operations are SEND behind the same two entry tests. -/
theorem whenLedReady_send_ran {cfg : Config} {c : Rgb} {u : LedUnit} {r : Flow × LedUnit}
    (h : whenLedReady u (whenIdle u (send cfg c u)) = .ok r) : LedRan cfg u r := by
  unfold whenLedReady at h
  split at h
  · rw [whenIdle_eq_ok h]; exact send_ran cfg c u
  · cases h; exact LedRan.nothing cfg u (by simp)

theorem releaseAfter_trace_prefix (r : Flow × LedUnit) : r.2.trace <+: (releaseAfter r).2.trace := by
  obtain ⟨f, v⟩ := r
  cases f with
  | done => exact LedUnit.emit_trace_prefix v _
  | fail st => exact LedUnit.emit_trace_prefix v _
  | hang => exact List.prefix_rfl

theorem ledDeinitBody_ran {cfg : Config} {u : LedUnit} {r : Flow × LedUnit} (h : ledDeinitBody cfg u = .ok r) : LedRan cfg u r := by
  unfold ledDeinitBody at h
  split at h
  · rw [whenIdle_eq_ok h]
    refine ⟨(send_trace_prefix cfg blackRgb u).trans (releaseAfter_trace_prefix _), fun hf hc => ?_⟩
    obtain ⟨v, hs, hv, hvalid⟩ | ⟨v, hs, hv⟩ | ⟨v, hs, hv⟩ := send_coherent cfg blackRgb hc hf
    · rw [hs]; exact release_coherent hv fun _ => hvalid
    · rw [hs]; exact release_coherent hv nofun
    · rw [hs]; exact hv
  · cases h; exact LedRan.nothing cfg u (by simp)

/-- The first two events of LED_INIT keep an uninitialised engine coherent, with its pin low. -/
theorem ledInitBody_ran {cfg : Config} {u : LedUnit} {r : Flow × LedUnit} (h : ledInitBody cfg u = .ok r) : LedRan cfg u r := by
  unfold ledInitBody at h
  split at h
  · cases h
  · rename_i hi
    simp only at h
    generalize hv : LedUnit.emit { u with pins := { pin := u.op.pin, chan := u.op.chan } } (.pinOutLow u.op.pin) = v at h
    have hprefix : u.trace <+: (v.chanAlloc cfg).2.trace := by
      rw [← hv]
      exact (List.prefix_append u.trace [LedEvent.pinOutLow u.op.pin]).trans (List.prefix_append _ _)
    have hcoherent : u.Coherent cfg.wireOrder → (v.chanAlloc cfg).2.Coherent cfg.wireOrder := by
      rintro ⟨hrest, hpos, -, -, hshown⟩
      rw [← hv]
      exact ⟨hrest, hpos, fun h => absurd h hi, fun _ _ => rfl, hshown⟩
    have hline : (v.chanAlloc cfg).2.env.line = some .low := by rw [← hv]; rfl
    have hinit : (v.chanAlloc cfg).2.init ≠ true := by rw [← hv]; exact hi
    generalize v.chanAlloc cfg = w at h hprefix hcoherent hline hinit
    obtain ⟨a, w⟩ := w
    cases h
    cases a with
    | ok => exact ⟨hprefix.trans (startEngine_trace_prefix cfg w), fun _ hu => startEngine_coherent cfg (hcoherent hu) hline⟩
    | fail => exact ⟨hprefix, fun _ hu => hcoherent hu⟩
    | never =>
      refine ⟨hprefix, fun _ hu => ?_⟩
      obtain ⟨-, hpos, -, -, -⟩ := hcoherent hu
      exact ⟨nofun, hpos, fun h => absurd h hinit, nofun, nofun⟩

/-- Once for every LED operation: what `exec` can answer. -/
theorem exec_led_cases {i : Instr} {s t : State} (hu : unitOf i = .led) (h : exec i s = .next t) :
    s.LedIdle ∧ ∃ o r, t = { s with lu := LedUnit.finish r } ∧ LedRan s.cfg { s.lu with op := o } r := by
  cases i with
  | ledInit =>
    rw [exec_ledInit] at h
    obtain ⟨hs, r, hb, rfl⟩ := State.ledOp_cases h
    exact ⟨hs, _, r, rfl, ledInitBody_ran hb⟩
  | setColor =>
    rw [exec_setColor] at h
    obtain ⟨hs, r, hb, rfl⟩ := State.ledOp_cases h
    exact ⟨hs, _, r, rfl, whenLedReady_send_ran hb⟩
  | setHsv =>
    rw [exec_setHsv] at h
    obtain ⟨hs, r, hb, rfl⟩ := State.ledOp_cases h
    exact ⟨hs, _, r, rfl, whenLedReady_send_ran hb⟩
  | turnOff =>
    rw [exec_turnOff] at h
    obtain ⟨hs, r, hb, rfl⟩ := State.ledOp_cases h
    exact ⟨hs, _, r, rfl, whenLedReady_send_ran hb⟩
  | ledDeinit =>
    rw [exec_ledDeinit] at h
    obtain ⟨hs, r, hb, rfl⟩ := State.ledOp_cases h
    exact ⟨hs, _, r, rfl, ledDeinitBody_ran hb⟩
  | panelInit | setWindow | fill | drawPixel | drawGlyph | drawString | drawWrapped | drawFormatted | pack565 | hsv2rgb => cases hu

@[simp] theorem LedUnit.finish_trace (r : Flow × LedUnit) : (LedUnit.finish r).trace = r.2.trace := by
  obtain ⟨f, u⟩ := r; cases f <;> rfl

/-! ### A step -/

/-- A Colour Utility operation writes the Colour Utility only (R250). -/
theorem exec_utility_cases {i : Instr} {s t : State} (hu : unitOf i = .utility) (h : exec i s = .next t) : ∃ c, t = { s with cu := c } := by
  cases i with
  | pack565 => rw [exec_pack565] at h; exact ⟨_, (State.utilityOp_cases h).2⟩
  | hsv2rgb => rw [exec_hsv2rgb] at h; exact ⟨_, (State.utilityOp_cases h).2⟩
  | panelInit | setWindow | fill | drawPixel | drawGlyph | drawString | drawWrapped | drawFormatted | ledInit | setColor | setHsv
  | turnOff | ledDeinit => cases hu

/-- All that an operation can do to the machine, by its unit. -/
theorem exec_cases {i : Instr} {s t : State} (h : exec i s = .next t) :
    (s.PanelIdle ∧ ∃ o r, t = { s with pu := PanelUnit.finish r } ∧ PanelRan s.cfg (opcode i) { s.pu with op := o } r) ∨
    (s.LedIdle ∧ ∃ o r, t = { s with lu := LedUnit.finish r } ∧ LedRan s.cfg { s.lu with op := o } r) ∨
    ∃ c, t = { s with cu := c } := by
  cases hu : unitOf i with
  | panel => exact .inl (exec_panel_cases hu h)
  | led => exact .inr (.inl (exec_led_cases hu h))
  | utility => exact .inr (.inr (exec_utility_cases hu h))

/-- All that a step can do: nothing is pending; the oldest descriptor's operation runs; or an illegal descriptor writes a status. -/
theorem step_cases {s t : State} (h : step s = .next t) :
    t = s ∨ ∃ rest, (∃ i, exec i { s with pending := rest } = .next t) ∨ ∃ b, t = { s with pending := rest }.setStatus b .illegalCommand := by
  cases hp : s.pending with
  | nil =>
    simp only [step, State.takeDescriptor, hp] at h
    cases h
    exact .inl rfl
  | cons d rest =>
    cases hd : decode d with
    | ok i => exact .inr ⟨rest, .inl ⟨i, by rw [← step_of_decode_ok hp hd, h]⟩⟩
    | error e =>
      rw [step_of_decode_error hp hd, State.rejectDescriptor] at h
      split at h
      · cases h; exact .inr ⟨rest, .inr ⟨_, rfl⟩⟩
      · cases h

/-! ### The invariants -/

theorem exec_coherent {i : Instr} {s t : State} (hs : s.Coherent) (h : exec i s = .next t) : t.Coherent := by
  obtain ⟨hpanel, hled⟩ := hs
  obtain ⟨-, o, r, rfl, hr⟩ | ⟨hidle, o, r, rfl, hr⟩ | ⟨c, rfl⟩ := exec_cases h
  · exact ⟨hr.finish_coherent hpanel, hled⟩
  · exact ⟨hpanel, hr.coherent hidle.2 hled⟩
  · exact ⟨hpanel, hled⟩

theorem State.setStatus_coherent {s : State} (h : s.Coherent) (b : BlockUnit) (st : Status) : (s.setStatus b st).Coherent := by
  cases b with
  | panel | led | utility => exact h

/-- Settles O9: `exec_coherent` for the operation of a descriptor; the queue and a status register are in no clause of `Coherent`. -/
theorem stepKeepsCoherent : Obligations.StepKeepsCoherent := by
  intro s t hs h
  obtain rfl | ⟨rest, ⟨i, hi⟩ | ⟨b, rfl⟩⟩ := step_cases h
  · exact hs
  · exact exec_coherent (s := { s with pending := rest }) hs hi
  · exact State.setStatus_coherent (s := { s with pending := rest }) hs b _

theorem exec_trace_prefix {i : Instr} {s t : State} (h : exec i s = .next t) : s.pu.trace <+: t.pu.trace ∧ s.lu.trace <+: t.lu.trace := by
  obtain ⟨-, o, r, rfl, hr⟩ | ⟨-, o, r, rfl, hr⟩ | ⟨c, rfl⟩ := exec_cases h
  · exact ⟨by rw [PanelUnit.finish_trace]; exact hr.trace_prefix, List.prefix_rfl⟩
  · exact ⟨List.prefix_rfl, by rw [LedUnit.finish_trace]; exact hr.trace⟩
  · exact ⟨List.prefix_rfl, List.prefix_rfl⟩

/-- Settles O12: `exec_trace_prefix` for the operation of a descriptor; an illegal one touches no trace. -/
theorem tracesOnlyGrow : Obligations.TracesOnlyGrow := by
  refine ⟨fun c => ⟨rfl, rfl⟩, fun s t h => ?_⟩
  obtain rfl | ⟨rest, ⟨i, hi⟩ | ⟨b, rfl⟩⟩ := step_cases h
  · exact ⟨List.prefix_rfl, List.prefix_rfl⟩
  · exact exec_trace_prefix (s := { s with pending := rest }) hi
  · cases b with
    | panel | led | utility => exact ⟨List.prefix_rfl, List.prefix_rfl⟩

/-- Settles O45: only the panel's operations touch its unit, and of them only a wrapped one that is done writes the report (`PanelRan.bounds`). -/
theorem boundsRegistersKept : Obligations.BoundsRegistersKept := by
  intro i s t h
  obtain ⟨hidle, o, r, rfl, hr⟩ | ⟨-, o, r, rfl, -⟩ | ⟨c, rfl⟩ := exec_cases h
  · obtain hsame | ⟨hi, hflag, hdone⟩ := hr.bounds
    · exact .inl (hsame.trans (PanelUnit.finish_sameBounds r))
    · obtain ⟨f, v⟩ := r
      cases hdone
      have hop : v.op = o := hr.op
      exact .inr ⟨hi, hop ▸ hflag, rfl, hr.inFlight.trans hidle.2⟩
  · exact .inl ⟨rfl, rfl, rfl⟩
  · exact .inl ⟨rfl, rfl, rfl⟩

/-- Settles O8: after reset nothing is known, in flight, initialised or valid, the encoder is at rest, and the trace is empty. -/
theorem invariantsAtReset : Obligations.InvariantsAtReset := fun c =>
  have panel : PanelUnit.reset.Coherent := ⟨rfl, fun _ => rfl, nofun⟩
  have led : (LedUnit.reset c.wireOrder).Coherent c.wireOrder :=
    ⟨fun _ => ⟨rfl, rfl, rfl⟩, Nat.zero_le _, nofun, fun _ => nofun, fun _ => nofun⟩
  ⟨⟨panel, led⟩, rfl⟩

end Sys2Proof.Machine

/-! The panel and its memory (20_memory.md R62, R76 to R85, R92): one operation's unit and the others, what the panel makes of the trace
and of a pixel stream, however it is cut into transactions, and the glyph a character selects. -/

namespace Sys2Proof.Machine

/-! ### The units (R78, R92) -/

/-- Settles O13: `exec` puts back the unit of its operation only, by unit. -/
theorem operationsKeepOtherUnits : Obligations.OperationsKeepOtherUnits := by
  intro i s t h
  cases hu : unitOf i with
  | panel =>
    obtain ⟨-, o, r, rfl, -⟩ := exec_panel_cases hu h
    exact ⟨rfl, rfl, fun hne => absurd rfl hne, fun _ => rfl, fun _ => rfl⟩
  | led =>
    obtain ⟨-, o, r, rfl, -⟩ := exec_led_cases hu h
    exact ⟨rfl, rfl, fun _ => rfl, fun hne => absurd rfl hne, fun _ => rfl⟩
  | utility =>
    obtain ⟨c, rfl⟩ := exec_utility_cases hu h
    exact ⟨rfl, rfl, fun _ => rfl, fun _ => rfl, fun hne => absurd rfl hne⟩

/-! ### The panel sees the trace (R39, R80 to R85) -/

@[simp] theorem PanelUnit.finish_env (r : Flow × PanelUnit) : (PanelUnit.finish r).env = r.2.env := by
  obtain ⟨f, u⟩ := r; cases f <;> rfl

/-- From `s` to `t` the panel has seen exactly the events that the trace has gained, under the same parameters (R39, R41, R80). -/
structure State.PanelSaw (s t : State) : Prop where
  cfg : t.cfg = s.cfg
  events : ∃ es, t.pu.trace = s.pu.trace ++ es ∧ t.pu.env.sink = es.foldl (PanelSink.observe s.cfg) s.pu.env.sink

/-- A panel unit left as it is gains no event. -/
theorem State.PanelSaw.nothing {s t : State} (hcfg : t.cfg = s.cfg) (htrace : t.pu.trace = s.pu.trace)
    (hsink : t.pu.env.sink = s.pu.env.sink) : s.PanelSaw t :=
  ⟨hcfg, [], by rw [htrace, List.append_nil], hsink⟩

theorem exec_panelSaw {i : Instr} {s t : State} (h : exec i s = .next t) : s.PanelSaw t := by
  obtain ⟨-, o, r, rfl, hr⟩ | ⟨-, o, r, rfl, -⟩ | ⟨c, rfl⟩ := exec_cases h
  · obtain ⟨es, htrace, hsink⟩ := hr.events
    exact ⟨rfl, es, by rw [PanelUnit.finish_trace, htrace], by rw [PanelUnit.finish_env, hsink]⟩
  · exact .nothing rfl rfl rfl
  · exact .nothing rfl rfl rfl

theorem step_panelSaw {s t : State} (h : step s = .next t) : s.PanelSaw t := by
  obtain rfl | ⟨rest, ⟨i, hi⟩ | ⟨b, rfl⟩⟩ := step_cases h
  · exact .nothing rfl rfl rfl
  · obtain ⟨hcfg, hevents⟩ := exec_panelSaw hi
    exact ⟨hcfg, hevents⟩
  · cases b with
    | panel | led | utility => exact .nothing rfl rfl rfl

/-- A panel that has followed the trace so far, and then sees what the trace gains, still follows it. -/
theorem State.PanelSaw.sinkFollowsTrace {s t : State} (h : s.PanelSaw t) (hs : s.SinkFollowsTrace) : t.SinkFollowsTrace := by
  obtain ⟨hcfg, es, htrace, hsink⟩ := h
  calc t.pu.env.sink
      = es.foldl (PanelSink.observe s.cfg) (s.pu.trace.foldl (PanelSink.observe s.cfg) .unknown) := by rw [hsink, ← hs]
    _ = t.pu.trace.foldl (PanelSink.observe t.cfg) .unknown := by rw [← List.foldl_append, ← htrace, hcfg]

/-- Settles O10: every event of a step reaches the trace and the panel alike (`step_panelSaw`). -/
theorem stepKeepsSinkFollowsTrace : Obligations.StepKeepsSinkFollowsTrace := fun _ _ hs h => (step_panelSaw h).sinkFollowsTrace hs

/-! ### A dead panel (R85) -/

theorem PanelSink.observe_of_dead (cfg : Config) {p : PanelSink} (h : p.dead = true) (e : PanelEvent) : p.observe cfg e = p := by
  simp only [PanelSink.observe, h, if_true]

theorem PanelSink.observe_all_of_dead (cfg : Config) {p : PanelSink} (h : p.dead = true) (es : List PanelEvent) :
    es.foldl (PanelSink.observe cfg) p = p := by
  induction es with
  | nil => rfl
  | cons e es ih => rw [List.foldl_cons, PanelSink.observe_of_dead cfg h, ih]

/-- A failed transaction kills the panel, whatever it carries. -/
theorem PanelSink.observe_tx_fail (cfg : Config) {p : PanelSink} (h : p.dead = false) (dc : DcLine) (bytes : List Byte) :
    p.observe cfg (.tx dc bytes .fail) = p.die := by
  cases dc with
  | command | data => simp only [PanelSink.observe, h, Bool.false_eq_true, if_false]

/-- Settles O35: a failure is `PanelSink.die`, and what a step adds to the trace a dead panel ignores event by event. -/
theorem panelDeadForGood : Obligations.PanelDeadForGood := by
  refine ⟨fun cfg p dc bytes h => PanelSink.observe_tx_fail cfg h dc bytes, fun cfg p e h => PanelSink.observe_of_dead cfg h e,
    fun s t hdead h => ?_⟩
  obtain ⟨-, es, -, hsink⟩ := step_panelSaw h
  rw [hsink, PanelSink.observe_all_of_dead s.cfg hdead]

/-! ### Pixel data (R84) -/

/-- Data in mode `WRITE` is pixel data. -/
theorem PanelSink.observe_data_write (cfg : Config) {p : PanelSink} (hd : p.dead = false) (hm : p.mode = .write) (bytes : List Byte) :
    p.observe cfg (.tx .data bytes .ok) = p.pixelData bytes := by
  simp only [PanelSink.observe, hd, Bool.false_eq_true, if_false, PanelSink.dataBytes, hm]

/-- Pixels that the window has room for are streamed into it. -/
theorem PanelSink.pixelData_fits {p : PanelSink} (hs : p.sync = true) {vs : List Pixel} (h : p.k + vs.length ≤ p.windowPixels) :
    p.pixelData (pixelBytes vs) =
      { p with
        mem := streamPixels p.xs.toNat p.ys.toNat (p.xe.toNat + 1 - p.xs.toNat) p.k vs p.mem
        k := p.k + vs.length } := by
  simp only [PanelSink.pixelData, pixelsOf_pixelBytes, hs, h, decide_true, Bool.and_self, if_true]

/-- Pixels that it has no room for leave the panel unknown (93_implementation_defined.md U7). -/
theorem PanelSink.pixelData_excess {p : PanelSink} {vs : List Pixel} (h : p.windowPixels < p.k + vs.length) :
    p.pixelData (pixelBytes vs) = p.forget := by
  simp only [PanelSink.pixelData, pixelsOf_pixelBytes, Nat.not_le.2 h, decide_false, Bool.and_false, Bool.false_eq_true, if_false]

/-- Settles O34: the two branches of `PanelSink.pixelData`; the one-pass stream of the first is R84's loop (`streamPixels_eq_loop`). -/
theorem streamPlacesPixels : Obligations.StreamPlacesPixels := by
  intro cfg p vs hd hm hs hwf hx hy ww wh
  have hxe := p.xe.isLt
  have hww : p.xe.toNat + 1 - p.xs.toNat = ww := by omega
  have hwh : p.ye.toNat + 1 - p.ys.toNat = wh := by omega
  have hroom : p.windowPixels = ww * wh := by rw [PanelSink.windowPixels, hww, hwh]
  rw [PanelSink.observe_data_write cfg hd hm]
  refine ⟨fun hfits => ?_, fun hexcess => ?_⟩
  · rw [PanelSink.pixelData_fits hs (hroom ▸ hfits), hww, streamPixels_eq_loop (by omega) (by omega) vs hwf]
  · rw [PanelSink.pixelData_excess (hroom ▸ hexcess)]
    rfl

/-! ### A fill, however it is cut into chunks (R77, R162) -/

/-- The chunks of a fill carry its pixels, whatever the chunk size. -/
theorem flatten_chunks (color : Pixel) (n c : Nat) :
    ((chunkSizes n c).map fun k => List.replicate k color).flatten = List.replicate n color := by
  have hsum : ∀ sizes : List Nat, (sizes.map fun k => List.replicate k color).flatten = List.replicate sizes.sum color := by
    intro sizes
    induction sizes with
    | nil => rfl
    | cons k sizes ih => rw [List.map_cons, List.flatten_cons, ih, List.replicate_append_replicate, List.sum_cons]
  rw [hsum, chunkSizes_sum]

/-- The transactions of a fill are a window and pixel streams. -/
theorem fillTx_eq (cfg : Config) (color : Pixel) (x y w h : Nat) :
    fillTx cfg color x y w h = windowTx cfg x y (x + w - 1) (y + h - 1) ++
      ((chunkSizes (w * h) cfg.chunkPixels).map fun k => List.replicate k color).map fun ps => (DcLine.data, pixelBytes ps) := by
  simp only [fillTx, chunkBytes_eq_pixelBytes, List.map_map, Function.comp_def]

/-- The panel after the transactions of a fill: nothing in it depends on the chunk size. -/
theorem sink_fill {cfg : Config} (hv : cfg.valid = true) {p : PanelSink} (hd : p.dead = false) (hm : p.mem.wf = true) {x y w h : Nat}
    (hb : insidePanel cfg x y w h = true) (hw : 0 < w) (hh : 0 < h) (color : Pixel) :
    (okEvents (fillTx cfg color x y w h)).foldl (PanelSink.observe cfg) p =
      { p with
        sync := true, mode := .write, haveCol := true, haveRow := true, k := w * h
        xs := BitVec.ofNat 16 (x + cfg.colOffset), xe := BitVec.ofNat 16 (x + w - 1 + cfg.colOffset)
        ys := BitVec.ofNat 16 (y + cfg.rowOffset), ye := BitVec.ofNat 16 (y + h - 1 + cfg.rowOffset)
        mem := streamPixels (x + cfg.colOffset) (y + cfg.rowOffset) w 0 (List.replicate (w * h) color) p.mem } := by
  rw [fillTx_eq, sink_rectangle hv hd hm hb hw hh _ (by rw [flatten_chunks, List.length_replicate]), flatten_chunks]

/-- Transactions that ended `OK` were all answered `ok`, and the panel has seen each of them. -/
theorem SameTraffic.sink_of_ok {cfg : Config} {u : PanelUnit} {r : Flow × PanelUnit} {cs : List TxContent} (h : SameTraffic r (sendAll cfg cs u))
    (hok : (PanelUnit.finish r).status = .ok) (hf : (PanelUnit.finish r).inFlight = false) :
    (PanelUnit.finish r).env.sink = (okEvents cs).foldl (PanelSink.observe cfg) u.env.sink := by
  obtain ⟨hflow, hunit⟩ := h
  have hsame : r.2.env = (sendAll cfg cs u).2.env := by rw [PanelUnit.withWork_eq_iff.1 hunit]; rfl
  rw [PanelUnit.finish_env, hsame]
  obtain ⟨f, v⟩ := r
  obtain ⟨a, d, ⟨-, hran⟩ | ⟨j, hj, ⟨hfail, -⟩ | ⟨hhang, -⟩⟩⟩ := sendAll_cases cfg cs u
  · rw [hran]
    exact PanelSide.observe_all_sink cfg (okEvents cs) u.env
  · cases hflow.trans hfail
    cases hok
  · cases hflow.trans hhang
    cases hf

/-- All that FILL can do on an initialised engine: it ends before any event, or sends its transactions. -/
theorem fillBody_cases {cfg : Config} (hv : cfg.valid = true) {u : PanelUnit} {r : Flow × PanelUnit}
    (h : fillBody cfg u = .ok r) (hi : u.init = true) :
    r = (.fail .invalidBounds, u) ∨
    (u.op.w.toNat ≠ 0 ∧ u.op.h.toNat ≠ 0 ∧ insidePanel cfg u.op.x.toNat u.op.y.toNat u.op.w.toNat u.op.h.toNat = true ∧
      SameTraffic r (sendAll cfg (fillTx cfg u.op.color u.op.x.toNat u.op.y.toNat u.op.w.toNat u.op.h.toNat) u)) := by
  simp only [fillBody, whenPanelReady, hi, if_true] at h
  split at h
  · cases h
  · rename_i hsize
    obtain ⟨hw, hh⟩ := not_or.1 hsize
    split at h
    · rename_i hin
      obtain ⟨-, -, hchunk, -⟩ := Config.valid_safe hv
      cases h
      exact .inr ⟨hw, hh, hin, fill_sameTraffic cfg hchunk _ _ _ _ _ u⟩
    · cases h; exact .inl rfl

/-- A FILL that ended `OK`: its rectangle is one of the panel's, and the panel has seen its transactions. -/
theorem exec_fill_ok {color : Pixel} {x y w h : Half} {s t : State} (hi : s.pu.init = true) (he : exec (.fill color x y w h) s = .next t)
    (hok : t.pu.status = .ok) (hf : t.pu.inFlight = false) :
    s.cfg.valid = true ∧ 0 < w.toNat ∧ 0 < h.toNat ∧ insidePanel s.cfg x.toNat y.toNat w.toNat h.toNat = true ∧
    t.pu.env.sink = (okEvents (fillTx s.cfg color x.toNat y.toNat w.toNat h.toNat)).foldl (PanelSink.observe s.cfg) s.pu.env.sink := by
  rw [exec_fill] at he
  obtain ⟨⟨hv, -⟩, r, hb, rfl⟩ := State.panelOp_cases he
  obtain rfl | ⟨hw, hh, hin, htraffic⟩ := fillBody_cases hv hb hi
  · cases hok
  · exact ⟨hv, Nat.pos_of_ne_zero hw, Nat.pos_of_ne_zero hh, hin, htraffic.sink_of_ok hok hf⟩

/-- Settles O31: a dead panel ignores both fills; of a live one `sink_fill` says the same for both. -/
theorem chunkSizeDoesNotMatter : Obligations.ChunkSizeDoesNotMatter := by
  intro color x y w h n s t t' hready _ hm he hok hf he' hok' hf'
  obtain ⟨hv, hw, hh, hin, hsink⟩ := exec_fill_ok hready.2 he hok hf
  obtain ⟨hv', -, -, hin', hsink'⟩ := exec_fill_ok (s := { s with cfg := { s.cfg with chunkPixels := n } }) hready.2 he' hok' hf'
  cases hd : s.pu.env.sink.dead with
  | true => rw [hsink, hsink', PanelSink.observe_all_of_dead _ hd, PanelSink.observe_all_of_dead _ hd]
  | false => rw [hsink, hsink', sink_fill hv hd hm hin hw hh, sink_fill hv' hd hm hin' hw hh]

/-! ### Operand latches do not steer the traffic (R21, R91) -/

/-- The unit with other operand latches. -/
def PanelUnit.withOp (o : Latches) (u : PanelUnit) : PanelUnit := { u with op := o }

@[simp] theorem PanelUnit.withOp_op (o : Latches) (u : PanelUnit) : (u.withOp o).op = o := rfl
@[simp] theorem PanelUnit.withOp_init (o : Latches) (u : PanelUnit) : (u.withOp o).init = u.init := rfl

theorem PanelUnit.send_withOp (cfg : Config) (dc : DcLine) (bytes : List Byte) (u : PanelUnit) (o : Latches) :
    (u.withOp o).send cfg dc bytes = ((u.send cfg dc bytes).1, (u.send cfg dc bytes).2.withOp o) := by
  have ha : (u.withOp o).answer = u.answer := rfl
  unfold PanelUnit.send PanelUnit.tx
  rw [ha]
  cases u.answer <;> rfl

/-- Two parts that only carry the latches along do so in sequence. -/
theorem andThen_withOp {r : Flow × PanelUnit} {k : PanelUnit → Flow × PanelUnit} {o : Latches}
    (hk : ∀ v, k (v.withOp o) = ((k v).1, (k v).2.withOp o)) :
    andThen (r.1, r.2.withOp o) k = ((andThen r k).1, (andThen r k).2.withOp o) := by
  obtain ⟨f, v⟩ := r
  cases f with
  | done => exact hk v
  | fail st => rfl
  | hang => rfl

theorem sendAll_withOp (cfg : Config) (cs : List TxContent) (u : PanelUnit) (o : Latches) :
    sendAll cfg cs (u.withOp o) = ((sendAll cfg cs u).1, (sendAll cfg cs u).2.withOp o) := by
  induction cs generalizing u with
  | nil => rfl
  | cons c cs ih =>
    rw [sendAll, PanelUnit.send_withOp]
    exact andThen_withOp ih

/-- GLYPH takes its operands as arguments, and none from the latches. -/
theorem glyph_withOp (cfg : Config) (x y : Nat) (ch : Byte) (fg bg : Pixel) (s : Nat) (u : PanelUnit) (o : Latches) :
    glyph cfg x y ch fg bg s (u.withOp o) = ((glyph cfg x y ch fg bg s u).1, (glyph cfg x y ch fg bg s u).2.withOp o) := by
  unfold glyph
  simp only [window_eq_sendAll, sendAll_withOp]
  split
  · exact andThen_withOp fun v => PanelUnit.send_withOp cfg .data _ { v with work := { v.work with glyphBuf := _ } } o
  · rfl

/-! ### Operations with the same effect (R125) -/

/-- Two bodies that agree in everything but the operand latches and the running work. -/
def SameBody : Except Stop (Flow × PanelUnit) → Except Stop (Flow × PanelUnit) → Prop
  | .ok r, .ok r' => ∃ o w, r = (r'.1, { r'.2 with op := o, work := w })
  | .error e, .error e' => e = e'
  | _, _ => False

theorem SameBody.samePanelEffect {s : State} {b b' : Except Stop (Flow × PanelUnit)} (h : SameBody b b') :
    SamePanelEffect (outcomeOf (fun r => { s with pu := PanelUnit.finish r }) b)
      (outcomeOf (fun r => { s with pu := PanelUnit.finish r }) b') := by
  cases b with
  | ok r =>
    cases b' with
    | ok r' =>
      obtain ⟨f, v⟩ := r'
      obtain ⟨o, w, rfl⟩ := h
      cases f with
      | done | fail | hang => rfl
    | error e => exact h.elim
  | error e =>
    cases b' with
    | ok r' => exact h.elim
    | error e' =>
      obtain rfl : e = e' := h
      cases e with
      | refuse | fault => rfl

/-- Operations of one state whose bodies agree have the same effect. -/
theorem State.panelOp_samePanelEffect {s : State} {latch latch' : Latches → Latches}
    {body body' : Config → PanelUnit → Except Stop (Flow × PanelUnit)}
    (h : s.PanelIdle → SameBody (body s.cfg { s.pu with op := latch s.pu.op }) (body' s.cfg { s.pu with op := latch' s.pu.op })) :
    SamePanelEffect (s.panelOp latch body) (s.panelOp latch' body') := by
  unfold State.panelOp
  split
  · rename_i hv
    split
    · rfl
    · rename_i hf
      exact (h ⟨hv, by simpa using hf⟩).samePanelEffect
  · rfl

/-! ### The glyph of a character (R62) -/

theorem glyphIndex_of_outOfRange {cfg : Config} (hv : cfg.valid = true) {ch : Byte} (h : ch.toNat < 0x20 ∨ 0x7A < ch.toNat) :
    glyphIndex cfg ch = 0 := by
  rw [glyphIndex_eq hv, if_neg (by omega)]

/-- The space is glyph 0. -/
theorem glyphIndex_space {cfg : Config} (hv : cfg.valid = true) : glyphIndex cfg 0x20 = 0 := by
  rw [glyphIndex_eq hv]
  rfl

/-- GLYPH draws a character by its index in the font alone. -/
theorem glyph_congr {cfg : Config} {ch ch' : Byte} (h : glyphIndex cfg ch = glyphIndex cfg ch') (x y : Nat) (fg bg : Pixel) (s : Nat)
    (u : PanelUnit) : glyph cfg x y ch fg bg s u = glyph cfg x y ch' fg bg s u := by
  unfold glyph
  rw [h]

/-- DRAW_GLYPH of two characters with the same glyph. -/
theorem drawGlyphBody_sameBody {cfg : Config} {ch ch' : Byte} (h : glyphIndex cfg ch = glyphIndex cfg ch') (o : Latches) (u : PanelUnit) :
    SameBody (drawGlyphBody cfg (u.withOp { o with ch := ch })) (drawGlyphBody cfg (u.withOp { o with ch := ch' })) := by
  unfold drawGlyphBody whenPanelReady whenScaled
  by_cases hi : u.init = true
  · by_cases hz : o.scale.toNat = 0
    · simp only [PanelUnit.withOp_init, PanelUnit.withOp_op, hi, hz, if_true]
      rfl
    · simp only [PanelUnit.withOp_init, PanelUnit.withOp_op, hi, hz, if_true, if_false, glyph_withOp, glyph_congr h]
      exact ⟨_, _, rfl⟩
  · simp only [PanelUnit.withOp_init, hi]
    exact ⟨_, _, rfl⟩

/-- Settles O38: out of range the index is that of the space, and nothing else of a character reaches the panel. -/
theorem outOfRangeCharacterIsSpace : Obligations.OutOfRangeCharacterIsSpace := by
  refine ⟨fun cfg ch hv h1 h2 => ?_, fun x y ch fg bg scale s h => ?_⟩
  · rw [glyphIndex_eq hv, if_pos ⟨h1, h2⟩]
  · rw [exec_drawGlyph, exec_drawGlyph]
    exact State.panelOp_samePanelEffect fun hs => drawGlyphBody_sameBody
      ((glyphIndex_of_outOfRange hs.1 h).trans (glyphIndex_space hs.1).symm) { s.pu.op with x, y, fg, bg, scale } s.pu

end Sys2Proof.Machine

/-! The descriptors (30_encoding.md R100 to R111): `decodeOperands` and `encodeOperands` undo each other, format by format; a descriptor
decodes exactly when it is not on R110's list; and what a step makes of the next descriptor. -/

namespace Sys2Proof

/-! ### Format T (R108) -/

/-- Format T reads exactly what `encodeTextFields` writes. -/
theorem decodeTextFields_eq_ok_iff {rest : List Byte} {t : TextFields} :
    decodeTextFields rest = .ok t ↔
      textFits t.text = true ∧ encodeTextFields t.x t.y t.fg t.bg t.scale t.flags t.text = rest := by
  constructor
  · intro h
    unfold decodeTextFields at h
    split at h
    · rename_i l1 l0 text
      split at h
      · rename_i hlen
        obtain rfl := Except.ok.inj h
        have hofNat : BitVec.ofNat 16 text.length = ofBe16 l1 l0 := by rw [hlen, BitVec.ofNat_toNat, BitVec.setWidth_eq]
        have hfits : text.length ≤ 65535 := by have := (ofBe16 l1 l0).isLt; omega
        exact ⟨decide_eq_true hfits, by simp [encodeTextFields, be16, hofNat]⟩
      · cases h
    · cases h
  · rintro ⟨hfits, rfl⟩
    have hfits : t.text.length ≤ 65535 := of_decide_eq_true hfits
    have hlen : (BitVec.ofNat 16 t.text.length).toNat = t.text.length := by
      rw [BitVec.toNat_ofNat]; exact Nat.mod_eq_of_lt (by omega)
    simp [encodeTextFields, be16, decodeTextFields, hlen]

/-- Format T is read when there are twelve bytes of fields and then as many bytes as `len` says (R111). -/
theorem decodeTextFields_of_length {rest : List Byte} (h : rest.length = 12 + (ofBe16 (rest.getD 10 0) (rest.getD 11 0)).toNat) :
    ∃ t, decodeTextFields rest = .ok t ∧ t.flags = rest.getD 9 0 := by
  obtain ⟨fields, text, rfl, hfields⟩ : ∃ fields text, rest = fields ++ text ∧ fields.length = 12 :=
    ⟨rest.take 12, rest.drop 12, (List.take_append_drop 12 rest).symm, by rw [List.length_take]; omega⟩
  match fields, hfields with
  | [x1, x0, y1, y0, f1, f0, b1, b0, scale, flags, l1, l0], _ =>
    have hlen : text.length = (ofBe16 l1 l0).toNat := by
      simp only [List.cons_append, List.nil_append, List.length_cons, List.getD_cons_succ, List.getD_cons_zero] at h
      omega
    exact ⟨_, if_pos hlen, rfl⟩

/-- What the decoders of the three operations of format T share: each has its own test of `flags` (R108) and makes its own operation.
`decodeDrawString_eq` and the two lemmas after it tie it to them. -/
def decodeText (legal : Byte → Prop) [DecidablePred legal] (make : Half → Half → Pixel → Pixel → Byte → Byte → List Byte → Instr)
    (rest : List Byte) : Except DecodeError Instr :=
  match decodeTextFields rest with
  | .error e => .error e
  | .ok t => if legal t.flags then .ok (make t.x t.y t.fg t.bg t.scale t.flags t.text) else .error .reservedFlags

theorem decodeDrawString_eq (rest : List Byte) : decodeDrawString rest = decodeText (fun flags => flags = 0) .drawString rest := rfl
theorem decodeDrawWrapped_eq (rest : List Byte) : decodeDrawWrapped rest = decodeText (fun flags => flagsLegal flags = true) .drawWrapped rest := rfl
theorem decodeDrawFormatted_eq (rest : List Byte) :
    decodeDrawFormatted rest = decodeText (fun flags => flagsLegal flags = true) .drawFormatted rest := rfl

section

variable {legal : Byte → Prop} [DecidablePred legal] {make : Half → Half → Pixel → Pixel → Byte → Byte → List Byte → Instr}

theorem decodeText_of_fields {rest : List Byte} {t : TextFields} (h : decodeTextFields rest = .ok t) (hflags : legal t.flags) :
    decodeText legal make rest = .ok (make t.x t.y t.fg t.bg t.scale t.flags t.text) := by
  simp only [decodeText, h, if_pos hflags]

theorem decodeText_encodeTextFields (x y : Half) (fg bg : Pixel) (scale : Byte) {flags : Byte} {text : List Byte}
    (hfits : textFits text = true) (hflags : legal flags) :
    decodeText legal make (encodeTextFields x y fg bg scale flags text) = .ok (make x y fg bg scale flags text) :=
  decodeText_of_fields (t := { x, y, fg, bg, scale, flags, text }) (decodeTextFields_eq_ok_iff.2 ⟨hfits, rfl⟩) hflags

theorem decodeText_eq_ok {rest : List Byte} {i : Instr} (h : decodeText legal make rest = .ok i) :
    ∃ t : TextFields, (textFits t.text = true ∧ legal t.flags) ∧ i = make t.x t.y t.fg t.bg t.scale t.flags t.text ∧
      encodeTextFields t.x t.y t.fg t.bg t.scale t.flags t.text = rest := by
  unfold decodeText at h
  split at h
  · cases h
  · rename_i t ht
    obtain ⟨hfits, hrest⟩ := decodeTextFields_eq_ok_iff.1 ht
    split at h
    · rename_i hflags
      exact ⟨t, ⟨hfits, hflags⟩, (Except.ok.inj h).symm, hrest⟩
    · cases h

end

/-! ### Decoding what is encoded -/

/-- The operand bytes of a well-formed operation decode to it, in each format. -/
theorem decodeOperands_encodeOperands {i : Instr} (h : WellFormed i) : decodeOperands (opcode i) (encodeOperands i) = .ok i := by
  cases i with
  | panelInit dc rst cs sclk mosi hz =>
    have hhz := ofBe32_bytes hz
    simp [opcode, encodeOperands, decodeOperands, be32, decodePanelInit, hhz]
  | setWindow | fill | drawPixel | drawGlyph | setHsv | hsv2rgb =>
    simp [opcode, encodeOperands, decodeOperands, be16, decodeSetWindow, decodeFill, decodeDrawPixel, decodeDrawGlyph, decodeHsv]
  | ledInit | setColor | turnOff | ledDeinit | pack565 => rfl
  | drawString x y fg bg scale flags text =>
    obtain ⟨hfits, hflags⟩ := Bool.and_eq_true_iff.1 h
    exact (decodeDrawString_eq _).trans (decodeText_encodeTextFields x y fg bg scale hfits (of_decide_eq_true hflags))
  | drawWrapped x y fg bg scale flags text =>
    obtain ⟨hfits, hflags⟩ := Bool.and_eq_true_iff.1 h
    exact (decodeDrawWrapped_eq _).trans (decodeText_encodeTextFields x y fg bg scale hfits hflags)
  | drawFormatted x y fg bg scale flags text =>
    obtain ⟨hfits, hflags⟩ := Bool.and_eq_true_iff.1 h
    exact (decodeDrawFormatted_eq _).trans (decodeText_encodeTextFields x y fg bg scale hfits hflags)

theorem decode_cons_of_opcodeOf {op : Byte} {o : Opcode} (h : opcodeOf op = some o) (rest : List Byte) :
    decode (op :: rest) = decodeOperands o rest := by
  simp [decode, h]

/-- Settles O1: the opcode byte names the opcode, and the operand bytes decode in its format. -/
theorem decodeOfEncode : Obligations.DecodeOfEncode := by
  intro i hi
  rw [encode, decode_cons_of_opcodeOf (opcodeOf_opcodeByte (opcode i)), decodeOperands_encodeOperands hi]

/-! ### Encoding what is decoded -/

/-- What each opcode's format reads is a well-formed operation of that opcode, and its operand bytes are those read. -/
theorem encodeOperands_of_decodeOperands {o : Opcode} {rest : List Byte} {i : Instr} (h : decodeOperands o rest = .ok i) :
    WellFormed i ∧ opcode i = o ∧ encodeOperands i = rest := by
  cases o with
  | panelInit =>
    simp only [decodeOperands, decodePanelInit] at h
    split at h
    · obtain rfl := Except.ok.inj h
      exact ⟨rfl, rfl, by simp [encodeOperands, be32_ofBe32]⟩
    · cases h
  | setWindow | fill | drawPixel | drawGlyph | ledInit | setColor | setHsv | turnOff | ledDeinit | pack565 | hsv2rgb =>
    simp only [decodeOperands, decodeSetWindow, decodeFill, decodeDrawPixel, decodeDrawGlyph, decodeLedInit, decodeTriple, decodeHsv,
      decodeNone] at h
    split at h
    · obtain rfl := Except.ok.inj h
      exact ⟨rfl, rfl, by simp [encodeOperands, be16]⟩
    · cases h
  | drawString =>
    obtain ⟨t, ⟨hfits, hflags⟩, rfl, hrest⟩ := decodeText_eq_ok ((decodeDrawString_eq rest).symm.trans h)
    exact ⟨Bool.and_eq_true_iff.2 ⟨hfits, decide_eq_true hflags⟩, rfl, hrest⟩
  | drawWrapped =>
    obtain ⟨t, hlegal, rfl, hrest⟩ := decodeText_eq_ok ((decodeDrawWrapped_eq rest).symm.trans h)
    exact ⟨Bool.and_eq_true_iff.2 hlegal, rfl, hrest⟩
  | drawFormatted =>
    obtain ⟨t, hlegal, rfl, hrest⟩ := decodeText_eq_ok ((decodeDrawFormatted_eq rest).symm.trans h)
    exact ⟨Bool.and_eq_true_iff.2 hlegal, rfl, hrest⟩

theorem decode_eq_ok_iff {d : List Byte} {i : Instr} :
    decode d = .ok i ↔ ∃ op rest o, d = op :: rest ∧ opcodeOf op = some o ∧ decodeOperands o rest = .ok i := by
  cases d with
  | nil => simp [decode]
  | cons op rest => cases ho : opcodeOf op <;> simp [decode, ho]

/-- Settles O2: the opcode byte and the operand bytes are both read back. -/
theorem encodeOfDecode : Obligations.EncodeOfDecode := by
  intro d i h
  obtain ⟨op, rest, o, rfl, ho, hi⟩ := decode_eq_ok_iff.1 h
  obtain ⟨hwf, rfl, rfl⟩ := encodeOperands_of_decodeOperands hi
  exact ⟨hwf, by rw [encode, opcodeByte_of_opcodeOf ho]⟩

/-- Settles O4: each descriptor is the one `encode` writes for its operation. -/
theorem writtenWordsDecode : Obligations.WrittenWordsDecode :=
  ⟨decodeOfEncode (.panelInit 1 2 3 4 5 0x02625A00) rfl, decodeOfEncode (.setWindow 0x0102 0x0304 0x0506 0x0708) rfl,
    decodeOfEncode (.fill 0xF800 10 20 4 2) rfl, decodeOfEncode (.drawPixel 171 319 0xF800) rfl,
    decodeOfEncode (.drawGlyph 0x0102 0x0304 0x41 0xFFFE 0x0001 2) rfl,
    decodeOfEncode (.drawString 150 7 0xFFFE 0x0001 3 0 [0x41, 0x42]) rfl,
    decodeOfEncode (.drawWrapped 5 6 0x1234 0x5678 3 1 [0x48, 0x69]) rfl,
    decodeOfEncode (.drawFormatted 5 6 0x1234 0x5678 3 0 [0x48]) rfl,
    decodeOfEncode (.ledInit 8 1) rfl, decodeOfEncode (.setColor 0x10 0x20 0x30) rfl, decodeOfEncode (.setHsv 360 100 50) rfl,
    decodeOfEncode .turnOff rfl, decodeOfEncode .ledDeinit rfl, decodeOfEncode (.pack565 0x12 0x34 0x56) rfl,
    decodeOfEncode (.hsv2rgb 240 100 50) rfl⟩

end Sys2Proof

namespace Sys2Proof.Machine

/-! ### The illegal descriptors (R110) -/

/-- What R110 asks of a descriptor whose opcode is assigned: the length of its format, and the reserved bits of format T's `flags`. -/
theorem illegalByRule_eq_false_iff {op : Byte} {o : Opcode} (ho : opcodeOf op = some o) (rest : List Byte) :
    illegalByRule (op :: rest) = false ↔
      (op :: rest).length = descriptorLength o (op :: rest) ∧ (isTextOpcode o = true → (rest.getD 9 0).toNat ≤ 1) ∧
        (o = .drawString → rest.getD 9 0 = 0) := by
  simp only [illegalByRule, ho, List.getD_cons_succ, Bool.or_eq_false_iff, Bool.and_eq_false_imp, decide_eq_false_iff_not,
    decide_eq_true_eq, not_not, not_lt, ne_eq, and_assoc]

/-- The descriptor of a well-formed operation has the length its opcode gives (R111). -/
theorem encode_length {i : Instr} (h : WellFormed i) : (encode i).length = descriptorLength (opcode i) (encode i) := by
  cases i with
  | drawString => exact (Laws.DescriptorLength.drawString _ _ _ _ _ _ _ h).2
  | drawWrapped => exact (Laws.DescriptorLength.drawWrapped _ _ _ _ _ _ _ h).2
  | drawFormatted => exact (Laws.DescriptorLength.drawFormatted _ _ _ _ _ _ _ h).2
  | panelInit | setWindow | fill | drawPixel | drawGlyph | ledInit | setColor | setHsv | turnOff | ledDeinit | pack565 | hsv2rgb => rfl

theorem encode_legal {i : Instr} (h : WellFormed i) : illegalByRule (encode i) = false := by
  refine (illegalByRule_eq_false_iff (opcodeOf_opcodeByte (opcode i)) (encodeOperands i)).2 ⟨encode_length h, ?_⟩
  cases i with
  | drawString =>
    have hflags := of_decide_eq_true (Bool.and_eq_true_iff.1 h).2
    exact ⟨fun _ => (congrArg BitVec.toNat hflags).trans_le (Nat.zero_le 1), fun _ => hflags⟩
  | drawWrapped | drawFormatted => exact ⟨fun _ => of_decide_eq_true (Bool.and_eq_true_iff.1 h).2, nofun⟩
  | panelInit | setWindow | fill | drawPixel | drawGlyph | ledInit | setColor | setHsv | turnOff | ledDeinit | pack565 | hsv2rgb =>
    exact ⟨nofun, nofun⟩

/-- Format T after an opcode byte, by the length of the whole descriptor. -/
theorem decodeText_of_length {legal : Byte → Prop} [DecidablePred legal]
    {make : Half → Half → Pixel → Pixel → Byte → Byte → List Byte → Instr} {op : Byte} {rest : List Byte}
    (hlen : (op :: rest).length = 13 + (ofBe16 ((op :: rest).getD 11 0) ((op :: rest).getD 12 0)).toNat) (hflags : legal (rest.getD 9 0)) :
    ∃ i, decodeText legal make rest = .ok i := by
  simp only [List.length_cons, List.getD_cons_succ] at hlen
  obtain ⟨t, ht, hft⟩ := decodeTextFields_of_length (rest := rest) (by omega)
  exact ⟨_, decodeText_of_fields ht (hft ▸ hflags)⟩

/-- Each format reads every operand list of its length, but for the reserved flags of format T. -/
theorem decodeOperands_of_legal {op : Byte} {o : Opcode} (ho : opcodeOf op = some o) {rest : List Byte}
    (h : illegalByRule (op :: rest) = false) : ∃ i, decodeOperands o rest = .ok i := by
  obtain ⟨hlen, hflags, hzero⟩ := (illegalByRule_eq_false_iff ho rest).1 h
  cases o with
  | drawString => exact decodeText_of_length (legal := fun flags => flags = 0) hlen (hzero rfl)
  | drawWrapped | drawFormatted =>
    exact decodeText_of_length (legal := fun flags => flagsLegal flags = true) hlen (decide_eq_true (hflags rfl))
  | panelInit => match rest, hlen with | [_, _, _, _, _, _, _, _, _], _ => exact ⟨_, rfl⟩
  | setWindow => match rest, hlen with | [_, _, _, _, _, _, _, _], _ => exact ⟨_, rfl⟩
  | fill | drawGlyph => match rest, hlen with | [_, _, _, _, _, _, _, _, _, _], _ => exact ⟨_, rfl⟩
  | drawPixel => match rest, hlen with | [_, _, _, _, _, _], _ => exact ⟨_, rfl⟩
  | setHsv | hsv2rgb => match rest, hlen with | [_, _, _, _], _ => exact ⟨_, rfl⟩
  | setColor | pack565 => match rest, hlen with | [_, _, _], _ => exact ⟨_, rfl⟩
  | ledInit => match rest, hlen with | [_, _], _ => exact ⟨_, rfl⟩
  | turnOff | ledDeinit => match rest, hlen with | [], _ => exact ⟨_, rfl⟩

theorem decode_of_legal {d : List Byte} (h : illegalByRule d = false) : ∃ i, decode d = .ok i := by
  cases d with
  | nil => cases h
  | cons op rest =>
    cases ho : opcodeOf op with
    | none => simp [illegalByRule, ho] at h
    | some o => rw [decode_cons_of_opcodeOf ho]; exact decodeOperands_of_legal ho h

/-- The decoder rejects what R110 lists, and nothing else. -/
theorem decode_eq_error_iff (d : List Byte) : (∃ e, decode d = .error e) ↔ illegalByRule d = true := by
  constructor
  · rintro ⟨e, he⟩
    by_contra hlegal
    obtain ⟨i, hi⟩ := decode_of_legal (Bool.eq_false_of_not_eq_true hlegal)
    rw [he] at hi
    cases hi
  · intro hill
    cases hd : decode d with
    | error e => exact ⟨e, rfl⟩
    | ok i =>
      obtain ⟨hwf, rfl⟩ := encodeOfDecode d i hd
      rw [encode_legal hwf] at hill
      cases hill

/-- Settles O3: a rejected descriptor is taken, and `IllegalCommand` is written for the unit of its high nibble, whatever is in flight
(log 22). -/
theorem illegalDescriptors : Obligations.IllegalDescriptors := by
  intro s d rest hp hv
  refine ⟨decode_eq_error_iff d, fun hill => ?_⟩
  obtain ⟨e, he⟩ := (decode_eq_error_iff d).2 hill
  rw [step_of_decode_error hp he, State.rejectDescriptor, if_pos hv, State.illegalDescriptor]
  cases d with
  | nil => rfl
  | cons op operands =>
    unfold unitOfDescriptor
    by_cases hpanel : op.toNat / 16 = 1
    · simp only [if_pos hpanel, State.setStatus]
    · by_cases hled : op.toNat / 16 = 2
      · simp only [if_neg hpanel, if_pos hled, State.setStatus]
      · simp only [if_neg hpanel, if_neg hled, State.setStatus]

/-! ### A step and its descriptor (R101, R111) -/

theorem step_of_pending_nil {s : State} (h : s.pending = []) : step s = .next s := by
  simp [step, State.takeDescriptor, h]

/-- Settles O5: the two cases of taking a descriptor. -/
theorem stepRunsDecoded : Obligations.StepRunsDecoded :=
  ⟨fun _ _ _ _ hp hd => step_of_decode_ok hp hd, fun _ hp => step_of_pending_nil hp⟩

theorem decodeTableWord_eq_some_iff {nbits w : Nat} {i : Instr} :
    decodeTableWord nbits w = some i ↔ decode (descriptorOfWord nbits w) = .ok i := by
  unfold decodeTableWord
  cases decode (descriptorOfWord nbits w) <;> simp

/-- Settles O6: the word's descriptor stands first in the queue, and taking it leaves the queue as it was. -/
theorem fetchWordRuns : Obligations.FetchWordRuns := fun _ _ _ _ h =>
  step_of_decode_ok rfl (decodeTableWord_eq_some_iff.1 h)

/-! ### Ticks (R121, R212) -/

theorem ticksOf_eq_zero_iff (cfg : Config) (ns : Nat) : ticksOf cfg ns = 0 ↔ ns * cfg.resHz < 500000000 := by
  unfold ticksOf
  omega

theorem PulseTable.hasZero_iff (t : PulseTable) :
    t.hasZero = true ↔ t.t0h = 0 ∨ t.t0l = 0 ∨ t.t1h = 0 ∨ t.t1l = 0 ∨ t.treset = 0 := by
  simp only [PulseTable.hasZero, Bool.or_eq_true, decide_eq_true_eq, or_assoc]

/-- With the reference durations the shortest, 300 ns, decides. -/
theorem pulseTable_cfgRef_hasZero_iff (n : Nat) : (pulseTable { cfgRef with resHz := n }).hasZero = true ↔ n ≤ 1666666 := by
  simp only [PulseTable.hasZero_iff, pulseTable, ticksOf_eq_zero_iff, cfgRef]
  omega

/-- Settles O49: the first two clauses are the definitions; the others are the lemmas above, with the rounding of R121. -/
theorem tickThreshold : Obligations.TickThreshold :=
  ⟨fun _ _ => rfl, fun _ => rfl, PulseTable.hasZero_iff, ticksOf_eq_zero_iff,
    fun n h => (pulseTable_cfgRef_hasZero_iff n).2 h,
    fun n h => Bool.eq_false_of_not_eq_true fun hz => Nat.not_succ_le_self _ (h.trans ((pulseTable_cfgRef_hasZero_iff n).1 hz))⟩

end Sys2Proof.Machine

/-! Operations with the same effect (30_encoding.md R125): DRAW_PIXEL and FILL, DRAW_FORMATTED and DRAW_WRAPPED, and the colour operations
of the LED Engine. No procedure below an operation's body reads the operand latches. -/

namespace Sys2Proof.Machine

/-! ### Bodies that send the same transactions -/

/-- Two bodies that do what one procedure does, each with its own latches. -/
theorem SameBody.of_sameTraffic {r r' q : Flow × PanelUnit} {o o' : Latches} (h : SameTraffic r (q.1, q.2.withOp o))
    (h' : SameTraffic r' (q.1, q.2.withOp o')) : SameBody (.ok r) (.ok r') := by
  obtain ⟨f, v⟩ := r
  obtain ⟨f', v'⟩ := r'
  obtain ⟨rfl, hv⟩ := h
  obtain ⟨rfl, hv'⟩ := h'
  have hv : v = (q.2.withOp o).withWork v.work := PanelUnit.withWork_eq_iff.1 hv.symm
  have hv' : v' = (q.2.withOp o').withWork v'.work := PanelUnit.withWork_eq_iff.1 hv'.symm
  exact ⟨o, v.work, by rw [hv, hv']; rfl⟩

/-- Two bodies that end before they do anything. -/
theorem SameBody.nothing (f : Flow) (u : PanelUnit) (o o' : Latches) : SameBody (.ok (f, u.withOp o)) (.ok (f, u.withOp o')) :=
  .of_sameTraffic (q := (f, u)) (.refl _) (.refl _)

theorem whenPanelReady_sameBody {u : PanelUnit} {o o' : Latches} {b b' : Except Stop (Flow × PanelUnit)}
    (h : u.init = true → SameBody b b') : SameBody (whenPanelReady (u.withOp o) b) (whenPanelReady (u.withOp o') b') := by
  rw [whenPanelReady, whenPanelReady, PanelUnit.withOp_init, PanelUnit.withOp_init]
  by_cases hi : u.init = true
  · rw [if_pos hi, if_pos hi]; exact h hi
  · rw [if_neg hi, if_neg hi]; exact .nothing _ u o o'

theorem whenScaled_sameBody {u : PanelUnit} {o o' : Latches} {r r' : Flow × PanelUnit} (hs : o.scale = o'.scale)
    (h : SameBody (.ok r) (.ok r')) : SameBody (whenScaled (u.withOp o) r) (whenScaled (u.withOp o') r') := by
  unfold whenScaled
  rw [PanelUnit.withOp_op, PanelUnit.withOp_op, hs]
  by_cases hz : o'.scale.toNat = 0
  · rw [if_pos hz, if_pos hz]; exact rfl
  · rw [if_neg hz, if_neg hz]; exact h

/-! ### DRAW_PIXEL (R165) -/

/-- A fill of one pixel is one chunk after its window, whatever the chunk size. -/
theorem fillTx_one {cfg : Config} (hv : cfg.valid = true) (color : Pixel) (x y : Nat) :
    fillTx cfg color x y 1 1 = windowTx cfg x y x y ++ [(.data, be16 color)] := by
  have hc : 1 ≤ cfg.chunkPixels := (Config.valid_safe hv).2.2.1
  have hsizes : chunkSizes (1 * 1) cfg.chunkPixels = [1] := by
    rw [Nat.one_mul, chunkSizes_step Nat.one_pos hc, Nat.min_eq_left hc, Nat.sub_self, chunkSizes_zero]
  rw [fillTx, hsizes]
  rfl

theorem drawPixelBody_sameBody {cfg : Config} (hv : cfg.valid = true) (o : Latches) (u : PanelUnit) :
    SameBody (drawPixelBody cfg (u.withOp o)) (fillBody cfg (u.withOp { o with w := 1, h := 1 })) := by
  refine whenPanelReady_sameBody fun _ => ?_
  show SameBody (if insidePanel cfg o.x.toNat o.y.toNat 1 1 = true then _ else _)
    (if (1 : Half).toNat = 0 ∨ (1 : Half).toNat = 0 then _ else if insidePanel cfg o.x.toNat o.y.toNat 1 1 = true then _ else _)
  rw [if_neg (by decide : ¬ ((1 : Half).toNat = 0 ∨ (1 : Half).toNat = 0))]
  by_cases hb : insidePanel cfg o.x.toNat o.y.toNat 1 1 = true
  · rw [if_pos hb, if_pos hb]
    refine .of_sameTraffic (q := sendAll cfg (fillTx cfg o.color o.x.toNat o.y.toNat 1 1) u) (o := o)
      (o' := { o with w := 1, h := 1 }) ?_ ?_
    · rw [← sendAll_withOp, fillTx_one hv, sendAll_append, window_eq_sendAll]
      simp only [sendAll, andThen_pure]
      exact .refl _
    · rw [← sendAll_withOp]
      exact fill_sameTraffic cfg (Config.valid_safe hv).2.2.1 _ _ _ _ _ _
  · rw [if_neg hb, if_neg hb]
    exact .nothing _ u _ _

/-- Settles O33: the window of a rectangle of 1 by 1, and its one chunk, are those of the pixel. -/
theorem drawPixelIsFill : Obligations.DrawPixelIsFill := by
  intro x y color s
  rw [exec_drawPixel, exec_fill]
  exact State.panelOp_samePanelEffect fun hs => drawPixelBody_sameBody hs.1 { s.pu.op with x, y, color } s.pu

/-! ### DRAW_FORMATTED (R200) -/

/-- WRAPPED takes its operands as arguments: nothing it does but to the work state depends on the latches, or on what the work state was. -/
theorem wrapped_withOp {cfg : Config} (hv : cfg.valid = true) (x y : Nat) (text : List Byte) (fg bg : Pixel) (s : Nat) (want : Bool)
    (u : PanelUnit) :
    ∃ q : Flow × PanelUnit, ∀ (o : Latches) (w : Transient),
      SameTraffic (wrapped cfg x y text fg bg s want ((u.withOp o).withWork w)) (q.1, q.2.withOp o) := by
  by_cases hx : x + 8 * s ≤ cfg.safeW
  · refine ⟨andThen (sendAll cfg (cellsTx cfg fg bg s (wrapPlan cfg x y s text).1) u) fun v =>
      (.done, v.reported want s (wrapPlan cfg x y s text).2), fun o w => ?_⟩
    refine (wrapped_sameTraffic hv x y text fg bg s want hx _).trans ?_
    refine (SameTraffic.report (sendAll_sameTraffic cfg _ (u := (u.withOp o).withWork w) (v := u.withOp o) rfl) want s _).trans ?_
    rw [sendAll_withOp, andThen_withOp fun v => by cases want <;> rfl]
    exact .refl _
  · refine ⟨(.fail .invalidBounds, u), fun o w => ?_⟩
    unfold wrapped
    rw [glyphWidth_eq hv, if_pos (by omega)]
    exact ⟨rfl, rfl⟩

theorem drawFormattedBody_sameBody {cfg : Config} (hv : cfg.valid = true) (o : Latches) (len : Half) (u : PanelUnit) :
    SameBody (drawFormattedBody cfg (u.withOp o))
      (drawWrappedBody cfg (u.withOp { o with len := len, text := formattedChars cfg o.text })) := by
  refine whenPanelReady_sameBody fun _ => whenScaled_sameBody rfl ?_
  obtain ⟨q, hq⟩ := wrapped_withOp hv o.x.toNat o.y.toNat (formattedChars cfg o.text) o.fg o.bg o.scale.toNat (o.flags.getLsbD 0) u
  exact .of_sameTraffic (hq o (fillFormatBuffer cfg (u.withOp o)).work)
    (hq { o with len := len, text := formattedChars cfg o.text } u.work)

/-- Settles O47: both run WRAPPED on the same characters; the format buffer is part of the work state. -/
theorem formattedIsWrappedCut : Obligations.FormattedIsWrappedCut := by
  intro x y fg bg scale flags text s
  rw [exec_drawFormatted, exec_drawWrapped]
  exact State.panelOp_samePanelEffect fun hs => drawFormattedBody_sameBody hs.1
    { s.pu.op with x, y, fg, bg, scale, flags, len := BitVec.ofNat 16 text.length, text } _ s.pu

/-! ### The colour operations (R226, R228) -/

/-- The unit with other operand latches. -/
def LedUnit.withOp (o : Latches) (u : LedUnit) : LedUnit := { u with op := o }

/-- A procedure's result with other operand latches. -/
def resultWithOp {α : Type} (o : Latches) (r : α × LedUnit) : α × LedUnit := (r.1, r.2.withOp o)

theorem LedUnit.emits_withOp (u : LedUnit) (es : List LedEvent) (o : Latches) : (u.withOp o).emits es = (u.emits es).withOp o := by
  rw [LedUnit.emits_eq_played, LedUnit.emits_eq_played]
  rfl

theorem LedUnit.takeMove_withOp (u : LedUnit) (o : Latches) : (u.withOp o).takeMove = u.takeMove.withOp o := by
  unfold LedUnit.takeMove
  rw [show (u.withOp o).env.moves = u.env.moves from rfl]
  cases u.env.moves <;> rfl

theorem encodeBits_withOp (free : Nat) (u : LedUnit) (o : Latches) :
    encodeBits free (u.withOp o) = resultWithOp o (encodeBits free u) := by
  induction free generalizing u with
  | zero => rfl
  | succ free ih =>
    rw [encodeBits, encodeBits, apply_ite (resultWithOp o), ← ih, LedUnit.emits_withOp]
    rfl

theorem encode1_withOp (free : Nat) (u : LedUnit) (o : Latches) : encode1 free (u.withOp o) = resultWithOp o (encode1 free u) := by
  unfold encode1
  rw [encodeBits_withOp, show (u.withOp o).encPhase = u.encPhase from rfl]
  cases u.encPhase with
  | reset => rfl
  | color =>
    simp only
    rw [apply_ite (resultWithOp o), apply_ite (resultWithOp o)]
    rfl

theorem encodeTrain_withOp (cfg : Config) (left : Nat) (u : LedUnit) (o : Latches) :
    encodeTrain cfg left (u.withOp o) = resultWithOp o (encodeTrain cfg left u) := by
  induction left generalizing u with
  | zero => rfl
  | succ left ih =>
    unfold encodeTrain
    rw [LedUnit.takeMove_withOp, show (u.withOp o).move = u.move from rfl]
    cases u.move with
    | stall => rfl
    | proceed free =>
      simp only [encode1_withOp]
      generalize encode1 (slotsOf cfg free) u.takeMove = r
      obtain ⟨report, v⟩ := r
      cases report with
      | done => rfl
      | bufferFull => exact ih v

theorem transmit_withOp (cfg : Config) (c : Rgb) (u : LedUnit) (o : Latches) :
    transmit cfg c (u.withOp o) = resultWithOp o (transmit cfg c u) := by
  have htrain := encodeTrain_withOp cfg maxInvocations { u.showUnknown with busy := true } o
  unfold transmit
  refine (congrArg (andThen · _) htrain).trans ?_
  generalize encodeTrain cfg maxInvocations { u.showUnknown with busy := true } = r
  obtain ⟨f, v⟩ := r
  cases f with
  | done =>
    simp only [resultWithOp, andThen_done, LedUnit.takeMove_withOp, show (v.withOp o).move = v.move from rfl]
    cases v.move <;> rfl
  | fail st => rfl
  | hang => rfl

/-- SEND takes the colour as an argument, and nothing from the latches. -/
theorem send_withOp (cfg : Config) (c : Rgb) (u : LedUnit) (o : Latches) : send cfg c (u.withOp o) = resultWithOp o (send cfg c u) := by
  have hreq : LedUnit.txReq { u.withOp o with encBytes := wireBytes cfg.wireOrder c } =
      resultWithOp o (LedUnit.txReq { u with encBytes := wireBytes cfg.wireOrder c }) := rfl
  unfold send
  rw [hreq]
  generalize LedUnit.txReq { u with encBytes := wireBytes cfg.wireOrder c } = r
  obtain ⟨a, v⟩ := r
  cases a with
  | ok => exact transmit_withOp cfg c v o
  | fail => rfl
  | never => rfl

/-- The common body of the three colour operations: the init test, the wait and SEND. -/
def colourBody (cfg : Config) (c : Rgb) (u : LedUnit) : Except Stop (Flow × LedUnit) := whenLedReady u <| whenIdle u <| send cfg c u

theorem setColorBody_eq_colourBody (cfg : Config) (u : LedUnit) :
    setColorBody cfg u = colourBody cfg { r := u.op.r, g := u.op.g, b := u.op.b } u := rfl
theorem setHsvBody_eq_colourBody (cfg : Config) (u : LedUnit) :
    setHsvBody cfg u = colourBody cfg (hsvToRgb u.op.hue u.op.sat u.op.val) u := rfl
theorem turnOffBody_eq_colourBody (cfg : Config) (u : LedUnit) : turnOffBody cfg u = colourBody cfg blackRgb u := rfl

theorem colourBody_withOp (cfg : Config) (c : Rgb) (u : LedUnit) (o : Latches) :
    colourBody cfg c (u.withOp o) = (colourBody cfg c u).map (resultWithOp o) := by
  unfold colourBody whenLedReady whenIdle
  rw [send_withOp, show (u.withOp o).init = u.init from rfl, show (u.withOp o).busy = u.busy from rfl]
  cases u.init <;> cases u.busy <;> rfl

theorem LedUnit.finish_resultWithOp (r : Flow × LedUnit) (o : Latches) : LedUnit.finish (resultWithOp o r) = (LedUnit.finish r).withOp o := by
  obtain ⟨f, v⟩ := r
  cases f <;> rfl

/-- Operations of one state that send the same colour have the same effect. -/
theorem State.ledOp_sameLedEffect {s : State} {latch latch' : Latches → Latches} {body body' : Config → LedUnit → Except Stop (Flow × LedUnit)}
    {c : Rgb} (h : body s.cfg (s.lu.withOp (latch s.lu.op)) = colourBody s.cfg c (s.lu.withOp (latch s.lu.op)))
    (h' : body' s.cfg (s.lu.withOp (latch' s.lu.op)) = colourBody s.cfg c (s.lu.withOp (latch' s.lu.op))) :
    SameLedEffect (s.ledOp latch body) (s.ledOp latch' body') := by
  rw [colourBody_withOp] at h h'
  unfold State.ledOp
  split
  · split
    · rfl
    · rw [show body s.cfg { s.lu with op := latch s.lu.op } = _ from h, show body' s.cfg { s.lu with op := latch' s.lu.op } = _ from h']
      cases colourBody s.cfg c s.lu with
      | ok r =>
        simp only [Except.map, outcomeOf, LedUnit.finish_resultWithOp]
        rfl
      | error e => cases e <;> rfl
  · rfl

/-- Settles O56: the three operations differ only in where the colour comes from. -/
theorem colourOperationsAreSetColor : Obligations.ColourOperationsAreSetColor := by
  refine ⟨fun hue sat val s => ?_, fun s => ?_⟩
  · rw [exec_setHsv, exec_setColor]
    exact State.ledOp_sameLedEffect (c := hsvToRgb hue sat val) (setHsvBody_eq_colourBody _ _) (setColorBody_eq_colourBody _ _)
  · rw [exec_turnOff, exec_setColor]
    exact State.ledOp_sameLedEffect (c := blackRgb) (turnOffBody_eq_colourBody _ _) (setColorBody_eq_colourBody _ _)

end Sys2Proof.Machine

/-! The Panel Engine's initialisation and its address window (40_panel_init_window.md): PANEL_INIT under a script of answers, what the panel
makes of a failed set-up transaction (20_memory.md R85), and SET_WINDOW with what it leaves on the panel. -/

namespace Sys2Proof.Machine

/-! ### How an operation ends -/

/-- An operation that has ended, as events of the unit it was issued to: the free answers are as before, the work is cleared. -/
theorem PanelUnit.ended_eq_ran (cfg : Config) (es : List PanelEvent) (rest : List Answer) (o : Latches) (st : Status) (u : PanelUnit) :
    u.ended cfg es rest o st = { u.ran cfg es rest u.env.drawn .clear with op := o, status := st } := by
  rw [PanelUnit.ended, PanelUnit.after_eq_ran]
  rfl

/-! ### PANEL_INIT (R141) -/

/-- The pins that PANEL_INIT copies from its operand latches to `S.pe_cfg` (R141, 10_state.md R28). -/
def Latches.panelPins (o : Latches) : PanelPins :=
  { pinDc := o.pinDc, pinRst := o.pinRst, pinCs := o.pinCs, pinSclk := o.pinSclk, pinMosi := o.pinMosi, busHz := o.busHz }

/-- The unit from which the set-up sequence of a PANEL_INIT on latches `o` runs: the claim answered `ok`, the controller reset, `rest` what
is left of the script (R141, R142). -/
def PanelUnit.controllerReset (cfg : Config) (o : Latches) (rest : List Answer) (u : PanelUnit) : PanelUnit :=
  (latchPins { u with op := o }).ran cfg (.claim .ok :: resetEvents cfg) rest u.env.drawn u.work

/-- A PANEL_INIT that ends with status `st` after the events `es` of its set-up sequence, `n` of its transactions counted as failed. -/
theorem PanelUnit.controllerReset_ended (cfg : Config) (o : Latches) (rest rest' : List Answer) (es : List PanelEvent) (n : BitVec 16)
    (st : Status) (u : PanelUnit) :
    { PanelUnit.ran cfg es rest' u.env.drawn u.work { u.controllerReset cfg o rest with setupErrs := n } with
        status := st, work := .clear } =
      { u.ended cfg (.claim .ok :: resetEvents cfg ++ es) rest' o st with setupErrs := n, pins := o.panelPins } := by
  rw [PanelUnit.ended_eq_ran, ← PanelUnit.ran_ran cfg u (.claim .ok :: resetEvents cfg) es rest rest' u.env.drawn u.env.drawn u.work .clear]
  rfl

section
variable {dc rst cs sclk mosi : Byte} {hz : Word} {s : State} {rest rest' : List Answer} {es : List PanelEvent} {n : BitVec 16}

/-- PANEL_INIT after its claim has been answered `ok` is its set-up sequence. -/
theorem exec_panelInit_claimed (hs : s.PanelIdle) (hi : s.pu.init = false) (ha : s.pu.env.answers = .ok :: rest) :
    exec (.panelInit dc rst cs sclk mosi hz) s = .next { s with
      pu := PanelUnit.finish (andThen
        (setupSequence s.cfg s.cfg.initSeq (s.pu.controllerReset s.cfg (latchedBy s.pu.op (.panelInit dc rst cs sclk mosi hz)) rest))
        fun v => (.done, { v with init := true })) } := by
  rw [exec_panelInit]
  exact State.panelOp_next hs
    (panelInitBody_claimed (u := { s.pu with op := latchedBy s.pu.op (.panelInit dc rst cs sclk mosi hz) }) hi ha)

/-- A PANEL_INIT whose set-up sequence is done. -/
theorem exec_panelInit_done (hs : s.PanelIdle) (hi : s.pu.init = false) (ha : s.pu.env.answers = .ok :: rest)
    (hrun : setupSequence s.cfg s.cfg.initSeq
        (s.pu.controllerReset s.cfg (latchedBy s.pu.op (.panelInit dc rst cs sclk mosi hz)) rest) =
      (.done, PanelUnit.ran s.cfg es rest' s.pu.env.drawn s.pu.work
        { s.pu.controllerReset s.cfg (latchedBy s.pu.op (.panelInit dc rst cs sclk mosi hz)) rest with setupErrs := n })) :
    let o := latchedBy s.pu.op (.panelInit dc rst cs sclk mosi hz)
    exec (.panelInit dc rst cs sclk mosi hz) s = .next { s with
      pu := { s.pu.ended s.cfg (.claim .ok :: resetEvents s.cfg ++ es) rest' o .ok with init := true, setupErrs := n, pins := o.panelPins } } := by
  intro o
  rw [exec_panelInit_claimed hs hi ha, hrun, andThen_done, PanelUnit.finish_done]
  exact congrArg (fun u : PanelUnit => Host.Outcome.next { s with pu := { u with init := true } })
    (PanelUnit.controllerReset_ended s.cfg o rest rest' es n .ok s.pu)

/-- A PANEL_INIT whose set-up sequence stops with the failure `st`. -/
theorem exec_panelInit_stopped {st : Status} (hs : s.PanelIdle) (hi : s.pu.init = false) (ha : s.pu.env.answers = .ok :: rest)
    (hrun : setupSequence s.cfg s.cfg.initSeq
        (s.pu.controllerReset s.cfg (latchedBy s.pu.op (.panelInit dc rst cs sclk mosi hz)) rest) =
      (.fail st, PanelUnit.ran s.cfg es rest' s.pu.env.drawn s.pu.work
        (s.pu.controllerReset s.cfg (latchedBy s.pu.op (.panelInit dc rst cs sclk mosi hz)) rest))) :
    let o := latchedBy s.pu.op (.panelInit dc rst cs sclk mosi hz)
    exec (.panelInit dc rst cs sclk mosi hz) s = .next { s with
      pu := { s.pu.ended s.cfg (.claim .ok :: resetEvents s.cfg ++ es) rest' o st with setupErrs := 0, pins := o.panelPins } } := by
  intro o
  rw [exec_panelInit_claimed hs hi ha, hrun, andThen_fail, PanelUnit.finish_fail]
  exact congrArg (fun u : PanelUnit => Host.Outcome.next { s with pu := u })
    (PanelUnit.controllerReset_ended s.cfg o rest rest' es 0 st s.pu)

end

/-- Settles O22: `setupSequence_ok` after the claim and the controller's reset. -/
theorem panelInitCompletes : Obligations.PanelInitCompletes := by
  intro dc rst cs sclk mosi hz s rest hs hi ha
  have hclaim : s.pu.env.answers = .ok :: (List.replicate (setupTxs s.cfg).length .ok ++ rest) := by
    rw [ha, Nat.add_comm, List.replicate_succ, List.cons_append]
  exact exec_panelInit_done hs hi hclaim (setupSequence_ok _ _ _ rest rfl)

/-- Settles O23: `panelInitBody_notClaimed` with the answer `fail`. -/
theorem panelInitClaimFails : Obligations.PanelInitClaimFails := by
  intro dc rst cs sclk mosi hz s rest hs hi ha
  have hbody := panelInitBody_notClaimed (cfg := s.cfg)
    (u := { s.pu with op := latchedBy s.pu.op (.panelInit dc rst cs sclk mosi hz) }) hi (by decide) ha
  rw [exec_panelInit, State.panelOp_next hs hbody, if_pos rfl, PanelUnit.finish_fail, PanelUnit.ended_eq_ran]
  rfl

/-! ### Failed set-up transactions (R144, R85) -/

theorem zip_append_drop {α β : Type} (l₁ l₂ : List α) (as : List β) :
    (l₁ ++ l₂).zip as = l₁.zip as ++ l₂.zip (as.drop l₁.length) := by
  induction l₁ generalizing as with
  | nil => rfl
  | cons x l₁ ih => cases as with
    | nil => simp
    | cons a as => simp [ih]

/-- The transactions among the events of one set-up transaction under `IGNORE`: that one, whether a `Log` follows it or not. -/
theorem filterMap_txOf_ignoredTx (cmd : Byte) (c : TxContent × Answer) : (ignoredTx cmd c).filterMap txOf = [c] := by
  obtain ⟨c, a⟩ := c
  cases a with
  | ok | fail | never => rfl

theorem filterMap_txOf_ignoredTxs (cmd : Byte) (cs : List (TxContent × Answer)) :
    (cs.flatMap (ignoredTx cmd)).filterMap txOf = cs := by
  induction cs with
  | nil => rfl
  | cons c cs ih => rw [List.flatMap_cons, List.filterMap_append, filterMap_txOf_ignoredTx, ih, List.singleton_append]

theorem filterMap_txOf_delay (n : Nat) : (if 0 < n then [PanelEvent.delay n] else []).filterMap txOf = [] := by
  split <;> rfl

/-- Under `IGNORE` every transaction of every entry is sent, each with its own answer. -/
theorem filterMap_txOf_ignoredEvents (es : List InitEntry) (as : List Answer) :
    (ignoredEvents es as).filterMap txOf = (es.flatMap entryTx).zip as := by
  induction es generalizing as with
  | nil => rfl
  | cons e es ih =>
    rw [ignoredEvents, List.filterMap_append, List.filterMap_append, filterMap_txOf_ignoredTxs, filterMap_txOf_delay, List.append_nil,
      ih, List.flatMap_cons, zip_append_drop]

theorem eq_txEvent_of_txOf {e : PanelEvent} {c : TxContent} {a : Answer} (h : txOf e = some (c, a)) : e = txEvent a c := by
  cases e with
  | tx dc bytes ans => cases h; rfl
  | claim | pinOutDc | rst | delay | log => cases h

/-- A failed answer in the script is a failed transaction in the trace. -/
theorem exists_failed_mem_ignoredEvents {es : List InitEntry} {as : List Answer} (hl : as.length = (es.flatMap entryTx).length)
    (hf : Answer.fail ∈ as) : ∃ c, txEvent .fail c ∈ ignoredEvents es as := by
  rw [← List.map_snd_zip (l₁ := es.flatMap entryTx) hl.le, ← filterMap_txOf_ignoredEvents] at hf
  obtain ⟨⟨c, a⟩, hc, rfl⟩ := List.mem_map.1 hf
  obtain ⟨e, he, htx⟩ := List.mem_filterMap.1 hc
  exact ⟨c, eq_txEvent_of_txOf htx ▸ he⟩

/-- A panel that has seen a failed transaction is dead, whatever came before and after it. -/
theorem PanelSink.observe_all_dead_of_fail (cfg : Config) (p : PanelSink) {es : List PanelEvent} {c : TxContent} (h : txEvent .fail c ∈ es) :
    (es.foldl (PanelSink.observe cfg) p).dead = true := by
  obtain ⟨before, behind, rfl⟩ := List.append_of_mem h
  rw [List.foldl_append, List.foldl_cons]
  generalize before.foldl (PanelSink.observe cfg) p = q
  have hdead : (q.observe cfg (txEvent .fail c)).dead = true := by
    cases hq : q.dead with
    | true => rw [PanelSink.observe_of_dead cfg hq, hq]
    | false => rw [txEvent, PanelSink.observe_tx_fail cfg hq]; rfl
  rw [PanelSink.observe_all_of_dead cfg hdead, hdead]

theorem PanelUnit.ended_sink (cfg : Config) (es : List PanelEvent) (rest : List Answer) (o : Latches) (st : Status) (u : PanelUnit) :
    (u.ended cfg es rest o st).env.sink = es.foldl (PanelSink.observe cfg) u.env.sink :=
  PanelSide.observe_all_sink cfg es u.env

/-- Settles O24: `setupSequence_ignore` and, for the panel, the failed transaction it has seen; `setupSequence_stops` under `PROPAGATE`. -/
theorem setupFailurePolicy : Obligations.SetupFailurePolicy := by
  intro dc rst cs sclk mosi hz s hs hi o pins
  refine ⟨fun hp as rest hl hn ha => ⟨_, ?_, rfl, fun hf => ?_⟩, fun hp j rest hj ha => ?_⟩
  · have hcount : countedErrs 0 (as.count .fail) = BitVec.ofNat 16 (min (as.count .fail) 65535) :=
      congrArg (fun n => BitVec.ofNat 16 (min n 65535)) (Nat.zero_add _)
    rw [← hcount]
    exact exec_panelInit_done hs hi ha (setupSequence_ignore hp _ _ as rest hl hn rfl)
  · obtain ⟨c, hc⟩ := exists_failed_mem_ignoredEvents hl hf
    have hdead := PanelSink.observe_all_dead_of_fail s.cfg s.pu.env.sink
      (List.mem_append_right (.claim .ok :: resetEvents s.cfg) hc)
    rw [← PanelUnit.ended_sink s.cfg _ rest o .ok] at hdead
    exact hdead
  · obtain ⟨before, c, behind, hevents, hcount, hrun⟩ := setupSequence_stops (.inl ⟨rfl, hp⟩) s.cfg.initSeq
      (s.pu.controllerReset s.cfg o (List.replicate j .ok ++ .fail :: rest)) j rest hj rfl
    refine ⟨before, c, behind, hevents, hcount, ?_⟩
    rw [List.append_assoc]
    exact exec_panelInit_stopped hs hi ha hrun

/-! ### SET_WINDOW (R151, R152) -/

theorem windowInside_iff (cfg : Config) (x0 y0 x1 y1 : Nat) :
    windowInside cfg x0 y0 x1 y1 = true ↔ x0 ≤ x1 ∧ x1 < cfg.panelW ∧ y0 ≤ y1 ∧ y1 < cfg.panelH := by
  simp only [windowInside, Bool.and_eq_true, decide_eq_true_eq, and_assoc]

theorem setWindowBody_notInit (cfg : Config) {u : PanelUnit} (hi : u.init = false) :
    setWindowBody cfg u = .ok (.fail .notInitialized, u) := by
  simp only [setWindowBody, whenPanelReady, hi, Bool.false_eq_true, if_false]

theorem setWindowBody_outside {cfg : Config} {u : PanelUnit} (hi : u.init = true)
    (hb : windowInside cfg u.op.x0.toNat u.op.y0.toNat u.op.x1.toNat u.op.y1.toNat = false) :
    setWindowBody cfg u = .ok (.fail .invalidBounds, u) := by
  simp only [setWindowBody, whenPanelReady, hi, if_true, hb, Bool.false_eq_true, if_false]

/-- SET_WINDOW of a window of the panel, on an engine that is ready, is its five transactions. -/
theorem exec_setWindow_inside {x0 y0 x1 y1 : Half} {s : State} (hs : s.PanelReady)
    (hin : x0.toNat ≤ x1.toNat ∧ x1.toNat < s.cfg.panelW ∧ y0.toNat ≤ y1.toNat ∧ y1.toNat < s.cfg.panelH) :
    exec (.setWindow x0 y0 x1 y1) s = .next { s with
      pu := PanelUnit.finish (sendAll s.cfg (windowTx s.cfg x0.toNat y0.toNat x1.toNat y1.toNat)
        { s.pu with op := { s.pu.op with x0, y0, x1, y1 } }) } := by
  rw [exec_setWindow]
  exact State.panelOp_next hs.1 (setWindowBody_eq hs.2 ((windowInside_iff ..).2 hin))

/-- Settles O26, by the branches of the body. -/
theorem setWindowMeaning : Obligations.SetWindowMeaning := by
  intro x0 y0 x1 y1 s hs o txs inside
  refine ⟨fun hi => ?notInitialized, fun hi hout => ?invalidBounds, fun hi hin rest ha => ?allOk, fun hi hin j rest hj ha => ?failed⟩
  case notInitialized =>
    rw [exec_setWindow, State.panelOp_next hs (setWindowBody_notInit s.cfg hi)]
    rfl
  case invalidBounds =>
    have hb : windowInside s.cfg x0.toNat y0.toNat x1.toNat y1.toNat = false :=
      Bool.eq_false_iff.2 fun hb => hout ((windowInside_iff ..).1 hb)
    rw [exec_setWindow, State.panelOp_next hs (setWindowBody_outside hi hb)]
    rfl
  case allOk =>
    rw [exec_setWindow_inside ⟨hs, hi⟩ hin, finish_of_sameTraffic_ok (SameTraffic.refl _) ha]
  case failed =>
    rw [exec_setWindow_inside ⟨hs, hi⟩ hin, finish_of_sameTraffic_fail (SameTraffic.refl _) hj ha]

/-- A SET_WINDOW that ended `OK`: its window is one of the panel's, and the panel has seen its transactions. -/
theorem exec_setWindow_ok {x0 y0 x1 y1 : Half} {s t : State} (hs : s.PanelReady) (he : exec (.setWindow x0 y0 x1 y1) s = .next t)
    (hok : t.pu.status = .ok) (hf : t.pu.inFlight = false) :
    (x0.toNat ≤ x1.toNat ∧ x1.toNat < s.cfg.panelW ∧ y0.toNat ≤ y1.toNat ∧ y1.toNat < s.cfg.panelH) ∧
    t.pu.env.sink = (okEvents (windowTx s.cfg x0.toNat y0.toNat x1.toNat y1.toNat)).foldl (PanelSink.observe s.cfg) s.pu.env.sink := by
  by_cases hin : x0.toNat ≤ x1.toNat ∧ x1.toNat < s.cfg.panelW ∧ y0.toNat ≤ y1.toNat ∧ y1.toNat < s.cfg.panelH
  · rw [exec_setWindow_inside hs hin] at he
    cases he
    exact ⟨hin, (SameTraffic.refl _).sink_of_ok hok hf⟩
  · obtain ⟨-, hrejected, -⟩ := setWindowMeaning x0 y0 x1 y1 s hs.1
    rw [hrejected hs.2 hin] at he
    cases he
    cases hok

/-- A coordinate of the panel with its offset added fits in 16 bits (00_scope.md R6). -/
theorem toNat_ofNat_coord {a o size : Nat} (ha : a < size) (hsize : size + o ≤ 65536) : (BitVec.ofNat 16 (a + o)).toNat = a + o :=
  Nat.mod_eq_of_lt (by omega)

/-- Settles O27: `sink_window`, with nothing cut. -/
theorem setWindowOnPanel : Obligations.SetWindowOnPanel := by
  intro x0 y0 x1 y1 s t hs hdead he hok hf
  obtain ⟨⟨hx, hx1, hy, hy1⟩, hsink⟩ := exec_setWindow_ok hs he hok hf
  have hv : s.cfg.valid = true := hs.1.1
  obtain ⟨-, -, -, -, -, -, -, hcols, hrows⟩ := Config.valid_safe hv
  rw [hsink, sink_window hv hdead]
  exact ⟨rfl, rfl, rfl, toNat_ofNat_coord (hx.trans_lt hx1) hcols, toNat_ofNat_coord hx1 hcols,
    toNat_ofNat_coord (hy.trans_lt hy1) hrows, toNat_ofNat_coord hy1 hrows, rfl⟩

end Sys2Proof.Machine

/-! The rectangle fill and the pixel (41_panel_fill_pixel.md): how a fill is cut into chunks (R162), every case of FILL and of DRAW_PIXEL
(R161, R165), and what FILL leaves on the panel (R163). -/

namespace Sys2Proof.Machine

/-! ### Chunks (R162) -/

/-- The last of the chunks apart: it is what the full chunks before it leave, whether that is a full chunk again or not. -/
theorem chunkSizes_eq_append_last {n : Nat} (hn : 1 ≤ n) (c : Nat) :
    chunkSizes n c = List.replicate ((n - 1) / c) c ++ [n - c * ((n - 1) / c)] := by
  obtain ⟨m, rfl⟩ := Nat.exists_eq_add_of_le' hn
  rw [chunkSizes, Nat.add_sub_cancel]
  by_cases hdvd : c ∣ m + 1
  · have hlast : m + 1 - c * (m / c) = c := by
      rw [← Nat.mul_div_cancel' hdvd, Nat.succ_div_of_dvd hdvd, Nat.mul_add_one, Nat.add_sub_cancel_left]
    rw [if_pos (Nat.mod_eq_zero_of_dvd hdvd), List.append_nil, Nat.succ_div_of_dvd hdvd, List.replicate_succ', hlast]
  · rw [if_neg (mt Nat.dvd_of_mod_eq_zero hdvd), Nat.mod_eq_sub, Nat.succ_div_of_not_dvd hdvd]

theorem chunkSizes_length {n c : Nat} (hn : 1 ≤ n) (hc : 1 ≤ c) : (chunkSizes n c).length = (n + c - 1) / c := by
  rw [chunkSizes_eq_append_last hn, List.length_append, List.length_replicate, List.length_singleton, ← Nat.add_div_right _ hc,
    Nat.sub_add_comm hn]

/-- The chunks carry together what one chunk of all the pixels would. -/
theorem flatten_chunkBytes (color : Pixel) (n c : Nat) : ((chunkSizes n c).map (chunkBytes color)).flatten = chunkBytes color n := by
  have hbytes : chunkBytes color = fun k => (List.replicate k color).flatMap be16 := funext (chunkBytes_eq_pixelBytes color)
  rw [hbytes, ← List.flatMap_def, ← List.flatMap_assoc, List.flatMap_def (l := chunkSizes n c), flatten_chunks]

/-- STREAM with every answer `ok`: one data transaction for each chunk. -/
theorem stream_ok {cfg : Config} (hc : 1 ≤ cfg.chunkPixels) (color : Pixel) (n : Nat) {u : PanelUnit} {rest : List Answer}
    (ha : u.env.answers = List.replicate (chunkSizes n cfg.chunkPixels).length .ok ++ rest) :
    (stream cfg color n u).1 = .done ∧
    (stream cfg color n u).2.trace =
      u.trace ++ (chunkSizes n cfg.chunkPixels).map fun k => .tx .data (chunkBytes color k) .ok := by
  obtain ⟨hflow, hunit⟩ := streamLoop_sameTraffic cfg hc color n n (Nat.le_refl n) u
  have hsent := sendAll_ok cfg ((chunkSizes n cfg.chunkPixels).map fun k => (DcLine.data, chunkBytes color k)) u rest
    (by rw [List.length_map]; exact ha)
  have htrace := congrArg PanelUnit.trace hunit
  rw [hsent] at hflow htrace
  refine ⟨hflow, htrace.trans ?_⟩
  show u.trace ++ okEvents _ = _
  rw [okEvents, List.map_map]
  rfl

/-- Settles O29: `stream_ok`, and the last chunk told apart (`chunkSizes_eq_append_last`). -/
theorem streamChunks : Obligations.StreamChunks := by
  intro cfg color n u rest hc hn sizes ha
  obtain ⟨hflow, htrace⟩ := stream_ok hc color n ha
  have hsizes : sizes = List.replicate ((n - 1) / cfg.chunkPixels) cfg.chunkPixels ++
      [n - cfg.chunkPixels * ((n - 1) / cfg.chunkPixels)] := chunkSizes_eq_append_last hn cfg.chunkPixels
  refine ⟨hflow, htrace, chunkSizes_length hn hc, fun k hk => ?_, ?_, flatten_chunkBytes color n cfg.chunkPixels⟩
  · rw [hsizes, List.dropLast_concat] at hk
    exact List.eq_of_mem_replicate hk
  · rw [hsizes, List.getLast?_concat]

/-! ### FILL (R161) -/

theorem insidePanel_iff (cfg : Config) (x y w h : Nat) :
    insidePanel cfg x y w h = true ↔ x + w ≤ cfg.panelW ∧ y + h ≤ cfg.panelH := by
  simp only [insidePanel, Bool.and_eq_true, decide_eq_true_eq]

theorem whenPanelReady_notInit {u : PanelUnit} (hi : u.init = false) (body : Except Stop (Flow × PanelUnit)) :
    whenPanelReady u body = .ok (.fail .notInitialized, u) := by
  rw [whenPanelReady, if_neg (Bool.eq_false_iff.1 hi)]

theorem whenPanelReady_init {u : PanelUnit} (hi : u.init = true) (body : Except Stop (Flow × PanelUnit)) :
    whenPanelReady u body = body := by
  rw [whenPanelReady, if_pos hi]

/-- An operation that fails before any event leaves its latches and its status. -/
theorem State.panelOp_endedEarly {s : State} (hs : s.PanelIdle) {latch : Latches → Latches}
    {body : Config → PanelUnit → Except Stop (Flow × PanelUnit)} {st : Status}
    (hb : body s.cfg { s.pu with op := latch s.pu.op } = .ok (.fail st, { s.pu with op := latch s.pu.op })) :
    s.panelOp latch body = .next { s with pu := s.pu.endedEarly (latch s.pu.op) st } :=
  State.panelOp_next hs hb

theorem fillBody_notInit (cfg : Config) {u : PanelUnit} (hi : u.init = false) : fillBody cfg u = .ok (.fail .notInitialized, u) :=
  whenPanelReady_notInit hi _

theorem fillBody_outside {cfg : Config} {u : PanelUnit} (hi : u.init = true) (hw : u.op.w.toNat ≠ 0) (hh : u.op.h.toNat ≠ 0)
    (hb : ¬ insidePanel cfg u.op.x.toNat u.op.y.toNat u.op.w.toNat u.op.h.toNat = true) :
    fillBody cfg u = .ok (.fail .invalidBounds, u) := by
  rw [fillBody, whenPanelReady_init hi]
  exact (if_neg (not_or.2 ⟨hw, hh⟩)).trans (if_neg hb)

/-- FILL of a rectangle of the panel, on an engine that is ready, is its transactions. -/
theorem exec_fill_inside {color : Pixel} {x y w h : Half} {s : State} (hs : s.PanelReady) (hw : w ≠ 0) (hh : h ≠ 0)
    (hin : x.toNat + w.toNat ≤ s.cfg.panelW ∧ y.toNat + h.toNat ≤ s.cfg.panelH) :
    ∃ r, exec (.fill color x y w h) s = .next { s with pu := PanelUnit.finish r } ∧
      SameTraffic r (sendAll s.cfg (fillTx s.cfg color x.toNat y.toNat w.toNat h.toNat)
        { s.pu with op := { s.pu.op with color, x, y, w, h } }) := by
  obtain ⟨r, hbody, htraffic⟩ := fillBody_eq hs.1.1 (u := { s.pu with op := { s.pu.op with color, x, y, w, h } }) hs.2
    (BitVec.toNat_ne_iff_ne.2 hw) (BitVec.toNat_ne_iff_ne.2 hh) ((insidePanel_iff ..).2 hin)
  exact ⟨r, (exec_fill ..).trans (State.panelOp_next hs.1 hbody), htraffic⟩

/-- Settles O28, by the branches of the body. -/
theorem fillMeaning : Obligations.FillMeaning := by
  intro color x y w h s hs o cs inside
  refine ⟨fun hi => ?notInitialized, fun hi hempty => ?emptyRectangle, fun hi hw hh hout => ?invalidBounds,
    fun hi hw hh hin rest ha => ?allOk, fun hi hw hh hin j rest hj ha => ?failed⟩
  case notInitialized =>
    rw [exec_fill]
    exact State.panelOp_endedEarly hs (fillBody_notInit s.cfg hi)
  case emptyRectangle =>
    rw [exec_fill]
    exact State.panelOp_refused hs (fillBody_eq_error_iff.2 ⟨hi, hempty, rfl⟩)
  case invalidBounds =>
    rw [exec_fill]
    exact State.panelOp_endedEarly hs
      (fillBody_outside hi (BitVec.toNat_ne_iff_ne.2 hw) (BitVec.toNat_ne_iff_ne.2 hh) (mt (insidePanel_iff ..).1 hout))
  case allOk =>
    obtain ⟨r, hexec, htraffic⟩ := exec_fill_inside (color := color) ⟨hs, hi⟩ hw hh hin
    rw [hexec, finish_of_sameTraffic_ok htraffic ha]
  case failed =>
    obtain ⟨r, hexec, htraffic⟩ := exec_fill_inside (color := color) ⟨hs, hi⟩ hw hh hin
    rw [hexec, finish_of_sameTraffic_fail htraffic hj ha]

/-! ### What FILL leaves on the panel (R163) -/

/-- Settles O30: the panel has seen a window and the pixels that fill it (`sink_fill`), and `read_rectangle` says what is read then. -/
theorem fillPaintsRectangle : Obligations.FillPaintsRectangle := by
  intro color x y w h s t hs hdead hm he hok hf
  obtain ⟨hv, hw, hh, hin, hseen⟩ := exec_fill_ok hs.2 he hok hf
  obtain ⟨hcfg, -⟩ := exec_panelSaw he
  obtain ⟨hxs, hxe, hys, hye⟩ := window_coords hv hin hw hh
  obtain ⟨hpixel, hframe⟩ := read_rectangle hv hm hin hw (List.replicate (w.toNat * h.toNat) color) List.length_replicate
  rw [sink_fill hv hdead hm hin hw hh] at hseen
  refine ⟨fun i j hi hj => ?_, ?_⟩
  · have hlt : j * w.toNat + i < w.toNat * h.toNat := by
      have hrow : w.toNat * (j + 1) ≤ w.toNat * h.toNat := Nat.mul_le_mul_left _ hj
      rw [Nat.mul_succ, Nat.mul_comm _ j] at hrow
      omega
    rw [State.pixelAt, hcfg, hseen, hpixel i j hi hj (by rwa [List.length_replicate]), List.getElem_replicate]
  · rw [hseen]
    exact ⟨hframe, rfl, rfl, hxs, hxe, hys, hye, rfl⟩

/-! ### DRAW_PIXEL (R165) -/

theorem drawPixelBody_notInit (cfg : Config) {u : PanelUnit} (hi : u.init = false) : drawPixelBody cfg u = .ok (.fail .notInitialized, u) :=
  whenPanelReady_notInit hi _

theorem drawPixelBody_outside {cfg : Config} {u : PanelUnit} (hi : u.init = true)
    (hb : ¬ insidePanel cfg u.op.x.toNat u.op.y.toNat 1 1 = true) : drawPixelBody cfg u = .ok (.fail .invalidBounds, u) := by
  rw [drawPixelBody, whenPanelReady_init hi]
  exact if_neg hb

/-- DRAW_PIXEL of a pixel of the panel, on an engine that is ready, is its six transactions. -/
theorem exec_drawPixel_inside {x y : Half} {color : Pixel} {s : State} (hs : s.PanelReady)
    (hin : x.toNat + 1 ≤ s.cfg.panelW ∧ y.toNat + 1 ≤ s.cfg.panelH) :
    exec (.drawPixel x y color) s = .next { s with
      pu := PanelUnit.finish (sendAll s.cfg (windowTx s.cfg x.toNat y.toNat x.toNat y.toNat ++ [(.data, be16 color)])
        { s.pu with op := { s.pu.op with x, y, color } }) } := by
  rw [exec_drawPixel]
  exact State.panelOp_next hs.1 (drawPixelBody_eq hs.2 ((insidePanel_iff ..).2 hin))

/-- Settles O32, by the branches of the body. -/
theorem drawPixelMeaning : Obligations.DrawPixelMeaning := by
  intro x y color s hs o cs inside
  refine ⟨fun hi => ?notInitialized, fun hi hout => ?invalidBounds, fun hi hin rest ha => ?allOk, fun hi hin j rest hj ha => ?failed⟩
  case notInitialized =>
    rw [exec_drawPixel]
    exact State.panelOp_endedEarly hs (drawPixelBody_notInit s.cfg hi)
  case invalidBounds =>
    rw [exec_drawPixel]
    exact State.panelOp_endedEarly hs (drawPixelBody_outside hi (mt (insidePanel_iff ..).1 hout))
  case allOk =>
    rw [exec_drawPixel_inside ⟨hs, hi⟩ hin, finish_of_sameTraffic_ok (SameTraffic.refl _) ha]
  case failed =>
    rw [exec_drawPixel_inside ⟨hs, hi⟩ hin, finish_of_sameTraffic_fail (SameTraffic.refl _) hj ha]

end Sys2Proof.Machine

/-! Glyphs and text, as operations (42_panel_text.md R176, R182, R190, R200): every case of DRAW_GLYPH, DRAW_STRING, DRAW_WRAPPED and
DRAW_FORMATTED in which the panel answers, and what the panel has seen when one of them has ended `OK`. -/

namespace Sys2Proof.Machine

/-! ### The entry tests -/

theorem whenScaled_of_ne_zero {u : PanelUnit} (hz : u.op.scale.toNat ≠ 0) (r : Flow × PanelUnit) : whenScaled u r = .ok r := if_neg hz

/-- GLYPH's bounds test fails before any event (R177). -/
theorem glyph_outside {cfg : Config} (hv : cfg.valid = true) {x y s : Nat} (hb : ¬ insidePanel cfg x y (8 * s) (8 * s) = true) (ch : Byte)
    (fg bg : Pixel) (u : PanelUnit) : glyph cfg x y ch fg bg s u = (.fail .invalidBounds, u) := by
  unfold glyph
  rw [glyphWidth_eq hv, glyphHeight_eq hv]
  exact if_neg hb

/-- WRAPPED's entry test fails before any event (R194). -/
theorem wrapped_noRoom {cfg : Config} (hv : cfg.valid = true) {x s : Nat} (hx : ¬ x + 8 * s ≤ cfg.safeW) (y : Nat) (text : List Byte)
    (fg bg : Pixel) (want : Bool) (u : PanelUnit) : wrapped cfg x y text fg bg s want u = (.fail .invalidBounds, u) := by
  unfold wrapped
  rw [glyphWidth_eq hv]
  exact if_pos (Nat.not_le.1 hx)

theorem drawGlyphBody_notInit (cfg : Config) {u : PanelUnit} (hi : u.init = false) : drawGlyphBody cfg u = .ok (.fail .notInitialized, u) :=
  whenPanelReady_notInit hi _
theorem drawStringBody_notInit (cfg : Config) {u : PanelUnit} (hi : u.init = false) : drawStringBody cfg u = .ok (.fail .notInitialized, u) :=
  whenPanelReady_notInit hi _
theorem drawWrappedBody_notInit (cfg : Config) {u : PanelUnit} (hi : u.init = false) :
    drawWrappedBody cfg u = .ok (.fail .notInitialized, u) :=
  whenPanelReady_notInit hi _
theorem drawFormattedBody_notInit (cfg : Config) {u : PanelUnit} (hi : u.init = false) :
    drawFormattedBody cfg u = .ok (.fail .notInitialized, u) :=
  whenPanelReady_notInit hi _

/-! ### DRAW_GLYPH (R176) -/

theorem drawGlyphBody_outside {cfg : Config} (hv : cfg.valid = true) {u : PanelUnit} (hi : u.init = true) (hz : u.op.scale.toNat ≠ 0)
    (hb : ¬ insidePanel cfg u.op.x.toNat u.op.y.toNat (8 * u.op.scale.toNat) (8 * u.op.scale.toNat) = true) :
    drawGlyphBody cfg u = .ok (.fail .invalidBounds, u) := by
  rw [drawGlyphBody, whenPanelReady_init hi, whenScaled_of_ne_zero hz, glyph_outside hv hb]

/-- DRAW_GLYPH of a cell of the panel, on an engine that is ready, is its six transactions. -/
theorem exec_drawGlyph_inside {x y : Half} {ch : Byte} {fg bg : Pixel} {scale : Byte} {s : State} (hs : s.PanelReady) (hz : scale ≠ 0)
    (hin : x.toNat + 8 * scale.toNat ≤ s.cfg.panelW ∧ y.toNat + 8 * scale.toNat ≤ s.cfg.panelH) :
    ∃ r, exec (.drawGlyph x y ch fg bg scale) s = .next { s with pu := PanelUnit.finish r } ∧
      SameTraffic r (sendAll s.cfg (glyphTx s.cfg x.toNat y.toNat ch fg bg scale.toNat)
        { s.pu with op := { s.pu.op with x, y, ch, fg, bg, scale } }) := by
  obtain ⟨r, hbody, htraffic⟩ := drawGlyphBody_eq hs.1.1 (u := { s.pu with op := { s.pu.op with x, y, ch, fg, bg, scale } }) hs.2
    (BitVec.toNat_ne_iff_ne.2 hz) ((insidePanel_iff ..).2 hin)
  exact ⟨r, (exec_drawGlyph ..).trans (State.panelOp_next hs.1 hbody), htraffic⟩

/-- Settles O36, by the branches of the body. -/
theorem drawGlyphMeaning : Obligations.DrawGlyphMeaning := by
  intro x y ch fg bg scale s hs o gw cs inside
  refine ⟨fun hi => ?notInitialized, fun hi hz => ?zeroScale, fun hi hz hout => ?invalidBounds,
    fun hi hz hin rest ha => ?allOk, fun hi hz hin j rest hj ha => ?failed⟩
  case notInitialized =>
    rw [exec_drawGlyph]
    exact State.panelOp_endedEarly hs (drawGlyphBody_notInit s.cfg hi)
  case zeroScale =>
    rw [exec_drawGlyph]
    exact State.panelOp_refused hs (drawGlyphBody_eq_error_iff.2 ⟨hi, hz, rfl⟩)
  case invalidBounds =>
    rw [exec_drawGlyph]
    exact State.panelOp_endedEarly hs
      (drawGlyphBody_outside hs.1 hi (BitVec.toNat_ne_iff_ne.2 hz) (mt (insidePanel_iff ..).1 hout))
  case allOk =>
    obtain ⟨r, hexec, htraffic⟩ := exec_drawGlyph_inside (ch := ch) (fg := fg) (bg := bg) ⟨hs, hi⟩ hz hin
    rw [hexec, finish_of_sameTraffic_ok htraffic ha]
  case failed =>
    obtain ⟨r, hexec, htraffic⟩ := exec_drawGlyph_inside (ch := ch) (fg := fg) (bg := bg) ⟨hs, hi⟩ hz hin
    rw [hexec, finish_of_sameTraffic_fail htraffic hj ha]

/-- A DRAW_GLYPH that ended `OK`: its cell is one of the panel's, and the panel has seen its transactions. -/
theorem exec_drawGlyph_ok {x y : Half} {ch : Byte} {fg bg : Pixel} {scale : Byte} {s t : State} (hs : s.PanelReady)
    (he : exec (.drawGlyph x y ch fg bg scale) s = .next t) (hok : t.pu.status = .ok) (hf : t.pu.inFlight = false) :
    0 < scale.toNat ∧ insidePanel s.cfg x.toNat y.toNat (8 * scale.toNat) (8 * scale.toNat) = true ∧
    t.pu.env.sink =
      (okEvents (glyphTx s.cfg x.toNat y.toNat ch fg bg scale.toNat)).foldl (PanelSink.observe s.cfg) s.pu.env.sink := by
  obtain ⟨-, hrefused, hrejected, -⟩ := drawGlyphMeaning x y ch fg bg scale s hs.1
  by_cases hz : scale = 0
  · cases he.symm.trans (hrefused hs.2 hz)
  by_cases hin : x.toNat + 8 * scale.toNat ≤ s.cfg.panelW ∧ y.toNat + 8 * scale.toNat ≤ s.cfg.panelH
  · obtain ⟨r, hexec, htraffic⟩ := exec_drawGlyph_inside (ch := ch) (fg := fg) (bg := bg) hs hz hin
    cases he.symm.trans hexec
    exact ⟨Nat.pos_of_ne_zero (BitVec.toNat_ne_iff_ne.2 hz), (insidePanel_iff ..).2 hin, htraffic.sink_of_ok hok hf⟩
  · cases he.symm.trans (hrejected hs.2 hz hin)
    cases hok

/-! ### DRAW_STRING (R182) -/

/-- DRAW_STRING at a scale, on an engine that is ready, is the transactions of its cells. -/
theorem exec_drawString_scaled {x y : Half} {fg bg : Pixel} {scale flags : Byte} {text : List Byte} {s : State} (hs : s.PanelReady)
    (hz : scale ≠ 0) :
    ∃ r, exec (.drawString x y fg bg scale flags text) s = .next { s with pu := PanelUnit.finish r } ∧
      SameTraffic r (sendAll s.cfg (cellsTx s.cfg fg bg scale.toNat (stringCells s.cfg x.toNat y.toNat scale.toNat text))
        { s.pu with op := { s.pu.op with x, y, fg, bg, scale, flags, len := BitVec.ofNat 16 text.length, text } }) := by
  obtain ⟨r, hbody, htraffic⟩ := drawStringBody_eq hs.1.1
    (u := { s.pu with op := { s.pu.op with x, y, fg, bg, scale, flags, len := BitVec.ofNat 16 text.length, text } }) hs.2
    (BitVec.toNat_ne_iff_ne.2 hz)
  exact ⟨r, (exec_drawString ..).trans (State.panelOp_next hs.1 hbody), htraffic⟩

/-- Settles O39, by the branches of the body. -/
theorem drawStringMeaning : Obligations.DrawStringMeaning := by
  intro x y fg bg scale flags text s hs o cs
  refine ⟨fun hi => ?notInitialized, fun hi hz => ?zeroScale, fun hi hz rest ha => ?allOk, fun hi hz j rest hj ha => ?failed⟩
  case notInitialized =>
    rw [exec_drawString]
    exact State.panelOp_endedEarly hs (drawStringBody_notInit s.cfg hi)
  case zeroScale =>
    rw [exec_drawString]
    exact State.panelOp_refused hs (drawStringBody_eq_error_iff.2 ⟨hi, hz, rfl⟩)
  case allOk =>
    obtain ⟨r, hexec, htraffic⟩ := exec_drawString_scaled ⟨hs, hi⟩ hz
    rw [hexec, finish_of_sameTraffic_ok htraffic ha]
  case failed =>
    obtain ⟨r, hexec, htraffic⟩ := exec_drawString_scaled ⟨hs, hi⟩ hz
    rw [hexec, finish_of_sameTraffic_fail htraffic hj ha]

/-- A DRAW_STRING that ended `OK`: the panel has seen the transactions of its cells. -/
theorem exec_drawString_ok {x y : Half} {fg bg : Pixel} {scale flags : Byte} {text : List Byte} {s t : State} (hs : s.PanelReady)
    (he : exec (.drawString x y fg bg scale flags text) s = .next t) (hok : t.pu.status = .ok) (hf : t.pu.inFlight = false) :
    0 < scale.toNat ∧
    t.pu.env.sink = (okEvents (cellsTx s.cfg fg bg scale.toNat (stringCells s.cfg x.toNat y.toNat scale.toNat text))).foldl
      (PanelSink.observe s.cfg) s.pu.env.sink := by
  by_cases hz : scale = 0
  · obtain ⟨-, hrefused, -⟩ := drawStringMeaning x y fg bg scale flags text s hs.1
    cases he.symm.trans (hrefused hs.2 hz)
  · obtain ⟨r, hexec, htraffic⟩ := exec_drawString_scaled hs hz
    cases he.symm.trans hexec
    exact ⟨Nat.pos_of_ne_zero (BitVec.toNat_ne_iff_ne.2 hz), htraffic.sink_of_ok hok hf⟩

/-! ### Transactions and then the bounds report (R193) -/

/-- Transactions, and the bounds registers written when all are done. -/
def sendAndReport (cfg : Config) (cs : List TxContent) (want : Bool) (s : Nat) (l : TextLayout) (u : PanelUnit) : Flow × PanelUnit :=
  andThen (sendAll cfg cs u) fun v => (.done, v.reported want s l)

section
variable {cfg : Config} {u : PanelUnit} {o : Latches} {r : Flow × PanelUnit} {cs : List TxContent} {want : Bool} {s : Nat} {l : TextLayout}
  {rest : List Answer} {j : Nat}

theorem finish_of_sendAndReport_ok (h : SameTraffic r (sendAndReport cfg cs want s l { u with op := o }))
    (ha : u.env.answers = List.replicate cs.length .ok ++ rest) :
    PanelUnit.finish r = (u.ended cfg (okEvents cs) rest o .ok).reported want s l := by
  rw [sendAndReport, sendAll_ok cfg cs { u with op := o } rest ha, andThen_done] at h
  rw [h.finish (by rw [h.1]; exact nofun)]
  cases want with
  | true | false => rfl

/-- When a transaction fails there is no report. -/
theorem finish_of_sendAndReport_fail (h : SameTraffic r (sendAndReport cfg cs want s l { u with op := o })) (hj : j < cs.length)
    (ha : u.env.answers = List.replicate j .ok ++ .fail :: rest) :
    PanelUnit.finish r = u.ended cfg (failedAt cs j) rest o .peripheralError := by
  have hstop := sendAll_stops cfg cs { u with op := o } rest .fail (by decide) j hj ha
  rw [sendAndReport, hstop, if_pos rfl, andThen_fail] at h
  rw [if_pos rfl] at hstop
  rw [← hstop] at h
  exact finish_of_sameTraffic_fail h hj ha

/-- What ended `OK` sent its transactions, and the panel has seen each of them. -/
theorem SameTraffic.sink_of_reported (h : SameTraffic r (sendAndReport cfg cs want s l u)) (hok : (PanelUnit.finish r).status = .ok)
    (hf : (PanelUnit.finish r).inFlight = false) :
    (PanelUnit.finish r).env.sink = (okEvents cs).foldl (PanelSink.observe cfg) u.env.sink := by
  obtain ⟨hsent, hreport⟩ | ⟨-, hstop⟩ := andThen_cases (sendAll cfg cs u) fun v => (Flow.done, v.reported want s l)
  · obtain ⟨a, d, ⟨-, hran⟩ | ⟨j, hj, ⟨hfail, -⟩ | ⟨hhang, -⟩⟩⟩ := sendAll_cases cfg cs u
    · have hunit := PanelUnit.withWork_eq_iff.1 h.symm.2
      rw [sendAndReport, hreport, hran] at hunit
      rw [PanelUnit.finish_env, hunit]
      cases want with
      | true | false => exact PanelSide.observe_all_sink cfg (okEvents cs) u.env
    · cases hsent.symm.trans hfail
    · cases hsent.symm.trans hhang
  · rw [sendAndReport, hstop] at h
    exact h.sink_of_ok hok hf

end

/-! ### DRAW_WRAPPED (R190) -/

theorem drawWrappedBody_noRoom {cfg : Config} (hv : cfg.valid = true) {u : PanelUnit} (hi : u.init = true) (hz : u.op.scale.toNat ≠ 0)
    (hx : ¬ u.op.x.toNat + 8 * u.op.scale.toNat ≤ cfg.safeW) : drawWrappedBody cfg u = .ok (.fail .invalidBounds, u) := by
  rw [drawWrappedBody, whenPanelReady_init hi, whenScaled_of_ne_zero hz, wrapped_noRoom hv hx]

/-- DRAW_WRAPPED with room for one cell, on an engine that is ready, is the transactions of its layout, and the report. -/
theorem exec_drawWrapped_room {x y : Half} {fg bg : Pixel} {scale flags : Byte} {text : List Byte} {s : State} (hs : s.PanelReady)
    (hz : scale ≠ 0) (hx : x.toNat + 8 * scale.toNat ≤ s.cfg.safeW) :
    let plan := wrapPlan s.cfg x.toNat y.toNat scale.toNat text
    ∃ r, exec (.drawWrapped x y fg bg scale flags text) s = .next { s with pu := PanelUnit.finish r } ∧
      SameTraffic r (sendAndReport s.cfg (cellsTx s.cfg fg bg scale.toNat plan.1) (flags.getLsbD 0) scale.toNat plan.2
        { s.pu with op := { s.pu.op with x, y, fg, bg, scale, flags, len := BitVec.ofNat 16 text.length, text } }) := by
  obtain ⟨r, hbody, htraffic⟩ := drawWrappedBody_eq hs.1.1
    (u := { s.pu with op := { s.pu.op with x, y, fg, bg, scale, flags, len := BitVec.ofNat 16 text.length, text } }) hs.2
    (BitVec.toNat_ne_iff_ne.2 hz) hx
  exact ⟨r, (exec_drawWrapped ..).trans (State.panelOp_next hs.1 hbody), htraffic⟩

/-- Settles O41, by the branches of the body. -/
theorem drawWrappedMeaning : Obligations.DrawWrappedMeaning := by
  intro x y fg bg scale flags text s hs o plan cs room
  refine ⟨fun hi => ?notInitialized, fun hi hz => ?zeroScale, fun hi hz hx => ?invalidBounds,
    fun hi hz hx rest ha => ?allOk, fun hi hz hx j rest hj ha => ?failed⟩
  case notInitialized =>
    rw [exec_drawWrapped]
    exact State.panelOp_endedEarly hs (drawWrappedBody_notInit s.cfg hi)
  case zeroScale =>
    rw [exec_drawWrapped]
    exact State.panelOp_refused hs (drawWrappedBody_eq_error_iff.2 ⟨hi, hz, rfl⟩)
  case invalidBounds =>
    rw [exec_drawWrapped]
    exact State.panelOp_endedEarly hs (drawWrappedBody_noRoom hs.1 hi (BitVec.toNat_ne_iff_ne.2 hz) hx)
  case allOk =>
    obtain ⟨r, hexec, htraffic⟩ := exec_drawWrapped_room ⟨hs, hi⟩ hz hx
    rw [hexec, finish_of_sendAndReport_ok htraffic ha]
  case failed =>
    obtain ⟨r, hexec, htraffic⟩ := exec_drawWrapped_room ⟨hs, hi⟩ hz hx
    rw [hexec, finish_of_sendAndReport_fail htraffic hj ha]

/-- A DRAW_WRAPPED that ended `OK`: there is room for a cell, and the panel has seen the transactions of the layout. -/
theorem exec_drawWrapped_ok {x y : Half} {fg bg : Pixel} {scale flags : Byte} {text : List Byte} {s t : State} (hs : s.PanelReady)
    (he : exec (.drawWrapped x y fg bg scale flags text) s = .next t) (hok : t.pu.status = .ok) (hf : t.pu.inFlight = false) :
    0 < scale.toNat ∧ x.toNat + 8 * scale.toNat ≤ s.cfg.safeW ∧
    t.pu.env.sink =
      (okEvents (cellsTx s.cfg fg bg scale.toNat (wrapPlan s.cfg x.toNat y.toNat scale.toNat text).1)).foldl
        (PanelSink.observe s.cfg) s.pu.env.sink := by
  obtain ⟨-, hrefused, hrejected, -⟩ := drawWrappedMeaning x y fg bg scale flags text s hs.1
  by_cases hz : scale = 0
  · cases he.symm.trans (hrefused hs.2 hz)
  by_cases hx : x.toNat + 8 * scale.toNat ≤ s.cfg.safeW
  · obtain ⟨r, hexec, htraffic⟩ := exec_drawWrapped_room hs hz hx
    cases he.symm.trans hexec
    exact ⟨Nat.pos_of_ne_zero (BitVec.toNat_ne_iff_ne.2 hz), hx, htraffic.sink_of_reported hok hf⟩
  · cases he.symm.trans (hrejected hs.2 hz hx)
    cases hok

/-! ### DRAW_FORMATTED (R200) -/

theorem drawFormattedBody_noRoom {cfg : Config} (hv : cfg.valid = true) {u : PanelUnit} (hi : u.init = true) (hz : u.op.scale.toNat ≠ 0)
    (hx : ¬ u.op.x.toNat + 8 * u.op.scale.toNat ≤ cfg.safeW) :
    drawFormattedBody cfg u = .ok (.fail .invalidBounds, fillFormatBuffer cfg u) := by
  rw [drawFormattedBody, whenPanelReady_init hi, whenScaled_of_ne_zero hz, wrapped_noRoom hv hx]

/-- DRAW_FORMATTED with room for one cell, on an engine that is ready, is the transactions of the cut text's layout, and the report. -/
theorem exec_drawFormatted_room {x y : Half} {fg bg : Pixel} {scale flags : Byte} {text : List Byte} {s : State} (hs : s.PanelReady)
    (hz : scale ≠ 0) (hx : x.toNat + 8 * scale.toNat ≤ s.cfg.safeW) :
    let plan := wrapPlan s.cfg x.toNat y.toNat scale.toNat (formattedChars s.cfg text)
    ∃ r, exec (.drawFormatted x y fg bg scale flags text) s = .next { s with pu := PanelUnit.finish r } ∧
      SameTraffic r (sendAndReport s.cfg (cellsTx s.cfg fg bg scale.toNat plan.1) (flags.getLsbD 0) scale.toNat plan.2
        { s.pu with op := { s.pu.op with x, y, fg, bg, scale, flags, len := BitVec.ofNat 16 text.length, text } }) := by
  obtain ⟨r, hbody, htraffic⟩ := drawFormattedBody_eq hs.1.1
    (u := { s.pu with op := { s.pu.op with x, y, fg, bg, scale, flags, len := BitVec.ofNat 16 text.length, text } }) hs.2
    (BitVec.toNat_ne_iff_ne.2 hz) hx
  exact ⟨r, (exec_drawFormatted ..).trans (State.panelOp_next hs.1 hbody), htraffic⟩

/-- Settles O46, by the branches of the body. -/
theorem drawFormattedMeaning : Obligations.DrawFormattedMeaning := by
  intro x y fg bg scale flags text s hs o kept plan cs room
  refine ⟨fun hi => ?notInitialized, fun hi hz => ?zeroScale, fun hi hz hx => ?invalidBounds,
    fun hi hz hx rest ha => ?allOk, fun hi hz hx j rest hj ha => ?failed⟩
  case notInitialized =>
    rw [exec_drawFormatted]
    exact State.panelOp_endedEarly hs (drawFormattedBody_notInit s.cfg hi)
  case zeroScale =>
    rw [exec_drawFormatted]
    exact State.panelOp_refused hs (drawFormattedBody_eq_error_iff.2 ⟨hi, hz, rfl⟩)
  case invalidBounds =>
    rw [exec_drawFormatted, State.panelOp_next hs (drawFormattedBody_noRoom hs.1 hi (BitVec.toNat_ne_iff_ne.2 hz) hx)]
    rfl
  case allOk =>
    obtain ⟨r, hexec, htraffic⟩ := exec_drawFormatted_room ⟨hs, hi⟩ hz hx
    rw [hexec, finish_of_sendAndReport_ok htraffic ha]
    rfl
  case failed =>
    obtain ⟨r, hexec, htraffic⟩ := exec_drawFormatted_room ⟨hs, hi⟩ hz hx
    rw [hexec, finish_of_sendAndReport_fail htraffic hj ha]
    rfl

/-- Two outcomes that differ in the operand latches and the running work at most end alike, with the same environment. -/
theorem SamePanelEffect.ended {a b : State} (h : SamePanelEffect (.next a) (.next b)) :
    a.pu.status = b.pu.status ∧ a.pu.inFlight = b.pu.inFlight ∧ a.pu.env = b.pu.env := by
  have hsame : a = { b with pu := { b.pu with op := a.pu.op, work := a.pu.work } } := h
  rw [hsame]
  exact ⟨rfl, rfl, rfl⟩

/-- A DRAW_FORMATTED that ended `OK`: so does DRAW_WRAPPED on the cut text, with the same panel (30_encoding.md R125). -/
theorem exec_drawFormatted_ok {x y : Half} {fg bg : Pixel} {scale flags : Byte} {text : List Byte} {s t : State} (hs : s.PanelReady)
    (he : exec (.drawFormatted x y fg bg scale flags text) s = .next t) (hok : t.pu.status = .ok) (hf : t.pu.inFlight = false) :
    0 < scale.toNat ∧ x.toNat + 8 * scale.toNat ≤ s.cfg.safeW ∧
    t.pu.env.sink =
      (okEvents (cellsTx s.cfg fg bg scale.toNat (wrapPlan s.cfg x.toNat y.toNat scale.toNat (formattedChars s.cfg text)).1)).foldl
        (PanelSink.observe s.cfg) s.pu.env.sink := by
  have hsame := formattedIsWrappedCut x y fg bg scale flags text s
  rw [he] at hsame
  cases hw : exec (.drawWrapped x y fg bg scale flags (formattedChars s.cfg text)) s with
  | next t' =>
    rw [hw] at hsame
    obtain ⟨hstatus, hflight, henv⟩ := hsame.ended
    rw [henv]
    exact exec_drawWrapped_ok hs hw (hstatus ▸ hok) (hflight ▸ hf)
  | fault f | refused q =>
    rw [hw] at hsame
    exact hsame.elim

end Sys2Proof.Machine

/-! The layout of a wrapped text (42_panel_text.md R190 to R195): what a layout can do, character by character; its cells lie in the safe area;
and what it reports. -/

namespace Sys2Proof.Machine

/-! ### What a layout can do -/

/-- The cells drawn from a layout on, and the layout that is left: a text ends, a character is dropped with the rest of the text, a line break
begins a line, or a character is drawn where `wrapFor` puts it. `wrapCells_lays` ties it to the plan. -/
inductive Lays (cfg : Config) (x s : Nat) : List Byte → TextLayout → List TextCell → TextLayout → Prop where
  | ended (l : TextLayout) : Lays cfg x s [] l [] l
  | dropped (c : Byte) (rest : List Byte) (l : TextLayout) : Lays cfg x s (c :: rest) l [] l
  | lineBreak {rest : List Byte} {l m last : TextLayout} {cells : List TextCell} (hm : newLine cfg x s l = some m)
    (h : Lays cfg x s rest m cells last) : Lays cfg x s (newlineChar :: rest) l cells last
  | drawn {c : Byte} {rest : List Byte} {l m last : TextLayout} {cells : List TextCell} (hm : wrapFor cfg x s l = some m)
    (h : Lays cfg x s rest (advance cfg s m) cells last) :
    Lays cfg x s (c :: rest) l ({ x := cfg.safeX + m.curX, y := cfg.safeY + m.curY, ch := c } :: cells) last

theorem wrapCells_lays {cfg : Config} (hv : cfg.valid = true) (x s : Nat) (cs : List Byte) (l : TextLayout) :
    Lays cfg x s cs l (wrapCells cfg x s cs l).1 (wrapCells cfg x s cs l).2 := by
  induction cs generalizing l with
  | nil => exact .ended l
  | cons c rest ih =>
    rw [wrapCells_cons hv]
    split
    · subst c
      cases hn : newLine cfg x s l with
      | none => exact .dropped newlineChar rest l
      | some m => exact .lineBreak hn (ih m)
    · cases hn : wrapFor cfg x s l with
      | none => exact .dropped c rest l
      | some m => exact .drawn hn (ih (advance cfg s m))

/-- A character is drawn on the line it stands on, or on a new one (R191). -/
theorem wrapFor_cases {cfg : Config} {x s : Nat} {l m : TextLayout} (h : wrapFor cfg x s l = some m) : m = l ∨ newLine cfg x s l = some m := by
  unfold wrapFor at h
  split at h
  · exact .inr h
  · exact .inl (Option.some.inj h).symm

theorem newLine_none_of_wrapFor_none {cfg : Config} {x s : Nat} {l : TextLayout} (h : wrapFor cfg x s l = none) : newLine cfg x s l = none := by
  unfold wrapFor at h
  split at h
  · exact h
  · cases h

/-! ### The cells (R195 (a)) -/

theorem cell_inSafeArea {cfg : Config} {s : Nat} {m : TextLayout} (hx : m.curX + 8 * s ≤ cfg.safeW) (hy : m.curY + 8 * s ≤ cfg.safeH) (c : Byte) :
    TextCell.InSafeArea cfg s { x := cfg.safeX + m.curX, y := cfg.safeY + m.curY, ch := c } := by
  unfold TextCell.InSafeArea
  dsimp only
  omega

theorem Lays.inSafeArea {cfg : Config} (hv : cfg.valid = true) {x s : Nat} (hx : x + 8 * s ≤ cfg.safeW) {cs : List Byte} {l last : TextLayout}
    {cells : List TextCell} (h : Lays cfg x s cs l cells last) (hl : l.curY + 8 * s ≤ cfg.safeH) :
    ∀ c ∈ cells, c.InSafeArea cfg s ∧ insidePanel cfg c.x c.y (8 * s) (8 * s) = true := by
  induction h with
  | ended | dropped => exact nofun
  | lineBreak hm _ ih => exact ih (newLine_some hv hm).2
  | drawn hm _ ih =>
    obtain ⟨hright, hbottom⟩ := wrapFor_some hv hx hl hm
    exact List.forall_mem_cons.2 ⟨⟨cell_inSafeArea hright hbottom _, cell_insidePanel hv hright hbottom⟩, ih hbottom⟩

/-- The layout of a text whose first line does not fit in the safe area. -/
theorem wrapPlan_of_tooLow {cfg : Config} {y s : Nat} (hy : ¬ y + 8 * s ≤ cfg.safeH) (x : Nat) (text : List Byte) :
    wrapPlan cfg x y s text = ([], startLayout x y) := if_neg hy

/-- The layout of a text whose first line fits. -/
theorem wrapPlan_of_fits {cfg : Config} {y s : Nat} (hy : y + 8 * s ≤ cfg.safeH) (x : Nat) (text : List Byte) :
    wrapPlan cfg x y s text = wrapCells cfg x s (textChars text) (startLayout x y) := if_pos hy

/-- Settles O42: `Lays.inSafeArea` from the first line on. -/
theorem wrappedStaysInSafeArea : Obligations.WrappedStaysInSafeArea := by
  intro cfg x y s text hv hx
  by_cases hy : y + 8 * s ≤ cfg.safeH
  · rw [wrapPlan_of_fits hy]
    exact (wrapCells_lays hv x s (textChars text) (startLayout x y)).inSafeArea hv hx hy
  · rw [wrapPlan_of_tooLow hy]
    exact nofun

/-! ### The report (R193, R195) -/

/-- A layout of an operation that started at row `y`, as far as the report goes: its line stands `lines - 1` line heights below `y` and ends
inside the safe area, and so does every cell so far. -/
structure TextLayout.Placed (cfg : Config) (y s : Nat) (l : TextLayout) : Prop where
  startY : l.startY = y
  lines : 1 ≤ l.lines
  curY : l.curY = y + (l.lines - 1) * (8 * s + 2)
  bottom : l.curY + 8 * s ≤ cfg.safeH
  maxX : l.maxX ≤ cfg.safeW

theorem TextLayout.Placed.start {cfg : Config} {x y s : Nat} (hx : x ≤ cfg.safeW) (hy : y + 8 * s ≤ cfg.safeH) :
    (startLayout x y).Placed cfg y s where
  startY := rfl
  lines := Nat.le_refl 1
  curY := by simp only [startLayout, Nat.sub_self, Nat.zero_mul, Nat.add_zero]
  bottom := hy
  maxX := hx

theorem TextLayout.Placed.newLine {cfg : Config} (hv : cfg.valid = true) {x y s : Nat} {l m : TextLayout} (h : l.Placed cfg y s)
    (hm : newLine cfg x s l = some m) : m.Placed cfg y s := by
  obtain ⟨rfl, hbottom⟩ := newLine_some hv hm
  obtain ⟨hstart, hlines, hcur, -, hmax⟩ := h
  refine ⟨hstart, Nat.le_add_left 1 l.lines, ?_, hbottom, hmax⟩
  show l.curY + (8 * s + 2) = y + (l.lines + 1 - 1) * (8 * s + 2)
  rw [hcur, Nat.add_sub_cancel, Nat.add_assoc, ← Nat.succ_mul, Nat.succ_eq_add_one, Nat.sub_add_cancel hlines]

theorem TextLayout.Placed.wrapFor {cfg : Config} (hv : cfg.valid = true) {x y s : Nat} {l m : TextLayout} (h : l.Placed cfg y s)
    (hm : wrapFor cfg x s l = some m) : m.Placed cfg y s := by
  obtain rfl | hn := wrapFor_cases hm
  · exact h
  · exact h.newLine hv hn

theorem TextLayout.Placed.advance {cfg : Config} (hv : cfg.valid = true) {y s : Nat} {l : TextLayout} (h : l.Placed cfg y s)
    (hx : l.curX + 8 * s ≤ cfg.safeW) : (advance cfg s l).Placed cfg y s where
  startY := h.startY
  lines := h.lines
  curY := h.curY
  bottom := h.bottom
  maxX := by rw [Machine.advance, glyphWidth_eq hv]; exact max_le h.maxX hx

theorem Lays.placed {cfg : Config} (hv : cfg.valid = true) {x y s : Nat} (hx : x + 8 * s ≤ cfg.safeW) {cs : List Byte} {l last : TextLayout}
    {cells : List TextCell} (h : Lays cfg x s cs l cells last) (hl : l.Placed cfg y s) : last.Placed cfg y s := by
  induction h with
  | ended | dropped => exact hl
  | lineBreak hm _ ih => exact ih (hl.newLine hv hm)
  | drawn hm _ ih =>
    obtain ⟨hright, -⟩ := wrapFor_some hv hx hl.bottom hm
    exact ih ((hl.wrapFor hv hm).advance hv hright)

/-- A line is begun by a character. -/
theorem Lays.lines_le {cfg : Config} (hv : cfg.valid = true) {x s : Nat} {cs : List Byte} {l last : TextLayout} {cells : List TextCell}
    (h : Lays cfg x s cs l cells last) : last.lines ≤ l.lines + cs.length := by
  have begun : ∀ {l m : TextLayout}, newLine cfg x s l = some m → m.lines = l.lines + 1 := fun hm => by rw [(newLine_some hv hm).1]
  induction h with
  | ended | dropped => exact Nat.le_add_right _ _
  | lineBreak hm _ ih =>
    rw [begun hm] at ih
    rw [List.length_cons]
    omega
  | drawn hm _ ih =>
    rw [List.length_cons]
    obtain rfl | hn := wrapFor_cases hm
    · exact ih.trans (Nat.add_le_add_left (Nat.le_succ _) _)
    · rw [Machine.advance, begun hn] at ih
      omega

/-- The right edges of the cells, in safe coordinates, and the largest of them (R193). -/
theorem Lays.maxX_eq {cfg : Config} (hv : cfg.valid = true) {x s : Nat} {cs : List Byte} {l last : TextLayout} {cells : List TextCell}
    (h : Lays cfg x s cs l cells last) : last.maxX = cells.foldl (fun m c => max m (c.x - cfg.safeX + 8 * s)) l.maxX := by
  have kept : ∀ {l m : TextLayout}, newLine cfg x s l = some m → m.maxX = l.maxX := fun hm => by rw [(newLine_some hv hm).1]
  induction h with
  | ended | dropped => rfl
  | lineBreak hm _ ih => rw [ih, kept hm]
  | @drawn c rest l m last cells hm _ ih =>
    have hmax : m.maxX = l.maxX := by
      obtain rfl | hn := wrapFor_cases hm
      · rfl
      · exact kept hn
    rw [ih, List.foldl_cons, Machine.advance, glyphWidth_eq hv, hmax, Nat.add_sub_cancel_left]

/-- The height of a layout counts its lines and the gaps between them (R193). -/
theorem TextLayout.Placed.height_eq {cfg : Config} {y s : Nat} {l : TextLayout} (h : l.Placed cfg y s) :
    layoutHeight s l = l.lines * (8 * s) + (l.lines - 1) * 2 := by
  obtain ⟨k, hk⟩ := Nat.exists_eq_add_of_le' h.lines
  rw [layoutHeight, h.startY, h.curY, hk, Nat.add_sub_cancel, Nat.add_sub_cancel_left, Nat.mul_add, Nat.succ_mul k]
  omega

theorem TextLayout.Placed.height_le {cfg : Config} {y s : Nat} {l : TextLayout} (h : l.Placed cfg y s) : layoutHeight s l ≤ cfg.safeH := by
  have hbottom := h.bottom
  rw [layoutHeight]
  omega

/-- A line is at least one pixel high. -/
theorem TextLayout.Placed.lines_le_height {cfg : Config} {y s : Nat} (hs : 1 ≤ s) {l : TextLayout} (h : l.Placed cfg y s) :
    l.lines ≤ layoutHeight s l := by
  rw [h.height_eq]
  exact (Nat.le_mul_of_pos_right _ (by omega)).trans (Nat.le_add_right _ _)

/-- The three registers hold a report of 16-bit values uncut (45_arithmetic_and_sequencing.md R263). -/
theorem PanelUnit.reported_uncut {s : Nat} {l : TextLayout} (hmax : l.maxX < 65536) (hheight : layoutHeight s l < 65536)
    (hlines : l.lines < 65536) (u : PanelUnit) :
    (u.reported true s l).boundsMaxX.toNat = l.maxX ∧ (u.reported true s l).boundsHeight.toNat = layoutHeight s l ∧
    (u.reported true s l).boundsLines.toNat = l.lines :=
  ⟨Nat.mod_eq_of_lt hmax, Nat.mod_eq_of_lt hheight, Nat.mod_eq_of_lt hlines⟩

/-! ### A line break at the end of the text (R192, R195 (c), (d)) -/

theorem textChars_of_zero_not_mem {text : List Byte} (h : (0 : Byte) ∉ text) : textChars text = text :=
  List.takeWhile_eq_self_iff.2 fun _ hc => decide_eq_true (ne_of_mem_of_not_mem hc h)

/-- A layout after a line break: the next line if it fits, else as it was (R192). -/
def TextLayout.afterBreak (cfg : Config) (x s : Nat) (l : TextLayout) : TextLayout := (newLine cfg x s l).getD l

theorem TextLayout.afterBreak_eq {cfg : Config} (hv : cfg.valid = true) (x s : Nat) (l : TextLayout) :
    l.afterBreak cfg x s = if l.curY + 2 * (8 * s) + 2 ≤ cfg.safeH then
      { l with curX := x, curY := l.curY + (8 * s + 2), lines := l.lines + 1 } else l := by
  unfold TextLayout.afterBreak newLine
  rw [lineHeight_eq hv, glyphHeight_eq hv]
  by_cases h : l.curY + 2 * (8 * s) + 2 ≤ cfg.safeH
  · rw [if_pos h, if_neg (by omega), Option.getD_some]
  · rw [if_neg h, if_pos (by omega), Option.getD_none]

theorem TextLayout.afterBreak_of_newLine_none {cfg : Config} {x s : Nat} {l : TextLayout} (h : newLine cfg x s l = none) :
    l.afterBreak cfg x s = l := by
  rw [TextLayout.afterBreak, h, Option.getD_none]

/-- A line break behind a text draws nothing: where a character was dropped before it, no line fits any more. -/
theorem wrapCells_append_newline {cfg : Config} (hv : cfg.valid = true) (x s : Nat) (cs : List Byte) (l : TextLayout) :
    wrapCells cfg x s (cs ++ [newlineChar]) l =
      ((wrapCells cfg x s cs l).1, (wrapCells cfg x s cs l).2.afterBreak cfg x s) := by
  induction cs generalizing l with
  | nil =>
    rw [List.nil_append, wrapCells_cons hv, if_pos rfl]
    show _ = (([] : List TextCell), (newLine cfg x s l).getD l)
    cases newLine cfg x s l with
    | none | some m => rfl
  | cons c rest ih =>
    rw [List.cons_append, wrapCells_cons hv, wrapCells_cons hv]
    split
    · cases hn : newLine cfg x s l with
      | none => simp only [TextLayout.afterBreak_of_newLine_none hn]
      | some m => exact ih m
    · cases hn : wrapFor cfg x s l with
      | none => simp only [TextLayout.afterBreak_of_newLine_none (newLine_none_of_wrapFor_none hn)]
      | some m => simp only [ih]

theorem wrapPlan_append_newline {cfg : Config} (hv : cfg.valid = true) (x y s : Nat) {text : List Byte} (h0 : (0 : Byte) ∉ text) :
    wrapPlan cfg x y s (text ++ [newlineChar]) = ((wrapPlan cfg x y s text).1, (wrapPlan cfg x y s text).2.afterBreak cfg x s) := by
  have h0' : (0 : Byte) ∉ text ++ [newlineChar] := List.not_mem_append h0 (by decide)
  by_cases hy : y + 8 * s ≤ cfg.safeH
  · rw [wrapPlan_of_fits hy, wrapPlan_of_fits hy, textChars_of_zero_not_mem h0, textChars_of_zero_not_mem h0', wrapCells_append_newline hv]
  · have hfull : ¬ (startLayout x y).curY + 2 * (8 * s) + 2 ≤ cfg.safeH := by
      show ¬ y + 2 * (8 * s) + 2 ≤ cfg.safeH
      omega
    rw [wrapPlan_of_tooLow hy, wrapPlan_of_tooLow hy, TextLayout.afterBreak_eq hv, if_neg hfull]

/-- Settles O43: the layout is placed (`Lays.placed`) where the first line fits, and is the first line's where it does not. -/
theorem wrappedReport : Obligations.WrappedReport := by
  intro cfg x y s text u hv hx hs hs' plan
  obtain ⟨-, -, -, -, -, hsafeW, hsafeH, -, -⟩ := Config.valid_safe hv
  have hbreak : (0 : Byte) ∉ text → wrapPlan cfg x y s (text ++ [0x0A]) = (plan.1, if plan.2.curY + 2 * (8 * s) + 2 ≤ cfg.safeH then
      { plan.2 with curX := x, curY := plan.2.curY + (8 * s + 2), lines := plan.2.lines + 1 } else plan.2) := fun h0 =>
    (wrapPlan_append_newline hv x y s h0).trans (by rw [TextLayout.afterBreak_eq hv])
  by_cases hy : y + 8 * s ≤ cfg.safeH
  · have hlays : Lays cfg x s (textChars text) (startLayout x y) plan.1 plan.2 := by
      rw [show plan = _ from wrapPlan_of_fits hy x text]
      exact wrapCells_lays hv x s (textChars text) (startLayout x y)
    have hplaced : plan.2.Placed cfg y s := hlays.placed hv hx (.start (by omega) hy)
    have hlines : plan.2.lines ≤ 1 + textEnd text := hlays.lines_le hv
    have hmax := hplaced.maxX
    have hheight := hplaced.height_le
    have hcount := hplaced.lines_le_height hs
    obtain ⟨hregX, hregHeight, hregLines⟩ := u.reported_uncut (s := s) (l := plan.2) (by omega) (by omega) (by omega)
    exact ⟨hlays.maxX_eq hv, hplaced.height_eq, hplaced.lines, by omega, hmax, hregX, hregHeight, hregLines, hbreak⟩
  · have hplan : plan = ([], startLayout x y) := wrapPlan_of_tooLow hy x text
    have hheight : layoutHeight s (startLayout x y) = 8 * s := by
      show y - y + 8 * s = 8 * s
      omega
    obtain ⟨hregX, hregHeight, hregLines⟩ := u.reported_uncut (s := s) (l := startLayout x y) (by show x < 65536; omega) (by omega)
      (by decide : 1 < 65536)
    refine ⟨?_, ?_, ?_, ?_, ?_, ?_, ?_, ?_, hbreak⟩ <;> rw [hplan]
    · rfl
    · rw [hheight]; show 8 * s = 1 * (8 * s) + 0 * 2; omega
    · exact Nat.le_refl 1
    · exact Nat.le_add_left 1 _
    · show x ≤ cfg.safeW; omega
    · exact hregX
    · exact hregHeight
    · exact hregLines

end Sys2Proof.Machine

/-! What glyphs and text leave on the panel (42_panel_text.md R177, R178, R182, R196): each cell's pixels are those of its glyph, and every byte
outside the cells reads as before. -/

namespace Sys2Proof.Machine

/-! ### One cell -/

/-- A byte address of the panel memory belongs to a cell of side `8 * s`. -/
def TextCell.Covers (cfg : Config) (s : Nat) (c : TextCell) (a : Nat) : Prop := InRectangle cfg c.x c.y (8 * s) (8 * s) a

/-- The memory holds a cell's glyph, pixel by pixel (R178). -/
def Memory.ShowsCell (cfg : Config) (fg bg : Pixel) (s : Nat) (c : TextCell) (m : Memory) : Prop :=
  ∀ px py, px < 8 * s → py < 8 * s →
    m.pixel (c.x + px + cfg.colOffset) (c.y + py + cfg.rowOffset) = some (glyphPixel cfg (glyphIndex cfg c.ch) s px py fg bg)

/-- The panel after a glyph's transactions, on a cell of the panel. -/
theorem sink_glyph {cfg : Config} (hv : cfg.valid = true) {p : PanelSink} (hd : p.dead = false) (hm : p.mem.wf = true) {x y s : Nat}
    (hs : 0 < s) (hb : insidePanel cfg x y (8 * s) (8 * s) = true) (ch : Byte) (fg bg : Pixel) :
    let q := (okEvents (glyphTx cfg x y ch fg bg s)).foldl (PanelSink.observe cfg) p
    q.dead = false ∧
    q.mem = streamPixels (x + cfg.colOffset) (y + cfg.rowOffset) (8 * s) 0 (glyphPixels cfg (glyphIndex cfg ch) s fg bg) p.mem := by
  have hlen : [glyphPixels cfg (glyphIndex cfg ch) s fg bg].flatten.length = 8 * s * (8 * s) := by
    rw [List.flatten_singleton, glyphPixels_length, glyphWidth_eq hv, glyphHeight_eq hv]
  have hside : 0 < 8 * s := by omega
  have hsink := sink_rectangle hv hd hm hb hside hside _ hlen
  intro q
  have hq : q = _ := hsink
  rw [hq, List.flatten_singleton]
  exact ⟨hd, rfl⟩

/-- A glyph's transactions paint its cell, and leave the rest of the memory alone. -/
theorem sink_glyph_paints {cfg : Config} (hv : cfg.valid = true) {p : PanelSink} (hd : p.dead = false) (hm : p.mem.wf = true) {s : Nat}
    (hs : 0 < s) {c : TextCell} (hb : insidePanel cfg c.x c.y (8 * s) (8 * s) = true) (fg bg : Pixel) :
    let q := (okEvents (glyphTx cfg c.x c.y c.ch fg bg s)).foldl (PanelSink.observe cfg) p
    q.dead = false ∧ q.mem.ShowsCell cfg fg bg s c ∧ ∀ a, ¬ c.Covers cfg s a → q.mem.read a = p.mem.read a := by
  intro q
  obtain ⟨hdead, hmem⟩ : q.dead = false ∧ q.mem = _ := sink_glyph hv hd hm hs hb c.ch fg bg
  have hlen : (glyphPixels cfg (glyphIndex cfg c.ch) s fg bg).length = 8 * s * (8 * s) := by
    rw [glyphPixels_length, glyphWidth_eq hv, glyphHeight_eq hv]
  obtain ⟨hpixel, hframe⟩ := read_rectangle hv hm hb (by omega) _ hlen
  rw [hmem]
  refine ⟨hdead, fun px py hx hy => ?_, hframe⟩
  have hget := glyphPixels_getElem? cfg (glyphIndex cfg c.ch) s fg bg px py (by rwa [glyphWidth_eq hv]) (by rwa [glyphHeight_eq hv])
  rw [glyphWidth_eq hv] at hget
  obtain ⟨hlt, hval⟩ := List.getElem?_eq_some_iff.1 hget
  rw [hpixel px py hx hy hlt, hval]

/-- The two bytes of each pixel of a cell belong to it. -/
theorem Memory.ShowsCell.of_read_eq {cfg : Config} {fg bg : Pixel} {s : Nat} {c : TextCell} {m n : Memory} (h : m.ShowsCell cfg fg bg s c)
    (hread : ∀ a, c.Covers cfg s a → n.read a = m.read a) : n.ShowsCell cfg fg bg s c := by
  intro px py hx hy
  rw [← h px py hx hy, Memory.pixel, hread _ ⟨px, py, hx, hy, .inl rfl⟩, hread _ ⟨px, py, hx, hy, .inr rfl⟩, Memory.pixel]

/-! ### A sequence of cells -/

/-- Two cells with no byte in common. -/
def TextCell.Apart (cfg : Config) (s : Nat) (c d : TextCell) : Prop := ∀ a, c.Covers cfg s a → ¬ d.Covers cfg s a

/-- The transactions of a sequence of cells are those of the first, and then those of the rest. -/
theorem foldl_observe_cellsTx_cons (cfg : Config) (fg bg : Pixel) (s : Nat) (c : TextCell) (cells : List TextCell) (p : PanelSink) :
    (okEvents (cellsTx cfg fg bg s (c :: cells))).foldl (PanelSink.observe cfg) p =
      (okEvents (cellsTx cfg fg bg s cells)).foldl (PanelSink.observe cfg)
        ((okEvents (glyphTx cfg c.x c.y c.ch fg bg s)).foldl (PanelSink.observe cfg) p) := by
  rw [cellsTx_cons, okEvents, List.map_append, List.foldl_append]
  rfl

section
variable {cfg : Config} (hv : cfg.valid = true) {s : Nat} (hs : 0 < s) {cells : List TextCell}
  (hb : ∀ c ∈ cells, insidePanel cfg c.x c.y (8 * s) (8 * s) = true) (fg bg : Pixel) {p : PanelSink} (hd : p.dead = false)
  (hm : p.mem.wf = true)
include hv hs hb hd hm

/-- The transactions of cells of the panel leave every byte outside the cells as it was. -/
theorem read_cells_outside {a : Nat} (ha : ∀ c ∈ cells, ¬ c.Covers cfg s a) :
    ((okEvents (cellsTx cfg fg bg s cells)).foldl (PanelSink.observe cfg) p).mem.read a = p.mem.read a := by
  induction cells generalizing p with
  | nil => rfl
  | cons c cells ih =>
    obtain ⟨hbc, hbs⟩ := List.forall_mem_cons.1 hb
    obtain ⟨hac, has⟩ := List.forall_mem_cons.1 ha
    obtain ⟨hdead, -, hframe⟩ := sink_glyph_paints hv hd hm hs hbc fg bg
    rw [foldl_observe_cellsTx_cons, ih hbs hdead (PanelSink.observe_all_wf cfg _ hm) has, hframe a hac]

/-- Cells that are apart all show their glyphs: none is painted over. -/
theorem showsCell_cells (hapart : cells.Pairwise (TextCell.Apart cfg s)) :
    ∀ c ∈ cells, ((okEvents (cellsTx cfg fg bg s cells)).foldl (PanelSink.observe cfg) p).mem.ShowsCell cfg fg bg s c := by
  induction cells generalizing p with
  | nil => exact nofun
  | cons c cells ih =>
    obtain ⟨hbc, hbs⟩ := List.forall_mem_cons.1 hb
    obtain ⟨hc, hcells⟩ := List.pairwise_cons.1 hapart
    obtain ⟨hdead, hshows, -⟩ := sink_glyph_paints hv hd hm hs hbc fg bg
    have hwf := PanelSink.observe_all_wf cfg (okEvents (glyphTx cfg c.x c.y c.ch fg bg s)) hm
    rw [foldl_observe_cellsTx_cons]
    refine List.forall_mem_cons.2 ⟨hshows.of_read_eq fun a ha => ?_, ih hbs hdead hwf hcells⟩
    exact read_cells_outside hv hs hbs fg bg hdead hwf fun d hd => hc d hd a ha

end

/-! ### DRAW_GLYPH (R178) -/

theorem glyphPixel_eq {cfg : Config} (hv : cfg.valid = true) (idx s px py : Nat) (fg bg : Pixel) :
    glyphPixel cfg idx s px py fg bg = if (cfg.font.getD (idx * 8 + py / s) 0).getLsbD (px / s) then fg else bg := by
  rw [glyphPixel, fontRead_eq hv]

/-- A pixel of the block of font bit `(r, c)` shows that bit. -/
theorem glyphPixel_block {cfg : Config} (hv : cfg.valid = true) (idx : Nat) {s i j : Nat} (hi : i < s) (hj : j < s) (r c : Nat) (fg bg : Pixel) :
    glyphPixel cfg idx s (c * s + i) (r * s + j) fg bg = if (cfg.font.getD (idx * 8 + r) 0).getLsbD c then fg else bg := by
  have block : ∀ {n k : Nat}, k < s → (n * s + k) / s = n := fun {n k} hk => by
    rw [Nat.add_comm, Nat.add_mul_div_right _ _ (Nat.zero_lt_of_lt hk), Nat.div_eq_of_lt hk, Nat.zero_add]
  rw [glyphPixel_eq hv, block hi, block hj]

/-- The block of a font bit lies in the cell. -/
theorem block_lt {s c i : Nat} (hc : c < 8) (hi : i < s) : c * s + i < 8 * s :=
  calc c * s + i < c * s + s := Nat.add_lt_add_left hi _
    _ = (c + 1) * s := (Nat.succ_mul c s).symm
    _ ≤ 8 * s := Nat.mul_le_mul_right s hc

/-- Settles O37: the panel has seen the glyph (`exec_drawGlyph_ok`), which paints its cell (`sink_glyph_paints`). -/
theorem glyphExpands : Obligations.GlyphExpands := by
  refine ⟨fun cfg idx row hv => fontRead_eq hv idx row, fun cfg idx sc px py fg bg hv => glyphPixel_eq hv idx sc px py fg bg,
    fun x y ch fg bg scale s t hs hdead hm he hok hf => ?_⟩
  have hv : s.cfg.valid = true := hs.1.1
  obtain ⟨hz, hin, hseen⟩ := exec_drawGlyph_ok hs he hok hf
  obtain ⟨hcfg, -⟩ := exec_panelSaw he
  obtain ⟨-, hshows, hframe⟩ := sink_glyph_paints hv hdead hm hz (c := { x := x.toNat, y := y.toNat, ch := ch }) hin fg bg
  rw [← hseen] at hshows hframe
  refine ⟨fun r c i j hr hc hi hj => ?_, hframe⟩
  rw [State.pixelAt, hcfg, Nat.add_assoc x.toNat, Nat.add_assoc y.toNat, hshows _ _ (block_lt hc hi) (block_lt hr hj), glyphPixel_block hv _ hi hj]

/-! ### DRAW_STRING (R182) -/

theorem insidePanel_of_mem_loopCells {cfg : Config} {x y s : Nat} {cs : List Byte} {i : Nat} :
    ∀ c ∈ loopCells cfg x y s cs i, insidePanel cfg c.x c.y (8 * s) (8 * s) = true := by
  induction cs generalizing i with
  | nil => exact nofun
  | cons ch rest ih =>
    rw [loopCells]
    split
    · rename_i hin
      exact List.forall_mem_cons.2 ⟨hin, ih⟩
    · exact nofun

/-- The cells of DRAW_STRING pass the bounds test of GLYPH (R183). -/
theorem insidePanel_of_mem_stringCells {cfg : Config} {x y s : Nat} (hs : 0 < s) {text : List Byte} :
    ∀ c ∈ stringCells cfg x y s text, insidePanel cfg c.x c.y (8 * s) (8 * s) = true := by
  rw [← loopCells_eq_stringCells cfg x y s hs]
  exact insidePanel_of_mem_loopCells

theorem mem_stringCells {cfg : Config} {x y s n : Nat} {text : List Byte} (hn : n < stringCount cfg x y s text) :
    { x := x + n * (8 * s), y := y, ch := text.getD n 0 } ∈ stringCells cfg x y s text :=
  List.mem_map.2 ⟨n, List.mem_range.2 hn, rfl⟩

/-- A byte of a cell of the panel gives away its pixel's column, which ends before the cell's right edge. -/
theorem TextCell.Covers.column {cfg : Config} (hv : cfg.valid = true) {s : Nat} {c : TextCell}
    (hb : insidePanel cfg c.x c.y (8 * s) (8 * s) = true) {a : Nat} (h : c.Covers cfg s a) :
    c.x + cfg.colOffset ≤ a / 2 % 65536 ∧ a / 2 % 65536 < c.x + 8 * s + cfg.colOffset := by
  obtain ⟨i, j, hi, -, ha⟩ := h
  obtain ⟨-, -, -, -, -, -, -, hcols, -⟩ := Config.valid_safe hv
  obtain ⟨hright, -⟩ := (insidePanel_iff ..).1 hb
  have hcol : a / 2 % 65536 = c.x + i + cfg.colOffset := by
    unfold gramAddr at ha
    omega
  omega

theorem TextCell.apart_of_right {cfg : Config} (hv : cfg.valid = true) {s : Nat} {c d : TextCell}
    (hc : insidePanel cfg c.x c.y (8 * s) (8 * s) = true) (hd : insidePanel cfg d.x d.y (8 * s) (8 * s) = true) (h : c.x + 8 * s ≤ d.x) :
    c.Apart cfg s d := by
  intro a ha ha'
  obtain ⟨-, hright⟩ := ha.column hv hc
  obtain ⟨hleft, -⟩ := ha'.column hv hd
  omega

/-- The cells of DRAW_STRING stand side by side. -/
theorem stringCells_apart {cfg : Config} (hv : cfg.valid = true) (x y : Nat) {s : Nat} (hs : 0 < s) (text : List Byte) :
    (stringCells cfg x y s text).Pairwise (TextCell.Apart cfg s) := by
  have hin := insidePanel_of_mem_stringCells (cfg := cfg) (x := x) (y := y) hs (text := text)
  refine List.pairwise_map.2 (List.pairwise_lt_range.imp_of_mem fun {n k} hn hk hlt => ?_)
  refine TextCell.apart_of_right hv (hin _ (mem_stringCells (List.mem_range.1 hn))) (hin _ (mem_stringCells (List.mem_range.1 hk))) ?_
  calc x + n * (8 * s) + 8 * s = x + (n + 1) * (8 * s) := by rw [Nat.add_assoc, ← Nat.succ_mul]
    _ ≤ x + k * (8 * s) := Nat.add_le_add_left (Nat.mul_le_mul_right _ hlt) x

/-- Settles O40: the panel has seen the cells (`exec_drawString_ok`), which are apart. -/
theorem stringPaintsCells : Obligations.StringPaintsCells := by
  intro x y fg bg scale flags text s t hs hdead hm he hok hf gw
  have hv : s.cfg.valid = true := hs.1.1
  obtain ⟨hz, hseen⟩ := exec_drawString_ok hs he hok hf
  obtain ⟨hcfg, -⟩ := exec_panelSaw he
  have hin := insidePanel_of_mem_stringCells (cfg := s.cfg) (x := x.toNat) (y := y.toNat) hz (text := text)
  refine ⟨fun n px py hn hx hy => ?_, fun a ha => ?_⟩
  · have hshows := showsCell_cells hv hz hin fg bg hdead hm (stringCells_apart hv x.toNat y.toNat hz text) _ (mem_stringCells hn)
    rw [State.pixelAt, hcfg, hseen, hshows px py hx hy]
  · rw [hseen, read_cells_outside hv hz hin fg bg hdead hm fun c hc => ?_]
    obtain ⟨n, hn, rfl⟩ := List.mem_map.1 hc
    exact ha n (List.mem_range.1 hn)

/-! ### DRAW_WRAPPED and DRAW_FORMATTED (R196) -/

/-- Settles O44: the panel has seen the cells of the layout, which are the panel's (`wrappedStaysInSafeArea`). -/
theorem wrappedLeavesTheRestAlone : Obligations.WrappedLeavesTheRestAlone := by
  intro x y fg bg scale flags text s t hs hdead hm hok hf
  have hv : s.cfg.valid = true := hs.1.1
  have frame : ∀ {kept : List Byte}, 0 < scale.toNat → x.toNat + 8 * scale.toNat ≤ s.cfg.safeW →
      t.pu.env.sink = (okEvents (cellsTx s.cfg fg bg scale.toNat (wrapPlan s.cfg x.toNat y.toNat scale.toNat kept).1)).foldl
        (PanelSink.observe s.cfg) s.pu.env.sink →
      ∀ a, (∀ c ∈ (wrapPlan s.cfg x.toNat y.toNat scale.toNat kept).1, ¬ c.Covers s.cfg scale.toNat a) →
        t.pu.env.sink.mem.read a = s.pu.env.sink.mem.read a := fun {kept} hz hx hseen a ha => by
    have hin := fun c hc => (wrappedStaysInSafeArea s.cfg x.toNat y.toNat scale.toNat kept hv hx c hc).2
    rw [hseen, read_cells_outside hv hz hin fg bg hdead hm ha]
  refine ⟨fun he => ?_, fun he => ?_⟩
  · obtain ⟨hz, hx, hseen⟩ := exec_drawWrapped_ok hs he hok hf
    exact frame hz hx hseen
  · obtain ⟨hz, hx, hseen⟩ := exec_drawFormatted_ok hs he hok hf
    exact frame hz hx hseen

end Sys2Proof.Machine

/-! The LED Engine's operations (43_led_pulse.md): the train of a transmission, and every case of LED_INIT, SET_COLOR, SET_HSV, TURN_OFF and
LED_DEINIT in which the peripheral answers and goes on; and that SEND's wait (R215) has an end. -/

namespace Sys2Proof.Machine

/-! ### The train (R220, R223) -/

/-- The encoder in its initial state has the whole train to play. -/
theorem LedUnit.remaining_eq_train {u : LedUnit} (hp : u.encPhase = .color) (hb : u.encBitpos = 0) :
    u.remaining = trainEvents u.ticks u.encBytes := by
  simp only [LedUnit.remaining, hp, hb, Nat.sub_zero, trainEvents_eq]

/-- Settles O51: `encodeTrain_script` from the encoder's initial state. -/
theorem yieldsDoNotChangeTheTrain : Obligations.YieldsDoNotChangeTheTrain := by
  intro cfg u hp hb hlen hgo
  have htoGo : u.toGo ≤ 25 := by simp only [LedUnit.toGo, hp, hb, Nat.sub_zero, Nat.le_refl]
  obtain ⟨n, hn, hn', hrun⟩ := encodeTrain_script cfg 25 u (by omega) htoGo hlen hgo
  refine ⟨n, hn, hn', hrun.trans ?_⟩
  rw [LedUnit.remaining_eq_train hp hb, LedUnit.played, foldl_lineAfter_train, ← hp, ← hb]

/-! ### LED_INIT (R211 to R213) -/

/-- LED_INIT on an idle engine that is not initialised, by the answer to its allocation. -/
theorem exec_ledInit_allocated {pin chan : Byte} {s : State} (hs : s.LedIdle) (hi : s.lu.init = false) {a : Answer} {rest : List Answer}
    (ha : s.lu.env.answers = a :: rest) :
    exec (.ledInit pin chan) s = .next { s with
      lu := LedUnit.finish (LedUnit.allocated s.cfg rest { s.lu with op := { s.lu.op with pin, chan } } a) } := by
  rw [exec_ledInit]
  exact State.ledOp_next hs (ledInitBody_eq s.cfg (u := { s.lu with op := { s.lu.op with pin, chan } }) hi ha)

/-- LED_INIT's end after its channel has been allocated: the tick counts decide (R212). -/
theorem LedUnit.allocated_ok (cfg : Config) (rest : List Answer) (u : LedUnit) :
    u.allocated cfg rest .ok =
      if (pulseTable cfg).hasZero then (.fail .configurationError, u.asked cfg .ok rest)
      else (.done, (u.asked cfg .ok rest).started (pulseTable cfg)) :=
  startEngine_eq cfg _

/-- Settles O48, by the answer to the allocation and the tick counts. -/
theorem ledInitMeaning : Obligations.LedInitMeaning := by
  intro pin chan s hs o asked
  refine ⟨fun hi => ?alreadyInitialized, fun hi rest ha => ?peripheralError, fun hi hz rest ha => ?configurationError,
    fun hi hz rest ha => ?allOk⟩
  case alreadyInitialized =>
    rw [exec_ledInit]
    exact State.ledOp_refused hs (ledInitBody_eq_error_iff.2 ⟨hi, rfl⟩)
  case peripheralError =>
    rw [exec_ledInit_allocated hs hi ha]
    rfl
  case configurationError =>
    rw [exec_ledInit_allocated hs hi ha, LedUnit.allocated_ok, if_pos hz]
    rfl
  case allOk =>
    rw [exec_ledInit_allocated hs hi ha, LedUnit.allocated_ok, if_neg (Bool.eq_false_iff.1 hz), LedUnit.finish_done]
    simp only [LedUnit.started, LedUnit.asked, LedUnit.emit, List.append_assoc, List.cons_append, List.nil_append, asked]
    rfl

/-! ### SET_COLOR, SET_HSV and TURN_OFF (R215, R226, R228) -/

theorem colourBody_notInit (cfg : Config) (c : Rgb) {u : LedUnit} (hi : u.init = false) :
    colourBody cfg c u = .ok (.fail .notInitialized, u) :=
  whenLedReady_notInit hi _

theorem whenIdle_of_not_busy {u : LedUnit} (hb : u.busy = false) (r : Flow × LedUnit) : whenIdle u r = .ok r := by
  rw [whenIdle, if_neg (Bool.eq_false_iff.1 hb)]

theorem colourBody_init (cfg : Config) (c : Rgb) {u : LedUnit} (hi : u.init = true) (hb : u.busy = false) :
    colourBody cfg c u = .ok (send cfg c u) := by
  rw [colourBody, whenLedReady, if_pos hi, whenIdle_of_not_busy hb]

/-- A colour operation on an idle engine: the init test, the wait and SEND of its colour, on its operands' latches. (LED_DEINIT sends too, but
without the init test.) -/
theorem exec_colour {i : Instr} {c : Rgb} (hc : sentBy i = some c) (hn : needsInit i = true) {s : State} (hs : s.LedIdle)
    {r : Flow × LedUnit} (hbody : colourBody s.cfg c { s.lu with op := latchedBy s.lu.op i } = .ok r) :
    exec i s = .next { s with lu := LedUnit.finish r } := by
  cases i with
  | setColor =>
    cases hc
    rw [exec_setColor]
    exact State.ledOp_next hs ((setColorBody_eq_colourBody ..).trans hbody)
  | setHsv =>
    cases hc
    rw [exec_setHsv]
    exact State.ledOp_next hs ((setHsvBody_eq_colourBody ..).trans hbody)
  | turnOff =>
    cases hc
    rw [exec_turnOff]
    exact State.ledOp_next hs ((turnOffBody_eq_colourBody ..).trans hbody)
  | ledDeinit => cases hn
  | panelInit | setWindow | fill | drawPixel | drawGlyph | drawString | drawWrapped | drawFormatted | ledInit | pack565 | hsv2rgb => cases hc

/-- Every case of a colour operation in which the peripheral answers and goes on. -/
theorem exec_colour_meaning {i : Instr} {c : Rgb} (hc : sentBy i = some c) (hn : needsInit i = true) {s : State} (hs : s.LedIdle) :
    let o := latchedBy s.lu.op i
    (s.lu.init = false → exec i s = .next { s with lu := { s.lu with op := o, status := .notInitialized } }) ∧
    (s.lu.init = true → s.lu.busy = false → ∀ rest, s.lu.env.answers = .fail :: rest →
      exec i s = .next { s with lu := { s.lu.rejected s.cfg c rest with op := o, status := .transmitError } }) ∧
    (s.LedReady → ∀ rest, s.lu.env.answers = .ok :: rest → 26 ≤ s.lu.env.moves.length → (∀ m ∈ s.lu.env.moves.take 26, m ≠ .stall) →
      ∃ n, 2 ≤ n ∧ n ≤ 26 ∧
        exec i s = .next { s with lu := { s.lu.sent s.cfg c rest (s.lu.env.moves.drop n) with op := o, status := .ok } }) := by
  intro o
  refine ⟨fun hi => ?notInitialized, fun hi hb rest ha => ?rejected, fun ⟨_, hi, hb, hphase, hbit⟩ rest ha hlen hgo => ?sent⟩
  case notInitialized => exact exec_colour hc hn hs (colourBody_notInit s.cfg c hi)
  case rejected =>
    rw [exec_colour hc hn hs (colourBody_init s.cfg c hi hb), send_rejected s.cfg c (u := { s.lu with op := o }) ha]
    rfl
  case sent =>
    obtain ⟨n, hn2, hn26, hsend⟩ := send_sent s.cfg c (u := { s.lu with op := o }) ha hphase hbit hb hlen hgo
    refine ⟨n, hn2, hn26, ?_⟩
    rw [exec_colour hc hn hs (colourBody_init s.cfg c hi hb), hsend]
    rfl

/-- Settles O50: SET_COLOR sends its operands. -/
theorem setColorMeaning : Obligations.SetColorMeaning := fun r g b _ hs => exec_colour_meaning (i := .setColor r g b) rfl rfl hs

/-- Settles O53: SET_HSV sends the triple its operands convert to. -/
theorem setHsvMeaning : Obligations.SetHsvMeaning := fun hue sat val _ hs => exec_colour_meaning (i := .setHsv hue sat val) rfl rfl hs

/-- Settles O54: TURN_OFF sends black, and has no operand to latch. -/
theorem turnOffMeaning : Obligations.TurnOffMeaning := fun _ hs => exec_colour_meaning (i := .turnOff) rfl rfl hs

/-! ### LED_DEINIT (R230, R231) -/

/-- LED_DEINIT on an idle engine that is initialised is SEND of black, and the release. -/
theorem exec_ledDeinit_init {s : State} (hs : s.LedIdle) (hi : s.lu.init = true) (hb : s.lu.busy = false) :
    exec .ledDeinit s = .next { s with lu := LedUnit.finish (releaseAfter (send s.cfg blackRgb s.lu)) } := by
  rw [exec_ledDeinit]
  exact State.ledOp_next (latch := fun o => o) (body := ledDeinitBody) hs (ledDeinitBody_eq s.cfg hi hb)

/-- Settles O55, by what becomes of the turn-off; the release follows it in either case. -/
theorem ledDeinitMeaning : Obligations.LedDeinitMeaning := by
  intro s hs c
  refine ⟨fun hi => ?notInitialized, fun hi hb rest ha => ?rejected, fun ⟨_, hi, hb, hphase, hbit⟩ rest ha hlen hgo => ?sent⟩
  case notInitialized =>
    rw [exec_ledDeinit]
    exact State.ledOp_next (latch := fun o => o) (body := ledDeinitBody) hs (ledDeinitBody_notInit s.cfg hi)
  case rejected =>
    rw [exec_ledDeinit_init hs hi hb, send_rejected s.cfg blackRgb ha]
    rfl
  case sent =>
    obtain ⟨n, hn, hn', hsend⟩ := send_sent s.cfg blackRgb ha hphase hbit hb hlen hgo
    refine ⟨n, hn, hn', ?_⟩
    rw [exec_ledDeinit_init hs hi hb, hsend]
    rfl

/-! ### The wait of SEND (R215, R217; log 8) -/

theorem outcomeOf_eq_fault_iff {α : Type} {put : α → State} {r : Except Stop α} {f : Fault} :
    outcomeOf put r = .fault f ↔ r = .error (.fault f) := by
  rcases r with (_ | _) | _ <;> simp [outcomeOf]

theorem State.panelOp_ne_fault {s : State} {latch : Latches → Latches} {body : Config → PanelUnit → Except Stop (Flow × PanelUnit)} {f : Fault}
    (hb : ∀ u, body s.cfg u ≠ .error (.fault f)) : s.panelOp latch body ≠ .fault f := by
  unfold State.panelOp
  split
  · split
    · exact nofun
    · exact mt outcomeOf_eq_fault_iff.1 (hb _)
  · exact nofun

/-- A LED operation whose body faults only on a busy engine. -/
theorem State.ledOp_fault_busy {s : State} {latch : Latches → Latches} {body : Config → LedUnit → Except Stop (Flow × LedUnit)} {f : Fault}
    (h : s.ledOp latch body = .fault f) (hb : ∀ u, body s.cfg u = .error (.fault f) → u.busy = true) :
    s.lu.inFlight = false ∧ s.lu.busy = true := by
  unfold State.ledOp at h
  split at h
  · split at h
    · cases h
    · exact ⟨eq_false_of_ne_true ‹_›, hb { s.lu with op := latch s.lu.op } (outcomeOf_eq_fault_iff.1 h)⟩
  · cases h

theorem State.utilityOp_ne_fault (s : State) (latch : Latches → Latches) (result : Latches → BitVec 24) (f : Fault) :
    s.utilityOp latch result ≠ .fault f := by
  unfold State.utilityOp
  split <;> exact nofun

theorem whenIdle_error_busy {u : LedUnit} {r : Flow × LedUnit} {e : Stop} (h : whenIdle u r = .error e) : u.busy = true := by
  unfold whenIdle at h
  split at h
  · assumption
  · cases h

theorem colourBody_error_busy {cfg : Config} {c : Rgb} {u : LedUnit} {e : Stop} (h : colourBody cfg c u = .error e) : u.busy = true :=
  whenIdle_error_busy (whenLedReady_eq_error_iff.1 h).2

theorem ledDeinitBody_error_busy {cfg : Config} {u : LedUnit} {e : Stop} (h : ledDeinitBody cfg u = .error e) : u.busy = true := by
  unfold ledDeinitBody at h
  split at h
  · exact whenIdle_error_busy h
  · cases h

/-- The one ground of a fault: an engine with nothing in flight that is busy all the same. -/
theorem busy_of_exec_fault {i : Instr} {s : State} {f : Fault} (h : exec i s = .fault f) : s.lu.inFlight = false ∧ s.lu.busy = true := by
  cases i with
  | panelInit => rw [exec_panelInit] at h; exact (State.panelOp_ne_fault (fun _ => mt panelInitBody_eq_error_iff.1 nofun) h).elim
  | setWindow => rw [exec_setWindow] at h; exact (State.panelOp_ne_fault (fun u => setWindowBody_ne_error _ u _) h).elim
  | fill => rw [exec_fill] at h; exact (State.panelOp_ne_fault (fun _ => mt fillBody_eq_error_iff.1 nofun) h).elim
  | drawPixel => rw [exec_drawPixel] at h; exact (State.panelOp_ne_fault (fun u => drawPixelBody_ne_error _ u _) h).elim
  | drawGlyph => rw [exec_drawGlyph] at h; exact (State.panelOp_ne_fault (fun _ => mt drawGlyphBody_eq_error_iff.1 nofun) h).elim
  | drawString => rw [exec_drawString] at h; exact (State.panelOp_ne_fault (fun _ => mt drawStringBody_eq_error_iff.1 nofun) h).elim
  | drawWrapped => rw [exec_drawWrapped] at h; exact (State.panelOp_ne_fault (fun _ => mt drawWrappedBody_eq_error_iff.1 nofun) h).elim
  | drawFormatted => rw [exec_drawFormatted] at h; exact (State.panelOp_ne_fault (fun _ => mt drawFormattedBody_eq_error_iff.1 nofun) h).elim
  | ledInit => rw [exec_ledInit] at h; exact State.ledOp_fault_busy h fun _ hb => nomatch ledInitBody_eq_error_iff.1 hb
  | setColor => rw [exec_setColor] at h; exact State.ledOp_fault_busy h fun _ => colourBody_error_busy
  | setHsv => rw [exec_setHsv] at h; exact State.ledOp_fault_busy h fun _ => colourBody_error_busy
  | turnOff => rw [exec_turnOff] at h; exact State.ledOp_fault_busy h fun _ => colourBody_error_busy
  | ledDeinit => rw [exec_ledDeinit] at h; exact State.ledOp_fault_busy h fun _ => ledDeinitBody_error_busy
  | pack565 => rw [exec_pack565] at h; exact (State.utilityOp_ne_fault s _ _ f h).elim
  | hsv2rgb => rw [exec_hsv2rgb] at h; exact (State.utilityOp_ne_fault s _ _ f h).elim

/-- A step that faults runs the operation of the oldest descriptor. -/
theorem exec_fault_of_step_fault {s : State} {f : Fault} (h : step s = .fault f) : ∃ i rest, exec i { s with pending := rest } = .fault f := by
  cases hp : s.pending with
  | nil => cases (step_of_pending_nil hp).symm.trans h
  | cons d rest =>
    cases hd : decode d with
    | ok i => exact ⟨i, rest, by rw [← step_of_decode_ok hp hd, h]⟩
    | error e =>
      rw [step_of_decode_error hp hd, State.rejectDescriptor] at h
      split at h <;> cases h

/-- Settles O11: a coherent engine with nothing in flight is not busy. -/
theorem coherentNeverFaults : Obligations.CoherentNeverFaults := by
  intro s f ⟨_, hrest, _⟩ h
  obtain ⟨i, rest, hexec⟩ := exec_fault_of_step_fault h
  obtain ⟨hf, hbusy⟩ := busy_of_exec_fault hexec
  cases (hrest hf).1.symm.trans hbusy

end Sys2Proof.Machine

/-! An answer that never comes (93_implementation_defined.md U9; log 6): what an operation that waits for ever leaves as it was, and the
state it stands in, for every operation and every place where it can come to that. -/

namespace Sys2Proof.Machine

/-! ### The status register, the init flag and the in-flight mark -/

/-- What an operation writes at its end, or when it is left in flight (R14, 10_state.md R26; log 6). -/
structure ControlFlags where
  status : Status
  init : Bool
  inFlight : Bool

/-- Those of the Panel Engine. -/
def PanelUnit.flags (u : PanelUnit) : ControlFlags := { status := u.status, init := u.init, inFlight := u.inFlight }

/-- Those of the LED Engine. -/
def LedUnit.flags (u : LedUnit) : ControlFlags := { status := u.status, init := u.init, inFlight := u.inFlight }

/-- The body of an operation of an engine whose flags are `flags` leaves the in-flight mark alone, and, where it waits for ever, the others too. -/
structure KeepsFlags {α : Type} (flags : α → ControlFlags) (u : α) (r : Flow × α) : Prop where
  inFlight : (flags r.2).inFlight = (flags u).inFlight
  waiting : r.1 = .hang → flags r.2 = flags u

theorem KeepsFlags.of_eq {α : Type} {flags : α → ControlFlags} {u : α} {r : Flow × α} (h : flags r.2 = flags u) : KeepsFlags flags u r :=
  ⟨congrArg _ h, fun _ => h⟩

/-- A body that does not wait may change the other flags. -/
theorem KeepsFlags.of_ended {α : Type} {flags : α → ControlFlags} {u : α} {r : Flow × α} (h : (flags r.2).inFlight = (flags u).inFlight)
    (he : r.1 ≠ .hang) : KeepsFlags flags u r :=
  ⟨h, fun hw => absurd hw he⟩

/-- A part that leaves the flags alone, and then the rest of the body. -/
theorem KeepsFlags.andThen {α : Type} {flags : α → ControlFlags} {u : α} {r : Flow × α} {k : α → Flow × α} (h : flags r.2 = flags u)
    (hk : KeepsFlags flags r.2 (k r.2)) : KeepsFlags flags u (andThen r k) := by
  obtain ⟨-, e⟩ | ⟨-, e⟩ := andThen_cases r k
  · rw [e]
    exact ⟨hk.inFlight.trans (congrArg _ h), fun hw => (hk.waiting hw).trans h⟩
  · rw [e]
    exact .of_eq h

/-- An operation of an idle engine that is left in flight was waiting. -/
theorem PanelUnit.finish_inFlight {u : PanelUnit} {r : Flow × PanelUnit} (h : KeepsFlags PanelUnit.flags u r) (hu : u.inFlight = false)
    (hf : (PanelUnit.finish r).inFlight = true) : (PanelUnit.finish r).status = u.status ∧ (PanelUnit.finish r).init = u.init := by
  obtain ⟨f, v⟩ := r
  have hv : v.inFlight = false := h.inFlight.trans hu
  cases f with
  | done | fail => cases hv.symm.trans hf
  | hang =>
    have hflags := h.waiting rfl
    exact ⟨congrArg ControlFlags.status hflags, congrArg ControlFlags.init hflags⟩

theorem LedUnit.finish_inFlight {u : LedUnit} {r : Flow × LedUnit} (h : KeepsFlags LedUnit.flags u r) (hu : u.inFlight = false)
    (hf : (LedUnit.finish r).inFlight = true) : (LedUnit.finish r).status = u.status ∧ (LedUnit.finish r).init = u.init := by
  obtain ⟨f, v⟩ := r
  have hv : v.inFlight = false := h.inFlight.trans hu
  cases f with
  | done | fail => cases hv.symm.trans hf
  | hang =>
    have hflags := h.waiting rfl
    exact ⟨congrArg ControlFlags.status hflags, congrArg ControlFlags.init hflags⟩

/-! ### What the Panel Engine's bodies write of them -/

theorem Drew.keepsFlags {cfg : Config} {u : PanelUnit} {r : Flow × PanelUnit} (h : Drew cfg u r) : KeepsFlags PanelUnit.flags u r := by
  obtain ⟨es, a, d, w, bx, bh, bl, hr, -⟩ := h
  exact .of_eq (by rw [hr]; rfl)

theorem SetUp.flags {cfg : Config} {u : PanelUnit} {r : Flow × PanelUnit} (h : SetUp cfg u r) : r.2.flags = u.flags := by
  obtain ⟨⟨es, a, d, n, hr, -⟩, -⟩ := h
  rw [hr]
  rfl

theorem resetController_flags (cfg : Config) (u : PanelUnit) : (resetController cfg u).flags = u.flags := by
  rw [resetController_eq_ran]
  rfl

/-- PANEL_INIT writes its init flag when it is done, and none of them before. -/
theorem panelInitBody_keepsFlags {cfg : Config} {u : PanelUnit} {r : Flow × PanelUnit} (h : panelInitBody cfg u = .ok r) :
    KeepsFlags PanelUnit.flags u r := by
  unfold panelInitBody at h
  split at h
  · cases h
  · cases h
    refine .andThen (claimBus_setUp cfg (latchPins u)).flags (.andThen ?_ (.of_ended rfl nofun))
    exact (setupSequence_setUp cfg cfg.initSeq _).flags.trans (resetController_flags cfg _)

/-! ### What the LED Engine's bodies write of them, from any state of the encoder -/

theorem LedUnit.emits_flags (u : LedUnit) (es : List LedEvent) : (u.emits es).flags = u.flags := by
  rw [LedUnit.emits_eq_played]
  rfl

theorem LedUnit.takeMove_flags (u : LedUnit) : u.takeMove.flags = u.flags := by
  simp only [LedUnit.flags, LedUnit.takeMove_status, LedUnit.takeMove_init, LedUnit.takeMove_inFlight]

theorem encodeBits_flags (free : Nat) (u : LedUnit) : (encodeBits free u).2.flags = u.flags := by
  induction free generalizing u with
  | zero => rfl
  | succ free ih =>
    unfold encodeBits
    split
    · exact (ih _).trans (u.emits_flags _)
    · rfl

theorem encode1_flags (free : Nat) (u : LedUnit) : (encode1 free u).2.flags = u.flags := by
  have hbits := encodeBits_flags free u
  unfold encode1
  split
  · rfl
  · simp only
    split
    · exact hbits
    · split <;> exact hbits

theorem encodeTrain_flags (cfg : Config) (left : Nat) (u : LedUnit) : (encodeTrain cfg left u).2.flags = u.flags := by
  induction left generalizing u with
  | zero => rfl
  | succ left ih =>
    unfold encodeTrain
    cases u.move with
    | stall => exact u.takeMove_flags
    | proceed free =>
      have hone := (encode1_flags (slotsOf cfg free) u.takeMove).trans u.takeMove_flags
      simp only
      generalize encode1 (slotsOf cfg free) u.takeMove = r at hone ⊢
      obtain ⟨report, v⟩ := r
      cases report with
      | done => exact hone
      | bufferFull => exact (ih v).trans hone

theorem transmit_flags (cfg : Config) (c : Rgb) (u : LedUnit) : (transmit cfg c u).2.flags = u.flags := by
  have htrain : (encodeTrain cfg maxInvocations { u.showUnknown with busy := true }).2.flags = u.flags := encodeTrain_flags cfg _ _
  unfold transmit
  generalize encodeTrain cfg maxInvocations { u.showUnknown with busy := true } = r at htrain ⊢
  obtain ⟨f, v⟩ := r
  cases f with
  | done =>
    rw [andThen_done]
    cases v.move with
    | stall => exact v.takeMove_flags.trans htrain
    | proceed free => exact v.takeMove_flags.trans htrain
  | fail st => exact htrain
  | hang => exact htrain

theorem send_flags (cfg : Config) (c : Rgb) (u : LedUnit) : (send cfg c u).2.flags = u.flags := by
  unfold send LedUnit.txReq
  cases LedUnit.answer { u with encBytes := wireBytes cfg.wireOrder c } with
  | ok => exact transmit_flags cfg c _
  | fail => rfl
  | never => rfl

theorem colourBody_keepsFlags {cfg : Config} {c : Rgb} {u : LedUnit} {r : Flow × LedUnit} (h : colourBody cfg c u = .ok r) :
    KeepsFlags LedUnit.flags u r := by
  unfold colourBody whenLedReady at h
  split at h
  · rw [whenIdle_eq_ok h]
    exact .of_eq (send_flags cfg c u)
  · cases h
    exact .of_eq rfl

/-- LED_DEINIT clears its init flag with the release, which a turn-off that waits for ever does not reach. -/
theorem ledDeinitBody_keepsFlags {cfg : Config} {u : LedUnit} {r : Flow × LedUnit} (h : ledDeinitBody cfg u = .ok r) :
    KeepsFlags LedUnit.flags u r := by
  unfold ledDeinitBody at h
  split at h
  · rw [whenIdle_eq_ok h]
    have hsend := send_flags cfg blackRgb u
    generalize send cfg blackRgb u = q at hsend ⊢
    obtain ⟨f, v⟩ := q
    have hinFlight : v.inFlight = u.inFlight := congrArg ControlFlags.inFlight hsend
    cases f with
    | done => exact .of_ended hinFlight nofun
    | fail st => exact .of_ended hinFlight nofun
    | hang => exact .of_eq hsend
  · cases h
    exact .of_eq rfl

theorem LedUnit.started_keepsFlags (ticks : PulseTable) (u : LedUnit) : KeepsFlags LedUnit.flags u (.done, u.started ticks) :=
  .of_ended rfl nofun

theorem startEngine_keepsFlags (cfg : Config) (u : LedUnit) : KeepsFlags LedUnit.flags u (startEngine cfg u) := by
  rw [startEngine_eq]
  split
  · exact .of_eq rfl
  · exact LedUnit.started_keepsFlags _ u

/-- LED_INIT writes its init flag when it is done, which is after its allocation has been answered. -/
theorem ledInitBody_keepsFlags {cfg : Config} {u : LedUnit} {r : Flow × LedUnit} (h : ledInitBody cfg u = .ok r) :
    KeepsFlags LedUnit.flags u r := by
  unfold ledInitBody at h
  split at h
  · cases h
  · simp only at h
    have hasked : (LedUnit.chanAlloc cfg (LedUnit.emit { u with pins := { pin := u.op.pin, chan := u.op.chan } }
      (.pinOutLow u.op.pin))).2.flags = u.flags := rfl
    generalize LedUnit.chanAlloc cfg _ = w at h hasked
    obtain ⟨a, w⟩ := w
    cases h
    cases a with
    | ok =>
      have hstart := startEngine_keepsFlags cfg w
      exact ⟨hstart.inFlight.trans (congrArg _ hasked), fun hw => (hstart.waiting hw).trans hasked⟩
    | fail => exact .of_eq hasked
    | never => exact .of_eq hasked

/-! ### An operation left in flight -/

theorem State.panelOp_inFlight {s t : State} {latch : Latches → Latches} {body : Config → PanelUnit → Except Stop (Flow × PanelUnit)}
    (h : s.panelOp latch body = .next t)
    (hb : ∀ u r, s.cfg.valid = true → body s.cfg u = .ok r → KeepsFlags PanelUnit.flags u r) (hf : t.pu.inFlight = true) :
    t.pu.status = s.pu.status ∧ t.pu.init = s.pu.init ∧ s.pu.inFlight = false := by
  obtain ⟨hs, r, hbody, rfl⟩ := State.panelOp_cases h
  obtain ⟨hstatus, hinit⟩ := PanelUnit.finish_inFlight (hb _ r hs.1 hbody) hs.2 hf
  exact ⟨hstatus, hinit, hs.2⟩

theorem State.ledOp_inFlight {s t : State} {latch : Latches → Latches} {body : Config → LedUnit → Except Stop (Flow × LedUnit)}
    (h : s.ledOp latch body = .next t) (hb : ∀ u r, body s.cfg u = .ok r → KeepsFlags LedUnit.flags u r) (hf : t.lu.inFlight = true) :
    t.lu.status = s.lu.status ∧ t.lu.init = s.lu.init ∧ s.lu.inFlight = false := by
  obtain ⟨hs, r, hbody, rfl⟩ := State.ledOp_cases h
  obtain ⟨hstatus, hinit⟩ := LedUnit.finish_inFlight (hb _ r hbody) hs.2 hf
  exact ⟨hstatus, hinit, hs.2⟩

/-- An operation left in flight has written neither its status register nor its init flag, and was issued to an idle engine. -/
theorem exec_inFlight {i : Instr} {s t : State} (h : exec i s = .next t) (hf : t.inFlightOf (unitOf i) = true) :
    t.statusOf (unitOf i) = s.statusOf (unitOf i) ∧ t.initOf (unitOf i) = s.initOf (unitOf i) ∧ s.inFlightOf (unitOf i) = false := by
  cases i with
  | panelInit => rw [exec_panelInit] at h; exact State.panelOp_inFlight h (fun _ _ _ => panelInitBody_keepsFlags) hf
  | setWindow => rw [exec_setWindow] at h; exact State.panelOp_inFlight h (fun _ _ _ hb => (setWindowBody_drew hb).1.keepsFlags) hf
  | fill => rw [exec_fill] at h; exact State.panelOp_inFlight h (fun _ _ hv hb => (fillBody_drew hv hb).1.keepsFlags) hf
  | drawPixel => rw [exec_drawPixel] at h; exact State.panelOp_inFlight h (fun _ _ _ hb => (drawPixelBody_drew hb).1.keepsFlags) hf
  | drawGlyph => rw [exec_drawGlyph] at h; exact State.panelOp_inFlight h (fun _ _ hv hb => (drawGlyphBody_drew hv hb).1.keepsFlags) hf
  | drawString => rw [exec_drawString] at h; exact State.panelOp_inFlight h (fun _ _ hv hb => (drawStringBody_drew hv hb).1.keepsFlags) hf
  | drawWrapped =>
    rw [exec_drawWrapped] at h
    exact State.panelOp_inFlight h (fun _ _ hv hb => (drawWrappedBody_drew hv hb).1.keepsFlags) hf
  | drawFormatted =>
    rw [exec_drawFormatted] at h
    exact State.panelOp_inFlight h (fun _ _ hv hb => (drawFormattedBody_drew hv hb).1.keepsFlags) hf
  | ledInit => rw [exec_ledInit] at h; exact State.ledOp_inFlight h (fun _ _ => ledInitBody_keepsFlags) hf
  | setColor => rw [exec_setColor] at h; exact State.ledOp_inFlight h (fun _ _ => colourBody_keepsFlags) hf
  | setHsv => rw [exec_setHsv] at h; exact State.ledOp_inFlight h (fun _ _ => colourBody_keepsFlags) hf
  | turnOff => rw [exec_turnOff] at h; exact State.ledOp_inFlight h (fun _ _ => colourBody_keepsFlags) hf
  | ledDeinit => rw [exec_ledDeinit] at h; exact State.ledOp_inFlight h (fun _ _ => ledDeinitBody_keepsFlags) hf
  | pack565 | hsv2rgb => cases hf

/-! ### A drawing operation (R150, R162, R177) -/

/-- A drawing operation on a ready engine is the transactions of `drawingTx`, and when they are done what follows them. -/
theorem exec_drawing {i : Instr} {s : State} {cs : List TxContent} (hs : s.PanelReady) (h : drawingTx s.cfg i = some cs) :
    ∃ r k, exec i s = .next { s with pu := PanelUnit.finish r } ∧
      SameTraffic r (andThen (sendAll s.cfg cs { s.pu with op := latchedBy s.pu.op i }) k) := by
  have alone : ∀ {r u}, exec i s = .next { s with pu := PanelUnit.finish r } → SameTraffic r (sendAll s.cfg cs u) →
      ∃ r k, exec i s = .next { s with pu := PanelUnit.finish r } ∧ SameTraffic r (andThen (sendAll s.cfg cs u) k) :=
    fun {r u} hexec htraffic => ⟨r, fun v => (.done, v), hexec, by rwa [andThen_pure]⟩
  cases i with
  | setWindow =>
    obtain ⟨hin, ⟨⟩⟩ := Option.ite_none_right_eq_some.1 h
    exact alone (exec_setWindow_inside hs hin) (.refl _)
  | fill =>
    obtain ⟨⟨hw, hh, hin⟩, ⟨⟩⟩ := Option.ite_none_right_eq_some.1 h
    obtain ⟨r, hexec, htraffic⟩ := exec_fill_inside hs hw hh hin
    exact alone hexec htraffic
  | drawPixel =>
    obtain ⟨hin, ⟨⟩⟩ := Option.ite_none_right_eq_some.1 h
    exact alone (exec_drawPixel_inside hs hin) (.refl _)
  | drawGlyph =>
    obtain ⟨⟨hz, hin⟩, ⟨⟩⟩ := Option.ite_none_right_eq_some.1 h
    obtain ⟨r, hexec, htraffic⟩ := exec_drawGlyph_inside hs hz hin
    exact alone hexec htraffic
  | drawString =>
    obtain ⟨hz, ⟨⟩⟩ := Option.ite_none_right_eq_some.1 h
    obtain ⟨r, hexec, htraffic⟩ := exec_drawString_scaled hs hz
    exact alone hexec htraffic
  | drawWrapped =>
    obtain ⟨⟨hz, hx⟩, ⟨⟩⟩ := Option.ite_none_right_eq_some.1 h
    obtain ⟨r, hexec, htraffic⟩ := exec_drawWrapped_room hs hz hx
    exact ⟨r, _, hexec, htraffic⟩
  | drawFormatted =>
    obtain ⟨⟨hz, hx⟩, ⟨⟩⟩ := Option.ite_none_right_eq_some.1 h
    obtain ⟨r, hexec, htraffic⟩ := exec_drawFormatted_room hs hz hx
    exact ⟨r, _, hexec, htraffic⟩
  | panelInit | ledInit | setColor | setHsv | turnOff | ledDeinit | pack565 | hsv2rgb => cases h

/-- Where a transaction is never answered, what would follow the transactions does not matter. -/
theorem finish_of_sendAll_andThen_never {cfg : Config} {u : PanelUnit} {o : Latches} {r : Flow × PanelUnit} {cs : List TxContent}
    {k : PanelUnit → Flow × PanelUnit} {rest : List Answer} {j : Nat}
    (h : SameTraffic r (andThen (sendAll cfg cs { u with op := o }) k)) (hj : j < cs.length)
    (ha : u.env.answers = List.replicate j .ok ++ .never :: rest) :
    PanelUnit.finish r = u.waiting cfg (neverAt cs j) rest o r.2.work := by
  have hstop := sendAll_stops cfg cs { u with op := o } rest .never (by decide) j hj ha
  rw [if_neg (by decide)] at hstop
  rw [hstop, andThen_hang, ← hstop] at h
  exact finish_of_sameTraffic_never h hj ha

/-! ### PANEL_INIT (R141) -/

/-- An operation that waits, as events of the unit it was issued to. -/
theorem PanelUnit.waiting_eq_ran (cfg : Config) (es : List PanelEvent) (rest : List Answer) (o : Latches) (w : Transient) (u : PanelUnit) :
    u.waiting cfg es rest o w = { u.ran cfg es rest u.env.drawn w with op := o, inFlight := true } := by
  rw [PanelUnit.waiting, PanelUnit.after_eq_ran]
  rfl

/-- A PANEL_INIT that waits after the events `es` of its set-up sequence. -/
theorem PanelUnit.controllerReset_waiting (cfg : Config) (o : Latches) (rest rest' : List Answer) (es : List PanelEvent) (u : PanelUnit) :
    { PanelUnit.ran cfg es rest' u.env.drawn u.work (u.controllerReset cfg o rest) with inFlight := true } =
      { u.waiting cfg (.claim .ok :: resetEvents cfg ++ es) rest' o u.work with setupErrs := 0, pins := o.panelPins } := by
  rw [PanelUnit.waiting_eq_ran, ← PanelUnit.ran_ran cfg u (.claim .ok :: resetEvents cfg) es rest rest' u.env.drawn u.env.drawn u.work u.work]
  rfl

section
variable {dc rst cs sclk mosi : Byte} {hz : Word} {s : State} {rest : List Answer}

/-- A PANEL_INIT whose bus claim is never answered. -/
theorem exec_panelInit_unclaimed (hs : s.PanelIdle) (hi : s.pu.init = false) (ha : s.pu.env.answers = .never :: rest) :
    let o := latchedBy s.pu.op (.panelInit dc rst cs sclk mosi hz)
    exec (.panelInit dc rst cs sclk mosi hz) s = .next { s with
      pu := { s.pu.waiting s.cfg [.claim .never] rest o s.pu.work with setupErrs := 0, pins := o.panelPins } } := by
  intro o
  have hbody := panelInitBody_notClaimed (cfg := s.cfg) (u := { s.pu with op := o }) hi (by decide) ha
  rw [exec_panelInit, State.panelOp_next hs hbody, if_neg (by decide), PanelUnit.finish_hang, PanelUnit.waiting_eq_ran]
  rfl

/-- A PANEL_INIT whose `j`-th set-up transaction is never answered. -/
theorem exec_panelInit_unanswered (hs : s.PanelIdle) (hi : s.pu.init = false) {j : Nat} (hj : j < (setupTxs s.cfg).length)
    (ha : s.pu.env.answers = .ok :: List.replicate j .ok ++ .never :: rest) :
    let o := latchedBy s.pu.op (.panelInit dc rst cs sclk mosi hz)
    ∃ before c behind, s.cfg.initSeq.flatMap entryEvents = before ++ txEvent .ok c :: behind ∧ (before.filterMap txOf).length = j ∧
      exec (.panelInit dc rst cs sclk mosi hz) s = .next { s with
        pu := { s.pu.waiting s.cfg (.claim .ok :: resetEvents s.cfg ++ before ++ [txEvent .never c]) rest o s.pu.work with
          setupErrs := 0, pins := o.panelPins } } := by
  intro o
  have hclaim : s.pu.env.answers = .ok :: (List.replicate j .ok ++ .never :: rest) := ha
  obtain ⟨before, c, behind, hevents, hcount, hrun⟩ := setupSequence_stops (cfg := s.cfg) (.inr rfl) s.cfg.initSeq
    (s.pu.controllerReset s.cfg o (List.replicate j .ok ++ .never :: rest)) j rest hj rfl
  refine ⟨before, c, behind, hevents, hcount, ?_⟩
  rw [exec_panelInit_claimed hs hi hclaim, hrun, if_neg (by decide), andThen_hang, PanelUnit.finish_hang, List.append_assoc]
  exact congrArg (fun u : PanelUnit => Host.Outcome.next { s with pu := u })
    (PanelUnit.controllerReset_waiting s.cfg o _ rest (before ++ [txEvent .never c]) s.pu)

end

/-! ### SEND (R215, R217) -/

/-- A colour operation, or LED_DEINIT, whose SEND waits for ever stays in it. -/
theorem exec_send_hang {i : Instr} {c : Rgb} (hc : sentBy i = some c) {s : State} (hs : s.LedIdle) (hi : s.lu.init = true)
    (hb : s.lu.busy = false) (hsend : (send s.cfg c { s.lu with op := latchedBy s.lu.op i }).1 = .hang) :
    exec i s = .next { s with lu := LedUnit.finish (send s.cfg c { s.lu with op := latchedBy s.lu.op i }) } := by
  cases i with
  | setColor | setHsv | turnOff => exact exec_colour hc rfl hs (colourBody_init s.cfg c hi hb)
  | ledDeinit =>
    cases hc
    have hrelease : ∀ r : Flow × LedUnit, r.1 = .hang → releaseAfter r = r := by rintro ⟨f, v⟩ ⟨⟩; rfl
    exact (exec_ledDeinit_init hs hi hb).trans
      (congrArg (fun r => Host.Outcome.next { s with lu := LedUnit.finish r }) (hrelease (send s.cfg blackRgb s.lu) hsend))
  | panelInit | setWindow | fill | drawPixel | drawGlyph | drawString | drawWrapped | drawFormatted | ledInit | pack565 | hsv2rgb => cases hc

/-- Settles O21, by the place at which the answer or the peripheral's move stays away. -/
theorem unansweredOperationDoesNotEnd : Obligations.UnansweredOperationDoesNotEnd := by
  refine ⟨fun i s t => exec_inFlight, fun i s cs j rest hs htx hj ha => ?drawing, fun dc rst cs sclk mosi hz s hs hi => ?panelInit,
    fun pin chan s rest hs hi ha => ?ledInit, fun i s c rest hc => ⟨fun hs hi hb ha => ?request, fun slots moves hs ha hm => ?train⟩⟩
  case drawing =>
    obtain ⟨r, k, hexec, htraffic⟩ := exec_drawing hs htx
    exact ⟨r.2.work, by rw [hexec, finish_of_sendAll_andThen_never htraffic hj ha]⟩
  case panelInit => exact ⟨fun rest => exec_panelInit_unclaimed hs hi, fun j rest => exec_panelInit_unanswered hs hi⟩
  case ledInit =>
    rw [exec_ledInit_allocated hs hi ha]
    rfl
  case request =>
    obtain ⟨hhang, hfinish⟩ := send_unanswered s.cfg c (u := { s.lu with op := latchedBy s.lu.op i }) ha
    rw [exec_send_hang hc hs hi hb hhang, hfinish]
    rfl
  case train =>
    obtain ⟨hidle, hi, hb, hphase, hbit⟩ := hs
    obtain ⟨hwithin, hwhole⟩ := send_stalled s.cfg c (u := { s.lu with op := latchedBy s.lu.op i }) ha hphase hbit hm
    refine ⟨fun hn => ?_, fun hlast hn => ?_⟩
    · obtain ⟨hhang, hfinish⟩ := hwithin hn
      rw [exec_send_hang hc hidle hi hb hhang, hfinish]
      rfl
    · obtain ⟨hhang, hfinish⟩ := hwhole hlast hn
      rw [exec_send_hang hc hidle hi hb hhang, hfinish]
      rfl

end Sys2Proof.Machine

/-! The Colour Utility's operations (44_color_utility.md): the pixel PACK565 packs, the triple HSV2RGB converts to, region by region, and the
laws of the clamping and of grey. -/

namespace Sys2Proof.Machine

/-- A utility operation in a valid configuration ends OK, with its result computed from the operands it latches (R250). -/
theorem State.utilityOp_next {s : State} (hv : s.cfg.valid = true) (latch : Latches → Latches) (result : Latches → BitVec 24) :
    s.utilityOp latch result = .next { s with cu := { status := .ok, result := result (latch s.cu.op), op := latch s.cu.op } } :=
  if_pos hv

/-! ### The pixel (R252) -/

theorem packRgb565_toNat (c : Rgb) :
    (packRgb565 c).toNat = (c.r.toNat / 8) * 2048 + (c.g.toNat / 4) * 32 + c.b.toNat / 8 := by
  simp only [packRgb565, BitVec.toNat_ofNat, Nat.shiftLeft_eq, Nat.shiftRight_eq_div_pow]
  omega

/-- Two bit fields are equal when their numbers are. -/
theorem extractLsb'_eq_of_div_mod {m n : Nat} {x : BitVec m} {y : BitVec n} {i j len : Nat}
    (h : x.toNat / 2 ^ i % 2 ^ len = y.toNat / 2 ^ j % 2 ^ len) : x.extractLsb' i len = y.extractLsb' j len := by
  apply BitVec.eq_of_toNat_eq
  simpa only [BitVec.extractLsb'_toNat, Nat.shiftRight_eq_div_pow] using h

/-- The fields do not overlap: each holds the top bits of its own channel. -/
theorem packRgb565_fields (c : Rgb) :
    (packRgb565 c).extractLsb' 11 5 = c.r.extractLsb' 3 5 ∧ (packRgb565 c).extractLsb' 5 6 = c.g.extractLsb' 2 6 ∧
      (packRgb565 c).extractLsb' 0 5 = c.b.extractLsb' 3 5 := by
  have hp := packRgb565_toNat c
  refine ⟨extractLsb'_eq_of_div_mod ?_, extractLsb'_eq_of_div_mod ?_, extractLsb'_eq_of_div_mod ?_⟩ <;> omega

/-- Settles O57: the pixel is `packRgb565` of the operands. -/
theorem pack565Meaning : Obligations.Pack565Meaning := by
  intro r g b s hv
  refine ⟨packRgb565 { r, g, b }, ?_, packRgb565_toNat _, packRgb565_fields _⟩
  rw [exec_pack565]
  exact State.utilityOp_next hv _ _

/-! ### Clamp and rescale (30_encoding.md R122) -/

theorem rescaleHsv_le (hue : Half) (sat val : Byte) :
    (rescaleHsv hue sat val).1 ≤ 255 ∧ (rescaleHsv hue sat val).2.1 ≤ 255 ∧ (rescaleHsv hue sat val).2.2 ≤ 255 := by
  simp only [rescaleHsv]
  omega

/-- A clamped operand still fits its field. -/
theorem toNat_ofNat_clamped {w : Nat} (x : BitVec w) (n : Nat) : (BitVec.ofNat w (min x.toNat n)).toNat = min x.toNat n :=
  (BitVec.toNat_ofNat ..).trans (Nat.mod_eq_of_lt (lt_of_le_of_lt (min_le_left ..) x.isLt))

/-- The second clamping changes nothing. -/
theorem rescaleHsv_clamped (hue : Half) (sat val : Byte) :
    rescaleHsv (BitVec.ofNat 16 (min hue.toNat 360)) (BitVec.ofNat 8 (min sat.toNat 100)) (BitVec.ofNat 8 (min val.toNat 100)) =
      rescaleHsv hue sat val := by
  simp only [rescaleHsv, toNat_ofNat_clamped, min_assoc, min_self]

/-- The conversion sees its operands only through the rescaled triple (R254). -/
theorem hsvToRgb_congr {hue hue' : Half} {sat sat' val val' : Byte} (h : rescaleHsv hue sat val = rescaleHsv hue' sat' val') :
    hsvToRgb hue sat val = hsvToRgb hue' sat' val' := by
  unfold hsvToRgb
  rw [h]

theorem rescaleHsv_sat_eq_zero_iff (hue : Half) (sat val : Byte) : (rescaleHsv hue sat val).2.1 = 0 ↔ sat = 0 := by
  rw [← BitVec.toNat_inj]
  simp only [rescaleHsv, BitVec.ofNat_eq_ofNat, BitVec.toNat_ofNat]
  omega

theorem rescaleHsv_val_eq_255_iff (hue : Half) (sat val : Byte) : (rescaleHsv hue sat val).2.2 = 255 ↔ 100 ≤ val.toNat := by
  simp only [rescaleHsv]
  omega

/-! ### The table of the regions (R256) -/

/-- The value dimmed by `a` parts in 255, as `p`, `q` and `t` of R256 are. -/
def dimmed (v8 a : Nat) : Nat := v8 * (255 - a) / 256

theorem dimmed_le (v8 a : Nat) : dimmed v8 a ≤ v8 :=
  Nat.div_le_of_le_mul ((Nat.mul_le_mul_left v8 (show 255 - a ≤ 256 by omega)).trans_eq (Nat.mul_comm ..))

/-- The table's row for a region, `m` being the remainder. -/
def hsvRow (region m s8 v8 : Nat) : Nat × Nat × Nat :=
  let p := dimmed v8 s8
  let q := dimmed v8 (s8 * m / 256)
  let t := dimmed v8 (s8 * (255 - m) / 256)
  [(v8, t, p), (q, v8, p), (p, v8, t), (p, q, v8), (t, p, v8)].getD region (v8, p, q)

theorem hsvCore_grey (h8 v8 : Nat) : hsvCore h8 0 v8 = (v8, v8, v8) := rfl

/-- Off grey, `HsvCore` is the row of the region the hue is in. -/
theorem hsvCore_eq_hsvRow {h8 s8 v8 region : Nat} (hs : s8 ≠ 0) (hr : h8 / 43 = region) :
    hsvCore h8 s8 v8 = hsvRow region ((h8 - region * 43) * 6) s8 v8 := by
  unfold hsvCore
  rw [if_neg hs, hr]
  simp only [Nat.shiftRight_eq_div_pow]
  match region with
  | 0 | 1 | 2 | 3 | 4 | _ + 5 => rfl

/-- No component of a row exceeds the value. -/
theorem hsvRow_le (region m s8 v8 : Nat) :
    (hsvRow region m s8 v8).1 ≤ v8 ∧ (hsvRow region m s8 v8).2.1 ≤ v8 ∧ (hsvRow region m s8 v8).2.2 ≤ v8 := by
  have hdim := dimmed_le v8
  match region with
  | 0 => exact ⟨le_rfl, hdim _, hdim _⟩
  | 1 => exact ⟨hdim _, le_rfl, hdim _⟩
  | 2 => exact ⟨hdim _, le_rfl, hdim _⟩
  | 3 => exact ⟨hdim _, hdim _, le_rfl⟩
  | 4 => exact ⟨hdim _, hdim _, le_rfl⟩
  | _ + 5 => exact ⟨le_rfl, hdim _, hdim _⟩

theorem hsvCore_le (h8 s8 v8 : Nat) :
    (hsvCore h8 s8 v8).1 ≤ v8 ∧ (hsvCore h8 s8 v8).2.1 ≤ v8 ∧ (hsvCore h8 s8 v8).2.2 ≤ v8 := by
  by_cases hs : s8 = 0
  · subst hs
    exact ⟨le_rfl, le_rfl, le_rfl⟩
  · rw [hsvCore_eq_hsvRow hs rfl]
    exact hsvRow_le ..

/-! ### HSV2RGB (R255) -/

/-- Components that fit a byte stand uncut in the 24-bit result. -/
theorem packRgb888_toNat {r g b : Nat} (hr : r ≤ 255) (hg : g ≤ 255) (hb : b ≤ 255) :
    (packRgb888 { r := BitVec.ofNat 8 r, g := BitVec.ofNat 8 g, b := BitVec.ofNat 8 b }).toNat = r * 65536 + g * 256 + b := by
  simp only [packRgb888, BitVec.toNat_ofNat, Nat.shiftLeft_eq]
  omega

/-- Settles O58: the triple is `hsvCore` of the rescaled operands, which `hsvCore_eq_hsvRow` writes out for each region. -/
theorem hsv2RgbMeaning : Obligations.Hsv2RgbMeaning := by
  intro hue sat val s hv h8 s8 v8 p q t
  obtain ⟨hh, -, hv8⟩ : h8 ≤ 255 ∧ s8 ≤ 255 ∧ v8 ≤ 255 := rescaleHsv_le hue sat val
  obtain ⟨hr, hg, hb⟩ := hsvCore_le h8 s8 v8
  have row (region : Nat) (hs : s8 ≠ 0) (hlo : region * 43 ≤ h8) (hhi : h8 < (region + 1) * 43) :
      hsvCore h8 s8 v8 = hsvRow region ((h8 - region * 43) * 6) s8 v8 :=
    hsvCore_eq_hsvRow hs (Nat.div_eq_of_lt_le hlo hhi)
  refine ⟨packRgb888 (hsvToRgb hue sat val), (hsvCore h8 s8 v8).1, (hsvCore h8 s8 v8).2.1, (hsvCore h8 s8 v8).2.2, ?exec,
    packRgb888_toNat (hr.trans hv8) (hg.trans hv8) (hb.trans hv8), hr.trans hv8, hg.trans hv8, hb.trans hv8, rfl,
    fun hs => hs ▸ hsvCore_grey h8 v8, fun hs hhi => row 0 hs (by omega) (by omega), fun hs hlo hhi => row 1 hs (by omega) (by omega),
    fun hs hlo hhi => row 2 hs (by omega) (by omega), fun hs hlo hhi => row 3 hs (by omega) (by omega),
    fun hs hlo hhi => row 4 hs (by omega) (by omega), fun hs hlo => row 5 hs (by omega) (by omega)⟩
  case exec =>
    rw [exec_hsv2rgb]
    exact State.utilityOp_next hv _ _

/-- Settles O60: clamping twice is clamping once; hue 360 rescales to 255, in the last region, and not to 0. -/
theorem hsvClamps : Obligations.HsvClamps :=
  ⟨fun hue sat val => hsvToRgb_congr (rescaleHsv_clamped hue sat val).symm, rfl, rfl, fun _ _ => rfl, rescaleHsv_val_eq_255_iff⟩

/-! ### Grey (R257) -/

/-- Settles O59: a saturation of 0 rescales to 0, and `hsvCore_grey` gives the triple. -/
theorem zeroSaturationIsGrey : Obligations.ZeroSaturationIsGrey := by
  refine ⟨fun hue val => ?_, rescaleHsv_sat_eq_zero_iff, fun _ _ => rfl⟩
  have hsat : (rescaleHsv hue 0 val).2.1 = 0 := (rescaleHsv_sat_eq_zero_iff hue 0 val).2 rfl
  simp only [hsvToRgb, hsat, hsvCore_grey]
  rfl

end Sys2Proof.Machine

/-! The pulse encoder's table (45_arithmetic_and_sequencing.md R268): one invocation for each row, in the words of `LedUnit.emits`; and the bits,
the wire orders and the train that it plays, written out. -/

namespace Sys2Proof.Machine

/-! ### The pulses of one invocation (R220) -/

theorem LedUnit.emits_append (u : LedUnit) (es fs : List LedEvent) : u.emits (es ++ fs) = (u.emits es).emits fs :=
  List.foldl_append

@[simp] theorem LedUnit.emits_ticks (u : LedUnit) (es : List LedEvent) : (u.emits es).ticks = u.ticks := by
  rw [LedUnit.emits_eq_played]; rfl

/-- The encoder's loop stops at the last bit or at the last free slot, whichever comes first. -/
theorem encodeBits_eq_emits {u : LedUnit} (free : Nat) (h : u.encBitpos ≤ 24) :
    let n := min free (24 - u.encBitpos)
    encodeBits free u =
      (free - n, { u.emits (bitSymbols u.ticks u.encBytes u.encBitpos n) with encBitpos := u.encBitpos + n }) := by
  intro n
  rw [encodeBits_spec free u h, LedUnit.emits_eq_played]
  rfl

/-- The reset pulse follows what the invocation has played, wherever that left the encoder. -/
theorem encodeReset_emits (u : LedUnit) (es : List LedEvent) (ph : EncPhase) (bp : Nat) :
    encodeReset { u.emits es with encPhase := ph, encBitpos := bp } =
      { u.emits (es ++ [resetPulse u.ticks]) with encPhase := .color, encBitpos := 0 } := by
  rw [LedUnit.emits_append, ← LedUnit.emits_ticks u es]
  rfl

/-! ### The rows of the table (R268) -/

section
variable {u : LedUnit} {free : Nat}

/-- The slots run out first. -/
theorem encode1_of_color_of_free_lt (h : u.encBitpos ≤ 24) (hp : u.encPhase = .color) (hf : free < 24 - u.encBitpos) :
    encode1 free u =
      (.bufferFull, { u.emits (bitSymbols u.ticks u.encBytes u.encBitpos free) with encBitpos := u.encBitpos + free }) := by
  have hlt : u.encBitpos + free < 24 := by omega
  simp only [encode1, hp, encodeBits_eq_emits free h, Nat.min_eq_left hf.le, if_pos hlt]

/-- The bits and the slots run out together: no slot is left for the reset pulse. -/
theorem encode1_of_color_of_free_eq (h : u.encBitpos ≤ 24) (hp : u.encPhase = .color) (hf : 24 - u.encBitpos = free) :
    encode1 free u =
      (.bufferFull, { u.emits (bitSymbols u.ticks u.encBytes u.encBitpos free) with encPhase := .reset, encBitpos := 24 }) := by
  have hend : u.encBitpos + free = 24 := by omega
  simp only [encode1, hp, encodeBits_eq_emits free h, Nat.min_eq_left hf.ge, hend, Nat.lt_irrefl, if_false, Nat.sub_self, if_true]

/-- The bits run out first: the reset pulse has a slot in the same invocation. -/
theorem encode1_of_color_of_lt_free (h : u.encBitpos ≤ 24) (hp : u.encPhase = .color) (hf : 24 - u.encBitpos < free) :
    encode1 free u =
      (.done, { u.emits (bitSymbols u.ticks u.encBytes u.encBitpos (24 - u.encBitpos) ++ [resetPulse u.ticks]) with
        encPhase := .color, encBitpos := 0 }) := by
  have hend : u.encBitpos + (24 - u.encBitpos) = 24 := by omega
  have hleft : free - (24 - u.encBitpos) ≠ 0 := by omega
  simp only [encode1, hp, encodeBits_eq_emits free h, Nat.min_eq_right hf.le, hend, Nat.lt_irrefl, if_false, if_neg hleft,
    encodeReset_emits]

/-- Only the reset pulse is left. -/
theorem encode1_of_reset (hp : u.encPhase = .reset) :
    encode1 free u = (.done, { u.emits [resetPulse u.ticks] with encPhase := .color, encBitpos := 0 }) := by
  simp only [encode1, hp]
  rfl

end

/-! ### What is played (R216, R221, R223) -/

theorem bitAt_of_div_eq (w : WireBytes) {k i : Nat} (h : k / 8 = i) : bitAt w k = (w.toList.getD i 0).getLsbD (7 - k % 8) := by
  rw [bitAt, h]

theorem trainEvents_length (t : PulseTable) (w : WireBytes) : (trainEvents t w).length = 49 := by
  rw [trainEvents_eq, List.length_append, bitSymbols_length, List.length_singleton]

/-- Settles O52: the four rows above; the symbols and the wire orders are the definitions, and a bit's byte is the quotient of its number by 8. -/
theorem encoderTransitions : Obligations.EncoderTransitions := by
  refine ⟨fun _ => ⟨rfl, rfl, rfl⟩, fun w k => ⟨?byte0, ?byte1, ?byte2⟩, fun _ _ _ => rfl,
    fun t w => ⟨trainEvents_eq t w, trainEvents_length t w⟩, fun u free _ hpos => ?rows⟩
  case byte0 => exact fun hhi => bitAt_of_div_eq w (i := 0) (by omega)
  case byte1 => exact fun hlo hhi => bitAt_of_div_eq w (i := 1) (by omega)
  case byte2 => exact fun hlo hhi => bitAt_of_div_eq w (i := 2) (by omega)
  case rows =>
    refine ⟨encode1_of_color_of_free_lt hpos, fun hp hf => ?_, encode1_of_color_of_lt_free hpos, encode1_of_reset⟩
    rw [hf]
    exact encode1_of_color_of_free_eq hpos hp hf

end Sys2Proof.Machine

/-! Statuses, init flags and units (60_exceptions.md R270 to R293): what the body of an operation can come to, said once for each operation, and
what follows of it for the status registers, the init flags and `NotInitialized`; and that operations of different units commute. -/

namespace Sys2Proof.Machine

/-! ### How an operation can end (R271, R278, R290) -/

/-- What operation `i` can come to on an engine whose init flag is `before`: how it ends, and the init flag it leaves. `exec_ends` ties it to
`exec`. -/
inductive Ends (i : Instr) (before : Bool) : Flow → Bool → Prop where
  | done : Ends i before .done before
  | hang : Ends i before .hang before
  | failed {st : Status} (hst : statusAllowed (opcode i) st = true) (hne : st ≠ .notInitialized) : Ends i before (.fail st) before
  | notInitialized (hn : needsInit i = true) (hb : before = false) : Ends i before (.fail .notInitialized) before
  | panelInitialized (hop : opcode i = .panelInit) (hb : before = false) : Ends i before .done true
  | ledInitialized (hop : opcode i = .ledInit) (hb : before = false) : Ends i before .done true
  | ledReleased {f : Flow} (hop : opcode i = .ledDeinit) (hb : before = true) (hf : f = .done ∨ f = .fail .transmitError) :
    Ends i before f false

/-- `OK` is a status of every operation (R278). -/
theorem statusAllowed_ok (c : Opcode) : statusAllowed c .ok = true := by cases c <;> rfl

/-- `NotInitialized` is a status of the ten operations of R271. -/
theorem statusAllowed_notInitialized {i : Instr} (h : needsInit i = true) : statusAllowed (opcode i) .notInitialized = true := by
  cases i with
  | setWindow | fill | drawPixel | drawGlyph | drawString | drawWrapped | drawFormatted | setColor | setHsv | turnOff => rfl
  | panelInit | ledInit | ledDeinit | pack565 | hsv2rgb => cases h

section
variable {i : Instr} {before after : Bool} {f : Flow} {st : Status}

/-- A status that an operation ends with is one that R278's matrix marks for it. -/
theorem Ends.statusAllowed (h : Ends i before f after) (hf : f.ending = some st) : statusAllowed (opcode i) st = true := by
  cases h with
  | done | panelInitialized | ledInitialized => cases hf; exact statusAllowed_ok _
  | hang => cases hf
  | failed hst => cases hf; exact hst
  | notInitialized hn => cases hf; exact statusAllowed_notInitialized hn
  | ledReleased hop _ hflow =>
    rw [hop]
    obtain rfl | rfl := hflow <;> cases hf <;> rfl

theorem Ends.of_notInitialized (h : Ends i before f after) (hf : f.ending = some .notInitialized) : needsInit i = true ∧ before = false := by
  cases h with
  | done | hang | panelInitialized | ledInitialized => cases hf
  | failed _ hne => cases hf; exact absurd rfl hne
  | notInitialized hn hb => exact ⟨hn, hb⟩
  | ledReleased _ _ hflow => obtain rfl | rfl := hflow <;> cases hf

/-- The three ways to change an init flag. -/
theorem Ends.of_init_ne (h : Ends i before f after) (hne : after ≠ before) :
    ((opcode i = .panelInit ∨ opcode i = .ledInit) ∧ before = false ∧ after = true ∧ f = .done) ∨
    (opcode i = .ledDeinit ∧ before = true ∧ after = false ∧ ∃ st, f.ending = some st) := by
  cases h with
  | done | hang | failed | notInitialized => exact absurd rfl hne
  | panelInitialized hop hb => exact .inl ⟨.inl hop, hb, rfl, rfl⟩
  | ledInitialized hop hb => exact .inl ⟨.inr hop, hb, rfl, rfl⟩
  | ledReleased hop hb hflow => obtain rfl | rfl := hflow <;> exact .inr ⟨hop, hb, rfl, _, rfl⟩

end

/-! ### The bodies of the operations -/

/-- What the body of operation `i` does with the flags of its engine: it fails with `NotInitialized` by R271's rule, leaves the in-flight mark
alone, and comes to what `Ends` lists. -/
structure IsBody {α : Type} (flags : α → ControlFlags) (i : Instr) (body : Config → α → Except Stop (Flow × α)) : Prop where
  uninit : needsInit i = true → ∀ cfg u, (flags u).init = false → body cfg u = .ok (.fail .notInitialized, u)
  inFlight : ∀ {cfg u r}, cfg.valid = true → body cfg u = .ok r → (flags r.2).inFlight = (flags u).inFlight
  ends : ∀ {cfg u r}, cfg.valid = true → body cfg u = .ok r → Ends i (flags u).init r.1 (flags r.2).init

theorem Drew.flags {cfg : Config} {u : PanelUnit} {r : Flow × PanelUnit} (h : Drew cfg u r) : r.2.flags = u.flags := by
  obtain ⟨es, a, d, w, bx, bh, bl, hr, -⟩ := h
  rw [hr]
  rfl

/-- A drawing operation: `bounds` says whether it can end with `InvalidBounds`. -/
theorem IsBody.of_drew {i : Instr} {bounds : Bool} {body : Config → PanelUnit → Except Stop (Flow × PanelUnit)} (hn : needsInit i = true)
    (hperipheral : statusAllowed (opcode i) .peripheralError = true) (hbounds : bounds = true → statusAllowed (opcode i) .invalidBounds = true)
    (huninit : ∀ cfg u, u.init = false → body cfg u = .ok (.fail .notInitialized, u))
    (hdrew : ∀ {cfg u r}, cfg.valid = true → body cfg u = .ok r → Drew cfg u r ∧ DrawEnds bounds u r.1) : IsBody PanelUnit.flags i body where
  uninit _ := huninit
  inFlight hv hb := congrArg ControlFlags.inFlight (hdrew hv hb).1.flags
  ends {_ _ r} hv hb := by
    obtain ⟨hd, he⟩ := hdrew hv hb
    rw [hd.flags]
    generalize r.1 = f at he
    cases f with
    | done => exact .done
    | hang => exact .hang
    | fail st =>
      obtain ⟨hi, rfl⟩ | ⟨-, rfl | ⟨hbd, rfl⟩⟩ := he
      · exact .notInitialized hn hi
      · exact .failed hperipheral nofun
      · exact .failed (hbounds hbd) nofun

/-- A part of PANEL_INIT that leaves the init flag alone, and then the rest of it. -/
theorem SetUp.andThen_ends {cfg : Config} {v : PanelUnit} {q : Flow × PanelUnit} {k : PanelUnit → Flow × PanelUnit} {i : Instr} {before : Bool}
    (hq : SetUp cfg v q) (hv : v.init = before) (hop : opcode i = .panelInit)
    (hk : q.2.init = before → Ends i before (k q.2).1 (k q.2).2.init) : Ends i before (Machine.andThen q k).1 (Machine.andThen q k).2.init := by
  have hinit : q.2.init = before := (congrArg ControlFlags.init hq.flags).trans hv
  obtain ⟨-, hflow⟩ := hq
  obtain ⟨f, w⟩ := q
  obtain rfl | rfl | rfl := hflow
  · exact hk hinit
  · rw [andThen_fail, hinit]; exact .failed (by rw [hop]; rfl) nofun
  · rw [andThen_hang, hinit]; exact .hang

/-- PANEL_INIT ends `OK` and initialises, or fails with `PeripheralError` or waits, and does not (R141, R145). -/
theorem panelInitBody_ends {cfg : Config} {u : PanelUnit} {r : Flow × PanelUnit} (h : panelInitBody cfg u = .ok r) {i : Instr}
    (hop : opcode i = .panelInit) : Ends i u.init r.1 r.2.init := by
  unfold panelInitBody at h
  split at h
  · cases h
  · rename_i hi
    cases h
    refine (claimBus_setUp cfg (latchPins u)).andThen_ends rfl hop fun hclaimed => ?_
    have hreset := congrArg ControlFlags.init (resetController_flags cfg (claimBus cfg (latchPins u)).2)
    exact (setupSequence_setUp cfg cfg.initSeq _).andThen_ends (hreset.trans hclaimed) hop fun _ =>
      .panelInitialized hop (eq_false_of_ne_true hi)

/-- The encoder is done with the train, or the peripheral keeps it waiting (R215, R217). -/
theorem encodeTrain_flow (cfg : Config) (left : Nat) (u : LedUnit) : (encodeTrain cfg left u).1 = .done ∨ (encodeTrain cfg left u).1 = .hang := by
  induction left generalizing u with
  | zero => exact .inr rfl
  | succ left ih =>
    unfold encodeTrain
    cases u.move with
    | stall => exact .inr rfl
    | proceed free =>
      simp only
      generalize encode1 (slotsOf cfg free) u.takeMove = r
      obtain ⟨report, v⟩ := r
      cases report with
      | done => exact .inl rfl
      | bufferFull => exact ih v

theorem transmit_flow (cfg : Config) (c : Rgb) (u : LedUnit) : (transmit cfg c u).1 = .done ∨ (transmit cfg c u).1 = .hang := by
  have htrain := encodeTrain_flow cfg maxInvocations { u.showUnknown with busy := true }
  unfold transmit
  generalize encodeTrain cfg maxInvocations { u.showUnknown with busy := true } = r at htrain ⊢
  obtain ⟨f, v⟩ := r
  obtain rfl | rfl := htrain
  · rw [andThen_done]
    cases v.move with
    | stall => exact .inr rfl
    | proceed free => exact .inl rfl
  · exact .inr rfl

/-- SEND is done, rejected or kept waiting, from any state of the encoder (R215). -/
theorem send_flow (cfg : Config) (c : Rgb) (u : LedUnit) :
    (send cfg c u).1 = .done ∨ (send cfg c u).1 = .fail .transmitError ∨ (send cfg c u).1 = .hang := by
  unfold send LedUnit.txReq
  cases LedUnit.answer { u with encBytes := wireBytes cfg.wireOrder c } with
  | ok => exact (transmit_flow cfg c _).imp_right .inr
  | fail => exact .inr (.inl rfl)
  | never => exact .inr (.inr rfl)

theorem colourBody_ends {cfg : Config} {c : Rgb} {u : LedUnit} {r : Flow × LedUnit} (h : colourBody cfg c u = .ok r) {i : Instr}
    (hn : needsInit i = true) (htransmit : statusAllowed (opcode i) .transmitError = true) : Ends i u.init r.1 r.2.init := by
  unfold colourBody whenLedReady at h
  split at h
  · rw [whenIdle_eq_ok h, show (send cfg c u).2.init = u.init from congrArg ControlFlags.init (send_flags cfg c u)]
    obtain hf | hf | hf := send_flow cfg c u <;> rw [hf]
    · exact .done
    · exact .failed htransmit nofun
    · exact .hang
  · cases h
    exact .notInitialized hn (eq_false_of_ne_true ‹_›)

/-- LED_DEINIT does nothing, or releases after the turn-off whatever its status, or waits with it (R230, R231). -/
theorem ledDeinitBody_ends {cfg : Config} {u : LedUnit} {r : Flow × LedUnit} (h : ledDeinitBody cfg u = .ok r) {i : Instr}
    (hop : opcode i = .ledDeinit) : Ends i u.init r.1 r.2.init := by
  unfold ledDeinitBody at h
  split at h
  · rename_i hi
    rw [whenIdle_eq_ok h]
    have hinit : (send cfg blackRgb u).2.init = u.init := congrArg ControlFlags.init (send_flags cfg blackRgb u)
    have hflow := send_flow cfg blackRgb u
    generalize send cfg blackRgb u = q at hinit hflow ⊢
    obtain ⟨f, v⟩ := q
    obtain rfl | rfl | rfl := hflow
    · exact .ledReleased hop hi (.inl rfl)
    · exact .ledReleased hop hi (.inr rfl)
    · rw [← hinit]; exact .hang
  · cases h
    exact .done

theorem startEngine_ends (cfg : Config) {u : LedUnit} (hi : u.init = false) {i : Instr} (hop : opcode i = .ledInit) :
    Ends i u.init (startEngine cfg u).1 (startEngine cfg u).2.init := by
  rw [startEngine_eq]
  split
  · exact .failed (by rw [hop]; rfl) nofun
  · exact .ledInitialized hop hi

/-- LED_INIT fails or waits with its allocation, or goes on to start the engine (R211, R213). -/
theorem ledInitBody_ends {cfg : Config} {u : LedUnit} {r : Flow × LedUnit} (h : ledInitBody cfg u = .ok r) {i : Instr}
    (hop : opcode i = .ledInit) : Ends i u.init r.1 r.2.init := by
  unfold ledInitBody at h
  split at h
  · cases h
  · rename_i hi
    simp only at h
    have hasked : (LedUnit.chanAlloc cfg (LedUnit.emit { u with pins := { pin := u.op.pin, chan := u.op.chan } }
      (.pinOutLow u.op.pin))).2.init = u.init := rfl
    generalize LedUnit.chanAlloc cfg _ = w at h hasked
    obtain ⟨a, w⟩ := w
    cases h
    rw [← hasked]
    cases a with
    | ok => exact startEngine_ends cfg (hasked.trans (eq_false_of_ne_true hi)) hop
    | fail => exact .failed (by rw [hop]; rfl) nofun
    | never => exact .hang

/-! ### Every operation, by its unit (R100) -/

/-- Once for every panel operation: it is its body, issued to the Panel Engine. -/
theorem exec_eq_panelOp {i : Instr} (hu : unitOf i = .panel) :
    ∃ body, IsBody PanelUnit.flags i body ∧ ∀ s, exec i s = s.panelOp (fun o => latchedBy o i) body := by
  cases i with
  | panelInit =>
    exact ⟨_, ⟨nofun, fun _ hb => (panelInitBody_keepsFlags hb).inFlight, fun _ hb => panelInitBody_ends hb rfl⟩, exec_panelInit _ _ _ _ _ _⟩
  | setWindow =>
    exact ⟨_, .of_drew rfl rfl (fun _ => rfl) (fun cfg _ => setWindowBody_notInit cfg) fun _ => setWindowBody_drew, exec_setWindow _ _ _ _⟩
  | fill => exact ⟨_, .of_drew rfl rfl (fun _ => rfl) (fun cfg _ => fillBody_notInit cfg) fun hv => fillBody_drew hv, exec_fill _ _ _ _ _⟩
  | drawPixel =>
    exact ⟨_, .of_drew rfl rfl (fun _ => rfl) (fun cfg _ => drawPixelBody_notInit cfg) fun _ => drawPixelBody_drew, exec_drawPixel _ _ _⟩
  | drawGlyph =>
    exact ⟨_, .of_drew rfl rfl (fun _ => rfl) (fun cfg _ => drawGlyphBody_notInit cfg) fun hv => drawGlyphBody_drew hv,
      exec_drawGlyph _ _ _ _ _ _⟩
  | drawString =>
    exact ⟨_, .of_drew (bounds := false) rfl rfl nofun (fun cfg _ => drawStringBody_notInit cfg) fun hv => drawStringBody_drew hv,
      exec_drawString _ _ _ _ _ _ _⟩
  | drawWrapped =>
    exact ⟨_, .of_drew rfl rfl (fun _ => rfl) (fun cfg _ => drawWrappedBody_notInit cfg) fun hv => drawWrappedBody_drew hv,
      exec_drawWrapped _ _ _ _ _ _ _⟩
  | drawFormatted =>
    exact ⟨_, .of_drew rfl rfl (fun _ => rfl) (fun cfg _ => drawFormattedBody_notInit cfg) fun hv => drawFormattedBody_drew hv,
      exec_drawFormatted _ _ _ _ _ _ _⟩
  | ledInit | setColor | setHsv | turnOff | ledDeinit | pack565 | hsv2rgb => cases hu

/-- A colour operation, whose colour comes from its latches. -/
theorem IsBody.of_colourBody {i : Instr} (c : LedUnit → Rgb) (hn : needsInit i = true)
    (htransmit : statusAllowed (opcode i) .transmitError = true) : IsBody LedUnit.flags i (fun cfg u => colourBody cfg (c u) u) where
  uninit _ cfg u := colourBody_notInit cfg (c u)
  inFlight _ hb := (colourBody_keepsFlags hb).inFlight
  ends _ hb := colourBody_ends hb hn htransmit

/-- Once for every LED operation. -/
theorem exec_eq_ledOp {i : Instr} (hu : unitOf i = .led) :
    ∃ body, IsBody LedUnit.flags i body ∧ ∀ s, exec i s = s.ledOp (fun o => latchedBy o i) body := by
  cases i with
  | ledInit =>
    exact ⟨_, ⟨nofun, fun _ hb => (ledInitBody_keepsFlags hb).inFlight, fun _ hb => ledInitBody_ends hb rfl⟩, exec_ledInit _ _⟩
  | setColor => exact ⟨_, .of_colourBody (fun u => { r := u.op.r, g := u.op.g, b := u.op.b }) rfl rfl, exec_setColor _ _ _⟩
  | setHsv => exact ⟨_, .of_colourBody (fun u => hsvToRgb u.op.hue u.op.sat u.op.val) rfl rfl, exec_setHsv _ _ _⟩
  | turnOff => exact ⟨_, .of_colourBody (fun _ => blackRgb) rfl rfl, exec_turnOff⟩
  | ledDeinit =>
    exact ⟨_, ⟨nofun, fun _ hb => (ledDeinitBody_keepsFlags hb).inFlight, fun _ hb => ledDeinitBody_ends hb rfl⟩, exec_ledDeinit⟩
  | panelInit | setWindow | fill | drawPixel | drawGlyph | drawString | drawWrapped | drawFormatted | pack565 | hsv2rgb => cases hu

/-- Once for every Colour Utility operation. -/
theorem exec_eq_utilityOp {i : Instr} (hu : unitOf i = .utility) :
    ∃ result, ∀ s, exec i s = s.utilityOp (fun o => latchedBy o i) result := by
  cases i with
  | pack565 => exact ⟨_, exec_pack565 _ _ _⟩
  | hsv2rgb => exact ⟨_, exec_hsv2rgb _ _ _⟩
  | panelInit | setWindow | fill | drawPixel | drawGlyph | drawString | drawWrapped | drawFormatted | ledInit | setColor | setHsv
  | turnOff | ledDeinit => cases hu

/-! ### The end of an operation, in the registers (R26, R282) -/

@[simp] theorem PanelUnit.finish_init (r : Flow × PanelUnit) : (PanelUnit.finish r).init = r.2.init := by
  obtain ⟨f, u⟩ := r; cases f <;> rfl
@[simp] theorem LedUnit.finish_init (r : Flow × LedUnit) : (LedUnit.finish r).init = r.2.init := by
  obtain ⟨f, u⟩ := r; cases f <;> rfl

/-- An operation of an idle engine has ended with a status exactly when the engine is idle again and the status register holds it. -/
theorem PanelUnit.ending_iff {r : Flow × PanelUnit} (hf : r.2.inFlight = false) (st : Status) :
    r.1.ending = some st ↔ (PanelUnit.finish r).inFlight = false ∧ (PanelUnit.finish r).status = st := by
  obtain ⟨f, u⟩ := r
  cases f with
  | done | fail => simpa [Flow.ending, PanelUnit.finish] using fun _ => hf
  | hang => simp [Flow.ending, PanelUnit.finish]

theorem LedUnit.ending_iff {r : Flow × LedUnit} (hf : r.2.inFlight = false) (st : Status) :
    r.1.ending = some st ↔ (LedUnit.finish r).inFlight = false ∧ (LedUnit.finish r).status = st := by
  obtain ⟨f, u⟩ := r
  cases f with
  | done | fail => simpa [Flow.ending, LedUnit.finish] using fun _ => hf
  | hang => simp [Flow.ending, LedUnit.finish]

/-- What an operation has come to, as the registers of its unit show it. -/
theorem exec_ends {i : Instr} {s t : State} (h : exec i s = .next t) :
    ∃ f, Ends i (s.initOf (unitOf i)) f (t.initOf (unitOf i)) ∧
      ∀ st, f.ending = some st ↔ t.inFlightOf (unitOf i) = false ∧ t.statusOf (unitOf i) = st := by
  cases hu : unitOf i with
  | panel =>
    obtain ⟨body, hbody, hexec⟩ := exec_eq_panelOp hu
    rw [hexec] at h
    obtain ⟨⟨hv, hf⟩, r, hr, rfl⟩ := State.panelOp_cases h
    refine ⟨r.1, ?_, PanelUnit.ending_iff ((hbody.inFlight hv hr).trans hf)⟩
    rw [State.initOf, State.initOf, PanelUnit.finish_init]
    exact (hbody.ends hv hr :)
  | led =>
    obtain ⟨body, hbody, hexec⟩ := exec_eq_ledOp hu
    rw [hexec] at h
    obtain ⟨⟨hv, hf⟩, r, hr, rfl⟩ := State.ledOp_cases h
    refine ⟨r.1, ?_, LedUnit.ending_iff ((hbody.inFlight hv hr).trans hf)⟩
    rw [State.initOf, State.initOf, LedUnit.finish_init]
    exact (hbody.ends hv hr :)
  | utility =>
    obtain ⟨result, hexec⟩ := exec_eq_utilityOp hu
    rw [hexec] at h
    obtain ⟨-, rfl⟩ := State.utilityOp_cases h
    exact ⟨.done, .done, fun st => by simp [Flow.ending, State.inFlightOf, State.statusOf]⟩

/-! ### Statuses (R270, R271, R278) -/

/-- Settles O16: `exec_ends` for the matrix; the codes and the host's reads are the definitions, an init flag's number by its value. -/
theorem statusMatrix : Obligations.StatusMatrix := by
  refine ⟨fun i s t h hf => ?matrix, rfl, fun s => ⟨⟨rfl, rfl, rfl⟩, ⟨rfl, rfl⟩, ⟨rfl, rfl, rfl, rfl, rfl, rfl⟩, ⟨rfl, rfl⟩, ⟨rfl, rfl, rfl⟩,
    Bool.cond_eq_ite s.pu.init 1 0, Bool.cond_eq_ite s.lu.init 1 0⟩⟩
  case matrix =>
    obtain ⟨f, hends, hstatus⟩ := exec_ends h
    exact hends.statusAllowed ((hstatus _).2 ⟨hf, rfl⟩)

/-- One of the ten operations of R271 on an uninitialised panel: it ends before any event. -/
theorem exec_panel_uninit {i : Instr} (hu : unitOf i = .panel) (hn : needsInit i = true) {s : State} (hs : s.PanelIdle) (hi : s.pu.init = false) :
    exec i s = .next { s with pu := s.pu.endedEarly (latchedBy s.pu.op i) .notInitialized } := by
  obtain ⟨body, hbody, hexec⟩ := exec_eq_panelOp hu
  rw [hexec]
  exact State.panelOp_endedEarly hs (hbody.uninit hn _ _ hi)

/-- One of them on an uninitialised LED Engine. -/
theorem exec_led_uninit {i : Instr} (hu : unitOf i = .led) (hn : needsInit i = true) {s : State} (hs : s.LedIdle) (hi : s.lu.init = false) :
    exec i s = .next { s with lu := { s.lu with op := latchedBy s.lu.op i, status := .notInitialized } } := by
  obtain ⟨body, hbody, hexec⟩ := exec_eq_ledOp hu
  rw [hexec]
  exact State.ledOp_next hs (hbody.uninit hn _ _ hi)

/-- Settles O17: the init test comes before any event; and of the ways to end only one has this status (`Ends.of_notInitialized`). -/
theorem notInitializedExactly : Obligations.NotInitializedExactly := by
  refine ⟨fun i s hn hv hf hi => ?uninitialised, fun i s t h hf hst => ?only⟩
  case uninitialised =>
    cases hu : unitOf i with
    | panel =>
      rw [hu] at hf hi
      exact ⟨_, exec_panel_uninit hu hn ⟨hv, hf⟩ hi, rfl, hf, rfl, rfl, rfl, rfl⟩
    | led =>
      rw [hu] at hf hi
      exact ⟨_, exec_led_uninit hu hn ⟨hv, hf⟩ hi, rfl, hf, rfl, rfl, rfl, rfl⟩
    | utility =>
      rw [hu] at hi
      cases hi
  case only =>
    obtain ⟨f, hends, hstatus⟩ := exec_ends h
    exact hends.of_notInitialized ((hstatus _).2 ⟨hf, hst⟩)

/-! ### The init flags (R290, R316) -/

/-- The unit that runs an operation is the one the high nibble of its opcode names (30_encoding.md R100, R110). -/
theorem unitOf_eq_unitOfDescriptor (i : Instr) : unitOf i = unitOfDescriptor [opcodeByte (opcode i)] := by
  cases i <;> simp [unitOf, opcode, unitOfDescriptor, opcodeByte]

/-- Settles O15: an init flag that has changed is that of the operation's unit, and `Ends.of_init_ne` names the operation. -/
theorem initFlagLifeCycle : Obligations.InitFlagLifeCycle := by
  intro i s t h
  obtain ⟨f, hends, hstatus⟩ := exec_ends h
  obtain ⟨-, -, hpanel, hled, -⟩ := operationsKeepOtherUnits i s t h
  refine ⟨fun hne => ?panel, fun hne => ?led⟩
  case panel =>
    have hu : unitOf i = .panel := by_contra fun hu => hne (by rw [hpanel hu])
    rw [hu] at hends hstatus
    rw [unitOf_eq_unitOfDescriptor] at hu
    obtain ⟨hop | hop, hbefore, hafter, rfl⟩ | ⟨hop, -⟩ := hends.of_init_ne hne
    · obtain ⟨hf, hst⟩ := (hstatus .ok).1 rfl
      exact ⟨hbefore, hafter, hop, hst, hf⟩
    · rw [hop] at hu; cases hu
    · rw [hop] at hu; cases hu
  case led =>
    have hu : unitOf i = .led := by_contra fun hu => hne (by rw [hled hu])
    rw [hu] at hends hstatus
    rw [unitOf_eq_unitOfDescriptor] at hu
    obtain ⟨hop | hop, hbefore, hafter, rfl⟩ | ⟨hop, hbefore, hafter, st, hending⟩ := hends.of_init_ne hne
    · rw [hop] at hu; cases hu
    · obtain ⟨hf, hst⟩ := (hstatus .ok).1 rfl
      exact .inl ⟨hbefore, hafter, hop, hst, hf⟩
    · obtain ⟨hf, -⟩ := (hstatus st).1 hending
      exact .inr ⟨hbefore, hafter, hop, hf⟩

/-! ### Operations of different units (R92, R293) -/

/-- `r` has the parameters of `s`, and its unit `b`. -/
def State.SameUnit (s : State) (b : BlockUnit) (r : State) : Prop :=
  r.cfg = s.cfg ∧
  match b with
  | .panel => r.pu = s.pu
  | .led => r.lu = s.lu
  | .utility => r.cu = s.cu

/-- `s` with the unit `b` of `t`. -/
def State.withUnit (s : State) (b : BlockUnit) (t : State) : State :=
  match b with
  | .panel => { s with pu := t.pu }
  | .led => { s with lu := t.lu }
  | .utility => { s with cu := t.cu }

theorem State.SameUnit.refl (s : State) (b : BlockUnit) : s.SameUnit b s := by
  cases b with
  | panel | led | utility => exact ⟨rfl, rfl⟩

theorem State.SameUnit.symm {b : BlockUnit} {s r : State} (h : s.SameUnit b r) : r.SameUnit b s := by
  obtain ⟨hcfg, hunit⟩ := h
  cases b with
  | panel | led | utility => exact ⟨hcfg.symm, hunit.symm⟩

theorem State.sameUnit_withUnit {b c : BlockUnit} (h : b ≠ c) (s t : State) : s.SameUnit b (s.withUnit c t) := by
  cases c with
  | panel => cases b with | panel => exact absurd rfl h | led | utility => exact ⟨rfl, rfl⟩
  | led => cases b with | led => exact absurd rfl h | panel | utility => exact ⟨rfl, rfl⟩
  | utility => cases b with | utility => exact absurd rfl h | panel | led => exact ⟨rfl, rfl⟩

theorem State.withUnit_comm {b c : BlockUnit} (h : b ≠ c) (s t u : State) : (s.withUnit c u).withUnit b t = (s.withUnit b t).withUnit c u := by
  cases c with
  | panel => cases b with | panel => exact absurd rfl h | led | utility => rfl
  | led => cases b with | led => exact absurd rfl h | panel | utility => rfl
  | utility => cases b with | utility => exact absurd rfl h | panel | led => rfl

/-- An operation reads the parameters and its own unit only: where these are the same, it writes the same to its unit. -/
theorem exec_of_sameUnit {i : Instr} {s t r : State} (h : exec i s = .next t) (hr : s.SameUnit (unitOf i) r) :
    exec i r = .next (r.withUnit (unitOf i) t) := by
  cases hu : unitOf i with
  | panel =>
    obtain ⟨body, -, hexec⟩ := exec_eq_panelOp hu
    rw [hu] at hr
    obtain ⟨hcfg, hunit⟩ : r.cfg = s.cfg ∧ r.pu = s.pu := hr
    rw [hexec] at h ⊢
    obtain ⟨hidle, q, hq, rfl⟩ := State.panelOp_cases h
    exact State.panelOp_next (by rwa [State.PanelIdle, hcfg, hunit]) (by rwa [hcfg, hunit])
  | led =>
    obtain ⟨body, -, hexec⟩ := exec_eq_ledOp hu
    rw [hu] at hr
    obtain ⟨hcfg, hunit⟩ : r.cfg = s.cfg ∧ r.lu = s.lu := hr
    rw [hexec] at h ⊢
    obtain ⟨hidle, q, hq, rfl⟩ := State.ledOp_cases h
    exact State.ledOp_next (by rwa [State.LedIdle, hcfg, hunit]) (by rwa [hcfg, hunit])
  | utility =>
    obtain ⟨result, hexec⟩ := exec_eq_utilityOp hu
    rw [hu] at hr
    obtain ⟨hcfg, hunit⟩ : r.cfg = s.cfg ∧ r.cu = s.cu := hr
    rw [hexec] at h ⊢
    obtain ⟨hv, rfl⟩ := State.utilityOp_cases h
    rw [State.utilityOp, if_pos (hcfg ▸ hv), hunit]
    rfl

/-- An operation writes its own unit only. -/
theorem withUnit_of_exec {i : Instr} {s t : State} (h : exec i s = .next t) : s.withUnit (unitOf i) t = t :=
  Host.Outcome.next.inj ((exec_of_sameUnit h (.refl s _)).symm.trans h)

/-- Settles O14: the second operation finds its unit in `s` as in `a` (`exec_of_sameUnit`), and so does the first one after it. -/
theorem unitsCommute : Obligations.UnitsCommute := by
  intro i j s a b hne hi hj
  have hsa : a.SameUnit (unitOf j) s := by
    rw [← withUnit_of_exec hi]
    exact (State.sameUnit_withUnit hne.symm s a).symm
  refine ⟨s.withUnit (unitOf j) b, exec_of_sameUnit hj hsa, ?_⟩
  rw [exec_of_sameUnit hi (State.sameUnit_withUnit hne s b)]
  congr 1
  calc (s.withUnit (unitOf j) b).withUnit (unitOf i) a
      = (s.withUnit (unitOf i) a).withUnit (unitOf j) b := State.withUnit_comm hne s a b
    _ = a.withUnit (unitOf j) b := by rw [withUnit_of_exec hi]
    _ = b := withUnit_of_exec hj

end Sys2Proof.Machine

/-! What reset leaves, and what PANEL_INIT leaves of the panel (70_reset_and_hazards.md R311, R312, R314; 20_memory.md R80): the panel's
memory and window are unknown after both. And the hazard of an engine that has not finished (R320; 93_implementation_defined.md U5). -/

namespace Sys2Proof.Machine

/-! ### An engine in flight -/

/-- Settles O19: the in-flight test is made at the entry that all operations of a unit share. -/
theorem busyEngineRefused : Obligations.BusyEngineRefused := by
  intro i s hv
  refine ⟨fun hu hf => ?panel, fun hu hf => ?led⟩
  case panel =>
    obtain ⟨body, -, hexec⟩ := exec_eq_panelOp hu
    rw [hexec]
    exact State.panelOp_eq_refused_iff.2 (.inr (.inl ⟨rfl, hv, hf⟩))
  case led =>
    obtain ⟨body, -, hexec⟩ := exec_eq_ledOp hu
    rw [hexec]
    exact State.ledOp_eq_refused_iff.2 (.inr (.inl ⟨rfl, hv, hf⟩))

/-! ### A panel of which nothing is known -/

/-- The panel has no window and no known pixel, and takes no pixels until a command opens a window (20_memory.md R80). -/
structure PanelSink.Unwritten (p : PanelSink) : Prop where
  mem : p.mem = []
  sync : p.sync = false
  mode : p.mode = .idle

theorem PanelSink.unknown_unwritten : PanelSink.unknown.Unwritten := ⟨rfl, rfl, rfl⟩

theorem PanelSink.die_unwritten (p : PanelSink) : p.die.Unwritten := ⟨rfl, rfl, rfl⟩

theorem State.pixelAt_of_unwritten {s : State} (h : s.pu.env.sink.Unwritten) (x y : Nat) : s.pixelAt x y = none := by
  rw [State.pixelAt, h.mem]
  rfl

/-- Settles O7: the reset state is written out by its definition, and the panel it starts with is unwritten. -/
theorem resetLeaves : Obligations.ResetLeaves := by
  intro c s
  have hpanel : s.pu.env.sink.Unwritten := PanelSink.unknown_unwritten
  exact ⟨rfl, rfl, rfl, rfl, rfl, rfl, rfl, rfl, rfl, rfl, rfl, rfl, rfl, hpanel.sync, rfl, rfl, hpanel.mode, State.pixelAt_of_unwritten hpanel,
    rfl, rfl, rfl, rfl⟩

/-! ### The set-up sequence on an unwritten panel (R80, R81, R141) -/

/-- `cmd` is none of the commands that open a window. The entries of `INIT_SEQ` have only such commands (00_scope.md R6). -/
def SparesWindow (cfg : Config) (cmd : Byte) : Prop := cmd ≠ cfg.cmdCaset ∧ cmd ≠ cfg.cmdRaset ∧ cmd ≠ cfg.cmdRamwr

theorem Config.valid_sparesWindow {cfg : Config} (h : cfg.valid = true) : ∀ e ∈ cfg.initSeq, SparesWindow cfg e.cmd := by
  obtain ⟨hvalid, -, -⟩ := invalidConfigurationRefused
  obtain ⟨-, -, -, -, -, hcmds, -⟩ := (hvalid cfg).1 h
  exact hcmds

theorem PanelSink.command_of_sparesWindow {cfg : Config} {cmd : Byte} (h : SparesWindow cfg cmd) (p : PanelSink) :
    p.command cfg cmd = { p with mode := .idle } := by
  obtain ⟨hcaset, hraset, hramwr⟩ := h
  rw [PanelSink.command, if_neg hcaset, if_neg hraset, if_neg hramwr]

theorem PanelSink.dataBytes_of_idle {p : PanelSink} (h : p.mode = .idle) (bytes : List Byte) : p.dataBytes bytes = p := by
  simp only [PanelSink.dataBytes, h]

/-- A transaction that is never answered kills the panel, like one that fails (log 15). -/
theorem PanelSink.observe_tx_never (cfg : Config) {p : PanelSink} (h : p.dead = false) (dc : DcLine) (bytes : List Byte) :
    p.observe cfg (.tx dc bytes .never) = p.die := by
  cases dc with
  | command | data => simp only [PanelSink.observe, h, Bool.false_eq_true, if_false]

/-- What a transaction of the set-up sequence does to an unwritten panel: its command opens no window, its data has nowhere to go, and
its failure leaves nothing known. -/
theorem PanelSink.Unwritten.observe_tx {cfg : Config} {p : PanelSink} (h : p.Unwritten) {cmd : Byte} (hcmd : SparesWindow cfg cmd)
    {dc : DcLine} {bytes : List Byte} (hbytes : dc = .command → bytes = [cmd]) (a : Answer) : (p.observe cfg (.tx dc bytes a)).Unwritten := by
  cases hdead : p.dead with
  | true => rwa [PanelSink.observe_of_dead cfg hdead]
  | false =>
    cases a with
    | fail => rw [PanelSink.observe_tx_fail cfg hdead]; exact p.die_unwritten
    | never => rw [PanelSink.observe_tx_never cfg hdead]; exact p.die_unwritten
    | ok =>
      simp only [PanelSink.observe, hdead, Bool.false_eq_true, if_false]
      cases dc with
      | command =>
        obtain rfl := hbytes rfl
        simp only [PanelSink.command_of_sparesWindow hcmd]
        exact ⟨h.mem, h.sync, rfl⟩
      | data => simpa only [PanelSink.dataBytes_of_idle h.mode] using h

/-- An event that is no transaction and does not drive the reset line is nothing to the panel. -/
theorem PanelSink.observe_of_txOf_none (cfg : Config) (p : PanelSink) {e : PanelEvent} (hset : isSetup e) (htx : txOf e = none) :
    p.observe cfg e = p := by
  cases e with
  | tx => cases htx
  | rst => exact hset.elim
  | claim | pinOutDc | delay | log => exact ite_self p

/-- What the first part of a sequence brings about and the second part keeps. -/
theorem andThen_keeps {α : Type} {P : α → Prop} {r : Flow × α} {k : α → Flow × α} (h : P r.2) (hk : ∀ v, P v → P (k v).2) :
    P (andThen r k).2 := by
  obtain ⟨-, e⟩ | ⟨-, e⟩ := andThen_cases r k
  · rw [e]; exact hk r.2 h
  · rw [e]; exact h

/-- The panel on this engine's side is unwritten. -/
def PanelUnit.Unwritten (u : PanelUnit) : Prop := u.env.sink.Unwritten

section
variable {cfg : Config} {u : PanelUnit}

theorem PanelUnit.Unwritten.emit (h : u.Unwritten) {e : PanelEvent} (hset : isSetup e) (htx : txOf e = none) : (u.emit cfg e).Unwritten := by
  rw [PanelUnit.Unwritten, PanelUnit.emit_env, PanelSide.observe_sink, PanelSink.observe_of_txOf_none cfg _ hset htx]
  exact h

theorem setupFail_unwritten (h : u.Unwritten) (cmd : Byte) : (setupFail cfg cmd u).2.Unwritten := by
  unfold setupFail
  cases cfg.initErrPolicy with
  | ignore => exact (h.emit (e := .log cmd) trivial rfl :)
  | propagate => exact h

theorem setupTx_unwritten (h : u.Unwritten) {cmd : Byte} (hcmd : SparesWindow cfg cmd) {dc : DcLine} {bytes : List Byte}
    (hbytes : dc = .command → bytes = [cmd]) : (setupTx cfg cmd dc bytes u).2.Unwritten := by
  have hsent : (u.tx cfg dc bytes).2.Unwritten := PanelSink.Unwritten.observe_tx h hcmd hbytes u.answer
  unfold setupTx
  generalize u.tx cfg dc bytes = q at hsent ⊢
  obtain ⟨a, v⟩ := q
  cases a with
  | ok | never => exact hsent
  | fail => exact setupFail_unwritten hsent cmd

theorem settle_unwritten (h : u.Unwritten) (delay : Nat) : (settle cfg delay u).Unwritten := by
  unfold settle
  split
  · exact h.emit trivial rfl
  · exact h

theorem setupEntry_unwritten (h : u.Unwritten) {e : InitEntry} (hcmd : SparesWindow cfg e.cmd) : (setupEntry cfg e u).2.Unwritten := by
  refine andThen_keeps (setupTx_unwritten h hcmd fun _ => rfl) fun v hv => andThen_keeps ?data fun w hw => settle_unwritten hw e.delay
  split
  · exact hv
  · exact setupTx_unwritten hv hcmd nofun

theorem setupSequence_unwritten (h : u.Unwritten) {es : List InitEntry} (hcmds : ∀ e ∈ es, SparesWindow cfg e.cmd) :
    (setupSequence cfg es u).2.Unwritten := by
  induction es generalizing u with
  | nil => exact h
  | cons e es ih =>
    obtain ⟨hcmd, hcmds⟩ := List.forall_mem_cons.1 hcmds
    exact andThen_keeps (setupEntry_unwritten h hcmd) fun v hv => ih hv hcmds

/-! ### The whole of PANEL_INIT -/

/-- The claim is no event of the panel's. -/
theorem claimBus_sink (cfg : Config) (u : PanelUnit) : (claimBus cfg u).2.env.sink = u.env.sink := by
  have hclaimed : (u.claim cfg).2.env.sink = u.env.sink := PanelSink.observe_of_txOf_none cfg u.env.sink (e := .claim u.answer) trivial rfl
  unfold claimBus
  generalize u.claim cfg = q at hclaimed ⊢
  obtain ⟨a, v⟩ := q
  cases a with
  | ok | fail | never => exact hclaimed

/-- The controller's reset makes a living panel forget its window and its pixels (R80). -/
theorem resetController_sink (h : u.env.sink.dead = false) :
    (resetController cfg u).env.sink = { u.env.sink.forget with mode := .idle } := by
  simp [resetController, PanelSink.observe, PanelSink.forget, h]

theorem resetController_unwritten (h : u.env.sink.dead = false) : (resetController cfg u).Unwritten := by
  rw [PanelUnit.Unwritten, resetController_sink h]
  exact ⟨rfl, rfl, rfl⟩

/-- A part of PANEL_INIT fails with no status but `PeripheralError`: a PANEL_INIT that ends `OK` has gone on after it. -/
theorem SetUp.andThen_eq_of_ok {r : Flow × PanelUnit} {k : PanelUnit → Flow × PanelUnit} (h : SetUp cfg u r)
    (hok : (Machine.andThen r k).1.ending = some .ok) : Machine.andThen r k = k r.2 := by
  obtain ⟨-, hflow⟩ := h
  obtain ⟨f, v⟩ := r
  obtain rfl | rfl | rfl := hflow
  · rfl
  · cases hok
  · cases hok

/-- A PANEL_INIT that ends `OK` has claimed the bus, reset the controller and run the whole set-up sequence (R141). -/
theorem panelInitBody_of_ok {r : Flow × PanelUnit} (h : panelInitBody cfg u = .ok r) (hok : r.1.ending = some .ok) :
    r.2 = { (setupSequence cfg cfg.initSeq (resetController cfg (claimBus cfg (latchPins u)).2)).2 with init := true } := by
  unfold panelInitBody at h
  split at h
  · cases h
  · cases h
    have hclaimed := (claimBus_setUp cfg (latchPins u)).andThen_eq_of_ok hok
    rw [hclaimed] at hok ⊢
    rw [(setupSequence_setUp cfg cfg.initSeq _).andThen_eq_of_ok hok]

/-- PANEL_INIT with a panel alive before it, when it ends `OK`: the reset has made the panel unwritten and a valid configuration's set-up
sequence opens no window. -/
theorem panelInitBody_unwritten (hv : cfg.valid = true) {r : Flow × PanelUnit} (h : panelInitBody cfg u = .ok r)
    (halive : u.env.sink.dead = false) (hok : r.1.ending = some .ok) : r.2.init = true ∧ r.2.Unwritten := by
  have hclaimed : (claimBus cfg (latchPins u)).2.env.sink.dead = false := by rwa [claimBus_sink]
  have hset := setupSequence_unwritten (resetController_unwritten (cfg := cfg) hclaimed) (Config.valid_sparesWindow hv)
  rw [panelInitBody_of_ok h hok]
  exact ⟨rfl, hset⟩

end

/-- Settles O25: `panelInitBody_unwritten` for the panel, and the line is high on an initialised engine (`panelInitBody_went`). -/
theorem panelUnknownAfterInit : Obligations.PanelUnknownAfterInit := by
  intro dc rst cs sclk mosi hz s t halive hexec hok hf
  rw [exec_panelInit] at hexec
  obtain ⟨⟨hv, hidle⟩, r, hbody, rfl⟩ := State.panelOp_cases hexec
  have hstill : r.2.inFlight = false := (panelInitBody_keepsFlags hbody).inFlight.trans hidle
  have hending : r.1.ending = some .ok := (PanelUnit.ending_iff hstill .ok).2 ⟨hf, hok⟩
  obtain ⟨hinit, hpanel⟩ := panelInitBody_unwritten hv hbody halive hending
  obtain ⟨-, -, hline⟩ := panelInitBody_went hbody
  rw [PanelUnit.finish_env]
  exact ⟨hpanel.mem, hpanel.sync, hline hinit⟩

end Sys2Proof.Machine
